-- ==== Sys2Proof/Word.lean ====
section
/-!
DEFINITION. The word types of the Pywald (Floset 3) and their plainest arithmetic (00_scope R5: bit 0 is the
least significant bit; memory is little-endian).
-/

namespace Sys2Proof

/-- A byte of memory. -/
abbrev Byte := BitVec 8

/-- A scalar register, a program counter, a control register. -/
abbrev Word := BitVec 64

/-- A vector register v0 to v31 (R151): 1,024 bits. -/
abbrev VReg := BitVec 1024

/-- A mask register w0 to w7 (R153): 128 bits. -/
abbrev Mask := BitVec 128

end Sys2Proof
end

