-- ==== Sys2Proof/Syntax.lean ====
section
/-!
DEFINITION. The syntax of the Pywald: the guard and the tail fields of an instruction (05_fetching R102, R110 to
R116) and `Instr`, one constructor for each row of spec/opcode_table.json: the 160 instructions of the opcode map
(R117), each with its guard and its tail, and the 100 steps of the device's other agents.
-/

namespace Sys2Proof

/-- A guard (R102, R108): true when q[q] XOR sense = 1. -/
structure Guard where
  sense : Bool
  q : BitVec 3
  deriving DecidableEq, Repr, Inhabited

/-- The tail of format H (R110). -/
structure TailH where
  d : BitVec 6
  a : BitVec 6
  e : BitVec 4
  deriving DecidableEq, Repr, Inhabited

/-- The tail of format A (R111). -/
structure TailA where
  d : BitVec 6
  a : BitVec 6
  b : BitVec 6
  c : BitVec 6
  e : BitVec 8
  deriving DecidableEq, Repr, Inhabited

/-- The tail of format V (R112). -/
structure TailV where
  d : BitVec 6
  a : BitVec 6
  b : BitVec 6
  c : BitVec 6
  ty : BitVec 5
  rd : BitVec 2
  st : BitVec 1
  wm : BitVec 3
  ty2 : BitVec 5
  e : BitVec 8
  deriving DecidableEq, Repr, Inhabited

/-- The tail of format I (R113); `z` is the field named zero. -/
structure TailI where
  d : BitVec 6
  a : BitVec 6
  z : BitVec 20
  imm : BitVec 32
  deriving DecidableEq, Repr, Inhabited

/-- The tail of format M (R113), a memory access. -/
structure TailM where
  d : BitVec 6
  a : BitVec 6
  b : BitVec 6
  sz : BitVec 3
  sc : BitVec 3
  ord : BitVec 2
  scp : BitVec 3
  tk : BitVec 5
  wm : BitVec 3
  z : BitVec 3
  off : BitVec 24
  deriving DecidableEq, Repr, Inhabited

/-- The tail of format J (R113), a transfer. -/
structure TailJ where
  d : BitVec 6
  a : BitVec 6
  b : BitVec 6
  slot : BitVec 5
  z : BitVec 9
  disp : BitVec 32
  deriving DecidableEq, Repr, Inhabited

/-- The tail of format L (R114). -/
structure TailL where
  d : BitVec 6
  z : BitVec 26
  imm : BitVec 64
  deriving DecidableEq, Repr, Inhabited

/-- The tail of format W (R114). -/
structure TailW where
  d : BitVec 6
  a : BitVec 6
  b : BitVec 6
  c : BitVec 6
  op : BitVec 4
  sz : BitVec 3
  ord : BitVec 2
  scp : BitVec 3
  tk : BitVec 5
  e : BitVec 23
  off : BitVec 32
  ext : BitVec 32
  deriving DecidableEq, Repr, Inhabited

/-- The tail of format P (R114), the inline parameter block. -/
structure TailP where
  s0 : BitVec 6
  s1 : BitVec 6
  s2 : BitVec 6
  s3 : BitVec 6
  sm : BitVec 4
  tk : BitVec 5
  e : BitVec 31
  par0 : BitVec 32
  par1 : BitVec 32
  par2 : BitVec 32
  par3 : BitVec 32
  deriving DecidableEq, Repr, Inhabited

/-- One copy of the firmware image and the configuration record in serial flash, as the security block and the ROM find it
(R387, R388): whether all signatures verify, the firmware's version and security version, the record's minimum, whether
its key digest matches the derived keys, its bytes, and its state for each of the 64 x 18 sites (0 enabled, 1 spare,
2 defective). -/
structure BootCopy where
  signed : Bool
  firmware : Nat
  security : Nat
  minimum : Nat
  keysMatch : Bool
  record : List Byte
  harvest : List Nat
  deriving DecidableEq, Repr, Inhabited

/-- What start-up meets (R387): both flash copies, the sites that fail self-test, the retired sites whose flash entries do
not verify, the ports that fail to train (0 to 5 Clagon, 6 to 9 CXL), the capacity of the device on each CXL port that has
one, and the routing table (R382). -/
structure BootInput where
  a : BootCopy
  b : BootCopy
  bistFail : List Nat
  spoiled : List Nat
  failed : List Nat
  cxl : List (Nat × Nat)
  routes : List Nat
  deriving DecidableEq, Repr, Inhabited

/-- An operation of another package on a line homed here (R303, R386): its address, and what it does. -/
inductive RemoteOp where
  | store (addr : Nat) (data : List Byte)
  | amo (addr size op ty rd : Nat) (st : Bool) (b c : Nat)
  | spawn (addr : Nat) (child : BitVec 64)
  | join (addr : Nat)
  /-- An addition of `sca.add`, or an update of `chs` (`isFma`), which returns nothing (R211). -/
  | red (addr size ty rd : Nat) (st isFma : Bool) (a b : Nat)
  deriving DecidableEq, Repr, Inhabited

/-- What packages of a gang tell one another of a launch's barriers and abort line (R316, R386, R149): an arrival of a KIND
at the gang's object, a package's first member or last, whether that one had arrived; from package 0 the flip of a KIND,
and that no member is left; the abort line; and that a package has rejected the launch's record for its digest (R385). -/
inductive GangMsg where
  | arrive (kind : Nat)
  | joins
  | leaves (came : Bool)
  | flip (kind : Nat)
  | last
  | abort
  | mismatch
  deriving DecidableEq, Repr, Inhabited

/-- A message of another package, `src`: a read or an operation through this package's remote window, with the type of the
issuing package's leaf (R377) and the launch of an arming group, or a logged operation of a gang fret with its key (R386). -/
inductive RemoteReq where
  | load (src addr count : Nat) (sync : Bool)
  | perform (src launch : Nat) (op : RemoteOp) (sync : Bool)
  | log (src launch dom : Nat) (ticket : BitVec 64) (seq sub : Nat) (op : RemoteOp) (sync : Bool)
  | gang (launch : Nat) (msg : GangMsg)
  deriving DecidableEq, Repr, Inhabited

/-- The stored unit that a soft error upsets (R362): an HBM sector, a sector or the tag of an L2 line, a granule of the
sync SRAM, a word of a group's local store, accumulators, window, register (FILE and REG of R133) or capo. -/
inductive UpsetUnit where
  /-- A 32-byte sector behind the caches, by its number. -/
  | mem (sector : Nat)
  | l2 (core line sector : Nat)
  | l2Tag (core line : Nat)
  | sram (die granule : Nat)
  | ls (gid word : Nat)
  | acc (gid word : Nat)
  | win (gid word : Nat)
  /-- A register: `num` % 256 is its number in the file, `num` / 256 its 32-bit word. -/
  | reg (gid file num : Nat)
  /-- A 64-bit word of the capo: 32 for each block, those of the image first. -/
  | capo (gid word : Nat)
  deriving DecidableEq, Repr, Inhabited

/-- A soft error: the unit, and whether its data stays correctable. -/
structure UpsetTarget where
  unit : UpsetUnit
  correctable : Bool
  deriving DecidableEq, Repr, Inhabited

/-- The instructions of the opcode map (R117) and the steps of the device's other agents. -/
inductive Instr where
  /-- `add` (opcode 0x000, format A, R137): Sets xD to xA plus xB, wrapped to 64 bits. -/
  | add (g : Guard) (t : TailA)
  /-- `sub` (opcode 0x001, format A, R137): Sets xD to xA minus xB, wrapped to 64 bits. -/
  | sub (g : Guard) (t : TailA)
  /-- `addi` (opcode 0x002, format I, R139): Adds a sign-extended 32-bit immediate to xA, wrapped to 64 bits. -/
  | addi (g : Guard) (t : TailI)
  /-- `mul` (opcode 0x003, format A, R137): Sets xD to the low 64 bits of the product of xA and xB. -/
  | mul (g : Guard) (t : TailA)
  /-- `mulh` (opcode 0x004, format A, R137): Sets xD to the high 64 bits of the signed 128-bit product. -/
  | mulh (g : Guard) (t : TailA)
  /-- `mulhn` (opcode 0x005, format A, R137): Sets xD to the high 64 bits of the unsigned 128-bit product. -/
  | mulhn (g : Guard) (t : TailA)
  /-- `div` (opcode 0x006, format A, R138): Signed divide on a token; the entry completes 40 aclk after issue. -/
  | div (g : Guard) (t : TailA)
  /-- `divn` (opcode 0x007, format A, R138): Unsigned divide on a token; the entry completes 40 aclk after issue. -/
  | divn (g : Guard) (t : TailA)
  /-- `rem` (opcode 0x008, format A, R138): Signed remainder on a token. -/
  | rem (g : Guard) (t : TailA)
  /-- `remn` (opcode 0x009, format A, R138): Unsigned remainder on a token. -/
  | remn (g : Guard) (t : TailA)
  /-- `and` (opcode 0x00A, format A, R137): Bitwise AND of two scalar registers. -/
  | and (g : Guard) (t : TailA)
  /-- `or` (opcode 0x00B, format A, R137): Bitwise OR of two scalar registers. -/
  | or (g : Guard) (t : TailA)
  /-- `xor` (opcode 0x00C, format A, R137): Bitwise XOR of two scalar registers. -/
  | xor (g : Guard) (t : TailA)
  /-- `andn` (opcode 0x00D, format A, R137): Sets xD to xA AND NOT xB. -/
  | andn (g : Guard) (t : TailA)
  /-- `orn` (opcode 0x00E, format A, R137): Sets xD to xA OR NOT xB. -/
  | orn (g : Guard) (t : TailA)
  /-- `shl` (opcode 0x00F, format A, R137): Shifts xA left by xB[5:0]. -/
  | shl (g : Guard) (t : TailA)
  /-- `shr` (opcode 0x010, format A, R137): Shifts xA right logically by xB[5:0]. -/
  | shr (g : Guard) (t : TailA)
  /-- `sha` (opcode 0x011, format A, R137): Shifts xA right arithmetically by xB[5:0]. -/
  | sha (g : Guard) (t : TailA)
  /-- `rol` (opcode 0x012, format A, R137): Rotates xA left by xB[5:0]. -/
  | rol (g : Guard) (t : TailA)
  /-- `shli` (opcode 0x013, format I, R139): Shifts xA left by an immediate count. -/
  | shli (g : Guard) (t : TailI)
  /-- `shri` (opcode 0x014, format I, R139): Shifts xA right logically by an immediate count. -/
  | shri (g : Guard) (t : TailI)
  /-- `shai` (opcode 0x015, format I, R139): Shifts xA right arithmetically by an immediate count. -/
  | shai (g : Guard) (t : TailI)
  /-- `roli` (opcode 0x016, format I, R139): Rotates xA left by an immediate count. -/
  | roli (g : Guard) (t : TailI)
  /-- `clz` (opcode 0x017, format H, R140): Counts the leading zeros of xA. -/
  | clz (g : Guard) (t : TailH)
  /-- `ctz` (opcode 0x018, format H, R140): Counts the trailing zeros of xA. -/
  | ctz (g : Guard) (t : TailH)
  /-- `popc` (opcode 0x019, format H, R140): Counts the one bits of xA. -/
  | popc (g : Guard) (t : TailH)
  /-- `bfx` (opcode 0x01A, format I, R139): Extracts a zero-extended bit field of xA. -/
  | bfx (g : Guard) (t : TailI)
  /-- `bfi` (opcode 0x01B, format I, R139): Inserts the low bits of xA into a field of xD. -/
  | bfi (g : Guard) (t : TailI)
  /-- `fsh` (opcode 0x01C, format A, R137): Funnel-shifts the concatenation of xA and xB right by xC[5:0]. -/
  | fsh (g : Guard) (t : TailA)
  /-- `min` (opcode 0x01D, format A, R137): Signed minimum of two scalar registers. -/
  | min (g : Guard) (t : TailA)
  /-- `max` (opcode 0x01E, format A, R137): Signed maximum of two scalar registers. -/
  | max (g : Guard) (t : TailA)
  /-- `minn` (opcode 0x01F, format A, R137): Unsigned minimum of two scalar registers. -/
  | minn (g : Guard) (t : TailA)
  /-- `maxn` (opcode 0x020, format A, R137): Unsigned maximum of two scalar registers. -/
  | maxn (g : Guard) (t : TailA)
  /-- `sext` (opcode 0x021, format H, R140): Sign-extends a byte, half or word of xA. -/
  | sext (g : Guard) (t : TailH)
  /-- `slt` (opcode 0x022, format A, R137): Sets xD to 1 when xA is below xB, signed. -/
  | slt (g : Guard) (t : TailA)
  /-- `sltn` (opcode 0x023, format A, R137): Sets xD to 1 when xA is below xB, unsigned. -/
  | sltn (g : Guard) (t : TailA)
  /-- `seq` (opcode 0x024, format A, R137): Sets xD to 1 when xA equals xB. -/
  | seq (g : Guard) (t : TailA)
  /-- `sne` (opcode 0x025, format A, R137): Sets xD to 1 when xA differs from xB. -/
  | sne (g : Guard) (t : TailA)
  /-- `csel` (opcode 0x026, format A, R137): Selects xA or xB by whether xC is nonzero. -/
  | csel (g : Guard) (t : TailA)
  /-- `li` (opcode 0x027, format L, R141): Loads a 64-bit immediate into xD. -/
  | li (g : Guard) (t : TailL)
  /-- `lea` (opcode 0x028, format M, R141): Forms a memory-operand address into xD, without accessing memory. -/
  | lea (g : Guard) (t : TailM)
  /-- `mov` (opcode 0x029, format H, R140): Moves between x registers and loop counts. -/
  | mov (g : Guard) (t : TailH)
  /-- `beq` (opcode 0x040, format J, R142): Branches when xA equals xB. -/
  | beq (g : Guard) (t : TailJ)
  /-- `bne` (opcode 0x041, format J, R142): Branches when xA differs from xB. -/
  | bne (g : Guard) (t : TailJ)
  /-- `blt` (opcode 0x042, format J, R142): Branches when xA is below xB, signed. -/
  | blt (g : Guard) (t : TailJ)
  /-- `bge` (opcode 0x043, format J, R142): Branches when xA is at least xB, signed. -/
  | bge (g : Guard) (t : TailJ)
  /-- `bltn` (opcode 0x044, format J, R142): Branches when xA is below xB, unsigned. -/
  | bltn (g : Guard) (t : TailJ)
  /-- `bgen` (opcode 0x045, format J, R142): Branches when xA is at least xB, unsigned. -/
  | bgen (g : Guard) (t : TailJ)
  /-- `bz` (opcode 0x046, format J, R142): Branches when xA is zero. -/
  | bz (g : Guard) (t : TailJ)
  /-- `bnz` (opcode 0x047, format J, R142): Branches when xA is nonzero. -/
  | bnz (g : Guard) (t : TailJ)
  /-- `j` (opcode 0x048, format J, R142): Jumps unconditionally to a J-format target. -/
  | j (g : Guard) (t : TailJ)
  /-- `jl` (opcode 0x049, format J, R142): Jumps and writes the link to xD. -/
  | jl (g : Guard) (t : TailJ)
  /-- `jr` (opcode 0x04A, format H, R142): Jumps to the value in xA, optionally writing a link. -/
  | jr (g : Guard) (t : TailH)
  /-- `loop` (opcode 0x04B, format J, R143): Arms a hardware loop on lc0 or lc1, or skips the body when the count is zero. -/
  | loop (g : Guard) (t : TailJ)
  /-- `dly` (opcode 0x04C, format H, R145): Occupies n issue slots. -/
  | dly (g : Guard) (t : TailH)
  /-- `nop` (opcode 0x04D, format Z, R145): Occupies one issue slot and does nothing else. -/
  | nop (g : Guard)
  /-- `done` (opcode 0x04E, format Z, R146): Waits for every token to reach zero and then retires the group. -/
  | done (g : Guard)
  /-- `qset` (opcode 0x04F, format A, R144): Sets a predicate from a comparison of two scalar registers. -/
  | qset (g : Guard) (t : TailA)
  /-- `qop` (opcode 0x050, format A, R144): Sets a predicate from a 4-bit truth table over two predicates. -/
  | qop (g : Guard) (t : TailA)
  /-- `wait` (opcode 0x051, format H, R131): Stalls issue until a token has at most n pending entries. -/
  | wait (g : Guard) (t : TailH)
  /-- `fset` (opcode 0x052, format I, R147): Sets a flag of the core or of a cell position, as a cell-scope release. -/
  | fset (g : Guard) (t : TailI)
  /-- `fclr` (opcode 0x053, format I, R147): Clears a flag of the core or of a cell position, as a cell-scope release. -/
  | fclr (g : Guard) (t : TailI)
  /-- `ftst` (opcode 0x054, format I, R147): Reads a flag into xD. -/
  | ftst (g : Guard) (t : TailI)
  /-- `fwait` (opcode 0x055, format I, R147): Waits until a flag is 1 or the abort line is raised, and writes a status. -/
  | fwait (g : Guard) (t : TailI)
  /-- `abort` (opcode 0x056, format Z, R149): Raises the abort line of the group's launch. -/
  | abort (g : Guard)
  /-- `abchk` (opcode 0x057, format H, R150): Reads whether the launch's abort line is raised in the cluster. -/
  | abchk (g : Guard) (t : TailH)
  /-- `ldl` (opcode 0x060, format M, R198): Loads 1 to 16 bytes from the local store at issue. -/
  | ldl (g : Guard) (t : TailM)
  /-- `ldg` (opcode 0x061, format M, R198): Issues a global load on a token, reading the domain's read state or a location-consistent value. -/
  | ldg (g : Guard) (t : TailM)
  /-- `stl` (opcode 0x062, format M, R198): Stores 1 to 16 bytes to the local store at issue. -/
  | stl (g : Guard) (t : TailM)
  /-- `stg` (opcode 0x063, format M, R198): Stores to global memory, ticketed in a deterministic launch. -/
  | stg (g : Guard) (t : TailM)
  /-- `fence` (opcode 0x064, format A, R203): Acts as acquire and release, and stalls until earlier stores and flag writes are performed at the scope. -/
  | fence (g : Guard) (t : TailA)
  /-- `acq` (opcode 0x065, format A, R203): Stalls until earlier global loads complete and then drops the read cache. -/
  | acq (g : Guard) (t : TailA)
  /-- `rel` (opcode 0x066, format A, R203): Orders earlier accesses before later stores, flag writes and pushes at the scope. -/
  | rel (g : Guard) (t : TailA)
  /-- `vadd` (opcode 0x080, format V, R158): Adds vectors element-wise. -/
  | vadd (g : Guard) (t : TailV)
  /-- `vsub` (opcode 0x081, format V, R158): Subtracts vectors element-wise. -/
  | vsub (g : Guard) (t : TailV)
  /-- `vmul` (opcode 0x082, format V, R158): Multiplies vectors element-wise. -/
  | vmul (g : Guard) (t : TailV)
  /-- `vmulh` (opcode 0x083, format V, R158): Gives the high half of each integer lane product. -/
  | vmulh (g : Guard) (t : TailV)
  /-- `vfma` (opcode 0x084, format V, R159): Computes a·b + c per lane with one rounding. -/
  | vfma (g : Guard) (t : TailV)
  /-- `vfms` (opcode 0x085, format V, R159): Computes a·b − c per lane with one rounding. -/
  | vfms (g : Guard) (t : TailV)
  /-- `vfnma` (opcode 0x086, format V, R159): Computes c − a·b per lane with one rounding. -/
  | vfnma (g : Guard) (t : TailV)
  /-- `vdiv` (opcode 0x087, format V, R160): Divides per lane on a token. -/
  | vdiv (g : Guard) (t : TailV)
  /-- `vsqrt` (opcode 0x088, format V, R160): Takes the square root per lane on a token. -/
  | vsqrt (g : Guard) (t : TailV)
  /-- `vmin` (opcode 0x089, format V, R158): Gives the element-wise minimum. -/
  | vmin (g : Guard) (t : TailV)
  /-- `vmax` (opcode 0x08A, format V, R158): Gives the element-wise maximum. -/
  | vmax (g : Guard) (t : TailV)
  /-- `vabs` (opcode 0x08B, format V, R158): Gives the element-wise absolute value. -/
  | vabs (g : Guard) (t : TailV)
  /-- `vneg` (opcode 0x08C, format V, R158): Negates element-wise. -/
  | vneg (g : Guard) (t : TailV)
  /-- `vand` (opcode 0x08D, format V, R161): Bitwise AND per lane. -/
  | vand (g : Guard) (t : TailV)
  /-- `vor` (opcode 0x08E, format V, R161): Bitwise OR per lane. -/
  | vor (g : Guard) (t : TailV)
  /-- `vxor` (opcode 0x08F, format V, R161): Bitwise XOR per lane. -/
  | vxor (g : Guard) (t : TailV)
  /-- `vandn` (opcode 0x090, format V, R161): Computes a AND NOT b per lane. -/
  | vandn (g : Guard) (t : TailV)
  /-- `vshl` (opcode 0x091, format V, R161): Shifts each lane left. -/
  | vshl (g : Guard) (t : TailV)
  /-- `vshr` (opcode 0x092, format V, R161): Shifts each lane right logically. -/
  | vshr (g : Guard) (t : TailV)
  /-- `vsha` (opcode 0x093, format V, R161): Shifts each lane right arithmetically. -/
  | vsha (g : Guard) (t : TailV)
  /-- `vfsh` (opcode 0x094, format V, R161): Funnel-shifts each pair of lanes. -/
  | vfsh (g : Guard) (t : TailV)
  /-- `vclz` (opcode 0x095, format V, R161): Counts the leading zeros of each lane. -/
  | vclz (g : Guard) (t : TailV)
  /-- `vpopc` (opcode 0x096, format V, R161): Counts the one bits of each lane. -/
  | vpopc (g : Guard) (t : TailV)
  /-- `vcmp` (opcode 0x097, format V, R162): Compares lanes and writes a byte mask. -/
  | vcmp (g : Guard) (t : TailV)
  /-- `vsel` (opcode 0x098, format V, R163): Selects bytes of two vectors by a mask. -/
  | vsel (g : Guard) (t : TailV)
  /-- `vcvt` (opcode 0x099, format V, R164): Converts one part of the lanes between element types. -/
  | vcvt (g : Guard) (t : TailV)
  /-- `vred` (opcode 0x09A, format V, R166): Reduces the active lanes by a lane tree, on a token. -/
  | vred (g : Guard) (t : TailV)
  /-- `vgmax` (opcode 0x09B, format V, R167): Broadcasts the maximum of the active lanes, on a token. -/
  | vgmax (g : Guard) (t : TailV)
  /-- `vscan` (opcode 0x09C, format V, R166): Computes an inclusive log-step scan, on a token. -/
  | vscan (g : Guard) (t : TailV)
  /-- `vsld` (opcode 0x09D, format V, R168): Slides a window over two concatenated vectors. -/
  | vsld (g : Guard) (t : TailV)
  /-- `vperm` (opcode 0x09E, format V, R169): Permutes lanes by an index vector. -/
  | vperm (g : Guard) (t : TailV)
  /-- `vbcast` (opcode 0x09F, format V, R170): Broadcasts a scalar to every lane. -/
  | vbcast (g : Guard) (t : TailV)
  /-- `vext` (opcode 0x0A0, format V, R170): Extracts one lane into a scalar register. -/
  | vext (g : Guard) (t : TailV)
  /-- `vins` (opcode 0x0A1, format V, R170): Inserts a scalar into one lane. -/
  | vins (g : Guard) (t : TailV)
  /-- `vseq` (opcode 0x0A2, format V, R171): Writes the arithmetic sequence xA + i·stride. -/
  | vseq (g : Guard) (t : TailV)
  /-- `vrand` (opcode 0x0A3, format V, R173): Generates counter-based random numbers from the seed and ticket, on a token. -/
  | vrand (g : Guard) (t : TailV)
  /-- `vsect` (opcode 0x0A4, format V, R174): Computes a sorted set intersection and its mask, on a token. -/
  | vsect (g : Guard) (t : TailV)
  /-- `vcompress` (opcode 0x0A5, format V, R172): Packs the selected lanes to the bottom of the destination. -/
  | vcompress (g : Guard) (t : TailV)
  /-- `vexpand` (opcode 0x0A6, format V, R172): Spreads lanes into the selected positions. -/
  | vexpand (g : Guard) (t : TailV)
  /-- `vldl` (opcode 0x100, format M, R199): Loads 128 aligned bytes from the local store. -/
  | vldl (g : Guard) (t : TailM)
  /-- `vldg` (opcode 0x101, format M, R199): Loads 128 aligned bytes from global memory on a token. -/
  | vldg (g : Guard) (t : TailM)
  /-- `vstl` (opcode 0x102, format M, R199): Stores 128 aligned bytes to the local store under a mask. -/
  | vstl (g : Guard) (t : TailM)
  /-- `vstg` (opcode 0x103, format M, R199): Stores 128 aligned bytes to global memory under a mask. -/
  | vstg (g : Guard) (t : TailM)
  /-- `vldu` (opcode 0x104, format M, R200): Loads masked bytes from an unaligned local address. -/
  | vldu (g : Guard) (t : TailM)
  /-- `vstu` (opcode 0x105, format M, R200): Stores masked bytes to an unaligned local address. -/
  | vstu (g : Guard) (t : TailM)
  /-- `vgat` (opcode 0x106, format V, R201): Gathers local-store elements by an index vector, on a token. -/
  | vgat (g : Guard) (t : TailV)
  /-- `vsca` (opcode 0x107, format V, R202): Scatters lanes to local elements, merging duplicates or adding them. -/
  | vsca (g : Guard) (t : TailV)
  /-- `wand` (opcode 0x120, format A, R175): ANDs two byte masks. -/
  | wand (g : Guard) (t : TailA)
  /-- `wor` (opcode 0x121, format A, R175): ORs two byte masks. -/
  | wor (g : Guard) (t : TailA)
  /-- `wxor` (opcode 0x122, format A, R175): XORs two byte masks. -/
  | wxor (g : Guard) (t : TailA)
  /-- `wnot` (opcode 0x123, format H, R175): Inverts a byte mask. -/
  | wnot (g : Guard) (t : TailH)
  /-- `wpopc` (opcode 0x124, format H, R175): Counts the set bits of a mask into xD. -/
  | wpopc (g : Guard) (t : TailH)
  /-- `wfirst` (opcode 0x125, format H, R175): Gives the index of a mask's lowest set bit. -/
  | wfirst (g : Guard) (t : TailH)
  /-- `wset` (opcode 0x126, format I, R176): Sets a contiguous run of mask bits. -/
  | wset (g : Guard) (t : TailI)
  /-- `amo` (opcode 0x140, format W, R313): Performs an atomic on a Sync location, at once or ticketed to commit. -/
  | amo (g : Guard) (t : TailW)
  /-- `bar` (opcode 0x141, format A, R318): Arrives at a barrier of a level and waits for the phase to complete. -/
  | bar (g : Guard) (t : TailA)
  /-- `fret` (opcode 0x142, format A, R318): Drains, arrives at the ceiling and waits for the end of exchange or completion. -/
  | fret (g : Guard) (t : TailA)
  /-- `spawn` (opcode 0x143, format M, R321): Computes a child ticket and arms a continuation record. -/
  | spawn (g : Guard) (t : TailM)
  /-- `join` (opcode 0x144, format M, R322): Decrements a record's join count, making it ready at zero. -/
  | join (g : Guard) (t : TailM)
  /-- `gang` (opcode 0x145, format Z, R323): Acts as a team barrier that forms a consort of members with matching PC. -/
  | gang (g : Guard)
  /-- `solo` (opcode 0x146, format Z, R323): Dissolves the consort when executed by its leader. -/
  | solo (g : Guard)
  /-- `cpy` (opcode 0x160, format P, R223): Builds a copy command and starts it, arms a slot or clears a slot. -/
  | cpy (g : Guard) (t : TailP)
  /-- `epop` (opcode 0x161, format A, R226): Pops a completion element from the copy or indirect FIFO, as an acquire. -/
  | epop (g : Guard) (t : TailA)
  /-- `gat` (opcode 0x162, format P, R227): Posts an indirect gather job. -/
  | gat (g : Guard) (t : TailP)
  /-- `sca` (opcode 0x163, format P, R227): Posts an indirect scatter or scatter-add job. -/
  | sca (g : Guard) (t : TailP)
  /-- `chg` (opcode 0x164, format P, R227): Posts a chain gather job. -/
  | chg (g : Guard) (t : TailP)
  /-- `chs` (opcode 0x165, format P, R227): Posts a chain scatter-update job. -/
  | chs (g : Guard) (t : TailP)
  /-- `evw` (opcode 0x166, format H, R231): Waits on the group's event latch or the abort line. -/
  | evw (g : Guard) (t : TailH)
  /-- `xbar` (opcode 0x167, format W, R236): Configures a bridge counter, term or trigger, or resets the bridge. -/
  | xbar (g : Guard) (t : TailW)
  /-- `rset` (opcode 0x168, format P, R239): Sets up an operand ring after any users of it drain. -/
  | rset (g : Guard) (t : TailP)
  /-- `rpush` (opcode 0x169, format A, R240): Advances a ring's tail by up to n tiles. -/
  | rpush (g : Guard) (t : TailA)
  /-- `rpop` (opcode 0x16A, format A, R240): Advances a ring's head by up to n tiles. -/
  | rpop (g : Guard) (t : TailA)
  /-- `mma` (opcode 0x180, format P, R261): Builds and pushes a dense matrix multiply-accumulate command. -/
  | mma (g : Guard) (t : TailP)
  /-- `mmas` (opcode 0x181, format P, R279): Builds and pushes a bitmap-sparse multiply command. -/
  | mmas (g : Guard) (t : TailP)
  /-- `mzero` (opcode 0x182, format A, R262): Pushes a ZERO command for n slots. -/
  | mzero (g : Guard) (t : TailA)
  /-- `mdrain` (opcode 0x183, format P, R263): Pushes a DRAIN command that writes a tile out. -/
  | mdrain (g : Guard) (t : TailP)
  /-- `mload` (opcode 0x184, format P, R264): Pushes a LOAD command that fills slots. -/
  | mload (g : Guard) (t : TailP)
  /-- `mred` (opcode 0x185, format P, R265): Pushes a RED command that reduces the cell's four tiles. -/
  | mred (g : Guard) (t : TailP)
  /-- `mq` (opcode 0x186, format M, R266): Copies a 64-byte command from the local store and pushes it. -/
  | mq (g : Guard) (t : TailM)
  /-- `mstat` (opcode 0x187, format A, R267): Reads matrix-unit state by selector. -/
  | mstat (g : Guard) (t : TailA)
  /-- `cget` (opcode 0x1C0, format I, R345): Reads a control register. -/
  | cget (g : Guard) (t : TailI)
  /-- `cset` (opcode 0x1C1, format I, R345): Writes the writable bits of a control register. -/
  | cset (g : Guard) (t : TailI)
  /-- `trap` (opcode 0x1C2, format I, R346): Raises a TRAP cause with an immediate. -/
  | trap (g : Guard) (t : TailI)
  /-- `svc` (opcode 0x1C3, format I, R347): Suspends the group with a service request to the host. -/
  | svc (g : Guard) (t : TailI)
  /-- `kret` (opcode 0x1C4, format Z, R348): Returns from a handler, restoring predicates and loop state. -/
  | kret (g : Guard)
  /-- `tlbinv` (opcode 0x1C5, format A, R349): Removes translations from this core's or the partition's TLBs. -/
  | tlbinv (g : Guard) (t : TailA)
  /-- `halt` (opcode 0x1C6, format Z, R350): Suspends the group with cause HALT. -/
  | halt (g : Guard)
  /-- PLBASE_WRITE (R59): Writes a partition's runnable-list base, or is ignored with PSTAT.ERR 0x01. -/
  | plbaseWrite (p : Nat) (v : Word)
  /-- PCLUS_WRITE (R59): Writes a partition's cluster set, or is ignored with PSTAT.ERR 0x01. -/
  | pclusWrite (p : Nat) (v : Word)
  /-- PSTAT_WRITE (R58): Any write clears PSTAT.ERR. -/
  | pstatWrite (p : Nat) (v : Word)
  /-- ENTRY_VALIDATE (R61): A VALID write from 0 to 1 validates a runnable-list entry and latches its fields. -/
  | entryValidate (p c : Nat)
  /-- CONTEXT_RETIRE (R62): A VALID write from 1 to 0 retires the context and ends all its work. -/
  | contextRetire (p c : Nat)
  /-- CONTEXT_RETIREMENT_END (R62): When every launch has its completion record, queues read STATE 3 and resources are freed. -/
  | contextRetirementEnd (p c : Nat)
  /-- LQTAIL_WRITE (R65): Takes a new queue tail, or ignores it and records an error. -/
  | lqtailWrite (p c q : Nat) (v : Word)
  /-- LQCTL_EN (R64): Enables a queue from STATE 0 or 3, zeroing HEAD and TAIL. -/
  | lqctlEn (p c q : Nat)
  /-- LQCTL_TEAR (R79): Starts teardown of a running queue and its launches. -/
  | lqctlTear (p c q : Nat)
  /-- TEARDOWN_END (R79): Once every affected launch has its completion record, the queue reads STATE 3. -/
  | teardownEnd (p c q : Nat)
  /-- LQERR_WRITE (R64): Any write clears LQERR. -/
  | lqerrWrite (p c q : Nat)
  /-- FQTAIL_WRITE (R337): Any write clears the LOST count. -/
  | fqtailWrite (p c : Nat)
  /-- FQ_REPLY_RETRY (R335): A reply that resumes a suspended group by re-issuing its instruction. -/
  | fqReplyRetry (p c : Nat)
  /-- FQ_REPLY_RESUME (R335): A reply that resumes a suspended group after its svc or halt, writing FQRVAL for svc. -/
  | fqReplyResume (p c : Nat)
  /-- FQ_REPLY_ABORT (R335): A reply that ends a suspended group. -/
  | fqReplyAbort (p c : Nat)
  /-- PDMGCTX_WRITE (R344): Any write clears the damaged-context register. -/
  | pdmgctxWrite (p : Nat)
  /-- HSTAT_WRITE (R389): Writing 1 to LINKDN clears it. -/
  | hstatWrite (v : Word)
  /-- HORPH_READ (R389): A read pops the oldest quarantined frame. -/
  | horphRead
  /-- HCORR_WRITE (R389): A write clears the correction count. -/
  | hcorrWrite
  /-- HUNC_WRITE (R389): A write clears the uncorrectable-event count. -/
  | huncWrite
  /-- HPERMIT_WRITE (R389): A write clears the repaired-permit count. -/
  | hpermitWrite
  /-- HGANG_WRITE (R389): Sets the gang identity, only while every partition list is empty. -/
  | hgangWrite (v : Word)
  /-- ATTESTATION_REQUEST (R388): Produces a signed attestation report on a host request. -/
  | attestationRequest (nonce : List Byte)
  /-- CONTROL_REGISTER_WRITE (R375): A write to a control-space register that has no row of its own. -/
  | controlRegisterWrite (offset : Nat) (v : Word)
  /-- QUEUE_WINDOW_STAGE (R250): A store to words 0 to 6 of a queue window writes the staging buffer. -/
  | queueWindowStage (core word : Nat) (v : Word)
  /-- QUEUE_WINDOW_PUSH (R250): A store to word 7 checks the staged command and pushes it, or discards it and records WERR. -/
  | queueWindowPush (core : Nat) (v : Word)
  /-- HOST_CXL_MEM_READ (R376): A host CXL.mem read, homed and typed by the host attribute table. -/
  | hostCxlMemRead (addr count : Nat)
  /-- HOST_CXL_MEM_WRITE (R376): A host CXL.mem write, homed and typed by the host attribute table. -/
  | hostCxlMemWrite (addr : Nat) (data : List Byte)
  /-- HOST_ATOMIC (R376): A host atomic to device memory completes with an error and writes nothing. -/
  | hostAtomic (addr : Nat)
  /-- HOST_SNOOP (R379): A host snoop of a Host-type line is served at its home slice. -/
  | hostSnoop (addr : Nat) (invalidate : Bool)
  /-- ACCEPTANCE_ROUND (R73): Visits the partition's contexts and takes at most one head record from each. -/
  | acceptanceRound (p : Nat)
  /-- SLICE_END (R63): A context's slice expires, and the walk moves on or renews the slice. -/
  | sliceEnd (p : Nat)
  /-- ENTRY_DUE (R63): A waiting entry's LIMIT expires; it cuts short the running slice and runs next. -/
  | entryDue (p c : Nat)
  /-- RECORD_PRODUCE (R86): A dispatcher produces launch-derived records of its home cells when it has slots. -/
  | recordProduce (cluster : Nat)
  /-- GROUP_START (R89): On a free core, the dispatcher picks a record by R87 and starts its footprint fetch. -/
  | groupStart (cell core : Nat)
  /-- FOOTPRINT_FETCH_COMPLETE (R89): With every region in place and pinned, sets the start state, clears ARMED and starts the routine. -/
  | footprintFetchComplete (gid : Nat)
  /-- GROUP_RESUME (R94): A parked group whose condition holds resumes on a free core of its home cell. -/
  | groupResume (gid core : Nat)
  /-- SLOTS_EXHAUSTED (R340): A record waits while every slot is held by parked or suspended groups; its launch is ended ABORTED. -/
  | slotsExhausted (p c : Nat)
  /-- COMMIT_BUFFER_DRAIN (R306): A ticketed operation leaves the core's commit buffer into its engine's log. -/
  | commitBufferDrain (gid : Nat)
  /-- COMMIT_PHASE_START (R310): Once arrival has ended and buffers, jobs and gang readies are in, the engines apply the log in key order. -/
  | commitPhaseStart (launch dom : Nat)
  /-- EXCHANGE_PHASE_START (R237): Once every engine has applied its log, members start their armed exchange slots. -/
  | exchangePhaseStart (launch dom : Nat)
  /-- FRET_COMPLETE (R319): At the end of exchange, caches drop, ticketed entries release, a snapshot begins and xD is written. -/
  | fretComplete (launch dom : Nat)
  /-- ILV_ROUND_START (R74): When the previous round's grants complete, grants one waiting access per group in ticket order. -/
  | ilvRoundStart (launch : Nat)
  /-- GLOBAL_LOAD_PERFORMED (R392): A global load is performed, writes its destination or raises deferred POISON, and completes its entry. -/
  | globalLoadPerformed (gid entry : Nat)
  /-- STORE_PERFORMED (R198): A free global store is written at its home and updates read-cache copies. -/
  | storePerformed (gid id : Nat)
  /-- AMO_PERFORMED (R313): A free atomic is performed at its home engine, or meets poison (R314). -/
  | amoPerformed (gid entry : Nat)
  /-- FLAG_WRITE_PERFORMED (R148): A flag write becomes visible to other observers once earlier accesses are performed. -/
  | flagWritePerformed (gid id : Nat)
  /-- DIVIDE_COMPLETE (R138): A scalar divide or remainder writes its result 40 aclk after issue. -/
  | divideComplete (gid entry : Nat)
  /-- VECTOR_LONG_COMPLETE (R157): A long-latency vector instruction writes its destinations at its fixed time. -/
  | vectorLongComplete (gid entry : Nat)
  /-- PAGE_WALK (R193): A TLB miss is walked by the cluster's page-walk unit and fills the TLB or faults. -/
  | pageWalk (cluster : Nat)
  /-- TLBINV_COMPLETE (R349): The invalidation entry completes once targeted TLBs and earlier walks are done. -/
  | tlbinvComplete (gid entry : Nat)
  /-- LINE_REFILL (R180): A missed register, local-store or accumulator line refills from the owner's slot. -/
  | lineRefill (gid line : Nat)
  /-- LINE_WRITE_OUT (R341): An evictable line of another group is written to its owner's slot on a miss. -/
  | lineWriteOut (gid line : Nat)
  /-- L2_DIRTY_EVICT (R364): A dirty line is written back, compressed where allowed, with poison or quarantine handling. -/
  | l2DirtyEvict (slice line : Nat)
  /-- SCALE_CACHE_FILL (R260): A scale-cache miss reads a 32-byte line of scales. -/
  | scaleCacheFill (core : Nat) (tensor : Nat) (block : Nat)
  /-- COPY_JOB_START (R217): The copy engine takes the next command from its input FIFO. -/
  | copyJobStart (gid : Nat)
  /-- COPY_CHUNK (R217): Reads, checks and writes one chunk of a copy job, updating the fingerprint. -/
  | copyChunk (gid : Nat)
  /-- INDIRECT_JOB_START (R206): The indirect engine takes the next job from its cluster queue. -/
  | indirectJobStart (cluster : Nat)
  /-- GATHER_CHUNK (R228): Moves one chunk of table rows into cluster memory. -/
  | gatherChunk (cluster : Nat)
  /-- SCATTER_CHUNK (R228): Moves one chunk of cluster rows into the table. -/
  | scatterChunk (cluster : Nat)
  /-- SCA_ADD_MERGE_PASS (R229): Merges duplicate indices and checks every target before any addition. -/
  | scaAddMergePass (cluster : Nat)
  /-- SCA_ADD_APPLY_PASS (R229): Applies every merged sum, or logs them as ticketed reductions. -/
  | scaAddApplyPass (cluster : Nat)
  /-- CHAIN_GATHER (R233): Forms the rows of a virtual table from its factor slices. -/
  | chainGather (cluster : Nat)
  /-- CHS_READ_PASS (R234): Forms every factor-slice gradient and checks addresses. -/
  | chsReadPass (cluster : Nat)
  /-- CHS_APPLY_PASS (R234): Applies the FMA updates to the factor slices. -/
  | chsApplyPass (cluster : Nat)
  /-- BRIDGE_EVALUATE (R235): Each fclk, counts events, evaluates terms and fires triggers in order. -/
  | bridgeEvaluate (gid : Nat)
  /-- MMA_COMMAND (R255): Runs a dense MMA K-group by K-group from the ring tiles. -/
  | mmaCommand (gid : Nat)
  /-- MMAS_COMMAND (R281): Scans both sparse tiles (R280) and runs intersection steps. -/
  | mmasCommand (gid : Nat)
  /-- ZERO_COMMAND (R262): Sets slots to +0 one per step. -/
  | zeroCommand (gid : Nat)
  /-- DRAIN_COMMAND (R263): Writes slots out in an output type, with MX scales and bound checks. -/
  | drainCommand (gid : Nat)
  /-- LOAD_COMMAND (R264): Fills slots from memory. -/
  | loadCommand (gid : Nat)
  /-- RED_COMMAND (R265): When all four REDs are present, reduces the cell's slots in fixed order, or ends ORPHAN. -/
  | redCommand (gid : Nat)
  /-- MATRIX_COMMAND_RETIRE (R254): Releases writes, pops tiles and completes the token, raising MXCEPT or a deferred trap. -/
  | matrixCommandRetire (gid : Nat)
  /-- GOVERNOR_WINDOW (R259): Every 64 aclk a new budget window begins. -/
  | governorWindow
  /-- DEFERRED_TRAP (R271): A pending deferred trap is taken before the core's next instruction. -/
  | deferredTrap (gid : Nat)
  /-- ABORT_LINE_ARRIVE (R149): The raised abort line reaches another cluster of the launch. -/
  | abortLineArrive (launch cluster : Nat)
  /-- ABORT_GROUP_START (R358): After every group has left an aborted launch, starts the abort group. -/
  | abortGroupStart (launch : Nat)
  /-- LAUNCH_COMPLETE (R359): Discards stranded records, writes the completion record and sends the interrupt. -/
  | launchComplete (launch : Nat)
  /-- ROLLBACK (R366): Consumed poison in a deterministic launch returns the fret domain to its snapshot. -/
  | rollback (launch dom : Nat)
  /-- CORRECTABLE_ERROR_REPAIR (R369): A single-bit error is corrected and written back, and the reader is reissued. -/
  | correctableErrorRepair (upset : Nat)
  /-- TUNING_PASS (R370): Every 10 ms, the permit audit counts and repairs link permits. -/
  | tuningPass
  /-- CELL_RETIRE (R372): A cell that reaches its error thresholds is retired and its work moves. -/
  | cellRetire (cell : Nat)
  /-- THROTTLE_DOWN (R390): Steps aclk down 25 MHz on sustained overpower or over-temperature. -/
  | throttleDown
  /-- THROTTLE_UP (R390): Steps aclk back up as each condition clears. -/
  | throttleUp
  /-- OVERHEAT_STOP (R390): Above 105 °C, stops every context as teardown does and sets STATE 4. -/
  | overheatStop
  /-- POWER_UP (R387): Runs boot ROM, signature checks, key derivation, BIST, placement and training. -/
  | powerUp (boot : BootInput)
  /-- FLIT_RECEIVE (R382): A Clagon flit is received, CRC-checked, acknowledged or NAKed, and routed. -/
  | flitReceive (port : Nat) (flit : List Byte)
  /-- NAK_RECEIVE (R383): A NAK makes the sender resend from its SEQ, retraining after 16 replays. -/
  | nakReceive (port seq : Nat)
  /-- PORT_DOWN (R383): A port that fails to retrain within 100 µs is down; gang launches abort. -/
  | portDown (port : Nat)
  /-- LAUNCH_GRANT_RECEIVE (R385): Package k takes package 0's LAUNCH field, or rejects on a digest mismatch. -/
  | launchGrantReceive (p c q pos field digest : Nat)
  /-- LOG_END_MARKER_RECEIVE (R386): After all end markers, the package sends its ready to every other package. -/
  | logEndMarkerReceive (launch dom : Nat) (pkg : Nat)
  /-- READY_RECEIVE (R386): A ready from another package is recorded for the gang commit. -/
  | readyReceive (launch dom : Nat) (pkg : Nat)
  /-- REMOTE_REQUEST (R303): A request through a remote window is performed at the line's home on this package. -/
  | remoteRequest (req : RemoteReq)
  /-- ACK_RECEIVE (R383): A cumulative acknowledgement by SEQ reaches the sender, which frees the flits it covers from its 512-flit retry buffer. -/
  | ackReceive (port seq : Nat)
  /-- PORT_RETRAIN_COMPLETE (R383): A Clagon port that began retraining after 16 replays completes it within 100 µs and resumes traffic. -/
  | portRetrainComplete (port : Nat)
  /-- CXL_DEVICE_FAILED (R381): A CXL port goes down or its Type-3 device fails at run time; reads then return poison, writes are dropped and LINKDN is set. -/
  | cxlDeviceFailed (port : Nat)
  /-- SOFT_ERROR (R362): A stored bit or word is upset in HBM, L2, the sync SRAM, the local store, the accumulators, the capo or a register, leaving data correctable or uncorrectable. -/
  | softError (target : UpsetTarget)
  /-- QUARANTINE_RELEASE (R364): The host releases a quarantined 64 KiB frame, so the device may use it again for its reserved areas. -/
  | quarantineRelease (frame : Nat)
  /-- WATCHDOG_EXPIRY (R373): The management core's watchdog runs out. -/
  | watchdogExpiry
  /-- FIXED_ENTRY_COMPLETE (R240): The token entry of an rpush, rpop or mstat completes 4 aclk after issue and its xD is written. -/
  | fixedEntryComplete (gid entry : Nat)
  deriving DecidableEq, Repr, Inhabited

end Sys2Proof
end

