-- ==== Sys2Proof/Decode.lean ====
section
/-!
DEFINITION. Decoding and encoding (05_fetching R101 to R119): the tail formats bit by bit, the opcode map, the
field checks of every instruction in the order of R118, the decoder, total on any bits and refusing by name, and
the encoder, written from the same tables.
-/

namespace Sys2Proof

/-- Why a head and tail are no instruction (R118 steps 2 to 4); the kval of each is R119's. -/
inductive DecodeFault where
  /-- `ILLEGAL_OPCODE`: the opcode is unassigned or reserved. -/
  | opcode
  /-- `ILLEGAL_FORMAT`: the TL code differs from the map. -/
  | format
  /-- `ILLEGAL_FIELD`: the lowest tail bit of the failing field, 0xFF for the guard. -/
  | field (bit : Nat)
  /-- `ILLEGAL_TARGET`: a J-format SLOT of 30 or 31; kval is the target of R107. -/
  | target (disp : BitVec 32) (slot : BitVec 5)
  deriving DecidableEq, Repr

/-- One field check of R118 step 4. -/
structure Check where
  ok : Bool
  bad : DecodeFault
  deriving DecidableEq, Repr

/-- Bits lo to lo + w - 1 of n. -/
def bits (n lo w : Nat) : BitVec w := BitVec.ofNat w (n / 2 ^ lo)

/-- `len(TL)` of R103: the bytes of a tail-length code. -/
def tlBytes : Nat → Nat
  | 0 => 0 | 1 => 2 | 2 => 4 | 3 => 6 | 4 => 8 | 5 => 12 | 6 => 16 | _ => 24

def Guard.ofNat (n : Nat) : Guard := ⟨decide (n / 8 % 2 = 1), bits n 0 3⟩
def Guard.toNat (g : Guard) : Nat := (if g.sense then 8 else 0) + g.q.toNat

def TailH.ofNat (n : Nat) : TailH := ⟨bits n 0 6, bits n 6 6, bits n 12 4⟩
def TailH.toNat (t : TailH) : Nat := t.d.toNat + t.a.toNat * 2 ^ 6 + t.e.toNat * 2 ^ 12

def TailA.ofNat (n : Nat) : TailA := ⟨bits n 0 6, bits n 6 6, bits n 12 6, bits n 18 6, bits n 24 8⟩
def TailA.toNat (t : TailA) : Nat :=
  t.d.toNat + t.a.toNat * 2 ^ 6 + t.b.toNat * 2 ^ 12 + t.c.toNat * 2 ^ 18 + t.e.toNat * 2 ^ 24

def TailV.ofNat (n : Nat) : TailV :=
  ⟨bits n 0 6, bits n 6 6, bits n 12 6, bits n 18 6, bits n 24 5, bits n 29 2, bits n 31 1, bits n 32 3, bits n 35 5,
    bits n 40 8⟩
def TailV.toNat (t : TailV) : Nat :=
  t.d.toNat + t.a.toNat * 2 ^ 6 + t.b.toNat * 2 ^ 12 + t.c.toNat * 2 ^ 18 + t.ty.toNat * 2 ^ 24 + t.rd.toNat * 2 ^ 29 +
  t.st.toNat * 2 ^ 31 + t.wm.toNat * 2 ^ 32 + t.ty2.toNat * 2 ^ 35 + t.e.toNat * 2 ^ 40

def TailI.ofNat (n : Nat) : TailI := ⟨bits n 0 6, bits n 6 6, bits n 12 20, bits n 32 32⟩
def TailI.toNat (t : TailI) : Nat := t.d.toNat + t.a.toNat * 2 ^ 6 + t.z.toNat * 2 ^ 12 + t.imm.toNat * 2 ^ 32

def TailM.ofNat (n : Nat) : TailM :=
  ⟨bits n 0 6, bits n 6 6, bits n 12 6, bits n 18 3, bits n 21 3, bits n 24 2, bits n 26 3, bits n 29 5, bits n 34 3,
    bits n 37 3, bits n 40 24⟩
def TailM.toNat (t : TailM) : Nat :=
  t.d.toNat + t.a.toNat * 2 ^ 6 + t.b.toNat * 2 ^ 12 + t.sz.toNat * 2 ^ 18 + t.sc.toNat * 2 ^ 21 + t.ord.toNat * 2 ^ 24 +
  t.scp.toNat * 2 ^ 26 + t.tk.toNat * 2 ^ 29 + t.wm.toNat * 2 ^ 34 + t.z.toNat * 2 ^ 37 + t.off.toNat * 2 ^ 40

def TailJ.ofNat (n : Nat) : TailJ := ⟨bits n 0 6, bits n 6 6, bits n 12 6, bits n 18 5, bits n 23 9, bits n 32 32⟩
def TailJ.toNat (t : TailJ) : Nat :=
  t.d.toNat + t.a.toNat * 2 ^ 6 + t.b.toNat * 2 ^ 12 + t.slot.toNat * 2 ^ 18 + t.z.toNat * 2 ^ 23 + t.disp.toNat * 2 ^ 32

def TailL.ofNat (n : Nat) : TailL := ⟨bits n 0 6, bits n 6 26, bits n 32 64⟩
def TailL.toNat (t : TailL) : Nat := t.d.toNat + t.z.toNat * 2 ^ 6 + t.imm.toNat * 2 ^ 32

def TailW.ofNat (n : Nat) : TailW :=
  ⟨bits n 0 6, bits n 6 6, bits n 12 6, bits n 18 6, bits n 24 4, bits n 28 3, bits n 31 2, bits n 33 3, bits n 36 5,
    bits n 41 23, bits n 64 32, bits n 96 32⟩
def TailW.toNat (t : TailW) : Nat :=
  t.d.toNat + t.a.toNat * 2 ^ 6 + t.b.toNat * 2 ^ 12 + t.c.toNat * 2 ^ 18 + t.op.toNat * 2 ^ 24 + t.sz.toNat * 2 ^ 28 +
  t.ord.toNat * 2 ^ 31 + t.scp.toNat * 2 ^ 33 + t.tk.toNat * 2 ^ 36 + t.e.toNat * 2 ^ 41 + t.off.toNat * 2 ^ 64 +
  t.ext.toNat * 2 ^ 96

def TailP.ofNat (n : Nat) : TailP :=
  ⟨bits n 0 6, bits n 6 6, bits n 12 6, bits n 18 6, bits n 24 4, bits n 28 5, bits n 33 31, bits n 64 32, bits n 96 32,
    bits n 128 32, bits n 160 32⟩
def TailP.toNat (t : TailP) : Nat :=
  t.s0.toNat + t.s1.toNat * 2 ^ 6 + t.s2.toNat * 2 ^ 12 + t.s3.toNat * 2 ^ 18 + t.sm.toNat * 2 ^ 24 + t.tk.toNat * 2 ^ 28 +
  t.e.toNat * 2 ^ 33 + t.par0.toNat * 2 ^ 64 + t.par1.toNat * 2 ^ 96 + t.par2.toNat * 2 ^ 128 + t.par3.toNat * 2 ^ 160

/-- A row of the opcode map (R117): the format and the instruction it builds. -/
inductive Row where
  | z (mk : Guard → Instr)
  | h (mk : Guard → TailH → Instr)
  | a (mk : Guard → TailA → Instr)
  | v (mk : Guard → TailV → Instr)
  | i (mk : Guard → TailI → Instr)
  | m (mk : Guard → TailM → Instr)
  | j (mk : Guard → TailJ → Instr)
  | l (mk : Guard → TailL → Instr)
  | w (mk : Guard → TailW → Instr)
  | p (mk : Guard → TailP → Instr)

/-- The TL code of a format (R110 to R114). -/
def Row.tl : Row → Nat
  | .z _ => 0 | .h _ => 1 | .a _ => 2 | .v _ => 3 | .i _ => 4 | .m _ => 4 | .j _ => 4 | .l _ => 5 | .w _ => 6 | .p _ => 7

def Row.build (g : Guard) (n : Nat) : Row → Instr
  | .z mk => mk g
  | .h mk => mk g (TailH.ofNat n)
  | .a mk => mk g (TailA.ofNat n)
  | .v mk => mk g (TailV.ofNat n)
  | .i mk => mk g (TailI.ofNat n)
  | .m mk => mk g (TailM.ofNat n)
  | .j mk => mk g (TailJ.ofNat n)
  | .l mk => mk g (TailL.ofNat n)
  | .w mk => mk g (TailW.ofNat n)
  | .p mk => mk g (TailP.ofNat n)

/-- What a 6-bit register field names (R115). -/
inductive Use where
  /-- Not used: zero. -/
  | zero
  /-- An x register. -/
  | x
  /-- A v, accumulator or flag-file register: bit 5 zero. -/
  | v
  /-- A w, q, ring, trigger or term number: bits 5:3 zero. -/
  | w
  /-- A destination among w1 to w7 or q1 to q7. -/
  | wd
  /-- A loop counter. -/
  | lc
  deriving DecidableEq, Repr

def Use.ok (u : Use) (n : Nat) : Bool :=
  match u with
  | .zero => n = 0
  | .x => true
  | .v => n < 32
  | .w => n < 8
  | .wd => 1 ≤ n ∧ n < 8
  | .lc => n < 2

/-- A field check at a tail bit. -/
def fld (bit : Nat) (ok : Bool) : Check := ⟨ok, .field bit⟩

def Guard.check (g : Guard) : Check := fld 0xFF (!(g.sense && g.q == 0))

/-- Element-type classes of R152, by code. -/
def isINT (n : Nat) : Bool := n < 8
def isFLT (n : Nat) : Bool := 8 ≤ n ∧ n < 12
def isIF (n : Nat) : Bool := n < 12
def isMOV (n : Nat) : Bool := n < 14 ∨ n = 17
def isALL (n : Nat) : Bool := n < 18
def isNarrowCode (n : Nat) : Bool := 12 ≤ n ∧ n < 17

/-- Element width and lanes of a type code (R151). -/
def codeWidth (n : Nat) : Nat :=
  match n with
  | 0 | 4 | 12 | 13 | 17 => 8
  | 1 | 5 | 8 | 9 => 16
  | 2 | 6 | 10 => 32
  | 3 | 7 | 11 => 64
  | 14 | 15 => 6
  | _ => 4

def codeLanes (n : Nat) : Nat := if codeWidth n = 6 then 128 else 1024 / codeWidth n

def chkH (d a : Use) (t : TailH) (es : List Check) : List Check :=
  [fld 0 (d.ok t.d.toNat), fld 6 (a.ok t.a.toNat)] ++ es

def chkA (d a b c : Use) (t : TailA) (es : List Check) : List Check :=
  [fld 0 (d.ok t.d.toNat), fld 6 (a.ok t.a.toNat), fld 12 (b.ok t.b.toNat), fld 18 (c.ok t.c.toNat)] ++ es

/-- Format A with E zero. -/
def chkAZ (d a b c : Use) (t : TailA) : List Check := chkA d a b c t [fld 24 (t.e == 0)]

/-- Format A with a token in E[4:0] (R136). -/
def chkAT (d a b c : Use) (t : TailA) : List Check := chkA d a b c t [fld 29 (t.e.toNat < 32)]

def chkI (d a : Use) (t : TailI) (es : List Check) : List Check :=
  [fld 0 (d.ok t.d.toNat), fld 6 (a.ok t.a.toNat), fld 12 (t.z == 0)] ++ es

/-- Format J: SLOT 30 or 31 is `ILLEGAL_TARGET` (R118). -/
def chkJ (d a b : Use) (t : TailJ) : List Check :=
  [fld 0 (d.ok t.d.toNat), fld 6 (a.ok t.a.toNat), fld 12 (b.ok t.b.toNat),
   ⟨decide (t.slot.toNat < 30), .target t.disp t.slot⟩, fld 23 (t.z == 0)]

/-- Format M: which of size, ordering class, scope, token and mask the entry accepts (R196). -/
def chkM (d : Use) (pair sz : Bool) (ords : List Nat) (scp tk wm : Bool) (t : TailM) : List Check :=
  [fld 0 (d.ok t.d.toNat && (!pair || t.sz != 4 || (t.d.toNat % 2 == 0 && t.d != 0))),
   fld 18 (if sz then t.sz.toNat < 5 else t.sz == 0),
   fld 21 (t.sc.toNat < 5),
   fld 24 (ords.contains t.ord.toNat && (t.scp == 0 || t.ord != 0 || !scp)),
   fld 26 (if scp then t.scp != 7 else t.scp == 0),
   fld 29 (tk || t.tk == 0), fld 34 (wm || t.wm == 0), fld 37 (t.z == 0)]

/-- Format V: types, and what the entry accepts of rounding, saturation, mask and source type; es checks E. -/
def chkV (d a b c : Use) (ty rd st : Bool) (wm ty2 : Bool) (t : TailV) (es : List Check) : List Check :=
  [fld 0 (d.ok t.d.toNat), fld 6 (a.ok t.a.toNat), fld 12 (b.ok t.b.toNat), fld 18 (c.ok t.c.toNat),
   fld 24 (ty && !(isNarrowCode t.ty.toNat && t.rd != 0 && rd)), fld 29 (rd || t.rd == 0), fld 31 (st || t.st == 0),
   fld 32 (wm || t.wm == 0), fld 35 (ty2 || t.ty2 == 0)] ++ es

def eZero (t : TailV) : List Check := [fld 40 (t.e == 0)]
def eToken (t : TailV) : List Check := [fld 45 (t.e.toNat < 32)]

/-- FLT accepts rounding, INT does not (R158, R159). -/
def fltRd (t : TailV) : Bool := isFLT t.ty.toNat

/-- The count of `vshl vshr vsha vfsh` (R161): a register, or E[7] with a count below the width. -/
def chkShift (bf cf : TailV → Use) (t : TailV) : List Check :=
  chkV .v .v (bf t) (cf t) (isINT t.ty.toNat && (t.e.toNat < 128 || t.e.toNat % 64 < codeWidth t.ty.toNat)) false false
    true false t [fld 40 (t.e == 0 || 128 ≤ t.e.toNat), fld 46 (t.e.toNat / 64 % 2 == 0)]

/-- The count register of `vshl vshr vsha vfsh`: zero in the immediate form, which E[7] selects (R161). -/
def countB (t : TailV) : Use := if t.e.toNat < 128 then .v else .zero

def chkVcvt (t : TailV) : List Check :=
  let d := t.ty.toNat
  let s := t.ty2.toNat
  let lo := min (codeLanes d) (codeLanes s)
  let hi := max (codeLanes d) (codeLanes s)
  chkV .v .v .zero .zero
    (isALL d && d != 17 && (s != 17 || isFLT d) && (!isALL s || t.e.toNat % 16 < hi / lo))
    true true true (isALL s) t [fld 44 (t.e.toNat < 16)]

/-- `amo` (R313). -/
def chkAmo (t : TailW) : List Check :=
  let op := t.op.toNat
  let sz := t.sz.toNat
  let ty := t.e.toNat % 32
  let q := sz == 4
  let even (n : Nat) : Bool := n % 2 == 0 && n != 0
  [fld 0 (!q || t.d.toNat % 2 == 0), fld 12 (!q || even t.b.toNat),
   fld 18 (if op == 10 then !q || even t.c.toNat else t.c == 0), fld 24 (op < 11),
   fld 24 (if op == 9 then
      (if ty == 8 || ty == 9 then sz == 1 else if ty == 10 then sz == 2 else if ty == 11 then sz == 3 else sz == 1 || sz == 2 || sz == 3)
     else if op == 8 || op == 10 then sz == 2 || sz == 3 || sz == 4 else sz == 2 || sz == 3),
   fld 31 (t.ord != 0 || t.scp == 0), fld 33 (t.scp != 7),
   fld 41 (if op == 9 then isFLT ty else ty == 0), fld 46 (op == 9 || t.e.toNat / 2 ^ 5 % 4 == 0),
   fld 48 (op == 9 || t.e.toNat / 2 ^ 7 % 2 == 0), fld 49 (t.e.toNat < 256), fld 96 (t.ext == 0)]

/-- The control registers of R330. -/
def isControlReg (n : Nat) : Bool := n ≤ 0x00C ∨ (0x010 ≤ n ∧ n ≤ 0x018) ∨ (0x020 ≤ n ∧ n ≤ 0x02F)

def chkFlag (d a : Use) (t : TailI) : List Check :=
  let tg := t.imm.toNat / 2 ^ 10 % 8
  chkI d a t [fld 42 (tg == 0 || 4 ≤ tg), fld 45 (t.imm.toNat < 2 ^ 13)]

def chkShiftImm (t : TailI) : List Check := chkI .x .x t [fld 32 (t.imm.toNat < 64)]

/-- `bfx`, `bfi` (R139): the limit on pos + len is a limit on a combination, at the lower field. -/
def chkBf (t : TailI) : List Check :=
  let pos := t.imm.toNat % 64
  let len := t.imm.toNat / 64 % 128
  chkI .x .x t [fld 32 (pos + len ≤ 64), fld 38 (1 ≤ len && len ≤ 64), fld 45 (t.imm.toNat < 2 ^ 13)]

/-- A substitution register is zero where `sm` does not name it. -/
def chkSub (sm : Nat) (t : TailP) (es : List Check) : List Check :=
  [fld 0 (t.s0 == 0 || sm % 2 == 1), fld 6 (t.s1 == 0 || sm / 2 % 2 == 1), fld 12 (t.s2 == 0 || sm / 4 % 2 == 1),
   fld 18 (t.s3 == 0 || sm / 8 % 2 == 1)] ++ es

/-- A substitution register with SM[k] = 0 must be zero (R116). -/
def chkP (t : TailP) (es : List Check) : List Check := chkSub t.sm.toNat t es

/-- With ARM = 3 every field and word but SLOT and the token is zero, SM and its registers too (R223, R227). -/
def chkClr (t : TailP) (arm : Nat) (es : List Check) : List Check :=
  if arm = 3 then chkSub 0 t (fld 24 (t.sm == 0) :: es) else chkP t es

/-- `cpy` (R223). -/
def chkCpy (t : TailP) : List Check :=
  let e := t.e.toNat
  let arm := e / 2 ^ 16 % 4
  let z (lo w : Nat) : Bool := arm != 3 || e / 2 ^ lo % 2 ^ w == 0
  chkClr t arm ([fld 33 (z 0 6), fld 39 (z 6 6), fld 45 (e / 2 ^ 12 % 4 != 3 && z 12 2),
    fld 47 (e / 2 ^ 14 % 4 != 3 && z 14 2), fld 51 (arm != 0 || e / 2 ^ 18 % 4 == 0), fld 53 (z 20 1),
    fld 54 (z 21 3 && (e / 2 ^ 24 % 2 == 1 || e / 2 ^ 21 % 8 == 0)), fld 57 (z 24 1), fld 58 (e / 2 ^ 25 == 0)])

/-- `gat`, `sca`, `chg`, `chs` (R227). -/
def chkInd (table scatter add : Bool) (t : TailP) : List Check :=
  let e := t.e.toNat
  let arm := e / 2 ^ 25 % 4
  let ad := e / 2 ^ 24 % 2 == 1
  let ty := e / 2 ^ 16 % 32
  let adds := add && ad && arm != 3
  let z (lo w : Nat) : Bool := arm != 3 || e / 2 ^ lo % 2 ^ w == 0
  chkClr t arm ([fld 33 (z 0 (if table then 6 else 12)),
    fld 39 (if table then e / 2 ^ 6 % 2 ^ 6 == 0 else true), fld 45 (z 12 4),
    fld 49 (if adds then isIF ty else ty == 0), fld 54 (e / 2 ^ 21 % 4 == 0 || (adds && isFLT ty)),
    fld 56 (e / 2 ^ 23 % 2 == 0 || adds), fld 57 ((add || !ad) && z 24 1),
    fld 58 (arm != 2 || !scatter), fld 60 (arm != 0 || e / 2 ^ 27 % 4 == 0), fld 62 (e / 2 ^ 29 == 0)])

/-- `xbar` (R236). -/
def chkXbar (t : TailW) : List Check :=
  let e := t.e.toNat
  let x := t.ext.toNat
  let f (lo w : Nat) : Nat := e / 2 ^ lo % 2 ^ w
  [fld 0 (t.d == 0), fld 6 (t.a == 0), fld 12 (t.b == 0), fld 18 (t.c == 0), fld 24 (t.op == 0), fld 28 (t.sz == 0),
   fld 31 (t.ord == 0), fld 33 (t.scp == 0), fld 36 (t.tk == 0)] ++
  (match f 0 2 with
   | 0 => [fld 47 (f 6 4 < 5), fld 51 (f 6 4 == 3 || (f 6 4 == 4 && f 10 10 < 8) || f 10 10 == 0), fld 61 (f 20 3 == 0),
           fld 64 (t.off == 0), fld 96 (x % 2 ^ 16 != 0), fld 112 (x < 2 ^ 16)]
   | 1 => [fld 46 (f 5 18 == 0), fld 64 (t.off == 0), fld 112 (x < 2 ^ 16)]
   | 2 => [fld 48 (f 5 2 == 3 || (f 5 2 != 0 && f 7 10 < 4) || f 7 10 == 0), fld 58 (f 17 6 == 0), fld 64 (t.off == 0),
           fld 104 (x < 2 ^ 8)]
   | _ => [fld 43 (f 2 21 == 0), fld 64 (t.off == 0), fld 96 (x == 0)])

/-- `mma`, `mmas` (R261, R279). -/
def chkMma (t : TailP) : List Check :=
  chkP t [fld 38 (t.e.toNat / 2 ^ 5 % 4 == 0), fld 54 (t.e.toNat / 2 ^ 21 == 0)]

def eq0 (n lo w : Nat) : Bool := n / 2 ^ lo % 2 ^ w == 0

/-- The field checks of an instruction, the guard first and then from tail bit 0 upward (R118 step 4). The steps
of the other agents have no encoding and no checks. -/
def fieldChecks : Instr → List Check
  | .add g t | .sub g t | .mul g t | .mulh g t | .mulhn g t | .and g t | .or g t | .xor g t | .andn g t | .orn g t
  | .shl g t | .shr g t | .sha g t | .rol g t | .min g t | .max g t | .minn g t | .maxn g t | .slt g t | .sltn g t
  | .seq g t | .sne g t => g.check :: chkAZ .x .x .x .zero t
  | .fsh g t | .csel g t => g.check :: chkAZ .x .x .x .x t
  | .div g t | .divn g t | .rem g t | .remn g t => g.check :: chkAT .x .x .x .zero t
  | .addi g t => g.check :: chkI .x .x t []
  | .shli g t | .shri g t | .shai g t | .roli g t => g.check :: chkShiftImm t
  | .clz g t | .ctz g t | .popc g t => g.check :: chkH .x .x t [fld 12 (t.e == 0)]
  | .bfx g t | .bfi g t => g.check :: chkBf t
  | .sext g t => g.check :: chkH .x .x t [fld 12 (t.e.toNat % 4 < 3), fld 14 (t.e.toNat < 4)]
  | .li g t => g.check :: [fld 6 (t.z == 0)]
  | .lea g t => g.check :: chkM .x false false [0] false false false t
  | .mov g t => g.check :: chkH (if t.e.toNat % 4 = 1 then .lc else .x) (if t.e.toNat / 4 = 1 then .lc else .x) t
      [fld 12 (t.e.toNat % 4 < 2), fld 14 (t.e.toNat / 4 < 2)]
  | .beq g t | .bne g t | .blt g t | .bge g t | .bltn g t | .bgen g t => g.check :: chkJ .zero .x .x t
  | .bz g t | .bnz g t => g.check :: chkJ .zero .x .zero t
  | .j g t => g.check :: chkJ .zero .zero .zero t
  | .jl g t => g.check :: chkJ .x .zero .zero t
  | .jr g t => g.check :: chkH .x .x t [fld 12 (t.e == 0)]
  | .loop g t => g.check :: chkJ .lc .x .zero t
  | .dly g t => g.check :: chkH .x .x t [fld 12 (t.e == 0)]
  | .nop g | .done g | .abort g | .gang g | .solo g | .kret g | .halt g => [g.check]
  | .qset g t => g.check :: chkA .wd .x .x .zero t [fld 27 (t.e.toNat < 8)]
  | .qop g t => g.check :: chkA .wd .w .w .zero t [fld 28 (t.e.toNat < 16)]
  | .wait g t => g.check :: chkH .x .v t [fld 12 (t.e == 0)]
  | .fset g t | .fclr g t => g.check :: chkFlag .zero .zero t
  | .ftst g t | .fwait g t => g.check :: chkFlag .x .zero t
  | .abchk g t => g.check :: chkH .x .zero t [fld 12 (t.e == 0)]
  | .ldl g t | .stl g t => g.check :: chkM .x true true [0] false false false t
  | .ldg g t => g.check :: chkM .x true true [0, 1] true true false t
  | .stg g t => g.check :: chkM .x true true [0, 2] true false false t
  | .fence g t | .acq g t | .rel g t =>
    g.check :: chkA .zero .zero .zero .zero t [fld 24 (t.e.toNat % 8 != 7), fld 27 (t.e.toNat < 8)]
  | .vadd g t | .vsub g t | .vmul g t =>
    g.check :: chkV .v .v .v .zero (isIF t.ty.toNat) (fltRd t) true true false t (eZero t)
  | .vmulh g t => g.check :: chkV .v .v .v .zero (isINT t.ty.toNat) false false true false t (eZero t)
  | .vfma g t | .vfms g t | .vfnma g t =>
    g.check :: chkV .v .v .v .v (isIF t.ty.toNat) (fltRd t) true true false t (eZero t)
  | .vdiv g t => g.check :: chkV .v .v .v .zero (isIF t.ty.toNat) (fltRd t) (fltRd t) true false t (eToken t)
  | .vsqrt g t => g.check :: chkV .v .v .zero .zero (isFLT t.ty.toNat) true true true false t (eToken t)
  | .vmin g t | .vmax g t => g.check :: chkV .v .v .v .zero (isIF t.ty.toNat) false false true false t (eZero t)
  | .vabs g t | .vneg g t =>
    g.check :: chkV .v .v .zero .zero (isIF t.ty.toNat) false (isINT t.ty.toNat) true false t (eZero t)
  | .vand g t | .vor g t | .vxor g t | .vandn g t =>
    g.check :: chkV .v .v .v .zero (isINT t.ty.toNat) false false true false t (eZero t)
  | .vshl g t | .vshr g t | .vsha g t => g.check :: chkShift countB (fun _ => .zero) t
  | .vfsh g t => g.check :: chkShift (fun _ => .v) countB t
  | .vclz g t | .vpopc g t => g.check :: chkV .v .v .zero .zero (isINT t.ty.toNat) false false true false t (eZero t)
  | .vcmp g t => g.check :: chkV .wd .v .v .zero (isIF t.ty.toNat && (isINT t.ty.toNat || t.e.toNat % 8 < 6)) false false
      true false t [fld 43 (t.e.toNat < 8)]
  | .vsel g t => g.check :: chkV .v .v .v .w (t.ty == 0) false false true false t (eZero t)
  | .vcvt g t => g.check :: chkVcvt t
  | .vred g t | .vscan g t =>
    g.check :: chkV .v .v .zero .zero (isIF t.ty.toNat && (isINT t.ty.toNat || t.e.toNat / 32 < 3 || 6 ≤ t.e.toNat / 32))
      (fltRd t) (fltRd t) true false t [fld 45 (t.e.toNat / 32 < 6)]
  | .vgmax g t => g.check :: chkV .v .v .zero .zero (isIF t.ty.toNat) false false true false t (eToken t)
  | .vsld g t => g.check :: chkV .v .v .v .zero (isMOV t.ty.toNat && t.e.toNat ≤ codeLanes t.ty.toNat) false false true
      false t []
  | .vperm g t => g.check :: chkV .v .v .v .zero (isINT t.ty.toNat) false false true false t (eZero t)
  | .vbcast g t => g.check :: chkV .v .x .zero .zero (isMOV t.ty.toNat) false false true false t (eZero t)
  | .vext g t => g.check :: chkV .x .v .x .zero (isMOV t.ty.toNat) false false false false t []
  | .vins g t => g.check :: chkV .v .x .x .zero (isMOV t.ty.toNat) false false true false t []
  | .vseq g t => g.check :: chkV .v .x .zero .zero (isINT t.ty.toNat) false false true false t []
  | .vrand g t => g.check :: chkV .v .x .zero .zero
      (t.ty.toNat == 6 || t.ty.toNat == 7 || t.ty.toNat == 10 || t.ty.toNat == 11) false false true false t (eToken t)
  | .vsect g t => g.check :: chkV .v .v .v .wd (isINT t.ty.toNat) false false false false t (eToken t)
  | .vcompress g t | .vexpand g t =>
    g.check :: chkV .v .v .zero .w (isMOV t.ty.toNat) false false false false t (eZero t)
  | .vldl g t | .vstl g t => g.check :: chkM .v false false [0] false false true t
  | .vldg g t => g.check :: chkM .v false false [0, 1] true true true t
  | .vstg g t => g.check :: chkM .v false false [0, 2] true false true t
  | .vldu g t | .vstu g t => g.check :: chkM .v false false [0] false false true t
  | .vgat g t => g.check :: chkV .v .x .v .zero (isMOV t.ty.toNat) false false true false t (eToken t)
  | .vsca g t =>
    let add := t.e.toNat / 32 % 2 == 1
    g.check :: chkV .zero .x .v .v (if add then isIF t.ty.toNat else isMOV t.ty.toNat) (add && fltRd t) add true false t
      [fld 40 (t.e.toNat % 32 == 0), fld 46 (t.e.toNat < 64)]
  | .wand g t | .wor g t | .wxor g t => g.check :: chkAZ .wd .w .w .zero t
  | .wnot g t => g.check :: chkH .wd .w t [fld 12 (t.e == 0)]
  | .wpopc g t | .wfirst g t => g.check :: chkH .x .w t [fld 12 (t.e == 0)]
  | .wset g t =>
    let m := t.imm.toNat
    let r := m / 2 ^ 16 % 2 == 1
    g.check :: chkI .wd (if r then .x else .zero) t
      [fld 39 (eq0 m 7 1), fld 40 (if r then eq0 m 8 8 else m / 2 ^ 8 % 2 ^ 8 ≤ 128), fld 49 (m < 2 ^ 17)]
  | .amo g t => g.check :: chkAmo t
  | .bar g t => g.check :: chkA .x .zero .zero .zero t [fld 24 (t.e.toNat % 8 < 6), fld 27 (t.e.toNat < 8)]
  | .fret g t => g.check :: chkAZ .x .zero .zero .zero t
  | .spawn g t | .join g t => g.check :: chkM .x false false [0] false true false t
  | .cpy g t => g.check :: chkCpy t
  | .epop g t => g.check :: chkA .x .zero .zero .zero t [fld 30 (t.e.toNat < 64)]
      |>.set 1 (fld 0 (t.d.toNat % 4 == 0 && t.d != 0))
  | .gat g t => g.check :: chkInd true false false t
  | .sca g t => g.check :: chkInd true true true t
  | .chg g t => g.check :: chkInd false false false t
  | .chs g t => g.check :: chkInd false true false t
  | .evw g t => g.check :: chkH .x .zero t []
  | .xbar g t => g.check :: chkXbar t
  | .rset g t => g.check :: chkP t [fld 28 (t.tk == 0), fld 36 (t.e.toNat < 8)]
  | .rpush g t | .rpop g t => g.check :: chkAT .x .w .x .zero t
  | .mma g t | .mmas g t => g.check :: chkMma t
  | .mzero g t => g.check :: chkA .v .v .zero .zero t [fld 29 (t.e.toNat < 32)]
      |>.set 1 (fld 0 (t.d.toNat + t.a.toNat < 32))
  | .mdrain g t => g.check :: chkP t [fld 60 (t.e.toNat / 2 ^ 27 == 0)]
  | .mload g t => g.check :: chkP t [fld 44 (eq0 t.e.toNat 11 6), fld 55 (eq0 t.e.toNat 22 1), fld 57 (eq0 t.e.toNat 24 2),
      fld 60 (eq0 t.e.toNat 27 4)]
  | .mred g t => g.check :: chkP t [fld 38 (eq0 t.e.toNat 5 1), fld 48 (eq0 t.e.toNat 15 16)]
  | .mq g t => g.check :: chkM .zero false false [0] false true false t
  | .mstat g t => g.check :: chkA .x .zero .zero .zero t [fld 29 (t.e.toNat / 32 < 3)]
  | .cget g t => g.check :: chkI .x .zero t [fld 32 (isControlReg (t.imm.toNat % 2 ^ 12)), fld 44 (t.imm.toNat < 2 ^ 12)]
  | .cset g t => g.check :: chkI .zero .x t [fld 32 (isControlReg (t.imm.toNat % 2 ^ 12)), fld 44 (t.imm.toNat < 2 ^ 12)]
  | .trap g t => g.check :: chkI .zero .zero t []
  | .svc g t => g.check :: chkI .x .x t []
  | .tlbinv g t => g.check :: chkA .zero (if t.e.toNat / 32 % 2 = 1 then .zero else .x) .zero .zero t
      [fld 31 (t.e.toNat < 128)]
  | .plbaseWrite _ _ | .pclusWrite _ _ | .pstatWrite _ _ | .entryValidate _ _ | .contextRetire _ _
  | .contextRetirementEnd _ _ | .lqtailWrite _ _ _ _ | .lqctlEn _ _ _ | .lqctlTear _ _ _ | .teardownEnd _ _ _
  | .lqerrWrite _ _ _ | .fqtailWrite _ _ | .fqReplyRetry _ _ | .fqReplyResume _ _ | .fqReplyAbort _ _
  | .pdmgctxWrite _ | .hstatWrite _ | .horphRead | .hcorrWrite | .huncWrite
  | .hpermitWrite | .hgangWrite _ | .attestationRequest _ | .controlRegisterWrite _ _ | .queueWindowStage _ _ _
  | .queueWindowPush _ _ | .hostCxlMemRead _ _ | .hostCxlMemWrite _ _ | .hostAtomic _ | .hostSnoop _ _
  | .acceptanceRound _ | .sliceEnd _ | .entryDue _ _ | .recordProduce _ | .groupStart _ _
  | .footprintFetchComplete _ | .groupResume _ _ | .slotsExhausted _ _ | .commitBufferDrain _ | .commitPhaseStart _ _
  | .exchangePhaseStart _ _ | .fretComplete _ _ | .ilvRoundStart _ | .globalLoadPerformed _ _ | .storePerformed _ _
  | .amoPerformed _ _ | .flagWritePerformed _ _ | .divideComplete _ _ | .vectorLongComplete _ _ | .pageWalk _
  | .tlbinvComplete _ _ | .lineRefill _ _ | .lineWriteOut _ _ | .l2DirtyEvict _ _ | .scaleCacheFill _ _ _
  | .copyJobStart _ | .copyChunk _ | .indirectJobStart _ | .gatherChunk _ | .scatterChunk _
  | .scaAddMergePass _ | .scaAddApplyPass _ | .chainGather _ | .chsReadPass _ | .chsApplyPass _
  | .bridgeEvaluate _ | .mmaCommand _ | .mmasCommand _ | .zeroCommand _ | .drainCommand _
  | .loadCommand _ | .redCommand _ | .matrixCommandRetire _ | .governorWindow | .deferredTrap _
  | .abortLineArrive _ _ | .abortGroupStart _ | .launchComplete _ | .rollback _ _ | .correctableErrorRepair _
  | .tuningPass | .cellRetire _ | .throttleDown | .throttleUp | .overheatStop
  | .powerUp _ | .flitReceive _ _ | .nakReceive _ _ | .portDown _ | .launchGrantReceive _ _ _ _ _ _
  | .logEndMarkerReceive _ _ _ | .readyReceive _ _ _ | .remoteRequest _ | .ackReceive _ _ | .portRetrainComplete _
  | .cxlDeviceFailed _ | .softError _ | .quarantineRelease _ | .watchdogExpiry | .fixedEntryComplete _ _ => []

/-- The first failing check, in order. -/
def firstBad : List Check → Option DecodeFault
  | [] => none
  | c :: cs => if c.ok then firstBad cs else some c.bad

/-- The opcode map (R117). -/
def opcodeRow : Nat → Option Row
  | 0x000 => some (.a .add)
  | 0x001 => some (.a .sub)
  | 0x002 => some (.i .addi)
  | 0x003 => some (.a .mul)
  | 0x004 => some (.a .mulh)
  | 0x005 => some (.a .mulhn)
  | 0x006 => some (.a .div)
  | 0x007 => some (.a .divn)
  | 0x008 => some (.a .rem)
  | 0x009 => some (.a .remn)
  | 0x00A => some (.a .and)
  | 0x00B => some (.a .or)
  | 0x00C => some (.a .xor)
  | 0x00D => some (.a .andn)
  | 0x00E => some (.a .orn)
  | 0x00F => some (.a .shl)
  | 0x010 => some (.a .shr)
  | 0x011 => some (.a .sha)
  | 0x012 => some (.a .rol)
  | 0x013 => some (.i .shli)
  | 0x014 => some (.i .shri)
  | 0x015 => some (.i .shai)
  | 0x016 => some (.i .roli)
  | 0x017 => some (.h .clz)
  | 0x018 => some (.h .ctz)
  | 0x019 => some (.h .popc)
  | 0x01A => some (.i .bfx)
  | 0x01B => some (.i .bfi)
  | 0x01C => some (.a .fsh)
  | 0x01D => some (.a .min)
  | 0x01E => some (.a .max)
  | 0x01F => some (.a .minn)
  | 0x020 => some (.a .maxn)
  | 0x021 => some (.h .sext)
  | 0x022 => some (.a .slt)
  | 0x023 => some (.a .sltn)
  | 0x024 => some (.a .seq)
  | 0x025 => some (.a .sne)
  | 0x026 => some (.a .csel)
  | 0x027 => some (.l .li)
  | 0x028 => some (.m .lea)
  | 0x029 => some (.h .mov)
  | 0x040 => some (.j .beq)
  | 0x041 => some (.j .bne)
  | 0x042 => some (.j .blt)
  | 0x043 => some (.j .bge)
  | 0x044 => some (.j .bltn)
  | 0x045 => some (.j .bgen)
  | 0x046 => some (.j .bz)
  | 0x047 => some (.j .bnz)
  | 0x048 => some (.j .j)
  | 0x049 => some (.j .jl)
  | 0x04A => some (.h .jr)
  | 0x04B => some (.j .loop)
  | 0x04C => some (.h .dly)
  | 0x04D => some (.z .nop)
  | 0x04E => some (.z .done)
  | 0x04F => some (.a .qset)
  | 0x050 => some (.a .qop)
  | 0x051 => some (.h .wait)
  | 0x052 => some (.i .fset)
  | 0x053 => some (.i .fclr)
  | 0x054 => some (.i .ftst)
  | 0x055 => some (.i .fwait)
  | 0x056 => some (.z .abort)
  | 0x057 => some (.h .abchk)
  | 0x060 => some (.m .ldl)
  | 0x061 => some (.m .ldg)
  | 0x062 => some (.m .stl)
  | 0x063 => some (.m .stg)
  | 0x064 => some (.a .fence)
  | 0x065 => some (.a .acq)
  | 0x066 => some (.a .rel)
  | 0x080 => some (.v .vadd)
  | 0x081 => some (.v .vsub)
  | 0x082 => some (.v .vmul)
  | 0x083 => some (.v .vmulh)
  | 0x084 => some (.v .vfma)
  | 0x085 => some (.v .vfms)
  | 0x086 => some (.v .vfnma)
  | 0x087 => some (.v .vdiv)
  | 0x088 => some (.v .vsqrt)
  | 0x089 => some (.v .vmin)
  | 0x08A => some (.v .vmax)
  | 0x08B => some (.v .vabs)
  | 0x08C => some (.v .vneg)
  | 0x08D => some (.v .vand)
  | 0x08E => some (.v .vor)
  | 0x08F => some (.v .vxor)
  | 0x090 => some (.v .vandn)
  | 0x091 => some (.v .vshl)
  | 0x092 => some (.v .vshr)
  | 0x093 => some (.v .vsha)
  | 0x094 => some (.v .vfsh)
  | 0x095 => some (.v .vclz)
  | 0x096 => some (.v .vpopc)
  | 0x097 => some (.v .vcmp)
  | 0x098 => some (.v .vsel)
  | 0x099 => some (.v .vcvt)
  | 0x09A => some (.v .vred)
  | 0x09B => some (.v .vgmax)
  | 0x09C => some (.v .vscan)
  | 0x09D => some (.v .vsld)
  | 0x09E => some (.v .vperm)
  | 0x09F => some (.v .vbcast)
  | 0x0A0 => some (.v .vext)
  | 0x0A1 => some (.v .vins)
  | 0x0A2 => some (.v .vseq)
  | 0x0A3 => some (.v .vrand)
  | 0x0A4 => some (.v .vsect)
  | 0x0A5 => some (.v .vcompress)
  | 0x0A6 => some (.v .vexpand)
  | 0x100 => some (.m .vldl)
  | 0x101 => some (.m .vldg)
  | 0x102 => some (.m .vstl)
  | 0x103 => some (.m .vstg)
  | 0x104 => some (.m .vldu)
  | 0x105 => some (.m .vstu)
  | 0x106 => some (.v .vgat)
  | 0x107 => some (.v .vsca)
  | 0x120 => some (.a .wand)
  | 0x121 => some (.a .wor)
  | 0x122 => some (.a .wxor)
  | 0x123 => some (.h .wnot)
  | 0x124 => some (.h .wpopc)
  | 0x125 => some (.h .wfirst)
  | 0x126 => some (.i .wset)
  | 0x140 => some (.w .amo)
  | 0x141 => some (.a .bar)
  | 0x142 => some (.a .fret)
  | 0x143 => some (.m .spawn)
  | 0x144 => some (.m .join)
  | 0x145 => some (.z .gang)
  | 0x146 => some (.z .solo)
  | 0x160 => some (.p .cpy)
  | 0x161 => some (.a .epop)
  | 0x162 => some (.p .gat)
  | 0x163 => some (.p .sca)
  | 0x164 => some (.p .chg)
  | 0x165 => some (.p .chs)
  | 0x166 => some (.h .evw)
  | 0x167 => some (.w .xbar)
  | 0x168 => some (.p .rset)
  | 0x169 => some (.a .rpush)
  | 0x16A => some (.a .rpop)
  | 0x180 => some (.p .mma)
  | 0x181 => some (.p .mmas)
  | 0x182 => some (.a .mzero)
  | 0x183 => some (.p .mdrain)
  | 0x184 => some (.p .mload)
  | 0x185 => some (.p .mred)
  | 0x186 => some (.m .mq)
  | 0x187 => some (.a .mstat)
  | 0x1C0 => some (.i .cget)
  | 0x1C1 => some (.i .cset)
  | 0x1C2 => some (.i .trap)
  | 0x1C3 => some (.i .svc)
  | 0x1C4 => some (.z .kret)
  | 0x1C5 => some (.a .tlbinv)
  | 0x1C6 => some (.z .halt)
  | _ => none

/-- The decoder: a head and the tail bits placed for it (R118 steps 2 to 4). -/
def decode (head tail : Nat) : Except DecodeFault Instr :=
  match opcodeRow (head / 2 ^ 7 % 2 ^ 9) with
  | none => .error .opcode
  | some row =>
    if head / 2 ^ 4 % 2 ^ 3 ≠ row.tl then .error .format
    else
      let i := row.build (Guard.ofNat (head % 2 ^ 4)) tail
      match firstBad (fieldChecks i) with
      | some f => .error f
      | none => .ok i

/-- Opcode, guard and tail bits of an instruction of the map; none for the steps of the other agents. -/
def parts : Instr → Option (Nat × Guard × Nat)
  | .add g t => some (0x000, g, t.toNat)
  | .sub g t => some (0x001, g, t.toNat)
  | .addi g t => some (0x002, g, t.toNat)
  | .mul g t => some (0x003, g, t.toNat)
  | .mulh g t => some (0x004, g, t.toNat)
  | .mulhn g t => some (0x005, g, t.toNat)
  | .div g t => some (0x006, g, t.toNat)
  | .divn g t => some (0x007, g, t.toNat)
  | .rem g t => some (0x008, g, t.toNat)
  | .remn g t => some (0x009, g, t.toNat)
  | .and g t => some (0x00A, g, t.toNat)
  | .or g t => some (0x00B, g, t.toNat)
  | .xor g t => some (0x00C, g, t.toNat)
  | .andn g t => some (0x00D, g, t.toNat)
  | .orn g t => some (0x00E, g, t.toNat)
  | .shl g t => some (0x00F, g, t.toNat)
  | .shr g t => some (0x010, g, t.toNat)
  | .sha g t => some (0x011, g, t.toNat)
  | .rol g t => some (0x012, g, t.toNat)
  | .shli g t => some (0x013, g, t.toNat)
  | .shri g t => some (0x014, g, t.toNat)
  | .shai g t => some (0x015, g, t.toNat)
  | .roli g t => some (0x016, g, t.toNat)
  | .clz g t => some (0x017, g, t.toNat)
  | .ctz g t => some (0x018, g, t.toNat)
  | .popc g t => some (0x019, g, t.toNat)
  | .bfx g t => some (0x01A, g, t.toNat)
  | .bfi g t => some (0x01B, g, t.toNat)
  | .fsh g t => some (0x01C, g, t.toNat)
  | .min g t => some (0x01D, g, t.toNat)
  | .max g t => some (0x01E, g, t.toNat)
  | .minn g t => some (0x01F, g, t.toNat)
  | .maxn g t => some (0x020, g, t.toNat)
  | .sext g t => some (0x021, g, t.toNat)
  | .slt g t => some (0x022, g, t.toNat)
  | .sltn g t => some (0x023, g, t.toNat)
  | .seq g t => some (0x024, g, t.toNat)
  | .sne g t => some (0x025, g, t.toNat)
  | .csel g t => some (0x026, g, t.toNat)
  | .li g t => some (0x027, g, t.toNat)
  | .lea g t => some (0x028, g, t.toNat)
  | .mov g t => some (0x029, g, t.toNat)
  | .beq g t => some (0x040, g, t.toNat)
  | .bne g t => some (0x041, g, t.toNat)
  | .blt g t => some (0x042, g, t.toNat)
  | .bge g t => some (0x043, g, t.toNat)
  | .bltn g t => some (0x044, g, t.toNat)
  | .bgen g t => some (0x045, g, t.toNat)
  | .bz g t => some (0x046, g, t.toNat)
  | .bnz g t => some (0x047, g, t.toNat)
  | .j g t => some (0x048, g, t.toNat)
  | .jl g t => some (0x049, g, t.toNat)
  | .jr g t => some (0x04A, g, t.toNat)
  | .loop g t => some (0x04B, g, t.toNat)
  | .dly g t => some (0x04C, g, t.toNat)
  | .nop g => some (0x04D, g, 0)
  | .done g => some (0x04E, g, 0)
  | .qset g t => some (0x04F, g, t.toNat)
  | .qop g t => some (0x050, g, t.toNat)
  | .wait g t => some (0x051, g, t.toNat)
  | .fset g t => some (0x052, g, t.toNat)
  | .fclr g t => some (0x053, g, t.toNat)
  | .ftst g t => some (0x054, g, t.toNat)
  | .fwait g t => some (0x055, g, t.toNat)
  | .abort g => some (0x056, g, 0)
  | .abchk g t => some (0x057, g, t.toNat)
  | .ldl g t => some (0x060, g, t.toNat)
  | .ldg g t => some (0x061, g, t.toNat)
  | .stl g t => some (0x062, g, t.toNat)
  | .stg g t => some (0x063, g, t.toNat)
  | .fence g t => some (0x064, g, t.toNat)
  | .acq g t => some (0x065, g, t.toNat)
  | .rel g t => some (0x066, g, t.toNat)
  | .vadd g t => some (0x080, g, t.toNat)
  | .vsub g t => some (0x081, g, t.toNat)
  | .vmul g t => some (0x082, g, t.toNat)
  | .vmulh g t => some (0x083, g, t.toNat)
  | .vfma g t => some (0x084, g, t.toNat)
  | .vfms g t => some (0x085, g, t.toNat)
  | .vfnma g t => some (0x086, g, t.toNat)
  | .vdiv g t => some (0x087, g, t.toNat)
  | .vsqrt g t => some (0x088, g, t.toNat)
  | .vmin g t => some (0x089, g, t.toNat)
  | .vmax g t => some (0x08A, g, t.toNat)
  | .vabs g t => some (0x08B, g, t.toNat)
  | .vneg g t => some (0x08C, g, t.toNat)
  | .vand g t => some (0x08D, g, t.toNat)
  | .vor g t => some (0x08E, g, t.toNat)
  | .vxor g t => some (0x08F, g, t.toNat)
  | .vandn g t => some (0x090, g, t.toNat)
  | .vshl g t => some (0x091, g, t.toNat)
  | .vshr g t => some (0x092, g, t.toNat)
  | .vsha g t => some (0x093, g, t.toNat)
  | .vfsh g t => some (0x094, g, t.toNat)
  | .vclz g t => some (0x095, g, t.toNat)
  | .vpopc g t => some (0x096, g, t.toNat)
  | .vcmp g t => some (0x097, g, t.toNat)
  | .vsel g t => some (0x098, g, t.toNat)
  | .vcvt g t => some (0x099, g, t.toNat)
  | .vred g t => some (0x09A, g, t.toNat)
  | .vgmax g t => some (0x09B, g, t.toNat)
  | .vscan g t => some (0x09C, g, t.toNat)
  | .vsld g t => some (0x09D, g, t.toNat)
  | .vperm g t => some (0x09E, g, t.toNat)
  | .vbcast g t => some (0x09F, g, t.toNat)
  | .vext g t => some (0x0A0, g, t.toNat)
  | .vins g t => some (0x0A1, g, t.toNat)
  | .vseq g t => some (0x0A2, g, t.toNat)
  | .vrand g t => some (0x0A3, g, t.toNat)
  | .vsect g t => some (0x0A4, g, t.toNat)
  | .vcompress g t => some (0x0A5, g, t.toNat)
  | .vexpand g t => some (0x0A6, g, t.toNat)
  | .vldl g t => some (0x100, g, t.toNat)
  | .vldg g t => some (0x101, g, t.toNat)
  | .vstl g t => some (0x102, g, t.toNat)
  | .vstg g t => some (0x103, g, t.toNat)
  | .vldu g t => some (0x104, g, t.toNat)
  | .vstu g t => some (0x105, g, t.toNat)
  | .vgat g t => some (0x106, g, t.toNat)
  | .vsca g t => some (0x107, g, t.toNat)
  | .wand g t => some (0x120, g, t.toNat)
  | .wor g t => some (0x121, g, t.toNat)
  | .wxor g t => some (0x122, g, t.toNat)
  | .wnot g t => some (0x123, g, t.toNat)
  | .wpopc g t => some (0x124, g, t.toNat)
  | .wfirst g t => some (0x125, g, t.toNat)
  | .wset g t => some (0x126, g, t.toNat)
  | .amo g t => some (0x140, g, t.toNat)
  | .bar g t => some (0x141, g, t.toNat)
  | .fret g t => some (0x142, g, t.toNat)
  | .spawn g t => some (0x143, g, t.toNat)
  | .join g t => some (0x144, g, t.toNat)
  | .gang g => some (0x145, g, 0)
  | .solo g => some (0x146, g, 0)
  | .cpy g t => some (0x160, g, t.toNat)
  | .epop g t => some (0x161, g, t.toNat)
  | .gat g t => some (0x162, g, t.toNat)
  | .sca g t => some (0x163, g, t.toNat)
  | .chg g t => some (0x164, g, t.toNat)
  | .chs g t => some (0x165, g, t.toNat)
  | .evw g t => some (0x166, g, t.toNat)
  | .xbar g t => some (0x167, g, t.toNat)
  | .rset g t => some (0x168, g, t.toNat)
  | .rpush g t => some (0x169, g, t.toNat)
  | .rpop g t => some (0x16A, g, t.toNat)
  | .mma g t => some (0x180, g, t.toNat)
  | .mmas g t => some (0x181, g, t.toNat)
  | .mzero g t => some (0x182, g, t.toNat)
  | .mdrain g t => some (0x183, g, t.toNat)
  | .mload g t => some (0x184, g, t.toNat)
  | .mred g t => some (0x185, g, t.toNat)
  | .mq g t => some (0x186, g, t.toNat)
  | .mstat g t => some (0x187, g, t.toNat)
  | .cget g t => some (0x1C0, g, t.toNat)
  | .cset g t => some (0x1C1, g, t.toNat)
  | .trap g t => some (0x1C2, g, t.toNat)
  | .svc g t => some (0x1C3, g, t.toNat)
  | .kret g => some (0x1C4, g, 0)
  | .tlbinv g t => some (0x1C5, g, t.toNat)
  | .halt g => some (0x1C6, g, 0)
  | .plbaseWrite _ _ | .pclusWrite _ _ | .pstatWrite _ _ | .entryValidate _ _ | .contextRetire _ _
  | .contextRetirementEnd _ _ | .lqtailWrite _ _ _ _ | .lqctlEn _ _ _ | .lqctlTear _ _ _ | .teardownEnd _ _ _
  | .lqerrWrite _ _ _ | .fqtailWrite _ _ | .fqReplyRetry _ _ | .fqReplyResume _ _ | .fqReplyAbort _ _
  | .pdmgctxWrite _ | .hstatWrite _ | .horphRead | .hcorrWrite | .huncWrite
  | .hpermitWrite | .hgangWrite _ | .attestationRequest _ | .controlRegisterWrite _ _ | .queueWindowStage _ _ _
  | .queueWindowPush _ _ | .hostCxlMemRead _ _ | .hostCxlMemWrite _ _ | .hostAtomic _ | .hostSnoop _ _
  | .acceptanceRound _ | .sliceEnd _ | .entryDue _ _ | .recordProduce _ | .groupStart _ _
  | .footprintFetchComplete _ | .groupResume _ _ | .slotsExhausted _ _ | .commitBufferDrain _ | .commitPhaseStart _ _
  | .exchangePhaseStart _ _ | .fretComplete _ _ | .ilvRoundStart _ | .globalLoadPerformed _ _ | .storePerformed _ _
  | .amoPerformed _ _ | .flagWritePerformed _ _ | .divideComplete _ _ | .vectorLongComplete _ _ | .pageWalk _
  | .tlbinvComplete _ _ | .lineRefill _ _ | .lineWriteOut _ _ | .l2DirtyEvict _ _ | .scaleCacheFill _ _ _
  | .copyJobStart _ | .copyChunk _ | .indirectJobStart _ | .gatherChunk _ | .scatterChunk _
  | .scaAddMergePass _ | .scaAddApplyPass _ | .chainGather _ | .chsReadPass _ | .chsApplyPass _
  | .bridgeEvaluate _ | .mmaCommand _ | .mmasCommand _ | .zeroCommand _ | .drainCommand _
  | .loadCommand _ | .redCommand _ | .matrixCommandRetire _ | .governorWindow | .deferredTrap _
  | .abortLineArrive _ _ | .abortGroupStart _ | .launchComplete _ | .rollback _ _ | .correctableErrorRepair _
  | .tuningPass | .cellRetire _ | .throttleDown | .throttleUp | .overheatStop
  | .powerUp _ | .flitReceive _ _ | .nakReceive _ _ | .portDown _ | .launchGrantReceive _ _ _ _ _ _
  | .logEndMarkerReceive _ _ _ | .readyReceive _ _ _ | .remoteRequest _ | .ackReceive _ _ | .portRetrainComplete _
  | .cxlDeviceFailed _ | .softError _ | .quarantineRelease _ | .watchdogExpiry | .fixedEntryComplete _ _ => none

/-- The encoder: the head and the tail of an instruction (R102, R117). -/
def encode (i : Instr) : Option (Nat × Nat) :=
  match parts i with
  | none => none
  | some (opc, g, tail) =>
    match opcodeRow opc with
    | none => none
    | some row => some (opc * 2 ^ 7 + row.tl * 2 ^ 4 + g.toNat, tail)

/-- The instruction whose bits are w, numbered from the first word: the head in bits 15:0, the tail above it. -/
def decodeTableWord (nbits w : Nat) : Option Instr :=
  let v := w % 2 ^ nbits
  match decode (v % 2 ^ 16) (v / 2 ^ 16) with
  | .ok i => some i
  | .error _ => none

end Sys2Proof
end

