-- ==== Sys2Proof/Machine/Num.lean ====
section
/-!
DEFINITION. Number formats and arithmetic (02_number_formats R33 to R57): element types, the value of a pattern,
the one rounding of every result, conversions, fused and divided results, minimum and maximum. A finite value is a
dyadic number (-1)^neg * m * 2^e, so every exact result of the device is written exactly.
-/

namespace Sys2Proof.Machine

/-- The element types of R115, in the order of their codes. -/
inductive Ty where
  | i8 | i16 | i32 | i64 | n8 | n16 | n32 | n64
  | f16 | bf16 | f32 | f64 | e4m3 | e5m2 | e3m2 | e2m3 | e2m1 | e8m0
  deriving DecidableEq, Repr, Inhabited

/-- Rounding modes (R44) in the order of their codes (R115). -/
inductive Rnd where
  | rne | rtz | rup | rdn
  deriving DecidableEq, Repr, Inhabited

/-- An exact value: a NaN with its sign and payload (R40), an infinity, or (-1)^neg * m * 2^e (R37). -/
inductive FVal where
  | nan (neg : Bool) (payload : Nat)
  | inf (neg : Bool)
  | fin (neg : Bool) (m : Nat) (e : Int)
  deriving DecidableEq, Repr, Inhabited

/-- The type of a code of R115; the reserved codes never reach a meaning (they are refused at decode). -/
def Ty.ofCode : Nat → Ty
  | 0 => .i8 | 1 => .i16 | 2 => .i32 | 3 => .i64 | 4 => .n8 | 5 => .n16 | 6 => .n32 | 7 => .n64
  | 8 => .f16 | 9 => .bf16 | 10 => .f32 | 11 => .f64 | 12 => .e4m3 | 13 => .e5m2 | 14 => .e3m2
  | 15 => .e2m3 | 16 => .e2m1 | _ => .e8m0

def Rnd.ofCode : Nat → Rnd
  | 0 => .rne | 1 => .rtz | 2 => .rup | _ => .rdn

/-- Bits of an element (R33, R36). -/
def Ty.width : Ty → Nat
  | .i8 | .n8 | .e4m3 | .e5m2 | .e8m0 => 8
  | .i16 | .n16 | .f16 | .bf16 => 16
  | .i32 | .n32 | .f32 => 32
  | .i64 | .n64 | .f64 => 64
  | .e3m2 | .e2m3 => 6
  | .e2m1 => 4

/-- Lanes of a vector register (R151): a 6-bit type has 128 lanes in bytes 0 to 95. -/
def Ty.lanes : Ty → Nat
  | .e3m2 | .e2m3 => 128
  | t => 1024 / t.width

def Ty.isInt : Ty → Bool
  | .i8 | .i16 | .i32 | .i64 | .n8 | .n16 | .n32 | .n64 => true
  | _ => false

def Ty.isSigned : Ty → Bool
  | .i8 | .i16 | .i32 | .i64 => true
  | _ => false

/-- Trailing significand bits m (R36). -/
def Ty.sig : Ty → Nat
  | .f64 => 52 | .f32 => 23 | .f16 => 10 | .bf16 => 7 | .e5m2 => 2 | .e4m3 => 3 | .e3m2 => 2 | .e2m3 => 3
  | .e2m1 => 1 | _ => 0

/-- Exponent bits (R36). -/
def Ty.expo : Ty → Nat
  | .f64 => 11 | .f32 => 8 | .f16 => 5 | .bf16 => 8 | .e5m2 => 5 | .e4m3 => 4 | .e3m2 => 3 | .e2m3 => 2
  | .e2m1 => 2 | .e8m0 => 8 | _ => 0

/-- Exponent bias (R36). -/
def Ty.bias (t : Ty) : Nat := 2 ^ (t.expo - 1) - 1

/-- Formats with infinities (R36). -/
def Ty.hasInf : Ty → Bool
  | .f64 | .f32 | .f16 | .bf16 | .e5m2 => true
  | _ => false

/-- The largest finite value of a format as (significand, exponent of its unit) (R36). -/
def Ty.maxFin (t : Ty) : Nat × Int :=
  match t with
  | .e4m3 => (14, 5)
  | .e3m2 | .e2m3 | .e2m1 => (2 ^ (t.sig + 1) - 1, (2 ^ t.expo - 1 : Int) - t.bias - t.sig)
  | _ => (2 ^ (t.sig + 1) - 1, (2 ^ t.expo - 2 : Int) - t.bias - t.sig)

/-- The signed value of a w-bit pattern (R33). -/
def sInt (w n : Nat) : Int := if n % 2 ^ w < 2 ^ (w - 1) then (n % 2 ^ w : Nat) else (n % 2 ^ w : Nat) - (2 ^ w : Nat)

/-- The integer value of a pattern of an integer type (R33). -/
def intVal (t : Ty) (n : Nat) : Int := if t.isSigned then sInt t.width n else (n % 2 ^ t.width : Nat)

/-- `wrap(x, n)` (R57). -/
def wrapInt (w : Nat) (x : Int) : Nat := (x % ((2 ^ w : Nat) : Int)).toNat

def minInt (t : Ty) : Int := if t.isSigned then -((2 ^ (t.width - 1) : Nat) : Int) else 0
def maxInt (t : Ty) : Int := if t.isSigned then ((2 ^ (t.width - 1) : Nat) : Int) - 1 else ((2 ^ t.width : Nat) : Int) - 1

/-- `sat(x, lo, hi)` (R57). -/
def satInt (lo hi x : Int) : Int := if x < lo then lo else if x > hi then hi else x

/-- An exact integer result in a type: wrapped, or clamped by `.sat` (R34). -/
def intResult (t : Ty) (sat : Bool) (x : Int) : Nat :=
  wrapInt t.width (if sat then satInt (minInt t) (maxInt t) x else x)

/-- The exact value of an integer as a floating-point operand. -/
def FVal.ofInt (x : Int) : FVal := .fin (decide (x < 0)) x.natAbs 0

/-- `decode(p, t)` (R57; R33, R37, R38, R40). -/
def decodeVal (t : Ty) (p : Nat) : FVal :=
  if t.isInt then FVal.ofInt (intVal t p) else
  match t with
  | .e8m0 => if p % 256 = 255 then .nan false 0 else .fin false 1 ((p % 256 : Nat) - 127 : Int)
  | _ =>
    let m := p % 2 ^ t.sig
    let ex := p / 2 ^ t.sig % 2 ^ t.expo
    let s := decide (p / 2 ^ (t.width - 1) % 2 = 1)
    if t.hasInf ∧ ex = 2 ^ t.expo - 1 then
      if m = 0 then .inf s else .nan s (m % 2 ^ (t.sig - 1))
    else if t = .e4m3 ∧ ex = 15 ∧ m = 7 then .nan s 0
    else if ex = 0 then .fin s m ((1 : Int) - t.bias - t.sig)
    else .fin s (2 ^ t.sig + m) ((ex : Int) - t.bias - t.sig)

/-- A NaN in a format (R42): its sign, the quiet bit, its payload reduced to the format's bits. -/
def nanPattern (t : Ty) (neg : Bool) (payload : Nat) : Nat :=
  match t with
  | .e4m3 => if neg then 0xFF else 0x7F
  | .f64 | .f32 | .f16 | .bf16 | .e5m2 =>
    (if neg then 2 ^ (t.width - 1) else 0) + (2 ^ t.expo - 1) * 2 ^ t.sig + 2 ^ (t.sig - 1) + payload % 2 ^ (t.sig - 1)
  | .e8m0 => 0xFF
  | _ => 0

def signBit (t : Ty) (neg : Bool) : Nat := if neg then 2 ^ (t.width - 1) else 0

def infPattern (t : Ty) (neg : Bool) : Nat := signBit t neg + (2 ^ t.expo - 1) * 2 ^ t.sig

/-- The pattern of significand n in units of 2^q, where n has at most sig + 1 bits (R36). -/
def finPattern (t : Ty) (neg : Bool) (n : Nat) (q : Int) : Nat :=
  if n < 2 ^ t.sig then signBit t neg + n
  else signBit t neg + (q + t.sig + t.bias).toNat * 2 ^ t.sig + (n - 2 ^ t.sig)

def maxPattern (t : Ty) (neg : Bool) : Nat := finPattern t neg t.maxFin.1 t.maxFin.2

/-- `overflow(x, t, mode, s)`: the table of R45. -/
def overflowPattern (t : Ty) (r : Rnd) (sat : Bool) (neg : Bool) : Nat :=
  if sat then maxPattern t neg
  else if t = .e4m3 then nanPattern t neg 0
  else if t.hasInf then
    match r, neg with
    | .rne, _ => infPattern t neg
    | .rtz, _ => maxPattern t neg
    | .rup, false => infPattern t neg
    | .rup, true => maxPattern t neg
    | .rdn, true => infPattern t neg
    | .rdn, false => maxPattern t neg
  else maxPattern t neg

/-- The integer nearest m / 2^k in a mode, for a number of the given sign (R44). -/
def roundShift (r : Rnd) (neg : Bool) (m k : Nat) : Nat :=
  let n := m / 2 ^ k
  let rem := m % 2 ^ k
  if rem = 0 then n else
  match r with
  | .rne => if 2 * rem > 2 ^ k ∨ (2 * rem = 2 ^ k ∧ n % 2 = 1) then n + 1 else n
  | .rtz => n
  | .rup => if neg then n else n + 1
  | .rdn => if neg then n + 1 else n

/-- m * 2^e rounded to a multiple of 2^q: the multiple. -/
def roundTo (r : Rnd) (neg : Bool) (m : Nat) (e q : Int) : Nat :=
  if q ≤ e then m * 2 ^ (e - q).toNat else roundShift r neg m (q - e).toNat

/-- `round(x, t, mode, s)` to a floating-point type (R57, R44, R45, R46): the pattern. -/
def roundF (t : Ty) (r : Rnd) (sat : Bool) (x : FVal) : Nat :=
  match x with
  | .nan neg p => nanPattern t neg p
  | .inf neg => if sat ∨ ¬ t.hasInf then overflowPattern t r sat neg else infPattern t neg
  | .fin neg m e =>
    if m = 0 then signBit t neg else
    let ex : Int := max ((Nat.log2 m : Int) + e) (1 - (t.bias : Int))
    let q : Int := ex - t.sig
    let n := roundTo r neg m e q
    let nq : Nat × Int := if n = 2 ^ (t.sig + 1) then (2 ^ t.sig, q + 1) else (n, q)
    if nq.2 > t.maxFin.2 ∨ (nq.2 = t.maxFin.2 ∧ nq.1 > t.maxFin.1) then overflowPattern t r sat neg
    else finPattern t neg nq.1 nq.2

/-- Conversion of a value to an integer type (R49): rounded, then clamped; NaN gives 0. -/
def roundI (t : Ty) (r : Rnd) (x : FVal) : Nat :=
  match x with
  | .nan _ _ => 0
  | .inf neg => wrapInt t.width (if neg then minInt t else maxInt t)
  | .fin neg m e =>
    let n := roundTo r neg m e 0
    wrapInt t.width (satInt (minInt t) (maxInt t) (if neg then -(n : Int) else n))

/-- A conversion between two types (R48, R49). -/
def convert (td ts : Ty) (r : Rnd) (sat : Bool) (p : Nat) : Nat :=
  if td.isInt then
    if ts.isInt then intResult td sat (intVal ts p) else roundI td r (decodeVal ts p)
  else if td = .e8m0 then p
  else roundF td r sat (decodeVal ts p)

/-- A pair R48 calls no conversion. -/
def convertible (td ts : Ty) : Bool :=
  if td = .e8m0 then false
  else if ts = .e8m0 then td = .f64 ∨ td = .f32 ∨ td = .f16 ∨ td = .bf16
  else true

/-- Narrow destinations round only with `rne` (R46). -/
def Ty.narrow : Ty → Bool
  | .e4m3 | .e5m2 | .e3m2 | .e2m3 | .e2m1 => true
  | _ => false

def FVal.isNan : FVal → Bool
  | .nan _ _ => true
  | _ => false

def FVal.isZero : FVal → Bool
  | .fin _ m _ => m = 0
  | _ => false

/-- The exact value negated; a NaN is not changed (R159). -/
def FVal.neg : FVal → FVal
  | .nan s p => .nan s p
  | .inf s => .inf (!s)
  | .fin s m e => .fin (!s) m e

def FVal.sign : FVal → Bool
  | .nan s _ => s
  | .inf s => s
  | .fin s _ _ => s

def defaultNan : FVal := .nan false 0

/-- The first NaN operand (R41), if any. -/
def firstNan : List FVal → Option FVal
  | [] => none
  | .nan s p :: _ => some (.nan s p)
  | _ :: xs => firstNan xs

/-- The signed significand of a finite value in units of 2^q (q at most its exponent). -/
def scaled (neg : Bool) (m : Nat) (e q : Int) : Int :=
  let n : Int := m * 2 ^ (e - q).toNat
  if neg then -n else n

/-- The exact sum of two values (R41, R44); the sign of an exact zero follows the mode. -/
def FVal.add (r : Rnd) : FVal → FVal → FVal
  | .nan s p, _ => .nan s p
  | _, .nan s p => .nan s p
  | .inf s, .inf s' => if s = s' then .inf s else defaultNan
  | .inf s, _ => .inf s
  | _, .inf s => .inf s
  | .fin s m e, .fin s' m' e' =>
    let q := min e e'
    let x := scaled s m e q + scaled s' m' e' q
    if x = 0 then .fin (if s = s' then s else decide (r = .rdn)) 0 q
    else .fin (decide (x < 0)) x.natAbs q

/-- The exact product (R41). -/
def FVal.mul : FVal → FVal → FVal
  | .nan s p, _ => .nan s p
  | _, .nan s p => .nan s p
  | .inf s, .inf s' => .inf (s != s')
  | .inf s, .fin s' m _ => if m = 0 then defaultNan else .inf (s != s')
  | .fin s m _, .inf s' => if m = 0 then defaultNan else .inf (s != s')
  | .fin s m e, .fin s' m' e' => .fin (s != s') (m * m') (e + e')

/-- The exact a*b + c with the NaN order a, b, c (R57 `fma`). -/
def FVal.fma (r : Rnd) (a b c : FVal) : FVal :=
  match firstNan [a, b, c] with
  | some n => n
  | none => FVal.add r (FVal.mul a b) c

/-- A quotient with enough bits and a sticky bit, so that one rounding of it is the rounding of a / b. -/
def FVal.div : FVal → FVal → FVal
  | .nan s p, _ => .nan s p
  | _, .nan s p => .nan s p
  | .inf _, .inf _ => defaultNan
  | .inf s, .fin s' _ _ => .inf (s != s')
  | .fin s _ _, .inf s' => .fin (s != s') 0 0
  | .fin s m e, .fin s' m' e' =>
    if m' = 0 then if m = 0 then defaultNan else .inf (s != s')
    else if m = 0 then .fin (s != s') 0 0
    else
      let k := 70 + Nat.log2 m'
      let n := m * 2 ^ k
      .fin (s != s') (2 * (n / m') + (if n % m' = 0 then 0 else 1)) (e - e' - k - 1)

/-- The integer square root by bits, from bit k - 1 down. -/
def isqrtFrom (n : Nat) : Nat → Nat → Nat
  | 0, acc => acc
  | k + 1, acc => isqrtFrom n k (if (acc + 2 ^ k) * (acc + 2 ^ k) ≤ n then acc + 2 ^ k else acc)

/-- A square root with enough bits and a sticky bit (R160). -/
def FVal.sqrt : FVal → FVal
  | .nan s p => .nan s p
  | .inf s => if s then defaultNan else .inf s
  | .fin s m e =>
    if m = 0 then .fin s 0 0
    else if s then defaultNan
    else
      let me : Nat × Int := if e % 2 = 0 then (m, e) else (2 * m, e - 1)
      let n := me.1 * 2 ^ 140
      let r := isqrtFrom n 128 0
      .fin false (2 * r + (if r * r = n then 0 else 1)) (me.2 / 2 - 70 - 1)

/-- The order of two values that are no NaN: less than. -/
def FVal.lt : FVal → FVal → Bool
  | .nan _ _, _ => false
  | _, .nan _ _ => false
  | .inf s, .inf s' => s && !s'
  | .inf s, .fin _ _ _ => s
  | .fin _ _ _, .inf s => !s
  | .fin s m e, .fin s' m' e' => decide (scaled s m e (min e e') < scaled s' m' e' (min e e'))

/-- Equality of two values that are no NaN; -0 equals +0 (R56). -/
def FVal.eqv (a b : FVal) : Bool := !a.isNan && !b.isNan && !a.lt b && !b.lt a

/-- Less than with -0 below +0 (R56). -/
def FVal.ltZ (a b : FVal) : Bool := a.lt b || (a.isZero && b.isZero && a.sign && !b.sign)

/-- Floating-point minimum and maximum of two patterns (R56, R41). -/
def fMinMax (t : Ty) (isMax : Bool) (p q : Nat) : Nat :=
  let a := decodeVal t p
  let b := decodeVal t q
  match firstNan [a, b] with
  | some n => roundF t .rne false n
  | none => if isMax then (if a.ltZ b then q else p) else (if b.ltZ a then q else p)

/-- Minimum and maximum in any INT or FLT type. -/
def tyMinMax (t : Ty) (isMax : Bool) (p q : Nat) : Nat :=
  if t.isInt then
    if isMax then (if intVal t p < intVal t q then q else p) else (if intVal t q < intVal t p then q else p)
  else fMinMax t isMax p q

def tyAdd (t : Ty) (r : Rnd) (sat : Bool) (p q : Nat) : Nat :=
  if t.isInt then intResult t sat (intVal t p + intVal t q)
  else roundF t r sat (FVal.add r (decodeVal t p) (decodeVal t q))

/-- a - b: the NaN rule takes b's own sign, so the operand is negated only where it is no NaN. -/
def tySub (t : Ty) (r : Rnd) (sat : Bool) (p q : Nat) : Nat :=
  if t.isInt then intResult t sat (intVal t p - intVal t q)
  else roundF t r sat (FVal.add r (decodeVal t p) (decodeVal t q).neg)

def tyMul (t : Ty) (r : Rnd) (sat : Bool) (p q : Nat) : Nat :=
  if t.isInt then intResult t sat (intVal t p * intVal t q)
  else roundF t r sat (FVal.mul (decodeVal t p) (decodeVal t q))

/-- The three fused forms of R159: negP negates the product, negC the addend. -/
def tyFma (t : Ty) (r : Rnd) (sat negP negC : Bool) (p q c : Nat) : Nat :=
  if t.isInt then
    let x := intVal t p * intVal t q
    intResult t sat ((if negP then -x else x) + (if negC then -intVal t c else intVal t c))
  else
    let a := decodeVal t p
    let a' := if negP then a.neg else a
    let cv := decodeVal t c
    let c' := if negC then cv.neg else cv
    roundF t r sat (FVal.fma r a' (decodeVal t q) c')

/-- The quotient and remainder of R35 in an integer type. -/
def divI (t : Ty) (p q : Nat) : Nat :=
  if intVal t q = 0 then 2 ^ t.width - 1 else wrapInt t.width (Int.tdiv (intVal t p) (intVal t q))

def remI (t : Ty) (p q : Nat) : Nat :=
  if intVal t q = 0 then p % 2 ^ t.width else wrapInt t.width (Int.tmod (intVal t p) (intVal t q))

def tyDiv (t : Ty) (r : Rnd) (sat : Bool) (p q : Nat) : Nat :=
  if t.isInt then divI t p q else roundF t r sat (FVal.div (decodeVal t p) (decodeVal t q))

/-- f64 and f32 helpers of the engines and the matrix unit, rounded to nearest even. -/
def fmaRne (t : Ty) (p q c : Nat) : Nat := tyFma t .rne false false false p q c
def addRne (t : Ty) (p q : Nat) : Nat := tyAdd t .rne false p q
def mulRne (t : Ty) (p q : Nat) : Nat := tyMul t .rne false p q

end Sys2Proof.Machine
end

