-- ==== Sys2Proof/Config.lean ====
section
/-!
DEFINITION. What the spec leaves to the device, as constants with no value: the schedule (which agent moves next,
and how long an unspecified duration lasts) and every free value. Nothing can be proved about them, so a theorem
about the model holds for each of their values (notes/assumptions 3, 5, 9, 10, 11, 13).
-/

namespace Sys2Proof

/-- One move of the machine: a core issues its next instruction, another agent makes one step of the table, or
one fclk passes. -/
inductive Choice where
  | issue (core : Nat)
  | event (e : Instr)
  | tick
  deriving DecidableEq, Repr, Inhabited

/-- The schedule: the n-th move that the agenda of the state does not fix (log 3). -/
opaque Config.choice : Nat → Choice

/-- The n-th free choice made for group gid: which value a word of an early or pending read takes (R126, R132),
whether a plain load is served by the read cache (R182) (log 5). -/
opaque Config.pick : Nat → Nat → Nat

/-- Sectors that a compressed line takes, less one (R188) (log 9). -/
opaque Config.compressed : BitVec 2048 → Nat

/-- Device-private bytes of a group's image slot (R339) (log 10). -/
opaque Config.imageByte : Nat → Nat → Byte

/-- The two signatures of an attestation report body (R388) (log 11). -/
opaque Config.signature : List Byte → List Byte

/-- CRC-64 of the bytes of a flit (R382 names no polynomial) (log 11). -/
opaque Config.crc64 : List Byte → Nat

/-- The 64-bit digest of a launch record that the packages of a gang compare (R385) (log 11). -/
opaque Config.digest : Nat → Nat

/-- What the sensors of TEMP and POWER of HPWR read in an fclk (R389) (log 2). -/
opaque Config.temperature : Nat → BitVec 16
opaque Config.power : Nat → BitVec 16

/-- Link permits that the n-th tuning pass finds lost or duplicated (R370) (log 2). -/
opaque Config.permits : Nat → Nat

/-- The n-th value that a load from a matrix queue window returns: the window takes stores only (R250) (log 5). -/
opaque Config.windowRead : Nat → Word

/-- A byte that a read of another package's memory returns in a draw: package, address, draw (R303) (log 6). -/
opaque Config.remoteByte : Nat → Nat → Nat → Byte

/-- What an operation performed in another package's memory returns in a draw: package, address, draw (R303) (log 6). -/
opaque Config.remoteResult : Nat → Nat → Nat → Nat

/-- Bytes of host memory after the host has taken a line to write it, at the n-th such time (R379) (log 6). -/
opaque Config.hostByte : Nat → Nat → Byte

/-- The payload of the n-th flit that carries a message of this package (R382 gives its kinds no codes) (log 60). -/
opaque Config.flitBody : Nat → Nat

/-- The n-th choice among free image slots (R340) (log 13). -/
opaque Config.slotChoice : Nat → Nat

/-- The line that a full L2 slice, or the granule that a full sync SRAM, gives up at the n-th such choice (log 5). -/
opaque Config.victim : Nat → Nat

/-- The line that a full instruction cache gives up at the n-th such choice (R120) (log 5). -/
opaque Config.evicted : Nat → Nat

/-- An element of an MX drain that a bound clamps in a block whose scale is NaN (R263 gives no result): of the output
type, the block's accumulators, the element's number and the clamp as an `f32` pattern (log 5). -/
opaque Config.unscaled : Nat → Nat → Nat → Nat → Nat

end Sys2Proof
end

