-- ==== Sys2Proof/Machine/State.lean ====
section
/-!
DEFINITION. The state of the device as plain data: clocks, the groups with everything R84, R89 and R339 give them,
the cores, the memory system, the launches, the launch-control registers, the dispatchers, the links and the health
window; and its value at reset. INVENTORY.md lists every field with its rule and reset value.
-/

namespace Sys2Proof.Machine

/-- Why the machine stops. -/
inductive Fault where
  /-- WATCHDOG_EXPIRY: the watchdog of the management core runs out; R373 names it and gives no effect. Safe. -/
  | watchdogEffectNotGiven
  deriving DecidableEq, Repr

/-- Why a step has no meaning here. -/
inductive Refusal where
  /-- An instruction whose meaning is not written yet (raised by the arms of Dispatch.lean only). Safe. -/
  | notModelled (mnemonic : String)
  /-- A step of another agent at a moment at which its rule does not let it happen (raised by the event meanings);
  `step` never returns it: the moment passes instead. Safe. -/
  | notEnabled
  /-- An instruction of the opcode map with no group on the issuing core to execute it (raised by every core
  instruction). Safe. -/
  | noRunningGroup
  deriving DecidableEq, Repr

/-- A sparse table: entries in ascending key order. -/
abbrev Tab (α : Type) := List (Nat × α)

/-- Bytes at addresses, ascending, with no entry equal to what an unlisted address reads as. -/
abbrev Memory := List Host.Cell

/-- What a byte that nothing has written reads as (DESIGN CHOICE, log 1). -/
def unlistedByte : Byte := 0

/-- Addresses strictly rise from above a bound, and no entry holds the unlisted value. -/
def memOrdered : Option Nat → Memory → Bool
  | _, [] => true
  | lo, (a, v) :: m => (match lo with | none => true | some l => decide (l < a)) && v != unlistedByte && memOrdered (some a) m

/-- The canonical form of a memory. -/
def Memory.wf (m : Memory) : Bool := memOrdered none m

/-- The clocks (R2, R390): counts of fclk and aclk, the fraction of an aclk passed (in units of 1/1200), aclk in MHz
(HPWR.ACLK), and the model's own mark that the moves of this fclk are over: bridges evaluate (R235) and commit phases
begin (R310) when it is set (log 3). -/
structure Clock where
  fclk : Nat
  aclk : Nat
  phase : Nat
  mhz : Nat
  closing : Bool
  deriving DecidableEq, Repr, Inhabited

/-- The element of a register file (R133 FILE numbers them in this order). -/
inductive RegRef where
  | x (n : Nat) | v (n : Nat) | w (n : Nat) | q (n : Nat) | lc (n : Nat) | acc (n : Nat)
  deriving DecidableEq, Repr, Inhabited

/-- Until when an older value of a register may still be read: an aclk (R126) or the release of a token entry (R132). -/
inductive Until where
  | aclk (t : Nat)
  | entry (tok id : Nat)
  deriving DecidableEq, Repr, Inhabited

/-- An alternative value of a register; `lat` is the producer's latency for the rule of second writes (R126). -/
structure Alt where
  reg : RegRef
  val : Nat
  till : Until
  lat : Nat
  deriving DecidableEq, Repr, Inhabited

/-- Which step of the table completes a token entry. -/
inductive EntryRow where
  | divide | vector | port | load | amo | ticketed | job | matrix | tlbinv | pop | none
  deriving DecidableEq, Repr, Inhabited

/-- An entry of a completion token (R129). -/
structure TokEntry where
  id : Nat
  row : EntryRow
  done : Bool
  /-- It counts a remote operation (R92, R131). -/
  remote : Bool
  /-- The exact aclk of its completion, where a rule gives one. -/
  due : Option Nat
  /-- Registers it writes (pending, R132), and the values where they are known at issue. -/
  dests : List RegRef
  writes : List (RegRef × Nat)
  /-- Destinations written by a later instruction meanwhile: either value may stand (R126). -/
  clash : List RegRef
  /-- The bytes of its vector destination that it writes (R154). -/
  mask : Mask
  deriving DecidableEq, Repr, Inhabited

/-- Loop state of one counter (R143). -/
structure Loop where
  active : Bool
  start : Word
  stop : Word
  inner : Bool
  deriving DecidableEq, Repr, Inhabited

/-- The trap registers (R331, R332) and kmode.STRICT (R128). -/
structure TrapRegs where
  qsave : BitVec 7
  lsave : BitVec 4
  deferBit : Bool
  cmpl : Bool
  inTrap : Bool
  cause : BitVec 8
  val : Word
  pc : Word
  vec : Word
  scratch : Word
  strict : Bool
  deriving DecidableEq, Repr, Inhabited

/-- A bound entry (R268); the reserved fields are zero by construction. -/
structure Bound where
  hi : BitVec 16
  lo : BitVec 16
  tid : BitVec 8
  v : Bool
  nan : Bool
  act : BitVec 2
  deriving DecidableEq, Repr, Inhabited

/-- The matrix control registers (R247, R259, R268, R270). -/
structure MatrixRegs where
  fa : BitVec 6
  fb : BitVec 6
  sa : BitVec 57
  sb : BitVec 57
  tida : BitVec 8
  tidb : BitVec 8
  gov : BitVec 7
  /-- BUDGET of the current window: a write of `mgov` takes effect from the next one (R259). -/
  govNow : BitVec 7
  stall : Word
  th : BitVec 48
  bnd : Vector Bound 16
  deriving DecidableEq, Repr, Inhabited

/-- A trap that is taken before the next instruction (R271, R309, R312, R392). -/
structure Deferred where
  cause : Nat
  val : Word
  /-- Raised by the matrix unit: the queue is halted until `kret` (R271). -/
  matrix : Bool
  deriving DecidableEq, Repr, Inhabited

/-- Where a physical access goes: the L2 slice of a home core, the sync engine of a die, a control register, host
memory through a slice, or another package; nowhere, when no core is left to be a home (R185; log 79). -/
inductive Place where
  | slice (core : Nat)
  | engine (die : Nat)
  | control
  | remote (pkg : Nat)
  | nowhere
  deriving DecidableEq, Repr, Inhabited

def Place.isRemote : Place → Bool
  | .remote _ => true
  | _ => false

/-- A translated access: physical address, place, memory type, homing tag; the partition and homing entry that give
its place (R184), none where the host attribute table does (R377); and the page bits of its leaf, 0 of a physical access. -/
structure Xlat where
  pa : Nat
  place : Place
  typ : Nat
  cmp : Bool
  homing : Option (Nat × BitVec 128)
  bits : Nat
  deriving DecidableEq, Repr, Inhabited

/-- What a global operation of a group does (R198, R199, R313, R320, R321, R322). -/
inductive GOpKind where
  /-- A load: the bytes of `mask` go to the registers named. -/
  | load (dest : List RegRef) (isVec : Bool) (mask : Mask)
  /-- A store of the bytes of `mask`. -/
  | store (data : Nat) (mask : Mask)
  | amo (op : Nat) (ty : Nat) (rd : Nat) (st : Bool) (b c : Nat) (dest : List RegRef)
  | spawn (child : Word) (dest : List RegRef)
  | join (dest : List RegRef)
  /-- A flag write: position of the cell, or none for the core itself (R147). -/
  | flag (target : Option Nat) (flag : Nat) (val : Bool)
  /-- A ticketed addition or update of one element by an engine job or a global drain (R211, R272). -/
  | red (ty rd : Nat) (st : Bool) (isFma : Bool) (a b : Nat)
  deriving DecidableEq, Repr, Inhabited

/-- A global operation issued and not yet performed. -/
structure GOp where
  id : Nat
  kind : GOpKind
  va : Nat
  size : Nat
  xl : Xlat
  entry : Option (Nat × Nat)
  acq : Bool
  rel : Bool
  /-- Releases issued before it (R203). -/
  epoch : Nat
  /-- Served by the read cache where it may be (plain load, Normal page, free launch). -/
  plain : Bool
  /-- Position among the group's ticketed instructions and pushes, and ordinal within a job (R307). -/
  seq : Nat
  sub : Nat
  issued : Nat
  /-- The core that issued it (R182). -/
  core : Option Nat
  deriving DecidableEq, Repr, Inhabited

/-- A dimension of a shape record (R214). -/
structure Dim where
  size : Nat
  sstr : Int
  dstr : Int
  deriving DecidableEq, Repr, Inhabited

/-- A shape record (R213, R214), parsed at issue. -/
structure Shape where
  ty : Nat
  fpe : Bool
  tidv : Bool
  tid : Nat
  perm : List Nat
  dims : List Dim
  esz : Nat
  ch0 : Nat
  deriving DecidableEq, Repr, Inhabited

/-- A copy command (R223); `shape` is none where the record is SHAPE. -/
structure CopyCmd where
  ds : Nat
  ss : Nat
  dbase : Word
  sbase : Word
  shape : Option Shape
  re : Bool
  ring : Nat
  flag : Option Nat
  entry : Option (Nat × Nat)
  seq : Nat
  /-- The push releases every operation with a smaller id (R207). -/
  after : Nat
  /-- Started by the exchange phase (R237). -/
  exch : Bool
  deriving DecidableEq, Repr, Inhabited

/-- A running fingerprint (R219): SUM, SSQ and AMAX as f64 patterns, NANC, and whether an element was no NaN. -/
structure Finger where
  sum : Nat
  ssq : Nat
  amax : Nat
  nanc : Nat
  deriving DecidableEq, Repr, Inhabited

/-- A running copy job (R217 to R221). -/
structure CopyJob where
  cmd : CopyCmd
  chunk : Nat
  fp : Finger
  bf : Bool
  elems : Nat
  /-- Lines of global memory that it has written at once (R209). -/
  lines : List Nat
  deriving DecidableEq, Repr, Inhabited

/-- A chain descriptor (R232). -/
structure Chain where
  bf16 : Bool
  b : Nat
  /-- For each factor: address, e_f, rk[f]. -/
  factors : List (Nat × Nat × Nat)
  deriving DecidableEq, Repr, Inhabited

/-- The operations of the indirect engine (R227). -/
inductive IndOp where
  | gat | sca | scaAdd | chg | chs
  deriving DecidableEq, Repr, Inhabited

/-- An indirect command (R227). -/
structure IndCmd where
  op : IndOp
  list : Nat
  clu : Nat
  n : Nat
  row : Nat
  stride : Nat
  base : Word
  ev : Nat
  desc : Option Chain
  eta : Nat
  ty : Nat
  rd : Nat
  st : Bool
  entry : Option (Nat × Nat)
  gid : Nat
  seq : Nat
  after : Nat
  exch : Bool
  /-- The fclk of the post and the core that made it (R206). -/
  at_ : Nat
  core : Nat
  deriving DecidableEq, Repr, Inhabited

/-- A running indirect job: next entry, and after a merge or read pass the sums or updates to apply, each with its
element address, its translation and its operands (R229, R234). -/
structure IndJob where
  cmd : IndCmd
  next : Nat
  oorc : Nat
  merged : Bool
  ups : List (Nat × Xlat × Nat)
  /-- The lowest poisoned element that the apply pass has met (R229). -/
  bad : Option Nat
  lines : List Nat
  deriving DecidableEq, Repr, Inhabited

/-- An armed command slot (R206, R223). -/
inductive Armed (α : Type) where
  | empty
  | bridge (c : α)
  | exchange (c : α)
  deriving DecidableEq, Repr, Inhabited

/-- An operand ring (R238). -/
structure Ring where
  base : Nat
  size : Nat
  tile : Nat
  head : BitVec 32
  tail : BitVec 32
  deriving DecidableEq, Repr, Inhabited

/-- An event counter of the bridge (R235): source as R236 codes it. -/
structure EvCount where
  src : Nat
  arg : Nat
  th : Nat
  c : Nat
  deriving DecidableEq, Repr, Inhabited

/-- A trigger of the bridge (R235, R236). -/
structure Trig where
  mask : BitVec 8
  act : Nat
  arg : Nat
  deriving DecidableEq, Repr, Inhabited

/-- The bridge: counters, terms, triggers, the events of this fclk, the triggers fired in the last one, actions that
wait for room, configuration that takes effect from the next fclk, and the fclk last evaluated. -/
structure Bridge where
  ec : Vector EvCount 16
  term : Vector (BitVec 16) 8
  trg : Vector Trig 8
  copyEvents : Nat
  indEvents : Nat
  flagEvents : List Nat
  fired : List Nat
  waiting : List (Nat × Nat)
  config : List (Nat × BitVec 23 × BitVec 32)
  last : Nat
  deriving DecidableEq, Repr, Inhabited

/-- A matrix command (R249): eight words, its token entry, its push position. -/
structure MCmd where
  words : List Word
  entry : Option (Nat × Nat)
  seq : Nat
  after : Nat
  deriving DecidableEq, Repr, Inhabited

/-- The latched scan of an MMAS (R280): the set bits of both bitmaps in ascending order, so that an element's value
number is its place in the list, and the k handled by the steps in order. -/
structure Scan where
  aBits : List Nat
  bBits : List Nat
  ks : List Nat
  deriving DecidableEq, Repr, Inhabited

/-- Progress of the head command (R256, R257, R281, R285). -/
structure MRun where
  started : Bool
  steps : Nat
  /-- aclk of array work, of the scan or of fixed time left before the next step boundary. -/
  left : Nat
  /-- Some of that time has passed: the step under way is made even when its group stops meanwhile (R256, R285). -/
  begun : Bool
  /-- The values of the step of an MMAS, read when it begins (R287): of A, of B, and the lowest poisoned address. -/
  vals : Option (List (Nat × Nat) × List (Nat × Nat) × Option Nat)
  /-- Global lines that a DRAIN has written (R272). -/
  lines : List Nat
  scan : Option Scan
  /-- Products of the open K-group: (row, column, a pattern, b pattern), in ascending k. -/
  openSums : List (Nat × Nat × Nat × Nat)
  satc : Nat
  nanr : Nat
  sov : Nat
  bf : Bool
  /-- Set when the last step is made or the command ends: its status. -/
  ending : Option Nat
  endVal : Word
  deriving DecidableEq, Repr, Inhabited

/-- The matrix unit of a group (R248, R267). -/
structure Matrix where
  queue : List MCmd
  run : MRun
  lastOp : Nat
  lastCode : Nat
  lastSteps : Nat
  lastBf : Bool
  lastCounts : BitVec 48
  werr : BitVec 8
  halted : Bool
  /-- Array steps made in the current governor window. -/
  windowSteps : Nat
  deriving DecidableEq, Repr, Inhabited

/-- Why the instruction at the pc does not issue. -/
inductive Stall where
  | none | wait (tok n : Nat) | token | fence | acq | bar (level : Nat) | fret | fwait (target : Option Nat) (flag : Nat)
  | evw (latch : Nat) | epop | done | gang | fifo | buffer | ring | tlb | refill (line : Nat) | refetch | member
  deriving DecidableEq, Repr, Inhabited

/-- Everything of a group that a snapshot covers and a rollback restores (R365). -/
structure Arch where
  x : Vector Word 64
  v : Vector VReg 32
  w : Vector Mask 8
  q : Vector Bool 8
  lc : Vector (BitVec 32) 2
  loops : Vector Loop 2
  /-- Loop state as trap entry found it, kept for `kret` (R333, R348). -/
  keptLoops : Vector Loop 2
  pc : Word
  k : TrapRegs
  m : MatrixRegs
  toks : Vector (List TokEntry) 32
  alts : List Alt
  deferred : List Deferred
  ls : Memory
  acc : Memory
  win : Memory
  flags : Vector Bool 1024
  /-- Poisoned 32-bit words of registers, 64-bit words of the local store, the accumulators and the window (R362). -/
  regPoison : List (RegRef × Nat)
  lsPoison : List Nat
  accPoison : List Nat
  winPoison : List Nat
  o1 : BitVec 12
  o2 : BitVec 12
  latches : BitVec 16
  copyIn : List CopyCmd
  copyJob : Option CopyJob
  copyOut : List (BitVec 256)
  copyLost : Bool
  indOut : List (BitVec 256)
  /-- For each completion element, the lines of global memory that its job wrote (R209). -/
  copyLines : List (List Nat)
  indLines : List (List Nat)
  /-- Token, entry and line of each global line of a retired DRAIN or a completed job that no `wait` has acquired yet (R272,
  R209). -/
  drains : List (Nat × Nat × Nat)
  indLost : Bool
  indPending : Nat
  copySlots : Vector (Armed CopyCmd) 4
  indSlots : Vector (Armed IndCmd) 4
  rings : Vector Ring 8
  bridge : Bridge
  mu : Matrix
  gops : List GOp
  /-- The commit buffer, oldest first (R306), and the next SEQ (R307). -/
  buffer : List GOp
  seq : Nat
  nextId : Nat
  epoch : Nat
  /-- Trap to take before the next instruction because a commit met poison (R312). -/
  commitPoison : Option Word
  /-- The open arrival was made within the handler that runs (R318). -/
  arrivedIn : Bool
  /-- Within a handler: the phase that the interrupted instruction had arrived at has completed with this status (R318). -/
  relOuter : Option Nat
  /-- A barrier of the handler that runs waits for the phase of an arrival made before the handler (R318). -/
  joinedIn : Bool
  /-- Global writes of the group while jobs of it are under way: position in program order, address, bytes, mask (R292). -/
  later : List (Nat × Nat × Nat × Nat)
  deriving DecidableEq, Repr, Inhabited

/-- Where a group is (R84, R85, R92 to R94, R335, R341, R356). -/
inductive GStatus where
  | fetching | running | parked | away | suspended | provisional
  deriving DecidableEq, Repr, Inhabited

/-- The reply that a suspended group waits for (R335): the cause and, for `svc`, the destination, and whether another
producer's value of it may stand beside the reply's (R126). -/
structure Suspended where
  cause : Nat
  dest : Nat
  link : Word
  clash : Bool
  deriving DecidableEq, Repr, Inhabited

/-- An instruction forwarded in a consort (R121): its PC, head and tail, the leader's next PC and issue time. -/
structure Forward where
  pc : Word
  instr : Instr
  next : Word
  link : Word
  at_ : Nat
  deriving DecidableEq, Repr, Inhabited

/-- A group's part in a consort (R121 to R123). -/
inductive Consort where
  | none
  | leader (members : List Nat)
  | follower (leader rank : Nat) (queue : List Forward)
  deriving DecidableEq, Repr, Inhabited

/-- A footprint region (R84): address, size in units of 256 bytes, local-store offset, stride in units of 256 bytes. -/
structure Region where
  addr : Nat
  nb : Nat
  lso : Nat
  str : Nat
  deriving DecidableEq, Repr, Inhabited

/-- A line of an L2 slice (R183, R364). -/
structure L2Line where
  valid : BitVec 8
  dirty : BitVec 8
  data : BitVec 2048
  poison : BitVec 8
  asid : BitVec 12
  badTag : Bool
  cmp : Bool
  deriving DecidableEq, Repr, Inhabited

/-- A granule of the sync-engine SRAM (R304). -/
structure Granule where
  data : BitVec 512
  dirty : Bool
  poison : Bool
  deriving DecidableEq, Repr, Inhabited

/-- The memory system (08, 15, 20): memory behind the caches, poisoned sectors, the stored length of compressed
lines less one (7 where unlisted), L2 lines keyed by home core and line, SRAM granules keyed by die and granule; and the
draw of other packages' memory that a read of it sees (R303; log 6). -/
structure MemSys where
  mem : Memory
  poison : List Nat
  hbmField : Tab Nat
  l2 : Tab L2Line
  sram : Tab Granule
  draw : Nat
  deriving DecidableEq, Repr, Inhabited

/-- A continuation record in the dispatcher (R84 to R88). -/
structure Rec where
  /-- Virtual and physical address and place of a record in Sync memory; none for a launch-derived record. -/
  addr : Option (Nat × Xlat)
  launch : Nat
  ticket : Word
  code : BitVec 51
  frame : BitVec 51
  prio : Nat
  regions : List Region
  team4 : Bool
  ready : Nat
  order : Nat
  home : Nat
  /-- It joined its launch during an open phase: its arrivals count from the next phase (R316). -/
  late : Bool
  /-- Records of its team that start together (R90): four, or those whose start was abandoned together (R89). -/
  mates : Nat
  /-- The read state that it keeps from the fret domain of a retired cell, until a commit of its new one (R372; log 48). -/
  ownView : Option MemSys
  deriving DecidableEq, Repr, Inhabited

/-- A group (04_placing; 17_interruption R339). -/
structure Group where
  gid : Nat
  recd : Rec
  core : Option Nat
  slot : Nat
  status : GStatus
  stall : Stall
  readyAt : Option Nat
  /-- Regions done and bytes done of the footprint fetch (R89), and the fault it met. -/
  fetchPos : Nat
  fetchFault : Option (Nat × Nat)
  pinned : List Nat
  arch : Arch
  snap : Option Arch
  /-- The status with which its `fret` had completed when the snapshot began (R366 step 7). -/
  snapReleased : Option Nat
  /-- Blocks copied aside since the fret, in the order of their copies (R365). -/
  capo : List Nat
  /-- 64-bit words of the capo in which an uncorrectable error arose: 32 for each block, the 33 of the image first. -/
  capoBad : List Nat
  /-- Memory-backed lines that lie in the group's slot (R341): 0 to 2047 by image offset, 2048 + j for capo block j. -/
  linesOut : List Nat
  /-- The core whose arrays hold the group's other lines: its own, or the one it left last (R341). -/
  linesOn : Option Nat
  /-- The open phase it has arrived at: level, 6 for a fret by commit wait (R311, R318). -/
  arrived : Option Nat
  /-- The phase it arrived at has completed with this status; 5 for a `wait` whose commit wait has ended (R312). -/
  released : Option Nat
  suspended : Option Suspended
  consort : Consort
  ganged : Bool
  /-- The PC that follows the instruction at pc without a transfer (R142), known when its line has been fetched. -/
  link : Word
  /-- The flag that its `fwait` awaits has become 1 (R147). -/
  flagSeen : Bool
  /-- Writes of its flags in one fclk: the fclk, and the flags with the order of their last writer (R148). -/
  flagNow : Nat × List (Nat × Nat)
  /-- One more than the aclk of the last ring update by the core or the matrix unit: the copy engine's goes first (R238). -/
  ringAt : Nat
  /-- The earliest aclk of the next issue (R124, R142, R145, R122). -/
  notBefore : Nat
  nfree : Nat
  isAbort : Bool
  deriving DecidableEq, Repr, Inhabited

/-- A translation (R191 to R193): address space, base and page bits, the leaf and its homing entry; `slot`: of an access
that spills or refills a line, which homing entry 0 governs (R184). -/
structure Tlb where
  asid : BitVec 12
  base : Nat
  bits : Nat
  leaf : Word
  homing : BitVec 128
  slot : Bool
  deriving DecidableEq, Repr, Inhabited

/-- A core's own storage that no image slot holds. -/
structure Core where
  group : Option Nat
  icache : Tab (BitVec 512)
  rcache : Tab (BitVec 256)
  tlb : List Tlb
  /-- Lines of the scale cache: tensor id, block number div 32, the 32 scales (R260). -/
  scales : List (Nat × Nat × BitVec 256)
  staging : Vector Word 7
  deriving DecidableEq, Repr, Inhabited

/-- A page walk requested by a core (R193): the group, the page, and whether it is stale by `tlbinv` (R349). -/
structure Walk where
  core : Nat
  gid : Nat
  va : Nat
  drop : Bool
  deriving DecidableEq, Repr, Inhabited

/-- Phases of a superstep (R96). -/
inductive Phase where
  | compute | arrival | commit | applying | committed | exchange
  deriving DecidableEq, Repr, Inhabited

/-- A logged operation (R307). -/
structure LogOp where
  ticket : Word
  op : GOp
  gid : Nat
  deriving DecidableEq, Repr, Inhabited

/-- A fret domain (R96, R97, R307, R309, R367). -/
structure Dom where
  phase : Phase
  view : Option MemSys
  log : List LogOp
  charge : Nat
  /-- Poison consumed in the superstep (R366): the consuming group and the address; and whether this superstep is a re-run (R367, R368). -/
  rollback : Option (Nat × Word)
  rerun : Bool
  exchAgain : Bool
  /-- Gang: end markers and readies received (R386), and whether this package has sent its ready. -/
  markers : List Nat
  readies : List Nat
  sentReady : Bool
  deriving DecidableEq, Repr, Inhabited

/-- A barrier object (R315). -/
structure BarObj where
  parent : Nat
  expect : Nat
  count : Nat
  kind : Nat
  phase : Bool
  /-- Members that joined during the open phase and count from the next (R97, R316). -/
  late : Nat
  /-- The object itself joined its parent during an open phase. -/
  lateUp : Bool
  deriving DecidableEq, Repr, Inhabited

/-- Modes of a launch (R68). -/
inductive Mode where
  | det | free | ilv
  deriving DecidableEq, Repr, Inhabited

/-- Where the abort group of a launch is (R358). -/
inductive AbortGroup where
  | notStarted | running | retired
  deriving DecidableEq, Repr, Inhabited

/-- A launch (03, 04, 20); its key in the device is its TREE number (R80). -/
structure Launch where
  part : Nat
  ctx : Nat
  queue : Nat
  firstpc : Word
  foot : Option Rec
  abortpc : Word
  doneVa : Nat
  /-- The translation of DONE made at validation (R393), until `tlbinv` removes it (R193). -/
  doneX : Option Xlat
  logq : Nat
  groups : Nat
  irq : Bool
  team4 : Bool
  scope : Nat
  mode : Mode
  seed : Word
  dit : Bool
  field : BitVec 16
  accepted : Nat
  /-- Home cells by position in the cell list of the acceptance, each with the next group index to produce (R82, R86). -/
  cells : List (Nat × Nat)
  /-- KiB of the log pool reserved (R71). -/
  quota : Nat
  /-- Abort line: clusters in which it is raised, and when it was first raised (R149). -/
  raised : List Nat
  raisedAt : Option Nat
  torn : Bool
  doms : Tab Dom
  bars : Tab BarObj
  /-- Children armed and not ready (R359): record address and translation. -/
  armed : List (Nat × Xlat)
  live : Nat
  groupsDone : Nat
  childDone : Nat
  discard : Nat
  strand : Nat
  rollb : Nat
  frets : Nat
  commits : Nat
  abortGroup : AbortGroup
  grants : List Nat
  digest : Nat
  /-- Memory as the launch's last commit left it, or its acceptance (R358). -/
  lastView : Option MemSys
  /-- Read states of groups not yet produced, by position, that a retired cell has moved to another fret domain (R372; log 48). -/
  posViews : Tab MemSys
  /-- The final commit of the launch's gang domain has ended here (R98, R386). -/
  finalDone : Bool
  deriving DecidableEq, Repr, Inhabited

/-- What a runnable-list entry latches at validation (R61). -/
structure Latched where
  ptroot : Nat
  backing : Nat
  asid : BitVec 12
  pool : Nat
  poolsz : Nat
  nslot : Nat
  deriving DecidableEq, Repr, Inhabited

/-- A context (R61, R62, R63, R73, R76, R337, R380). -/
structure Ctx where
  latched : Option Latched
  retiring : Bool
  readySince : Option Nat
  lastQueue : Nat
  seqs : Vector Nat 5
  poolUsed : Nat
  fqHead : BitVec 32
  fqTail : BitVec 32
  fqLost : BitVec 16
  fqTick : Word
  fqVal : Word
  intv : BitVec 27
  damaged : Bool
  deriving DecidableEq, Repr, Inhabited

/-- The head record that a queue has read and found valid while it waits (R69, R70, R393; log 61): the record, the
translations of DONE and PRED made at its validation, its footprint template, the launch that it awaits and the final
status of its predecessor, once found. -/
structure Held where
  record : Nat
  /-- None once `tlbinv` has removed it: then it is made again where it is needed (R193); so too within `pred`. -/
  done : Option Xlat
  pred : Option (Option Xlat)
  foot : Option Nat
  awaits : Option Nat
  status : Option Nat
  deriving DecidableEq, Repr, Inhabited

/-- A launch queue (R64). -/
structure LQueue where
  base : Word
  log2n : Nat
  head : BitVec 32
  tail : BitVec 32
  state : Nat
  errCount : BitVec 16
  errCode : BitVec 8
  errIndex : BitVec 32
  held : Option Held
  deriving DecidableEq, Repr, Inhabited

/-- A partition (R58, R63, R344). -/
structure Part where
  plbase : Word
  pclus : Word
  err : BitVec 8
  dmgVa : BitVec 57
  dmgCtx : BitVec 7
  running : Option Nat
  sliceEnd : Nat
  /-- The fclk at which the running entry began its slice as a due one (R63). -/
  dueRun : Option Nat
  /-- The entry whose turn of the walk came last (R63). -/
  last : Nat
  rescue : Nat
  deriving DecidableEq, Repr, Inhabited

/-- The indirect engine of a cluster (R206, R343). -/
structure Indirect where
  queue : List IndCmd
  job : Option IndJob
  /-- Jobs set aside at a slice end: context, running job, queued jobs (R343). -/
  aside : List (Nat × Option IndJob × List IndCmd)
  deriving DecidableEq, Repr, Inhabited

/-- A Clagon port (R382, R383). -/
structure Port where
  up : Bool
  retraining : Option Nat
  sendSeq : Nat
  recvSeq : Nat
  retry : List (Nat × List Byte)
  /-- Replays running of kept flits, by SEQ (R383). -/
  replays : Tab Nat
  deriving DecidableEq, Repr, Inhabited

/-- A message that leaves the package (an output). -/
inductive OutMsg where
  | interrupt (vector : Nat)
  | hostData (data : List Byte) (error : Bool)
  | report (body sig : List Byte)
  | snoopData (data : List Byte) (poison : Bool)
  /-- A host-cached line of 64 bytes is taken back from the host (R376). -/
  | backInval (line : Nat)
  | ack (port seq : Nat)
  | nak (port seq : Nat)
  | flit (port : Nat) (data : List Byte)
  /-- A gang launch's LAUNCH field and digest for the record at a position of a queue (R385). -/
  | grant (pkg part ctx queue pos field digest : Nat)
  /-- The record at that position was rejected for its digest (R385). -/
  | mismatch (pkg part ctx queue pos : Nat)
  | marker (pkg launch dom : Nat)
  | ready (pkg launch dom : Nat)
  | logged (pkg : Nat) (op : LogOp)
  | remoteStore (pkg pa n v mask : Nat)
  /-- A read of another package's memory (R303). -/
  | remoteLoad (pkg pa n : Nat)
  /-- What another package's request is answered with (R382). -/
  | answer (pkg : Nat) (data : List Byte) (error : Bool)
  /-- An operation that is performed at its home on another package (R303). -/
  | remoteOp (pkg : Nat) (op : GOp)
  | gang (pkg launch : Nat) (msg : GangMsg)
  deriving DecidableEq, Repr, Inhabited

/-- An invalidation in flight (R349): group, token entry, cores, address space, the page or all, aclk of issue. -/
structure Inval where
  gid : Nat
  tok : Nat
  id : Nat
  cores : List Nat
  asid : BitVec 12
  page : Option Nat
  at_ : Nat
  deriving DecidableEq, Repr, Inhabited

/-- The device. -/
structure Dev where
  /-- The core that the current instruction issues on. -/
  cur : Nat
  cores : Tab Core
  groups : Tab Group
  nextGid : Nat
  ms : MemSys
  shadow : Tab Bool
  quarantine : List Nat
  walks : Tab (List Walk)
  invals : List Inval
  pools : Tab (List Rec)
  overflow : Tab (List Rec)
  order : Nat
  indirect : Tab Indirect
  clusterMem : Tab Memory
  clusterPoison : Tab (List Nat)
  parts : Tab Part
  ctxs : Tab Ctx
  queues : Tab LQueue
  edges : List (Nat × Nat)
  /-- Cores of the fault-queue entries that each context's queue got in this fclk, ascending (R337). -/
  fqNow : Tab (List Nat)
  /-- Entries that lost the last place of their queue to a lower core of the same fclk: partition, context, entry (R337). -/
  displaced : List (Nat × Nat × Nat)
  launches : Tab Launch
  nextTree : Nat
  /-- Health window (R389). -/
  bootWarn : BitVec 8
  bootErr : BitVec 8
  replace : Bool
  linkdn : Bool
  hstate : BitVec 4
  orphans : List Nat
  hcorr : Word
  hunc : Word
  hpermit : Word
  uncTh : BitVec 16
  corTh : BitVec 16
  /-- HPWR.TEMP and HPWR.POWER as last sensed (R389), and since when POWER has been above 2,600 W (R390). -/
  temp : BitVec 16
  power : BitVec 16
  overSince : Option Nat
  hgang : Word
  cellCorr : Tab Nat
  cellUnc : Tab Nat
  /-- fclk of the last tuning pass of each die (R370). -/
  lastAudit : Vector Nat 2
  /-- Cells retired (R4, R372), sites (R387) and the retirement list in flash. -/
  retired : List Nat
  siteOf : Tab Nat
  retireList : List Nat
  /-- Use of each site in the configuration record: 0 enabled, 1 spare, 2 defective (R387). -/
  harvest : List Nat
  config : List Byte
  firmware : Nat
  hostAttr : Tab (BitVec 256)
  msixTable : Tab Word
  msixPending : Tab Word
  ports : Vector Port 6
  routes : Tab Nat
  cxlUp : Vector Bool 4
  cxlCap : Vector Nat 4
  /-- 64-byte lines of device memory that the host may hold in its caches (R376). -/
  hostLines : List Nat
  out : List OutMsg
  /-- Launch fields granted by package 0 (R385): partition, context, queue, position, field, digest. -/
  grants : List (Nat × Nat × Nat × Nat × Nat × Nat)
  windowAt : Nat
  /-- Correctable upsets that no read has found yet (R369). -/
  upsets : List UpsetTarget
  nfree : Nat
  deriving DecidableEq, Repr, Inhabited

/-- The machine: the clocks, the moves laid down for it and the count of moves it has chosen (the model's own fields,
log 3), and the device. -/
structure State where
  clk : Clock
  agenda : List Choice
  nchoice : Nat
  dev : Dev
  deriving DecidableEq, Repr

/-- Loop state at group start (R143). -/
def Loop.reset : Loop := ⟨false, 0, 0, false⟩

/-- The trap registers at group start (R331, R332), with the entry's STRICT (R89). -/
def TrapRegs.reset (strict : Bool) : TrapRegs :=
  { qsave := 0, lsave := 0, deferBit := false, cmpl := false, inTrap := false, cause := 0, val := 0, pc := 0, vec := 0,
    scratch := 0, strict := strict }

def Bound.reset : Bound := ⟨0, 0, 0, false, false, 0⟩

/-- The matrix registers at group start (R247, R259, R268, R270). -/
def MatrixRegs.reset : MatrixRegs :=
  { fa := 10, fb := 10, sa := 0, sb := 0, tida := 0, tidb := 0, gov := 0, govNow := 0, stall := 0, th := 0,
    bnd := Vector.replicate 16 Bound.reset }

/-- The bridge at group start (R235): no source, threshold and count 0, empty masks. -/
def Bridge.reset : Bridge :=
  { ec := Vector.replicate 16 ⟨0, 0, 0, 0⟩, term := Vector.replicate 8 0, trg := Vector.replicate 8 ⟨0, 0, 0⟩,
    copyEvents := 0, indEvents := 0, flagEvents := [], fired := [], waiting := [], config := [], last := 0 }

def MRun.reset : MRun :=
  { started := false, steps := 0, left := 0, begun := false, vals := none, lines := [], scan := none, openSums := [], satc := 0, nanr := 0,
    sov := 0, bf := false, ending := none, endVal := 0 }

def Matrix.reset : Matrix :=
  { queue := [], run := MRun.reset, lastOp := 0, lastCode := 0, lastSteps := 0, lastBf := false, lastCounts := 0, werr := 0,
    halted := false, windowSteps := 0 }

/-- The state of a group at its start (R89): pc, x3 and STRICT from its record and entry, the rest as R89 lists. -/
def Arch.reset (pc x3 : Word) (strict : Bool) : Arch :=
  { x := (Vector.replicate 64 0).set 3 x3, v := Vector.replicate 32 0, w := (Vector.replicate 8 0).set 0 (BitVec.allOnes 128),
    q := Vector.replicate 8 true, lc := Vector.replicate 2 0, loops := Vector.replicate 2 Loop.reset, keptLoops := Vector.replicate 2 Loop.reset, pc := pc,
    k := TrapRegs.reset strict, m := MatrixRegs.reset, toks := Vector.replicate 32 [], alts := [], deferred := [], ls := [],
    acc := [], win := [], flags := Vector.replicate 1024 false, regPoison := [], lsPoison := [], accPoison := [],
    winPoison := [], o1 := 0, o2 := 0, latches := 0, copyIn := [], copyJob := none, copyOut := [], copyLost := false,
    indOut := [], copyLines := [], indLines := [], drains := [], indLost := false, indPending := 0, copySlots := Vector.replicate 4 .empty,
    indSlots := Vector.replicate 4 .empty, rings := Vector.replicate 8 ⟨0, 0, 0, 0, 0⟩, bridge := Bridge.reset,
    mu := Matrix.reset, gops := [], buffer := [], seq := 0, nextId := 0, epoch := 0, commitPoison := none, arrivedIn := false, relOuter := none, joinedIn := false, later := [] }

def Core.reset : Core :=
  { group := none, icache := [], rcache := [], tlb := [], scales := [], staging := Vector.replicate 7 0 }

def MemSys.reset : MemSys := { mem := [], poison := [], hbmField := [], l2 := [], sram := [], draw := 0 }

def Part.reset : Part :=
  { plbase := 0, pclus := 0, err := 0, dmgVa := 0, dmgCtx := 0, running := none, sliceEnd := 0, dueRun := none, last := 63, rescue := 0 }

def Ctx.reset : Ctx :=
  { latched := none, retiring := false, readySince := none, lastQueue := 7, seqs := Vector.replicate 5 0, poolUsed := 0,
    fqHead := 0, fqTail := 0, fqLost := 0, fqTick := 0, fqVal := 0, intv := 0, damaged := false }

def LQueue.reset : LQueue :=
  { base := 0, log2n := 4, head := 0, tail := 0, state := 0, errCount := 0, errCode := 0, errIndex := 0, held := none }

def Port.reset : Port := { up := false, retraining := none, sendSeq := 0, recvSeq := 0, retry := [], replays := [] }

def Indirect.reset : Indirect := { queue := [], job := none, aside := [] }

/-- The device at reset: every register at the value of its field map (R58, R64, R337, R377, R380, R389), every queue
empty, no group, no launch, memory with nothing listed; where no rule gives a value, zero or empty (log 2). -/
def Dev.reset : Dev :=
  { cur := 0, cores := [], groups := [], nextGid := 0, ms := MemSys.reset, shadow := [], quarantine := [], walks := [],
    invals := [], pools := [], overflow := [], order := 0, indirect := [], clusterMem := [], clusterPoison := [],
    parts := [], ctxs := [], queues := [], edges := [], fqNow := [], displaced := [], launches := [], nextTree := 1, bootWarn := 0, bootErr := 0,
    replace := false, linkdn := false, hstate := 0, orphans := [], hcorr := 0, hunc := 0, hpermit := 0, uncTh := 2,
    corTh := 64, temp := 0, power := 0, overSince := none, hgang := 0, cellCorr := [], cellUnc := [], lastAudit := Vector.replicate 2 0, retired := [], siteOf := [], retireList := [],
    harvest := [], config := [], firmware := 0, hostAttr := [], msixTable := [], msixPending := [], ports := Vector.replicate 6 Port.reset,
    routes := [], cxlUp := Vector.replicate 4 false, cxlCap := Vector.replicate 4 0, hostLines := [], out := [], grants := [], windowAt := 0,
    upsets := [], nfree := 0 }

/-- The machine right after reset; HPWR.ACLK is 600 (R389). -/
def State.reset : State := { clk := { fclk := 0, aclk := 0, phase := 0, mhz := 600, closing := false }, agenda := [], nchoice := 0, dev := Dev.reset }

end Sys2Proof.Machine
end

