-- ==== Sys2Proof/Machine/Base.lean ====
section
/-!
DEFINITION. The base of the machine: sparse tables and memories, the monad of one core instruction, registers with
their latency windows (06_issuing R125 to R133), completion tokens (R129, R130), guards (R108, R109), the retirement of
an instruction with the loop end check (R142, R143).
-/

namespace Sys2Proof.Machine

/-! Sparse tables. -/

def Tab.find {α : Type} : Tab α → Nat → Option α
  | [], _ => none
  | (k, v) :: t, i => if k = i then some v else if i < k then none else Tab.find t i

def Tab.getD {α : Type} (t : Tab α) (i : Nat) (d : α) : α := (t.find i).getD d

def Tab.put {α : Type} : Tab α → Nat → α → Tab α
  | [], i, v => [(i, v)]
  | (k, w) :: t, i, v => if k = i then (i, v) :: t else if i < k then (i, v) :: (k, w) :: t else (k, w) :: Tab.put t i v

def Tab.del {α : Type} (t : Tab α) (i : Nat) : Tab α := t.filter fun kw => kw.1 != i

def Tab.modify {α : Type} (t : Tab α) (i : Nat) (d : α) (f : α → α) : Tab α := t.put i (f (t.getD i d))

/-! Memories. -/

/-- One byte. -/
def Memory.read : Memory → Nat → Byte
  | [], _ => unlistedByte
  | (k, v) :: m, a => if k = a then v else if a < k then unlistedByte else Memory.read m a

/-- One byte written; the canonical form is kept. -/
def Memory.write : Memory → Nat → Byte → Memory
  | [], a, v => if v = unlistedByte then [] else [(a, v)]
  | (k, w) :: m, a, v =>
    if k = a then (if v = unlistedByte then m else (a, v) :: m)
    else if a < k then (if v = unlistedByte then (k, w) :: m else (a, v) :: (k, w) :: m)
    else (k, w) :: Memory.write m a v

/-- n bytes from a, little-endian (R5). -/
def Memory.readN (m : Memory) (a : Nat) : Nat → Nat
  | 0 => 0
  | n + 1 => (m.read a).toNat + 256 * Memory.readN m (a + 1) n

/-- The low n bytes of v stored from a, those whose bit of `mask` is set. -/
def Memory.writeMasked (m : Memory) (a v mask : Nat) : Nat → Memory
  | 0 => m
  | n + 1 =>
    Memory.writeMasked (if mask % 2 = 1 then m.write a (BitVec.ofNat 8 v) else m) (a + 1) (v / 256) (mask / 2) n

def Memory.writeN (m : Memory) (a v n : Nat) : Memory := m.writeMasked a v (2 ^ n - 1) n

/-- One element of a vector changed. -/
def vecMod {α : Type} {n : Nat} (v : Vector α n) (i : Nat) (f : α → α) : Vector α n :=
  match v.toList[i]? with
  | some x => v.setIfInBounds i (f x)
  | none => v

/-! Bits of numbers. -/

/-- Bits lo to lo + w - 1 of a number. -/
def nbits (n lo w : Nat) : Nat := n / 2 ^ lo % 2 ^ w

def nbit (n i : Nat) : Bool := n / 2 ^ i % 2 = 1

/-- A w-bit pattern sign-extended to 64 bits. -/
def sext64 (w n : Nat) : Word := BitVec.ofInt 64 (sInt w n)

/-- The bytes of a number, lowest first, and back. -/
def toBytes (n : Nat) : Nat → List Byte
  | 0 => []
  | k + 1 => BitVec.ofNat 8 n :: toBytes (n / 256) k

def ofBytes : List Byte → Nat
  | [] => 0
  | b :: bs => b.toNat + 256 * ofBytes bs

/-! One core instruction. -/

/-- What an instruction reads of its surroundings at issue. -/
structure Env where
  aclk : Nat
  fclk : Nat
  mode : Mode
  dit : Bool
  /-- The launch's abort line is raised in the issuing core's cluster (R149). -/
  aborted : Bool
  scope : Nat
  tree : Nat
  seed : Word
  team4 : Bool
  /-- PKG, home cell of the group (R80). -/
  pkg : Nat
  /-- Lines written out of each group off its core whose other lines lie in this core's arrays (R341). -/
  others : List (List Nat)
  /-- Registers of the group with a correctable error that no read has found (R369). -/
  upsets : List RegRef
  /-- Words of its local store with such an error (R369). -/
  upsetWords : List Nat
  deriving DecidableEq, Repr, Inhabited

/-- How an instruction ends before its effect: a trap with its kval (and the resume PC where it has completed),
a stall at issue, poison consumed in a deterministic launch (R363), or the repair of a register or of words of the local store
(R127, R369). -/
inductive Stop where
  | trap (cause : Nat) (val : Word) (next : Option Word)
  | stall (s : Stall)
  | rollback (addr : Word)
  | repair (r : RegRef)
  | repairWords (a n : Nat)
  deriving DecidableEq, Repr, Inhabited

/-- The meaning of an instruction on its own group: it either stops and changes nothing, or changes the group. -/
abbrev GM (α : Type) := ReaderT Env (StateT Group (Except Stop)) α

def stop {α : Type} (s : Stop) : GM α := fun _ _ => .error s

/-- `fault(cause, val)` (R57): a precise trap that cancels the instruction. -/
def raise {α : Type} (cause : Nat) (val : Word) : GM α := stop (.trap cause val none)

/-- Cause codes (R329). -/
def cILLEGAL_LINE : Nat := 1
def cILLEGAL_OPCODE : Nat := 2
def cILLEGAL_FORMAT : Nat := 3
def cILLEGAL_FIELD : Nat := 4
def cILLEGAL_TARGET : Nat := 5
def cALIGN : Nat := 6
def cPAGE : Nat := 7
def cACCESS : Nat := 8
def cATOMIC_TYPE : Nat := 9
def cATOMIC_POISON : Nat := 10
def cPOISON : Nat := 11
def cSPARSE_SHAPE : Nat := 12
def cSPARSE_COUNT : Nat := 13
def cSPARSE_POISON : Nat := 14
def cMXCEPT : Nat := 15
def cBOUND : Nat := 16
def cTOKEN_UNDERWAIT : Nat := 17
def cLOG_FULL : Nat := 18
def cSPAWN_DEPTH : Nat := 19
def cTRAP : Nat := 20
def cSVC : Nat := 21
def cHALT : Nat := 22
def cNESTED : Nat := 23
def cCONTEXT_DAMAGED : Nat := 24

def arch : GM Arch := do return (← get).arch

def setArch (f : Arch → Arch) : GM Unit := modify fun g => { g with arch := f g.arch }

/-- A free choice (log 5). -/
def pick : GM Nat := do
  let g ← get
  set { g with nfree := g.nfree + 1 }
  return Config.pick g.gid g.nfree

/-! Registers. -/

/-- FILE and REG of R133. -/
def RegRef.file : RegRef → Nat
  | .x _ => 0 | .v _ => 1 | .w _ => 2 | .q _ => 3 | .lc _ => 4 | .acc _ => 5

def RegRef.num : RegRef → Nat
  | .x n | .v n | .w n | .q n | .lc n | .acc n => n

/-- Aligned 32-bit words of a register (R126). -/
def RegRef.words : RegRef → Nat
  | .x _ => 2 | .v _ => 32 | .w _ => 4 | _ => 1

/-- x0, w0 and q0 read as constants (R126, R153, R108). -/
def RegRef.fixed : RegRef → Bool
  | .x n | .w n | .q n => n = 0
  | _ => false

def Arch.xr (a : Arch) (n : Nat) : Word := if n = 0 then 0 else a.x.toList.getD n 0
def Arch.vr (a : Arch) (n : Nat) : VReg := a.v.toList.getD n 0
def Arch.wr (a : Arch) (n : Nat) : Mask := if n = 0 then BitVec.allOnes 128 else a.w.toList.getD n 0
def Arch.qr (a : Arch) (n : Nat) : Bool := n = 0 || a.q.toList.getD n true
def Arch.lcr (a : Arch) (n : Nat) : BitVec 32 := a.lc.toList.getD n 0

/-- The value a register holds, as a number. -/
def Arch.reg (a : Arch) : RegRef → Nat
  | .x n => (a.xr n).toNat
  | .v n => (a.vr n).toNat
  | .w n => (a.wr n).toNat
  | .q n => if a.qr n then 1 else 0
  | .lc n => (a.lcr n).toNat
  | .acc _ => 0

/-- A register set; a write of x0, w0 or q0 is discarded. -/
def Arch.setReg (a : Arch) (r : RegRef) (n : Nat) : Arch :=
  if r.fixed then a else
  match r with
  | .x i => { a with x := a.x.setIfInBounds i (BitVec.ofNat 64 n) }
  | .v i => { a with v := a.v.setIfInBounds i (BitVec.ofNat 1024 n) }
  | .w i => { a with w := a.w.setIfInBounds i (BitVec.ofNat 128 n) }
  | .q i => { a with q := a.q.setIfInBounds i (n % 2 == 1) }
  | .lc i => { a with lc := a.lc.setIfInBounds i (BitVec.ofNat 32 n) }
  | .acc _ => a

/-- Lines of the register image that hold a register (R179, R339). -/
def RegRef.line : RegRef → Nat
  | .x n => n / 32
  | .v n => 16 + n / 2
  | .acc n => 1280 + 16 * n
  | _ => 2

/-- The value may still be an older one: a latency window or a pending entry is open (R126, R132). -/
def Alt.isOpen (now : Nat) (t : Alt) : Bool :=
  match t.till with
  | .aclk u => now < u
  | .entry _ _ => true

def Arch.openAlts (a : Arch) (now : Nat) (r : RegRef) : List Alt := a.alts.filter fun t => t.reg == r && t.isOpen now

/-- The token of an unreleased entry that writes a register (R132); of several the lowest (DESIGN CHOICE, log 77). -/
def pendingTok (r : RegRef) : Nat → List (List TokEntry) → Option Nat
  | _, [] => none
  | n, es :: rest => if es.any (fun e => e.dests.contains r) then some n else pendingTok r (n + 1) rest

def Arch.pending (a : Arch) (r : RegRef) : Option Nat := pendingTok r 0 a.toks.toList

/-- kval of `TOKEN_UNDERWAIT` (R133). -/
def underwaitVal (fixedWin : Bool) (tok : Nat) (write : Bool) (r : RegRef) : Word :=
  BitVec.ofNat 64 ((if fixedWin then 2 ^ 17 else tok * 2 ^ 12) + (if write then 2 ^ 11 else 0) + r.file * 2 ^ 8 + r.num)

/-- Each aligned 32-bit word taken from one of the candidates (R126, R132). -/
def mixWords (cands : List Nat) : Nat → Nat → GM Nat
  | 0, _ => return 0
  | n + 1, i => do
    let k ← pick
    let c := cands.getD (k % cands.length) 0
    let rest ← mixWords cands n (i + 1)
    return nbits c (32 * i) 32 + 2 ^ 32 * rest

/-- A line of the group is not in its core's arrays: it lies in the slot, or a group that left the core holds the place
(R179, R180, R341). -/
def missesLine (others : List (List Nat)) (g : Group) (l : Nat) : Bool :=
  g.linesOut.contains l || others.any fun outs => !outs.contains l

/-- A line must be on the core (R179, R180). -/
def needLine (l : Nat) : GM Unit := do
  if missesLine (← read).others (← get) l then stop (.stall (.refill l))

/-- Poison consumed by an instruction (R363). -/
def consumePoison {α : Type} (addr : Word) : GM α := do
  if (← read).mode = .det then stop (.rollback addr) else raise cPOISON addr

/-- The address that names a poisoned register (R363). -/
def regPoisonVal (r : RegRef) : Word := BitVec.ofNat 64 (2 ^ 63 + 256 * r.file + r.num)

/-- A register that is read holds no correctable error and no poison: otherwise it is repaired first (R127, R369), or its
poison is consumed (R363). -/
def regUsable (r : RegRef) : GM Unit := do
  if r.fixed then return ()
  if (← read).upsets.contains r then stop (.repair r)
  if (← arch).regPoison.any (fun p => p.1 == r) then consumePoison (regPoisonVal r)

/-- The value that a read of a register gives: under STRICT an early read or one of a pending register traps (R133),
otherwise it is mixed from the values that may stand (R126, R132). -/
def regValue (r : RegRef) : GM Nat := do
  if r.fixed then return (← arch).reg r
  needLine r.line
  let a ← arch
  let now := (← read).aclk
  let alts := a.openAlts now r
  if a.k.strict then
    match a.pending r with
    | some t => raise cTOKEN_UNDERWAIT (underwaitVal false t false r)
    | none => if alts.any (fun t => match t.till with | .aclk _ => true | _ => false) then
        raise cTOKEN_UNDERWAIT (underwaitVal true 0 false r)
  if alts.isEmpty then return a.reg r
  else mixWords (a.reg r :: alts.map (·.val)) r.words 0

/-- A source register read at issue (R126, R132, R133, R363). -/
def readReg (r : RegRef) : GM Nat := do
  if r.fixed then return (← arch).reg r
  needLine r.line
  regUsable r
  regValue r

def readX (n : BitVec 6) : GM Word := do return BitVec.ofNat 64 (← readReg (.x n.toNat))
def readV (n : BitVec 6) : GM Nat := readReg (.v n.toNat)
def readW (n : Nat) : GM Nat := readReg (.w n)
def readQ (n : Nat) : GM Bool := do return (← readReg (.q n)) % 2 == 1

/-- An entry of a token by its identifier. -/
def findEntry (a : Arch) (tok id : Nat) : Option TokEntry := (a.toks.toList.getD tok []).find? (·.id == id)

/-- Entries that still write a register that another producer has written, marked: when such an entry completes, either
value may stand (R126). -/
def markClash (r : RegRef) (es : List TokEntry) : List TokEntry :=
  es.map fun e => if e.dests.contains r && !e.done && !e.clash.contains r then { e with clash := r :: e.clash } else e

/-- A write issued now, with this latency of its own, is the second in a fixed window of the register, or comes while an
earlier long-latency write has completed and is still pending: either producer's value may stand (R126). -/
def Arch.second (a : Arch) (now lat : Nat) (r : RegRef) : Bool :=
  a.alts.any fun t => t.reg == r && (match t.till with
    | .aclk u => now + lat < u
    | .entry k id => (findEntry a k id).any (·.done))

/-- Marks of the register's poisoned words that a write leaves: a word that it does not write whole keeps its mark
(R362). -/
def keptPoison (ps : List (RegRef × Nat)) (r : RegRef) (whole : Nat → Bool) : List (RegRef × Nat) :=
  ps.filter fun p => !(p.1 == r && whole p.2)

/-- The value written, with the poisoned words that the write covers only in part as they were (R362). -/
def keptWords (ps : List (RegRef × Nat)) (r : RegRef) (old v : Nat) : Nat :=
  ps.foldl (fun v p => if p.1 == r then v - nbits v (32 * p.2) 32 * 2 ^ (32 * p.2) + nbits old (32 * p.2) 32 * 2 ^ (32 * p.2) else v) v

/-- STRICT checks of a write (R133). -/
def strictWrite (r : RegRef) (lat : Nat) : GM Unit := do
  let a ← arch
  let now := (← read).aclk
  if a.k.strict then
    match a.pending r with
    | some t => raise cTOKEN_UNDERWAIT (underwaitVal false t true r)
    | none => if (a.openAlts now r).any (fun t => match t.till with | .aclk u => now + lat < u | _ => false) then
        raise cTOKEN_UNDERWAIT (underwaitVal true 0 true r)

/-- A register written by a fixed-latency instruction (R125, R126); `whole` says which of its 32-bit words the write covers
(R362). -/
def writeReg (r : RegRef) (v lat : Nat) (whole : Nat → Bool := fun _ => true) : GM Unit := do
  if r.fixed then return ()
  needLine r.line
  strictWrite r lat
  let a ← arch
  let now := (← read).aclk
  let old := a.reg r
  let alts := a.alts.filter (·.isOpen now)
  let second := a.second now lat r
  let left := keptPoison a.regPoison r whole
  let v := keptWords left r old v
  let val ← if second then mixWords [v, old] r.words 0 else pure v
  let news := (if lat ≤ 1 then [] else [(⟨r, old, .aclk (now + lat), lat⟩ : Alt)]) ++
    (if second ∧ 1 < lat then [⟨r, v, .aclk (now + lat), lat⟩] else [])
  setArch fun a =>
    let b := a.setReg r val
    { b with
      alts := alts ++ news
      toks := a.toks.map (markClash r)
      regPoison := left }

def writeX (n : BitVec 6) (v : Word) (lat : Nat) : GM Unit := writeReg (.x n.toNat) v.toNat lat

/-! Completion tokens. -/

def Arch.tokCount (a : Arch) (t : Nat) : Nat := (a.toks.toList.getD t []).length

/-- An instruction that names a token with 63 entries stalls (R130). -/
def tokenRoom (t : Nat) : GM Unit := do
  if 63 ≤ (← arch).tokCount t then stop (.stall .token)

/-- Completed entries at the head of a token's list are released (R129). -/
def dropDone : List TokEntry → List TokEntry
  | [] => []
  | e :: es => if e.done then dropDone es else e :: es

/-- Older values kept for released entries are no longer readable (R132). -/
def liveAlt (toks : List (List TokEntry)) (t : Alt) : Bool :=
  match t.till with
  | .aclk _ => true
  | .entry k id => (toks.getD k []).any (·.id == id)

def Arch.release (a : Arch) : Arch :=
  let toks := a.toks.map dropDone
  { a with toks := toks, alts := a.alts.filter (liveAlt toks.toList) }

/-- Byte masks spread to bits. -/
def spread (m : Nat) : Nat → Nat
  | 0 => 0
  | n + 1 => (if m % 2 = 1 then 255 else 0) + 256 * spread (m / 2) n

/-- The bytes of `res` under a byte mask over `old` (R154). -/
def underMask (old res mask : Nat) : Nat :=
  let s := spread mask 128
  (old &&& (2 ^ 1024 - 1 - s)) ||| (res &&& s)

/-- A result as it lands in a register: in a vector register only the bytes of the mask (R154). -/
def landing (r : RegRef) (old v : Nat) (mask : Mask) : Nat := match r with
  | .v _ => underMask old v mask.toNat
  | _ => v

/-- A new entry on a token; its destinations become pending (R129, R132). The entry's identifier is returned. Its own
latency in R126 and R133 is the time to its completion where a rule gives one, and else 0 (DESIGN CHOICE, log 63). -/
def issueEntry (tok : Nat) (row : EntryRow) (remote done : Bool) (due : Option Nat) (dests : List RegRef)
    (writes : List (RegRef × Nat)) (mask : Mask := BitVec.allOnes 128) : GM Nat := do
  tokenRoom tok
  let dests := dests.filter (fun r => !r.fixed)
  let now := (← read).aclk
  let lat := (due.getD now) - now
  for r in dests do
    needLine r.line
    strictWrite r lat
  let a ← arch
  let clash := dests.filter (a.second now lat)
  let e : TokEntry := ⟨a.nextId, row, done, remote, due, dests, writes.filter (fun w => !w.1.fixed), clash, mask⟩
  let news := e.writes.map fun w => (⟨w.1, landing w.1 (a.reg w.1) w.2 mask, .entry tok a.nextId, 0⟩ : Alt)
  setArch fun a =>
    { a with toks := vecMod a.toks tok (· ++ [e]), alts := a.alts ++ news, nextId := a.nextId + 1 }
  if done then setArch Arch.release
  return a.nextId

/-- An entry that completes at issue (R109, R223). -/
def issueDone (tok : Nat) : GM Unit := do
  let _ ← issueEntry tok .none false true none [] []


/-- Words of a register that is written while another producer's value may stand. -/
def mixPure (gid n : Nat) (cands : List Nat) : Nat → Nat → Nat
  | 0, _ => 0
  | k + 1, i => nbits (cands.getD (Config.pick gid (n + i) % cands.length) 0) (32 * i) 32 + 2 ^ 32 * mixPure gid n cands k (i + 1)

/-- The destinations of an entry are written: the register takes the result, or a free mixture where another writer
came meanwhile, and the entries that still write it meet its result in turn; the old value stays readable until the
entry's release (R126, R132). `whole` says which words of a destination the result covers (R362). -/
def applyWrites (g : Group) (tok : Nat) (e : TokEntry) (ws : List (RegRef × Nat)) (whole : Nat → Bool := fun _ => true) :
    Group :=
  ws.foldl (fun g w =>
    let r := w.1
    if r.fixed then g else
    let old := g.arch.reg r
    let clash := e.clash.contains r
    let covers (k : Nat) : Bool := whole k && (match r with
      | .v _ => nbits e.mask.toNat (4 * k) 4 == 15
      | _ => true)
    let left := keptPoison g.arch.regPoison r covers
    let new := keptWords left r old (landing r old w.2 e.mask)
    let v := if clash then mixPure g.gid g.nfree [new, old] r.words 0 else new
    let mark (es : List TokEntry) : List TokEntry := es.map fun f => if f.id = e.id then f else (markClash r [f]).headD f
    let alts := g.arch.alts.filter fun t => !(t.reg == r && t.till == .entry tok e.id)
    { g with nfree := g.nfree + (if clash then r.words else 0),
             arch := (fun b : Arch => { b with alts := alts ++ [⟨r, old, .entry tok e.id, 0⟩],
                                               toks := b.toks.map mark, regPoison := left })
               (g.arch.setReg r v) }) g

/-- Completion of an entry with the values it writes, then the releases that follow (R129). -/
def completeEntry (g : Group) (tok id : Nat) (ws : List (RegRef × Nat)) (whole : Nat → Bool := fun _ => true) : Group :=
  match findEntry g.arch tok id with
  | none => g
  | some e =>
    let g := applyWrites g tok e ws whole
    let toks := vecMod g.arch.toks tok (·.map fun e => if e.id = id then { e with done := true } else e)
    { g with arch := { g.arch with toks := toks }.release }

/-- The newest entry of a token completes in the instruction that issued it, with the values it writes. -/
def completeLast (g : Group) (tok : Nat) (ws : List (RegRef × Nat)) : Group :=
  match (g.arch.toks.toList.getD tok []).getLast? with
  | none => g
  | some e =>
    let g := applyWrites g tok e ws
    let toks := vecMod g.arch.toks tok fun es => es.dropLast ++ [{ e with done := true }]
    { g with arch := { g.arch with toks := toks }.release }

/-- The token that holds an entry. -/
def tokOf (id : Nat) : Nat → List (List TokEntry) → Option Nat
  | _, [] => none
  | n, es :: rest => if es.any (·.id == id) then some n else tokOf id (n + 1) rest

/-- The exact completion time has come. -/
def dueBy : Option Nat → Nat → Bool
  | some d, now => d ≤ now
  | none, _ => false

/-- Completion of an entry whose results were known at issue, at or after its due time. -/
def completeKnown (row : EntryRow) (now id : Nat) (g : Group) : Option Group :=
  match tokOf id 0 g.arch.toks.toList with
  | none => none
  | some tok =>
    match findEntry g.arch tok id with
    | none => none
    | some e =>
      if e.row = row ∧ e.done = false ∧ dueBy e.due now = true then
        some (completeEntry g tok id e.writes)
      else none

/-! Control. -/

/-- A valid target (R105): stage 1 of R106. -/
def validTarget (p : Word) : Bool :=
  p.toNat / 2 ^ 57 = 0 ∧ p.toNat % 2 = 0 ∧ p.toNat % 64 ≠ 0 ∧ p.toNat % 64 ≠ 62

/-- The target of R107. -/
def jTarget (pc : Word) (disp : BitVec 32) (slot : BitVec 5) : Word :=
  BitVec.ofNat 64 (pc.toNat % 2 ^ 57 / 64 * 64) + BitVec.ofInt 64 (64 * disp.toInt) + 2 + BitVec.ofNat 64 (2 * slot.toNat)

/-- Where an executed instruction goes (R105, R106): on, or to a target; a call neither ends a loop nor deactivates one. -/
inductive Next where
  | fall
  | jump (target : Word)
  | call (target : Word)
  | skip (target : Word)
  deriving DecidableEq, Repr

def Arch.loopAt (a : Arch) (k : Nat) : Loop := a.loops.toList.getD k Loop.reset

/-- One loop's end check (R143): the new state and, on a back-edge, its start. -/
def loopEndOne (a : Arch) (p : Word) (k : Nat) : Arch × Option Word :=
  let l := a.loopAt k
  if l.active && p == l.stop then
    let c := if a.lcr k = 0 then 0 else a.lcr k - 1
    let a := { a with lc := a.lc.setIfInBounds k c }
    if c ≠ 0 then (a, some l.start)
    else ({ a with loops := a.loops.setIfInBounds k { l with active := false } }, none)
  else (a, none)

/-- The end check of R143 after an instruction whose next PC is p: the inner loop first. -/
def loopEnd (a : Arch) (p : Word) : Arch × Word :=
  let i := if (a.loopAt 1).active && (a.loopAt 1).inner then 1 else 0
  match loopEndOne a p i with
  | (a, some q) => (a, q)
  | (a, none) =>
    match loopEndOne a p (1 - i) with
    | (a, some q) => (a, q)
    | (a, none) => (a, p)

/-- A taken branch, `j` or plain `jr` out of an active loop deactivates it (R143). -/
def leaveLoop (pc target : Word) (l : Loop) : Loop :=
  if l.active && l.start ≤ pc && pc < l.stop && !(l.start ≤ target && target ≤ l.stop) then { l with active := false } else l

/-- The instruction retires: the next PC, the loop end check, the next issue time (R105, R142, R143). -/
def retire (n : Next) (slots : Nat := 1) : GM Unit := do
  let now := (← read).aclk
  modify fun g =>
    let a := g.arch
    let (a, t) : Arch × Nat :=
      match n with
      | .fall => let r := loopEnd a g.link; ({ r.1 with pc := r.2 }, slots)
      | .jump p =>
        let a := { a with loops := a.loops.map (leaveLoop a.pc p) }
        let r := loopEnd a p; ({ r.1 with pc := r.2 }, 2)
      | .skip p => let r := loopEnd a p; ({ r.1 with pc := r.2 }, 2)
      | .call p => ({ a with pc := p }, 2)
    { g with arch := a, stall := .none, notBefore := now + t }

/-- A target that fails stage 1 of R106 faults at the transferring instruction. -/
def checkTarget (p : Word) : GM Unit := do
  if !validTarget p then raise cILLEGAL_TARGET p

/-- The guard of an instruction (R108). -/
def guardTrue (g : Guard) : GM Bool := do
  let q ← readQ g.q.toNat
  return q != g.sense

/-- An instruction under its guard (R108, R109): the body, or nothing but an entry on the token it names. -/
def guarded (g : Guard) (tok : Option Nat) (body : GM Next) : GM Unit := do
  if ← guardTrue g then
    let n ← body
    retire n
  else
    match tok with
    | some t => issueDone t
    | none => pure ()
    retire .fall

end Sys2Proof.Machine
end

