-- ==== Sys2Proof/Machine/Mem.lean ====
section
/-!
DEFINITION. The memory system: domains and cell lists (04 R80 to R82), homing and the host attribute table (08 R184,
R185; 21 R377), translation (08 R190 to R195; 21 R374), and physical reads and writes at a place: an L2 slice
(R183), a sync engine (R304) or memory, with poison (20 R362).
-/

namespace Sys2Proof.Machine

/-! Names of the device's parts. -/

def Dev.core (d : Dev) (c : Nat) : Core := d.cores.getD c Core.reset
def Dev.part (d : Dev) (p : Nat) : Part := d.parts.getD p Part.reset
def ctxKey (p c : Nat) : Nat := 64 * p + c

/-- A suspended group's job is saved with the group (R218), under a key past those of the contexts. -/
def groupKey (gid : Nat) : Nat := 1024 + gid
def Dev.ctx (d : Dev) (p c : Nat) : Ctx := d.ctxs.getD (ctxKey p c) Ctx.reset
def queueKey (p c q : Nat) : Nat := 8 * ctxKey p c + q
def Dev.lqueue (d : Dev) (p c q : Nat) : LQueue := d.queues.getD (queueKey p c q) LQueue.reset

def Dev.setCore (d : Dev) (c : Nat) (v : Core) : Dev := { d with cores := d.cores.put c v }
def Dev.setPart (d : Dev) (p : Nat) (v : Part) : Dev := { d with parts := d.parts.put p v }
def Dev.setCtx (d : Dev) (p c : Nat) (v : Ctx) : Dev := { d with ctxs := d.ctxs.put (ctxKey p c) v }
def Dev.setQueue (d : Dev) (p c q : Nat) (v : LQueue) : Dev := { d with queues := d.queues.put (queueKey p c q) v }
def Dev.setGroup (d : Dev) (g : Group) : Dev := { d with groups := d.groups.put g.gid g }
def Dev.setLaunch (d : Dev) (n : Nat) (l : Launch) : Dev := { d with launches := d.launches.put n l }
def Dev.send (d : Dev) (m : OutMsg) : Dev := { d with out := d.out ++ [m] }

/-- Cell, cluster and die of a core or cell (R4). -/
def cellOf (core : Nat) : Nat := core / 4
def clusterOfCell (cell : Nat) : Nat := cell / 16
def dieOfCell (cell : Nat) : Nat := cell / 512

/-- The partition's clusters hold a cell (R58). -/
def Part.hasCell (p : Part) (cell : Nat) : Bool := nbit p.pclus.toNat (clusterOfCell cell)

/-- The cell list of a partition (R82). -/
def Dev.cellList (d : Dev) (p : Nat) : List Nat :=
  (List.range 1024).filter fun c => (d.part p).hasCell c && !d.retired.contains c

/-- Packages in the gang, this package's index, and whether there is a gang (R389). -/
def Dev.gangSize (d : Dev) : Nat := nbits d.hgang.toNat 0 6 + 1
def Dev.pkg (d : Dev) : Nat := if d.hgang.toNat / 2 ^ 32 = 0 then 0 else nbits d.hgang.toNat 16 6
def Dev.inGang (d : Dev) : Bool := d.hgang.toNat / 2 ^ 32 ≠ 0

/-! Homing. -/

/-- The next unretired cell in a list, from a start, with wrap-around. -/
def nextCell (retired : List Nat) (cells : List Nat) (from_ : Nat) : Option Nat :=
  match (cells.filter (fun c => from_ ≤ c && !retired.contains c)).head? with
  | some c => some c
  | none => (cells.filter (fun c => !retired.contains c)).head?

/-- The core that replaces one of a retired cell (R185). -/
def Dev.liveCore (d : Dev) (core : Nat) : Option Nat :=
  let cell := cellOf core
  if !d.retired.contains cell then some core
  else
    let cl := clusterOfCell cell
    match nextCell d.retired ((List.range 16).map (fun i => 16 * cl + i)) cell with
    | some c => some (4 * c + core % 4)
    | none => (nextCell d.retired (List.range 1024) cell).map fun c => 4 * c + core % 4

/-- The home core of a line under a homing entry (R185); `part` limits the cores to a partition. Of whole clusters the cores of
S are those of its cells, four by four. -/
def Dev.homeOf (d : Dev) (part : Option Nat) (mode clus core mask pa : Nat) : Option Nat :=
  if mode = 0 then d.liveCore core
  else
    let may (cell : Nat) : Bool := !d.retired.contains cell &&
      (match part with | none => true | some p => (d.part p).hasCell cell)
    let named := (List.range 64).filter fun j => nbit mask j
    let ln := pa / 256 % 2 ^ 44
    let h := ln ^^^ (ln >>> 17) ^^^ (ln >>> 31)
    if mode = 1 then
      let s := (named.map fun j => 64 * clus + j).filter fun c => may (cellOf c)
      s[h % s.length]?
    else
      let cells := (named.flatMap fun c => (List.range 16).map fun j => 16 * c + j).filter may
      let i := h % (4 * cells.length)
      cells[i / 4]?.map fun c => 4 * c + i % 4

/-- The host attribute entry that governs an address (R377): memory type and homing fields. -/
def attrOf (t : Tab (BitVec 256)) (pa : Nat) : Nat × Nat × Nat × Nat × Nat :=
  let frame := pa / 2 ^ 16
  let ok (e : Nat) : Bool :=
    nbit e 0 && nbits e 1 2 < 2 && nbits e 3 29 == 0 && nbits e 44 6 == 0 && nbits e 56 6 == 0 && nbits e 62 2 != 3 &&
    nbits e 64 56 == 0 && nbits e 120 36 ≤ frame && frame < nbits e 120 36 + nbits e 156 36
  match t.find? (fun e => e.1 < 256 && ok e.2.toNat) with
  | some e =>
    let n := e.2.toNat
    (nbits n 1 2, nbits n 62 2, nbits n 50 6, nbits n 32 12, nbits n 192 64)
  | none => (0, 2, 0, 0, 2 ^ 64 - 1)

/-- The home of an address under the host attribute table (R377); none where its entry selects no unretired core (R185). -/
def Dev.attrHome (d : Dev) (pa : Nat) : Option Nat :=
  let (_, mode, clus, core, mask) := attrOf d.hostAttr pa
  d.homeOf none mode clus core mask pa

/-- The slice or sync engine of a home. -/
def placeAt (sync : Bool) : Option Nat → Place
  | none => .nowhere
  | some home => if sync then .engine (dieOfCell (cellOf home)) else .slice home

/-- Where an access by physical address is performed (R377). -/
def Dev.physPlace (d : Dev) (pa : Nat) : Place := placeAt ((attrOf d.hostAttr pa).1 = 1) (d.attrHome pa)

/-! Physical reads and writes at a place. -/

def lineKey (core pa : Nat) : Nat := core * 2 ^ 44 + pa / 256
def granKey (die pa : Nat) : Nat := die * 2 ^ 46 + pa / 64

def L2Line.empty (cmp : Bool) : L2Line := ⟨0, 0, 0, 0, 0, false, cmp⟩

/-- A CXL tier address (R374) and its port. -/
def isCxl (pa : Nat) : Bool := 0x100000000000 ≤ pa ∧ pa < 0x200000000000
def cxlPort (pa : Nat) : Nat := (pa - 0x100000000000) / 0x40000000000

/-- A sector in memory is bad: poisoned, or a sector of a line stored compressed of which a stored sector is poisoned
(R188, R362; that such a line is bad as a whole: DESIGN CHOICE, log 9). -/
def MemSys.badSector (ms : MemSys) (sec : Nat) : Bool :=
  let k := ms.hbmField.getD (sec / 8) 7 + 1
  if k < 8 then (List.range k).any (fun i => ms.poison.contains (sec / 8 * 8 + i)) else ms.poison.contains sec

/-- One byte as a reader at a place sees it. -/
def MemSys.byteAt (ms : MemSys) (pl : Place) (pa : Nat) : Byte :=
  match pl with
  | .slice c =>
    match ms.l2.find (lineKey c pa) with
    | some l => if nbit l.valid.toNat (pa / 32 % 8) then BitVec.ofNat 8 (nbits l.data.toNat (8 * (pa % 256)) 8) else ms.mem.read pa
    | none => ms.mem.read pa
  | .engine e =>
    match ms.sram.find (granKey e pa) with
    | some g => BitVec.ofNat 8 (nbits g.data.toNat (8 * (pa % 64)) 8)
    | none => ms.mem.read pa
  | .nowhere => 0
  | _ => ms.mem.read pa

/-- The byte lies in a poisoned unit (R362). -/
def MemSys.poisonAt (ms : MemSys) (pl : Place) (pa : Nat) : Bool :=
  match pl with
  | .slice c =>
    match ms.l2.find (lineKey c pa) with
    | some l => if nbit l.valid.toNat (pa / 32 % 8) then nbit l.poison.toNat (pa / 32 % 8) else ms.badSector (pa / 32)
    | none => ms.badSector (pa / 32)
  | .engine e =>
    match ms.sram.find (granKey e pa) with
    | some g => g.poison
    | none => ms.badSector (pa / 64 * 2) || ms.badSector (pa / 64 * 2 + 1)
  | .nowhere => true
  | _ => ms.badSector (pa / 32)

/-- n bytes at a place, little-endian. -/
def MemSys.readAt (ms : MemSys) (pl : Place) (pa : Nat) : Nat → Nat
  | 0 => 0
  | n + 1 => (ms.byteAt pl pa).toNat + 256 * MemSys.readAt ms pl (pa + 1) n

/-- The lowest poisoned byte among n from an address. -/
def MemSys.firstPoison (ms : MemSys) (pl : Place) (pa : Nat) : Nat → Option Nat
  | 0 => none
  | n + 1 => if ms.poisonAt pl pa then some pa else MemSys.firstPoison ms pl (pa + 1) n

/-- A field of n bits at bit lo of a number replaced. -/
def putBits (x lo n v : Nat) : Nat := x - nbits x lo n * 2 ^ lo + v % 2 ^ n * 2 ^ lo

/-- The sector or granule of an address is brought into its cache (R183, R188, R304). -/
def MemSys.fill (ms : MemSys) (pl : Place) (cmp : Bool) (asid : BitVec 12) (pa : Nat) : MemSys :=
  match pl with
  | .slice c =>
    let k := lineKey c pa
    let l := ms.l2.getD k (L2Line.empty cmp)
    let secs : List Nat := if cmp then List.range 8 else [pa / 32 % 8]
    let base := pa / 256 * 256
    let l := secs.foldl (fun (l : L2Line) s =>
      if nbit l.valid.toNat s then l
      else
        let v := ms.mem.readN (base + 32 * s) 32
        let bit := BitVec.ofNat 8 (2 ^ s)
        { l with valid := l.valid ||| bit, data := BitVec.ofNat 2048 (putBits l.data.toNat (256 * s) 256 v),
                 poison := if ms.badSector (base / 32 + s) then l.poison ||| bit else l.poison &&& ~~~bit }) l
    { ms with l2 := ms.l2.put k { l with asid := asid, cmp := l.cmp || cmp } }
  | .engine e =>
    let k := granKey e pa
    match ms.sram.find k with
    | some _ => ms
    | none =>
      let base := pa / 64 * 64
      let gr : Granule :=
        ⟨BitVec.ofNat 512 (ms.mem.readN base 64), false, ms.badSector (base / 32) || ms.badSector (base / 32 + 1)⟩
      { ms with sram := ms.sram.put k gr }
  | _ => ms

/-- The unit of poison at a place: bytes (R362). -/
def Place.unit : Place → Nat
  | .engine _ => 64
  | _ => 32

/-- The bytes of v whose mask bit is set, written within one unit; the unit's poison follows R362: a partial write
of a poisoned unit writes nothing, a whole write clears the mark. -/
def MemSys.writeUnit (ms : MemSys) (pl : Place) (cmp : Bool) (asid : BitVec 12) (unit v mask : Nat) : MemSys :=
  let u := pl.unit
  let ms := ms.fill pl cmp asid unit
  let bad := ms.poisonAt pl unit
  if mask = 0 then ms
  else if bad ∧ mask ≠ 2 ^ u - 1 then ms
  else
    match pl with
    | .slice c =>
      let k := lineKey c unit
      let l := ms.l2.getD k (L2Line.empty cmp)
      let s := unit / 32 % 8
      let data := (List.range 32).foldl (fun d i =>
        if nbit mask i then putBits d (8 * (32 * s + i)) 8 (nbits v (8 * i) 8) else d) l.data.toNat
      { ms with l2 := ms.l2.put k { l with data := BitVec.ofNat 2048 data, dirty := l.dirty ||| BitVec.ofNat 8 (2 ^ s),
                                           poison := l.poison &&& ~~~ BitVec.ofNat 8 (2 ^ s) } }
    | .engine e =>
      let k := granKey e unit
      let g : Granule := ms.sram.getD k ⟨0, false, false⟩
      let data := (List.range 64).foldl (fun d i => if nbit mask i then putBits d (8 * i) 8 (nbits v (8 * i) 8) else d) g.data.toNat
      let gr : Granule := ⟨BitVec.ofNat 512 data, true, false⟩
      { ms with sram := ms.sram.put k gr }
    | .nowhere => ms
    | _ => { ms with mem := ms.mem.writeMasked unit v mask 32, poison := ms.poison.filter (· ≠ unit / 32) }

/-- Bytes pa to pa + n - 1 written under a mask, unit by unit; `fuel` bounds the units. -/
def MemSys.writeUnits (ms : MemSys) (pl : Place) (cmp : Bool) (asid : BitVec 12) (pa v mask : Nat) : Nat → Nat → MemSys
  | 0, _ => ms
  | fuel + 1, n =>
    if n = 0 then ms
    else
      let u := pl.unit
      let o := pa % u
      let k := min n (u - o)
      let ms := ms.writeUnit pl cmp asid (pa - o) (v % 2 ^ (8 * k) * 2 ^ (8 * o)) (mask % 2 ^ k * 2 ^ o)
      MemSys.writeUnits ms pl cmp asid (pa + k) (v / 2 ^ (8 * k)) (mask / 2 ^ k) fuel (n - k)

/-- A store that covers a poisoned unit only in part (R362). -/
def MemSys.partPoison (ms : MemSys) (pl : Place) (pa mask : Nat) : Nat → Nat → Bool
  | 0, _ => false
  | fuel + 1, n =>
    if n = 0 then false
    else
      let u := pl.unit
      let o := pa % u
      let k := min n (u - o)
      let m := mask % 2 ^ k
      (m ≠ 0 && ms.poisonAt pl pa && !(k = u && m = 2 ^ u - 1)) || MemSys.partPoison ms pl (pa + k) (mask / 2 ^ k) fuel (n - k)

/-- A store of n bytes under a mask at a place; one that covers a poisoned unit only in part writes nothing (R362). -/
def MemSys.writeAt (ms : MemSys) (pl : Place) (cmp : Bool) (asid : BitVec 12) (pa n v mask : Nat) : MemSys :=
  if ms.partPoison pl pa mask (n / 16 + 2) n then ms else ms.writeUnits pl cmp asid pa v mask (n / 16 + 2) n

def addBlocks (l : List Nat) : List Nat → List Nat
  | [] => l
  | b :: bs => addBlocks (if l.contains b then l else b :: l) bs

/-- A unit at a place is marked poisoned (R362): where it lies in a cache, there; else in memory. -/
def MemSys.markBad (ms : MemSys) (pl : Place) (pa : Nat) : MemSys :=
  let behind : MemSys := { ms with poison := addBlocks ms.poison [pa / 32] }
  match pl with
  | .slice c =>
    match ms.l2.find (lineKey c pa) with
    | none => behind
    | some l =>
      if nbit l.valid.toNat (pa / 32 % 8) then
        { ms with l2 := ms.l2.put (lineKey c pa) { l with poison := l.poison ||| BitVec.ofNat 8 (2 ^ (pa / 32 % 8)) } }
      else behind
  | .engine e =>
    match ms.sram.find (granKey e pa) with
    | none => behind
    | some g => { ms with sram := ms.sram.put (granKey e pa) { g with poison := true } }
  | .nowhere => ms
  | _ => behind

/-- Whether a write to the address reaches memory (R381, R383). -/
def Dev.reachable (d : Dev) (pa : Nat) : Bool :=
  if isCxl pa then d.cxlUp.toList.getD (cxlPort pa) false
  else if 0x200000000000 ≤ pa ∧ pa < 0x400000000000 then
    ((d.ports.toList.getD (d.routes.getD ((pa - 0x200000000000) / 0x8000000000) 0) Port.reset).up)
  else true

def satInc64 (w : Word) : Word := if w = BitVec.allOnes 64 then w else w + 1

/-- Before a device access to n bytes, the host-cached lines among them are taken back from the host (R376). -/
def Dev.backInval (d : Dev) (pa n : Nat) : Dev :=
  let hit (l : Nat) : Bool := decide (pa / 64 ≤ l) && decide (l ≤ (pa + (n - 1)) / 64)
  if d.hostLines.any hit then
    { d with hostLines := d.hostLines.filter fun l => !hit l, out := d.out ++ (d.hostLines.filter hit).map .backInval }
  else d

/-- A write that is dropped and counted: its port is down (R381, R383, R389). -/
def Dev.dropWrite (d : Dev) : Dev := { d with hunc := satInc64 d.hunc }

/-- A write by a translated access: dropped and counted where its port is down (R381, R383, R389); one to another package's
window is performed there (R303). -/
def Dev.writeX (d : Dev) (x : Xlat) (asid : BitVec 12) (n v mask : Nat) : Dev :=
  if d.reachable x.pa then
    match x.place with
    | .remote k => d.send (.remoteStore k x.pa n v mask)
    | pl => let d := d.backInval x.pa n; { d with ms := d.ms.writeAt pl x.cmp asid x.pa n v mask }
  else d.dropWrite

/-- The byte lies in a unit that is poisoned in the memory system read, or in the storage that it stands for: an upset since
a superstep began meets its reads too (R362, R363). -/
def Dev.badAt (d : Dev) (ms : MemSys) (pl : Place) (pa : Nat) : Bool := ms.poisonAt pl pa || d.ms.poisonAt pl pa

/-- The lowest such byte among n from an address. -/
def Dev.lowestBad (d : Dev) (ms : MemSys) (pl : Place) (pa : Nat) : Nat → Option Nat
  | 0 => none
  | n + 1 => if d.badAt ms pl pa then some pa else Dev.lowestBad d ms pl (pa + 1) n

/-- The cell that an upset unit belongs to. -/
def Dev.cellOfUnit (d : Dev) (u : UpsetUnit) : Option Nat :=
  let ofGroup (gid : Nat) : Option Nat := match d.groups.find gid with
    | none => none
    | some g => g.core.map cellOf
  match u with
  | .ls gid _ | .acc gid _ | .win gid _ | .reg gid _ _ | .capo gid _ => ofGroup gid
  | .l2 core _ _ | .l2Tag core _ => some (cellOf core)
  | _ => none

def Dev.countCell (d : Dev) (u : UpsetUnit) (unc : Bool) : Dev :=
  match d.cellOfUnit u with
  | none => d
  | some c => if unc then { d with cellUnc := d.cellUnc.modify c 0 (· + 1) } else { d with cellCorr := d.cellCorr.modify c 0 (· + 1) }

/-- Correctable upsets that a read has found are corrected, the words written back, and counted (R369). -/
def Dev.repairAll (d : Dev) (found : UpsetTarget → Bool) : Dev :=
  (d.upsets.filter found).foldl (fun d t => { d with hcorr := satInc64 d.hcorr }.countCell t.unit false)
    { d with upsets := d.upsets.filter (fun t => !found t) }

/-- n bytes of another package's memory in a draw, little-endian. -/
def remoteBytes (pkg draw pa : Nat) : Nat → Nat
  | 0 => 0
  | n + 1 => (Config.remoteByte pkg pa draw).toNat + 256 * remoteBytes pkg draw (pa + 1) n

/-- A read by a translated access in a memory system: the value and the lowest poisoned byte (R381, R362). What another
package holds is not this machine's: free bytes, which do not change while a read state stands (R301, R303; log 6). -/
def Dev.readIn (d : Dev) (ms : MemSys) (x : Xlat) (n : Nat) : Nat × Option Nat :=
  if d.reachable x.pa then
    match x.place with
    | .remote k => (remoteBytes k ms.draw x.pa n, none)
    | pl => (ms.readAt pl x.pa n, d.lowestBad ms pl x.pa n)
  else (0, some x.pa)

/-- Another package may have changed its memory: the next read of it is a new draw. -/
def Dev.redraw (d : Dev) : Dev := { d with ms := { d.ms with draw := d.ms.draw + 1 } }

/-- A read of n bytes at a place finds an upset of a granule of the sync SRAM. -/
def Xlat.finds (x : Xlat) (n : Nat) : UpsetUnit → Bool
  | .sram die q => x.place == .engine die && x.pa / 64 ≤ q && q * 64 < x.pa + n
  | _ => false

/-- Correctable errors that a read of n bytes finds are corrected (R369). -/
def Dev.foundAt (d : Dev) (x : Xlat) (n : Nat) : Dev := d.repairAll fun t => x.finds n t.unit

/-- What a read of n bytes brings about before it returns them: the host's copies are taken back (R376), correctable errors
corrected (R369), and another package, where it holds them, is asked for them anew (R303, R382). -/
def Dev.asked (d : Dev) (x : Xlat) (n : Nat) : Dev :=
  let d := (d.backInval x.pa n).foundAt x n
  match x.place with
  | .remote k => if d.reachable x.pa then (d.send (.remoteLoad k x.pa n)).redraw else d
  | _ => d

/-! Translation. -/

/-- A read by physical address (R377); zero where its port is down or it has no home. -/
def Dev.physRead (d : Dev) (pa n : Nat) : Nat := if d.reachable pa then d.ms.readAt (d.physPlace pa) pa n else 0

/-- Correctable errors of the sync SRAM that a read by physical address finds, each granule at its home, are corrected (R369). -/
def Dev.foundPhys (d : Dev) (pa n : Nat) : Dev :=
  d.repairAll fun t => match t.unit with
    | .sram die q => d.physPlace (64 * q) == .engine die && pa / 64 ≤ q && q * 64 < pa + n
    | _ => false

/-- What a read by physical address brings about: the host's copies are taken back (R376), errors found corrected. -/
def Dev.askedPhys (d : Dev) (pa n : Nat) : Dev := (d.backInval pa n).foundPhys pa n

/-- A write by physical address: dropped and counted where its port is down (R381). -/
def Dev.physWrite (d : Dev) (pa n v : Nat) : Dev :=
  if d.reachable pa then
    let d := d.backInval pa n
    { d with ms := d.ms.writeAt (d.physPlace pa) false 0 pa n v (2 ^ n - 1) }
  else d.dropWrite

/-- A table's word as a walk reads it; none where it has no home (R185) or reads as poison (R381; log 79). -/
def Dev.tableRead (d : Dev) (pa n : Nat) : Option Nat :=
  let pl := d.physPlace pa
  if d.reachable pa && pl != .nowhere && (d.ms.firstPoison pl pa n).isNone then some (d.ms.readAt pl pa n) else none

/-- A leaf or table entry is well formed (R190, R191): bits 11 and 2 zero; a leaf's low address bits zero and its
TIER as its range; a table entry's other bits zero. -/
def leafOk (e bits : Nat) : Bool :=
  nbit e 0 && nbit e 1 && nbits e 2 1 == 0 && nbits e 11 1 == 0 && nbits e 20 (bits - 8) == 0 &&
  (nbit e 9 == isCxl (nbits e 20 44 * 256))

def tableOk (e : Nat) : Bool := nbit e 0 && !nbit e 1 && nbits e 2 1 == 0 && nbits e 3 8 == 0 && nbits e 11 9 == 0

/-- One level of the walk (R192): the levels below, most significant first, as (low VA bit, index bits, leaf page bits
or 0). A next table's address is used as it stands, aligned or not (R192 names no fault for it: DESIGN CHOICE, log 72). -/
def Dev.walkLevels (d : Dev) (table va : Nat) : List (Nat × Nat × Nat) → Option (Nat × Nat)
  | [] => none
  | (lo, w, page) :: rest =>
    match d.tableRead (table + 8 * nbits va lo w) 8 with
    | none => none
    | some e =>
      if nbit e 1 then (if page ≠ 0 ∧ leafOk e page then some (e, page) else none)
      else if tableOk e && !rest.isEmpty then Dev.walkLevels d (nbits e 20 44 * 256) va rest
      else none

/-- The levels of a walk: low VA bit, index bits, leaf page bits (R192). -/
def walkShape : List (Nat × Nat × Nat) := [(48, 9, 0), (39, 9, 0), (30, 9, 30), (21, 9, 21), (16, 5, 16)]

/-- A page walk (R192, R193): of an access through a page, whose leaf's HSEL names the homing entry (R184, R191), or of one
that spills or refills a line, which homing entry 0 governs. None is `PAGE`. -/
def Dev.walkBy (d : Dev) (l : Latched) (va : Nat) (slot : Bool) : Option Tlb :=
  match d.walkLevels l.ptroot va walkShape with
  | none => none
  | some (e, bits) =>
    match d.tableRead (l.ptroot + 0x1000 + 16 * (if slot then 0 else nbits e 12 8)) 16 with
    | none => none
    | some h =>
      if nbits h 62 2 = 3 ∨ nbits h 18 44 ≠ 0 then none
      else some ⟨l.asid, va / 2 ^ bits * 2 ^ bits, bits, BitVec.ofNat 64 e, BitVec.ofNat 128 h, slot⟩

/-- The addresses at which a walk reads the tables. -/
def Dev.walkReads (d : Dev) (table va : Nat) : List (Nat × Nat × Nat) → List Nat
  | [] => []
  | (lo, w, _) :: rest =>
    let pa := table + 8 * nbits va lo w
    match d.tableRead pa 8 with
    | none => [pa]
    | some e => pa :: if !nbit e 1 && tableOk e && !rest.isEmpty then Dev.walkReads d (nbits e 20 44 * 256) va rest else []

/-- What the reads of the tables by a walk bring about (R376, R369). -/
def Dev.takeBackWalk (d : Dev) (l : Latched) (va : Nat) (slot : Bool) : Dev :=
  let d' := (d.walkReads l.ptroot va walkShape).foldl (fun (d : Dev) pa => d.askedPhys pa 8) d
  match d.walkLevels l.ptroot va walkShape with
  | none => d'
  | some (e, _) => d'.askedPhys (l.ptroot + 0x1000 + 16 * (if slot then 0 else nbits e 12 8)) 16

/-- The walk of an access through a page. -/
def Dev.walk (d : Dev) (l : Latched) (va : Nat) : Option Tlb := d.walkBy l va false

/-- Types the range of a physical address allows (R374): as bits by TYPE code, 0 where nothing may map it. -/
def Dev.rangeTypes (d : Dev) (pa : Nat) : Nat :=
  if pa < 0x7FFF000000 then 3
  else if pa < 0x8000000000 then 0
  else if isCxl pa then (if (pa - 0x100000000000) % 0x40000000000 < d.cxlCap.toList.getD (cxlPort pa) 0 then 3 else 0)
  else if 0x200000000000 ≤ pa ∧ pa < 0x400000000000 then
    let k := (pa - 0x200000000000) / 0x8000000000
    if d.inGang ∧ k ≠ d.pkg ∧ k < d.gangSize ∧ (pa - 0x200000000000) % 0x8000000000 < 0x7FFF000000 then 3 else 0
  else if 0x800000000000 ≤ pa ∧ pa < 0xF00000000000 then 8
  else if 0xF00000000000 ≤ pa ∧ pa < 0xF00004000000 then 4
  else 0

/-- What an access is (R194). -/
inductive Acc where
  | load | store | vload | vstore | loadQ | storeQ | amo | rmw | fetch
  deriving DecidableEq, Repr

/-- The cause by which a memory type refuses an access (R194), if it does. -/
def typeFault (typ : Nat) (a : Acc) : Option Nat :=
  match typ, a with
  | 0, .amo => some cATOMIC_TYPE
  | 0, .rmw => some cATOMIC_TYPE
  | 0, _ => none
  | 1, .vload => some cACCESS
  | 1, .vstore => some cACCESS
  | 1, .fetch => some cACCESS
  | 1, _ => none
  | 2, .load => none
  | 2, .store => none
  | 2, .amo => some cATOMIC_TYPE
  | 2, .rmw => some cATOMIC_TYPE
  | 2, _ => some cACCESS
  | _, .fetch => some cACCESS
  | _, .amo => some cATOMIC_TYPE
  | _, .rmw => some cATOMIC_TYPE
  | _, _ => none

/-- The permission bits an access needs (R194). -/
def permOk (leaf : Nat) (a : Acc) : Bool :=
  let rd := nbit leaf 3
  let wr := nbit leaf 4
  match a with
  | .load | .vload | .loadQ => rd
  | .store | .vstore | .storeQ => wr
  | .amo | .rmw => rd && wr
  | .fetch => nbit leaf 5 && rd

/-- A translation covers an address of an address space (R193). -/
def Tlb.covers (t : Tlb) (asid : BitVec 12) (va : Nat) : Bool := t.asid == asid && t.base ≤ va && va < t.base + 2 ^ t.bits

/-- The home of an address under a homing entry in a partition (R184, R185). -/
def Dev.homeBy (d : Dev) (part : Nat) (homing : BitVec 128) (pa : Nat) : Option Nat :=
  let h := homing.toNat
  d.homeOf (some part) (nbits h 62 2) (nbits h 12 6) (nbits h 0 12) (nbits h 64 64) pa

/-- Where an access of a type to an address with this home is performed. -/
def placeFor (typ pa : Nat) (home : Option Nat) : Place :=
  if typ = 2 then .control
  else if 0x200000000000 ≤ pa ∧ pa < 0x400000000000 then .remote ((pa - 0x200000000000) / 0x8000000000)
  else placeAt (typ = 1) home

/-- The access that a translation gives, without its checks; none where it has no home. -/
def Dev.placed (d : Dev) (part : Nat) (t : Tlb) (va : Nat) : Option Xlat :=
  let leaf := t.leaf.toNat
  let pa := nbits leaf 20 44 * 256 + va % 2 ^ t.bits
  (d.homeBy part t.homing pa).map fun home =>
    ⟨pa, placeFor (nbits leaf 6 2) pa (some home), nbits leaf 6 2, nbit leaf 8 && !nbit leaf 9, some (part, t.homing), t.bits⟩

/-- Homing and check 5 of R195 on a translation: the access, or the cause of its fault. -/
def Dev.xlat (d : Dev) (part : Nat) (t : Tlb) (va : Nat) (a : Acc) : Except Nat Xlat :=
  match d.placed part t va with
  | none => .error cPAGE
  | some x =>
    if !nbit (d.rangeTypes x.pa) x.typ then .error cACCESS
    else
      match typeFault x.typ a with
      | some c => .error c
      | none => if !permOk t.leaf.toNat a then .error cACCESS else .ok x

/-- An access finds the home that its address has now: cells have retired since it was translated (R185, R372). -/
def Dev.rehomeX (d : Dev) (x : Xlat) : Xlat :=
  match x.homing with
  | some (part, h) => { x with place := placeFor x.typ x.pa (d.homeBy part h x.pa) }
  | none => { x with place := match x.place with
      | .engine _ => placeAt true (d.attrHome x.pa)
      | .slice _ => placeAt false (d.attrHome x.pa)
      | pl => pl }

/-- An access translated by a walk at once (the device's own accesses; log 12). -/
def Dev.walkXlat (d : Dev) (part : Nat) (l : Latched) (va : Nat) (a : Acc) : Except Nat Xlat :=
  if va / 2 ^ 57 ≠ 0 then .error cACCESS
  else
    match d.walk l va with
    | none => .error cPAGE
    | some t => d.xlat part t va a

/-- The translation of an address that a core's TLB keeps: of accesses through a page, or of those that spill or refill a
line (R193, R184; log 12). -/
def Core.findTlb (c : Core) (slot : Bool) (asid : BitVec 12) (va : Nat) : Option Tlb :=
  c.tlb.find? fun t => t.slot == slot && t.covers asid va

/-- A translation of a core: one that its TLB keeps, else a walk (R193). -/
def Dev.xlatOn (d : Dev) (core : Option Nat) (part : Nat) (l : Latched) (va : Nat) (a : Acc) : Except Nat Xlat :=
  if va / 2 ^ 57 ≠ 0 then .error cACCESS
  else
    match core.bind fun c => (d.core c).findTlb false l.asid va with
    | some t => d.xlat part t va a
    | none => d.walkXlat part l va a

/-- A core keeps a translation that an access has made; `slot`: one that spills or refills a line (R193, R184). -/
def Dev.keepOne (d : Dev) (core : Option Nat) (l : Latched) (slot : Bool) (va : Nat) : Dev :=
  match core with
  | none => d
  | some c =>
    if ((d.core c).findTlb slot l.asid va).isSome then d
    else
      let d := d.takeBackWalk l va slot
      match d.walkBy l va slot with
      | none => d
      | some t => { d with cores := d.cores.modify c Core.reset fun k => { k with tlb := t :: k.tlb } }

/-- A core keeps the translations that accesses to these addresses have made (R193). -/
def Dev.keepOn (d : Dev) (core : Option Nat) (l : Latched) (vas : List Nat) : Dev :=
  vas.foldl (fun d va => d.keepOne core l false va) d

/-- One address of each 64 KiB page among some. -/
def pagesOf (vas : List Nat) : List Nat := vas.foldl (fun ps va => if ps.any (fun p => p / 2 ^ 16 == va / 2 ^ 16) then ps else va :: ps) []

/-- The device's own write to a context's memory (fault queue, image slot, completion record): the homing of its page
(R184); none where it does not translate. Each 64 KiB page is walked apart. -/
def Dev.ctxWrite (d : Dev) (part : Nat) (l : Latched) (va n v : Nat) : Option Dev :=
  match d.walkXlat part l va .store with
  | .error _ => none
  | .ok x => some ((d.takeBackWalk l va false).writeX x l.asid n v (2 ^ n - 1))

def Dev.ctxRead (d : Dev) (part : Nat) (l : Latched) (va n : Nat) (a : Acc) : Except Nat Nat :=
  match d.walkXlat part l va a with
  | .error c => .error c
  | .ok x => .ok (d.readIn d.ms x n).1

/-- An access to a backing area that spills or refills a line of a core: homing entry 0 governs it (R184), by a translation
that the core's TLB keeps, else a walk (R193). -/
def Dev.slotXlat (d : Dev) (core : Option Nat) (part : Nat) (l : Latched) (va : Nat) (a : Acc) : Except Nat Xlat :=
  if va / 2 ^ 57 ≠ 0 then .error cACCESS
  else
    match (core.bind fun c => (d.core c).findTlb true l.asid va).orElse fun _ => d.walkBy l va true with
    | none => .error cPAGE
    | some t => d.xlat part t va a

/-- The core whose arrays and engines work for a group: its own, or the one it left (R341, R342). -/
def Group.engCore (g : Group) : Option Nat := g.core.orElse fun _ => g.linesOn

/-- A line of 256 bytes spilled from a core to a backing area, its bytes of `mask`, with the poison of its 32-byte sectors (R341,
R362); the core keeps the translation. None where it does not translate. -/
def Dev.spillLine (d : Dev) (core : Option Nat) (part : Nat) (l : Latched) (va v : Nat) (bad : Nat → Bool) (mask : Nat := 2 ^ 256 - 1) :
    Option Dev :=
  match d.slotXlat core part l va .store with
  | .error _ => none
  | .ok x =>
    let d := (d.keepOne core l true va).writeX x l.asid 256 v mask
    some { d with ms := (List.range 8).foldl (fun ms s => if bad s then ms.markBad x.place (x.pa + 32 * s) else ms) d.ms }

end Sys2Proof.Machine
end

