-- ==== Sys2Proof/Machine/Groups.lean ====
section
/-!
DEFINITION. Groups and launches as a whole: domains (04 R80, R81), barrier trees (15 R315 to R317), the abort line
(06 R149, 20 R357), the fault queue (17 R336, R337), consorts leaving (05 R123), a group leaving its core (17 R341),
being discarded or retired (17 R334, 20 R356).
-/

namespace Sys2Proof.Machine

/-! Domains and barrier objects. -/

/-- Distinct numbers, in order of first appearance. -/
def distinct (xs : List Nat) : List Nat := xs.foldl (fun acc x => if acc.contains x then acc else acc ++ [x]) []

/-- The domain of a cell at a level (R81). -/
def domIndex (level cell : Nat) : Nat :=
  match level with
  | 1 => cell
  | 2 => cell / 16
  | 3 => cell / 512
  | _ => 0

def domKey (level cell : Nat) : Nat := level * 4096 + domIndex level cell

/-- The ceiling of a launch's barrier tree (R315). -/
def Launch.ceiling (l : Launch) : Nat := if l.scope = 0 then 4 else l.scope

/-- The fret domain of a home cell (R96). -/
def Launch.domOf (l : Launch) (cell : Nat) : Nat := domKey l.ceiling cell

/-- A domain before its first commit: its read state is memory at the launch's acceptance, kept in the state of the
launch's first domain entry. -/
def Dom.reset (v : Option MemSys) : Dom :=
  { phase := .compute, view := v, log := [], charge := 0, rollback := none, rerun := false, exchAgain := false,
    markers := [], readies := [], sentReady := false }

def BarObj.reset : BarObj := ⟨0, 0, 0, 0, false, 0, false⟩

def Launch.bar (l : Launch) (k : Nat) : BarObj := l.bars.getD k BarObj.reset

def Launch.setBar (l : Launch) (k : Nat) (o : BarObj) : Launch := { l with bars := l.bars.put k o }

/-- Arrivals that complete the open phase of an object: its members but for those that joined during it (R316). -/
def BarObj.need (o : BarObj) : Nat := o.expect - o.late

/-- KIND of the first open phase on the path of a cell from a level up; 0 where none is open. -/
def Launch.openKind (l : Launch) (cell : Nat) : Nat → Nat → Nat
  | 0, _ => 0
  | fuel + 1, level =>
    let k := (l.bar (domKey level cell)).kind
    if k ≠ 0 then k else if level < l.ceiling then Launch.openKind l cell fuel (level + 1) else 0

/-- A member joins at a level: EXPECT rises, and rises above where the object had no member (R315, R97). A member that
joins during an open phase of the object or of one above it counts from the next. -/
def Launch.join (l : Launch) (cell : Nat) : Nat → Nat → Launch
  | 0, _ => l
  | fuel + 1, level =>
    let k := domKey level cell
    let o := l.bar k
    let up := if level < l.ceiling then domKey (level + 1) cell else 0
    let late := l.openKind cell 5 level ≠ 0
    let lateUp := if o.expect = 0 then l.openKind cell 5 (level + 1) ≠ 0 && level < l.ceiling else o.lateUp
    let l' := l.setBar k { o with expect := o.expect + 1, parent := up, late := o.late + (if late then 1 else 0), lateUp := lateUp }
    if o.expect = 0 ∧ level < l.ceiling then Launch.join l' cell fuel (level + 1) else l'

def Launch.addMember (l : Launch) (cell : Nat) : Launch := l.join cell 5 1

/-- A member that joins now joins during an open phase of its cell or of a domain above it. -/
def Launch.openFor (l : Launch) (cell : Nat) : Bool :=
  (List.range l.ceiling).any fun i => (l.bar (domKey (i + 1) cell)).kind != 0

/-- The level at which a phase of this KIND completes (R316). -/
def Launch.kindLevel (l : Launch) (kind : Nat) : Nat := if kind = 7 then l.ceiling else kind

/-- A cell that an object's domain contains: the first of it. -/
def firstCell (key : Nat) : Nat :=
  let lv := key / 4096
  let idx := key % 4096
  if lv = 1 then idx else if lv = 2 then 16 * idx else if lv = 3 then 512 * idx else 0

/-- A completed phase clears COUNT and KIND and flips PHASE in the object and in those below it that arrived (R316). -/
def Launch.flip (l : Launch) (level cell : Nat) : Launch :=
  { l with bars := l.bars.map fun (k, o) =>
      if k / 4096 ≤ level ∧ domKey level (firstCell k) = domKey level cell then
        let o := { o with late := 0, lateUp := o.lateUp && k / 4096 == level }
        (k, if o.kind = 0 then o else { o with count := 0, kind := 0, phase := !o.phase })
      else (k, o) }

/-- One arrival at an object (R316, R317): the launch, and how it ended: waits, completes at this level, or meets
another KIND. -/
inductive Arrival where
  | waits
  | completes (level : Nat)
  | mismatch (found : Nat)
  deriving DecidableEq, Repr

def Launch.arrive (l : Launch) (cell kind : Nat) : Nat → Nat → Launch × Arrival
  | 0, _ => (l, .waits)
  | fuel + 1, level =>
    let k := domKey level cell
    let o := l.bar k
    if o.kind ≠ 0 ∧ o.kind ≠ kind then (l, .mismatch o.kind)
    else
      let o := { o with kind := kind, count := o.count + 1 }
      let l := l.setBar k o
      if o.need ≤ o.count then
        if l.kindLevel kind ≤ level then (l, .completes level) else Launch.arrive l cell kind fuel (level + 1)
      else (l, .waits)

/-- The object has sent its arrival of the open phase to its parent, or completed there (R316). -/
def BarObj.sent (o : BarObj) : Bool := o.kind != 0 && o.need ≤ o.count

/-- A member leaves an object (R316): EXPECT falls, and an open phase may complete by it. `late`: it counted from the next
phase; `came`: its arrival of the open phase stood. An object without members leaves its parent in turn; one whose only
members count from the next phase has arrived in a phase that is open above it. -/
def Launch.leave (l : Launch) (cell : Nat) (late came : Bool) : Nat → Nat → Launch × Arrival
  | 0, _ => (l, .waits)
  | fuel + 1, level =>
    let k := domKey level cell
    let o := l.bar k
    let n := { o with expect := o.expect - 1, late := o.late - (if late then 1 else 0), count := o.count - (if came then 1 else 0) }
    if n.expect = 0 then
      let l' := l.setBar k { n with count := 0, kind := 0, lateUp := false }
      if level < l.ceiling then Launch.leave l' cell o.lateUp o.sent fuel (level + 1) else (l', .waits)
    else
      let kind := if n.kind ≠ 0 then n.kind
        else if n.need = 0 ∧ o.need ≠ 0 ∧ !n.lateUp ∧ level < l.ceiling then l.openKind cell 5 (level + 1) else 0
      let l' := l.setBar k { n with kind := kind }
      if kind ≠ 0 ∧ !o.sent ∧ n.need ≤ n.count then
        if l.kindLevel kind ≤ level then (l', .completes level) else l'.arrive cell kind fuel (level + 1)
      else (l', .waits)

/-- A record or group of a domain whose phase has completed joins in the next phase (R316). -/
def Rec.punctual (tree level key : Nat) (r : Rec) : Rec :=
  if r.launch = tree ∧ domKey level r.home = key then { r with late := false } else r

/-- The arrival that stands was made before the handler that runs: it is the interrupted instruction's (R318). -/
def Group.outerArrival (g : Group) : Bool := g.arch.k.inTrap && !g.arch.arrivedIn

/-- The phase that a group has arrived at has completed: the instruction that arrived ends with the status. Within a handler
an arrival made before it belongs to the interrupted instruction, and to a barrier of the handler that waits for the same
phase (R318). -/
def Group.released_ (g : Group) (st : Nat) : Group :=
  let a := g.arch
  if g.outerArrival then
    { g with arrived := none, released := if a.joinedIn then some st else none, arch := { a with relOuter := some st, joinedIn := false } }
  else { g with arrived := none, released := some st }

/-- Members released by a completed `bar` (R316); a fret's members wait for the end of exchange (R96). -/
def releaseBar (tree level key kind : Nat) (g : Group) : Group :=
  let g := { g with recd := g.recd.punctual tree level key }
  if g.recd.launch = tree ∧ g.arrived = some kind ∧ kind ≠ 7 ∧ domKey level g.recd.home = key then
    g.released_ 0
  else g

/-- Packages other than this one. -/
def Dev.otherPkgs (d : Dev) : List Nat := (List.range d.gangSize).filter (· ≠ d.pkg)

/-- At a gang fret the package sends each logged operation whose home lies on another package there, and an end marker
to every other package (R386). -/
def Dev.sendLog (d : Dev) (key : Nat) (tree : Nat) (l : Launch) : Dev :=
  if l.scope ≠ 5 ∨ !d.inGang then d
  else
    let dm := l.doms.getD key (Dom.reset none)
    let far := dm.log.filterMap fun e => match e.op.xl.place with
      | .remote k => some (OutMsg.logged k e)
      | _ => none
    { d with out := d.out ++ far ++ d.otherPkgs.map fun k => OutMsg.marker k tree key }

/-- The groups of a fret domain, provisional ones among them. -/
def Dev.domGroups (d : Dev) (tree : Nat) (l : Launch) (dom : Nat) : List Group :=
  (d.groups.map (·.2)).filter fun g => g.recd.launch == tree && l.domOf g.recd.home == dom

/-- No fret of the domain is under way, or the abort line has ended it (R99). -/
def Launch.between (l : Launch) (dm : Dom) : Bool := dm.phase == .compute || l.raisedAt.isSome

/-- The last member of a domain has retired: its operations, which the final commit of R98 applies, go where a fret would
send them, and in a gang a package without groups sends its end markers too (R386). After the abort line only an abort
group's do (R357, R358). -/
def Dev.sendFinal (d : Dev) (tree key : Nat) : Dev :=
  match d.launches.find tree with
  | none => d
  | some l =>
    let gs := d.domGroups tree l key
    let last := (l.bar key).expect == 0 && l.between (l.doms.getD key (Dom.reset none)) && gs.all (fun h => h.status == .provisional)
    if last ∧ (l.raisedAt.isNone ∨ gs.any (·.isAbort)) then d.sendLog key tree l else d

/-- A phase completes at a level: a `bar` releases its members, a fret ends its domain's arrival (R96, R316). -/
def Dev.completePhase (d : Dev) (tree : Nat) (l : Launch) (cell level : Nat) : Dev :=
  let key := domKey level cell
  let kind := (l.bar key).kind
  let l' := l.flip level cell
  let l' := if kind = 7 then
      let dm := l'.doms.getD key (Dom.reset none)
      { l' with doms := l'.doms.put key { dm with phase := if l.mode = .det then .commit else .exchange } }
    else l'
  let tidy (rs : List Rec) : List Rec := rs.map fun r => r.punctual tree level key
  let d := if kind = 7 ∧ l.mode = .det then d.sendLog key tree l else d
  { (d.setLaunch tree l') with groups := d.groups.map fun (k, g) => (k, releaseBar tree level key kind g),
                               pools := d.pools.map fun (k, rs) => (k, tidy rs),
                               overflow := d.overflow.map fun (k, rs) => (k, tidy rs) }

/-! The abort line. -/

/-- A token entry of a dropped or discarded ticketed operation completes, writing nothing (R357). -/
def dropTicketed (g : Group) : Group :=
  let finish (es : List TokEntry) : List TokEntry := es.map fun e => if e.row = .ticketed then { e with done := true } else e
  let a := { g.arch with buffer := [], toks := g.arch.toks.map finish }
  { g with arch := a.release }

def TokEntry.awaitsCommit (e : TokEntry) : Bool := e.row == .ticketed && !e.done

/-- Entries of the ticketed operations that the commit applied complete, and their destinations are written (R311, R319). -/
def completeTicketed (g : Group) : Group :=
  let all := (List.range 32).flatMap fun t => ((g.arch.toks.toList.getD t []).filter (·.awaitsCommit)).map fun e => (t, e)
  all.foldl (fun g (te : Nat × TokEntry) => completeEntry g te.1 te.2.id te.2.writes) g

/-- What a raised line does to the ticketed operations of a group by the phase of its domain (R357): those of a commit
being applied stay, those of one applied are complete with their results (R311), the others are dropped. -/
def endTicketed (p : Phase) (g : Group) : Group :=
  match p with
  | .applying => g
  | .committed | .exchange => completeTicketed g
  | _ => dropTicketed g

/-- Fret domains of a launch with a fret under way: past its compute phase, or with an arrival made (R96, R99). -/
def Launch.openFrets (l : Launch) : Nat :=
  (l.doms.filter fun (kd : Nat × Dom) => kd.2.phase != .compute ||
    l.bars.any fun (ko : Nat × BarObj) => ko.2.kind == 7 && domKey l.ceiling (firstCell ko.1) == kd.1).length

/-- The abort line of a launch is raised in a cluster (R149, R357): logs not yet being applied are discarded; a fret
under way completes aborted and counts (R99, R360; log 31). -/
def Dev.raiseAbort (d : Dev) (now tree cluster : Nat) : Dev :=
  match d.launches.find tree with
  | none => d
  | some l =>
    let first := l.raisedAt.isNone
    let l := if first then { l with frets := l.frets + l.openFrets } else l
    let l1 := { l with raised := if l.raised.contains cluster then l.raised else cluster :: l.raised,
                       raisedAt := l.raisedAt.orElse fun _ => some now }
    if first ∧ l.mode = .det then
      let doms := l1.doms.map fun (k, dm) => (k, { dm with log := [], charge := 0 })
      let d := d.setLaunch tree { l1 with doms := doms }
      { d with groups := d.groups.map fun (k, g) => (k, if g.recd.launch = tree then endTicketed (l.doms.getD (l.domOf g.recd.home) (Dom.reset none)).phase g else g) }
    else d.setLaunch tree l1

def Launch.abortIn (l : Launch) (cluster : Nat) : Bool := l.raised.contains cluster

/-! Interrupts and the fault queue. -/

/-- A word of the MSI-X table; the mask bit of every entry is 1 at reset (R375; PRESUMED, the PCI rule, log 14). -/
def Dev.msixWord (d : Dev) (k : Nat) : Word := d.msixTable.getD k (if k % 2 = 1 then BitVec.ofNat 64 (2 ^ 32) else 0)

/-- An interrupt of a vector (R375, R380): masked entries set their pending bit instead. -/
def Dev.interrupt (d : Dev) (vec : Nat) : Dev :=
  if nbit (d.msixWord (2 * vec + 1)).toNat 32 then
    { d with msixPending := d.msixPending.modify (vec / 64) 0 fun w => w ||| BitVec.ofNat 64 (2 ^ (vec % 64)) }
  else d.send (.interrupt vec)

/-- The low word of a fault-queue entry (R336). -/
def fqLow (aux typ cause core : Nat) : Nat := core % 2 ^ 12 + cause % 2 ^ 8 * 2 ^ 16 + typ % 2 ^ 8 * 2 ^ 24 + aux % 2 ^ 32 * 2 ^ 32

def satInc16 (w : BitVec 16) : BitVec 16 := if w = BitVec.allOnes 16 then w else w + 1

/-- Consecutive entries of a context's fault queue from a number (R337); none where one does not translate. -/
def Dev.writeEntries (d : Dev) (p : Nat) (l : Latched) (i : Nat) : List Nat → Option Dev
  | [] => some d
  | v :: vs => (d.ctxWrite p l (l.backing + 0x1000 + 32 * (i % 1024)) 32 v).bind fun d => Dev.writeEntries d p l (i + 1) vs

/-- The last n entries written, in order. -/
def Dev.lastEntries (d : Dev) (p : Nat) (l : Latched) (tail n : Nat) : List Nat :=
  (List.range n).map fun i =>
    match d.ctxRead p l (l.backing + 0x1000 + 32 * ((tail - n + i) % 1024)) 32 .load with
    | .ok v => v
    | .error _ => 0

/-- A fault-queue entry (R336, R337): written only where there is room, before the entries of the same fclk from higher
cores; in a full queue it takes the place of the last of those, which is lost. The fault interrupt follows it. The answer says
whether it was written. -/
def Dev.faultEntry (d : Dev) (p c : Nat) (val pc ticket : Word) (aux typ cause core : Nat) : Dev × Bool :=
  let x := d.ctx p c
  match x.latched with
  | none => (d, false)
  | some l =>
    if x.retiring ∨ x.damaged then (d, false)
    else
      let v := fqLow aux typ cause core + ticket.toNat * 2 ^ 64 + pc.toNat * 2 ^ 128 + val.toNat * 2 ^ 192
      let lost := d.setCtx p c { x with fqLost := satInc16 x.fqLost }
      let before := d.fqNow.getD (ctxKey p c) []
      let n := min (before.filter (core < ·)).length (x.fqTail - x.fqHead).toNat
      let tail := x.fqTail.toNat + 1024
      if (x.fqTail - x.fqHead).toNat < 1024 then
        match d.writeEntries p l (tail - n) (v :: d.lastEntries p l tail n) with
        | none => (lost, false)
        | some d =>
          let d := { (d.setCtx p c { x with fqTail := x.fqTail + 1 }) with
            fqNow := d.fqNow.put (ctxKey p c) (before.filter (· ≤ core) ++ core :: before.filter (core < ·)) }
          let vec := nbits x.intv.toNat 16 11
          (if vec = 0 then d else d.interrupt vec, true)
      else if n = 0 then (lost, false)
      else
        let es := d.lastEntries p l tail n
        match lost.writeEntries p l (tail - n) (v :: es.dropLast) with
        | none => (lost, false)
        | some d =>
          ({ d with fqNow := d.fqNow.put (ctxKey p c) (before.filter (· ≤ core) ++ core :: (before.filter (core < ·)).dropLast),
                    displaced := d.displaced ++ (es.getLast?.map fun e => (p, c, e)).toList }, true)

def Dev.launchOf (d : Dev) (g : Group) : Option Launch := d.launches.find g.recd.launch

/-- An entry about a group, in its context's queue; CORE is the core that the group holds or held last (R336). -/
def Dev.groupEntry (d : Dev) (g : Group) (val pc : Word) (aux typ cause : Nat) : Dev × Bool :=
  match d.launchOf g with
  | none => (d, false)
  | some l => d.faultEntry l.part l.ctx val pc g.recd.ticket aux typ cause (g.engCore.getD 0)

/-! Consorts. -/

/-- The group leaves its consort, and with it the whole team (R91, R123): each member goes on alone. -/
def Dev.breakConsort (d : Dev) (g : Group) : Dev :=
  let lead : Option Nat := match g.consort with
    | .none => none
    | .leader _ => some g.gid
    | .follower l _ _ => some l
  match lead with
  | none => d
  | some l =>
    { d with groups := d.groups.map fun (k, h) =>
        let h' := match h.consort with
          | .leader _ => if h.gid = l then { h with consort := .none } else h
          | .follower l' _ _ => if l' = l then { h with consort := .none } else h
          | .none => h
        (k, h') }

/-- A member without another. -/
def Consort.without (gid : Nat) : Consort → Consort
  | .leader ms => .leader (ms.filter (· ≠ gid))
  | c => c

/-- A follower leaves alone (R122); with its leader the consort ends (R123). -/
def Dev.quitConsort (d : Dev) (g : Group) : Dev :=
  match g.consort with
  | .follower lead _ _ =>
    let d := d.setGroup { g with consort := .none }
    match d.groups.find lead with
    | none => d
    | some h => d.setGroup { h with consort := h.consort.without g.gid }
  | _ => d.breakConsort g

/-! Leaving a core. -/

/-- A core without a group. -/
def Dev.freeCore (d : Dev) (core : Nat) : Dev :=
  { d with cores := d.cores.modify core Core.reset fun c => { c with group := none } }

/-- Values that a step would use are read anew when the step begins after the group's return (R281). -/
def MRun.atBoundary (r : MRun) : MRun := if r.begun then r else { r with vals := none }

/-- A group leaves its core (R341): an instruction stalled at issue is cancelled (a parked group keeps the condition it
waits for, R94); its lines become evictable. -/
def Dev.leaveCore (d : Dev) (g : Group) (st : GStatus) : Dev :=
  let d := d.breakConsort g
  let g := (d.groups.find g.gid).getD g
  let d := match g.core with
    | none => d
    | some c => d.freeCore c
  let mu := { g.arch.mu with run := g.arch.mu.run.atBoundary }
  d.setGroup { g with arch := { g.arch with mu := mu }, core := none, status := st, stall := if st = .parked then g.stall else .none, ganged := false, pinned := [],
                       flagSeen := g.flagSeen && st == .parked }

/-- The record of a group is neither ready nor running any more (R85). -/
def Dev.clearShadow (d : Dev) (r : Rec) : Dev :=
  match r.addr with
  | none => d
  | some (_, x) => { d with shadow := d.shadow.del (granKey 0 x.pa) }

/-- The image of a record at its place (R84). -/
def Dev.recordImage (d : Dev) (x : Xlat) : Nat := (d.readIn d.ms x 64).1

/-- Bytes n from an offset of a record written at its home engine. -/
def Dev.writeRecord (d : Dev) (x : Xlat) (off n v : Nat) : Dev := d.writeX { x with pa := x.pa + off } 0 n v (2 ^ n - 1)

/-- ARMED set or cleared (bit 99 of the record). -/
def Dev.setArmed (d : Dev) (x : Xlat) (b : Bool) : Dev :=
  d.writeRecord x 12 1 (putBits (nbits (d.recordImage x) 96 8) 3 1 (if b then 1 else 0))

/-- Jobs of a group in its cluster's indirect engine are discarded (R79, R218). -/
def Dev.dropIndirect (d : Dev) (gid cluster : Nat) : Dev :=
  { d with indirect := d.indirect.modify cluster Indirect.reset fun e =>
      { queue := e.queue.filter (·.gid ≠ gid)
        job := match e.job with
          | some j => if j.cmd.gid = gid then none else some j
          | none => none
        aside := e.aside.map fun (c, j, q) =>
          (c, (match j with
            | some j => if j.cmd.gid = gid then none else some j
            | none => none), q.filter (·.gid ≠ gid)) } }

/-- AUX of the report of a mismatch: the level of the arrival and of the open phase (R317). -/
def mismatchAux (kind found : Nat) : Nat := kind + 8 * found

/-- A mismatched phase raises the abort line and is reported (R317). -/
def Dev.reportMismatch (d : Dev) (now : Nat) (l : Launch) (r : Rec) (pc : Word) (core kind found : Nat) : Dev :=
  let d := d.raiseAbort now r.launch (clusterOfCell r.home)
  (d.faultEntry l.part l.ctx (BitVec.ofNat 64 r.launch) pc r.ticket (mismatchAux kind found) 4 0 core).1

/-- EXPECT falls for a member that retires or is discarded, and the phase that this may complete, or the mismatch that the
arrival so sent up meets (R316, R317). -/
def Dev.memberLeaves (d : Dev) (now : Nat) (r : Rec) (pc : Word) : Dev :=
  match d.launches.find r.launch with
  | none => d
  | some l =>
    match l.leave r.home r.late false 5 1 with
    | (l', .completes level) => (d.setLaunch r.launch l').completePhase r.launch l' r.home level
    | (l', .mismatch found) =>
      let d := d.setLaunch r.launch l'
      if l'.torn then d else d.reportMismatch now l' r pc 0 (l'.openKind r.home 5 1) found
    | (l', .waits) => d.setLaunch r.launch l'

/-- The group leaves the device: its core, its slot, its lines, its jobs and its record's state go (R356, R79). -/
def Dev.removeGroup (d : Dev) (g : Group) : Dev :=
  let d := d.quitConsort g
  let d := match g.core with
    | none => d
    | some c => d.freeCore c
  let d := d.dropIndirect g.gid (clusterOfCell g.recd.home)
  let d := d.clearShadow g.recd
  { d with groups := d.groups.del g.gid, walks := d.walks.map fun (k, ws) => (k, ws.filter (·.gid ≠ g.gid)),
           invals := d.invals.filter (·.gid ≠ g.gid) }

/-- A group is discarded (R79, R334): it leaves its launch's barriers and counts in DISCARD; the frets it belonged to
complete aborted (R99); ARMED of a child that had not started is cleared (R359). -/
def Dev.discardGroup (d : Dev) (now : Nat) (g : Group) : Dev :=
  let d := d.removeGroup g
  let d := match g.status, g.recd.addr with
    | .fetching, some (_, x) => d.setArmed x false
    | _, _ => d
  match d.launches.find g.recd.launch with
  | none => d
  | some l =>
    let l := if g.status = .provisional then l
      else { l with discard := l.discard + 1, live := l.live - 1,
                    abortGroup := if g.isAbort then .retired else l.abortGroup }
    let d := d.setLaunch g.recd.launch l
    if g.isAbort ∨ g.status = .provisional then d else d.memberLeaves now g.recd g.arch.pc

/-- `GROUP_END` (R334): discarded, the abort line raised, a TYPE 0 entry with CAUSE 23. -/
def Dev.endGroup (d : Dev) (now : Nat) (g : Group) (cause : Nat) (val pc : Word) (report : Bool := true) : Dev :=
  let d := if report then (d.groupEntry g val pc cause 0 cNESTED).1 else d
  let d := d.breakConsort g
  let d := d.raiseAbort now g.recd.launch (clusterOfCell g.recd.home)
  d.discardGroup now ((d.groups.find g.gid).getD g)

end Sys2Proof.Machine
end

