-- ==== Sys2Proof/Machine/Dispatcher.lean ====
section
/-!
DEFINITION. The dispatchers (04_placing R82 to R94): records and their fields, readiness, pools and overflow lists, the
order of starting, waiting and parking.
-/

namespace Sys2Proof.Machine

/-! Records. -/

/-- Region fields of a record image from bit lo (R84). -/
def regionAt (n lo : Nat) : Region := ⟨nbits n (lo + 45) 49 * 256, nbits n (lo + 34) 11, nbits n (lo + 24) 10, nbits n lo 24⟩

/-- The regions of a record that are present. -/
def regionsOf (n : Nat) : List Region := [regionAt n 230, regionAt n 324, regionAt n 418].filter (·.nb ≠ 0)

def Region.apart (a b : Region) : Bool := a.lso + a.nb ≤ b.lso || b.lso + b.nb ≤ a.lso

/-- Sizes, bounds and disjointness of the regions (R29, R30, R88). -/
def regionsOk : List Region → Bool
  | [] => true
  | r :: rs => r.nb ≤ 1024 && r.lso + r.nb ≤ 1024 && rs.all r.apart && regionsOk rs

/-- A record found valid when it becomes ready (R88). -/
def recordOk (n : Nat) : Bool := nbits n 100 28 = 0 && regionsOk (regionsOf n)

/-- Group index, CHILD1 and CHILD2 of a ticket (R76). -/
def tkGroup (t : Word) : Nat := nbits t.toNat 24 24
def tkChild1 (t : Word) : Nat := nbits t.toNat 12 12
def tkChild2 (t : Word) : Nat := nbits t.toNat 0 12

/-- Position of a launch group in the cell list (R82, R384). -/
def Launch.place (l : Launch) (gang : Nat) (grp : Nat) : Nat :=
  let k := if l.team4 then grp / 4 else grp
  (if l.scope = 5 then k / gang else k) % l.cells.length

/-- Home cell of a child (R82). -/
def Dev.childHome (d : Dev) (l : Launch) (t : Word) : Nat :=
  let cells := d.cellList l.part
  let grp := if l.scope = 5 then tkGroup t / d.gangSize else tkGroup t
  cells.getD ((grp + tkChild1 t + tkChild2 t) % cells.length) 0

/-- The order of the dispatcher (R87): priority, ready time, ticket, entry. -/
structure DispKey where
  prio : Nat
  ready : Nat
  ticket : Nat
  order : Nat
  deriving DecidableEq, Repr, Inhabited

def DispKey.before (a b : DispKey) : Bool :=
  if a.prio ≠ b.prio then a.prio < b.prio
  else if a.ready ≠ b.ready then a.ready < b.ready
  else if a.ticket ≠ b.ticket then a.ticket < b.ticket
  else a.order < b.order

def Rec.key (r : Rec) : DispKey := ⟨r.prio, r.ready, r.ticket.toNat, r.order⟩

/-- The first in the order among those of a list. -/
def firstBy {α : Type} (key : α → DispKey) : List α → Option α
  | [] => none
  | x :: xs =>
    match firstBy key xs with
    | none => some x
    | some y => if (key y).before (key x) then some y else some x

def Dev.pool (d : Dev) (cl : Nat) : List Rec := d.pools.getD cl []

/-- The context of a launch runs in its partition. -/
def Dev.runs (d : Dev) (tree : Nat) : Bool :=
  match d.launches.find tree with
  | none => false
  | some l => (d.part l.part).running == some l.ctx

/-- A ready record enters its cluster's pool while more than 64 slots are free, a child armed by a running group of the
context while any is; otherwise, and when its context does not hold the slice, the overflow list (R88). Every child that a
`spawn` or `join` makes ready counts as such a child, whether its arming group still runs or not (DESIGN CHOICE, log 85). -/
def Dev.enterPool (d : Dev) (r : Rec) (child : Bool) : Dev :=
  let cl := clusterOfCell r.home
  let r := { r with order := d.order }
  let d := { d with order := d.order + 1 }
  let n := (d.pool cl).length
  if d.runs r.launch ∧ (n + 64 < 1024 ∨ (child ∧ n < 1024)) then { d with pools := d.pools.put cl (d.pool cl ++ [r]) }
  else { d with overflow := d.overflow.put cl (d.overflow.getD cl [] ++ [r]) }

/-- Each of n slots that have freed takes the first overflow record of the running context (R88). -/
def Dev.moveIn (d : Dev) (cl : Nat) : Nat → Dev
  | 0 => d
  | fuel + 1 =>
    if (d.pool cl).length < 1024 then
      match firstBy Rec.key ((d.overflow.getD cl []).filter fun r => d.runs r.launch) with
      | none => d
      | some r =>
        Dev.moveIn { d with pools := d.pools.put cl (d.pool cl ++ [r]),
                            overflow := d.overflow.put cl ((d.overflow.getD cl []).filter (· ≠ r)) } cl fuel
    else d

/-- A record leaves the pool; its slot goes to the first overflow record. -/
def Dev.takeRec (d : Dev) (r : Rec) : Dev :=
  let cl := clusterOfCell r.home
  { d with pools := d.pools.put cl ((d.pool cl).filter (· ≠ r)) }.moveIn cl 1

/-- A record becomes ready (R85, R88): an invalid one is reported and its launch aborted; a valid one becomes a member
of its fret domain (R97) and enters the pool or the overflow list. -/
def Dev.recordReady (d : Dev) (now tree va : Nat) (x : Xlat) (child : Bool) : Dev :=
  match d.launches.find tree with
  | none => d
  | some l =>
    let n := d.recordImage x
    let l := { l with armed := l.armed.filter fun p => p.2.pa ≠ x.pa }
    let tk := BitVec.ofNat 64 (nbits n 0 64)
    let home := d.childHome l tk
    if recordOk n then
      let r : Rec :=
        { addr := some (va, x), launch := tree, ticket := tk, code := BitVec.ofNat 51 (nbits n 128 51),
          frame := BitVec.ofNat 51 (nbits n 179 51), prio := nbits n 96 2, regions := regionsOf n, team4 := false, ready := now,
          order := 0, home := home, late := l.openFor home, mates := 1, ownView := none }
      let l := { l.addMember home with live := l.live + 1 }
      let d := { d.setLaunch tree l with shadow := d.shadow.put (granKey 0 x.pa) false }
      d.enterPool r child
    else
      let d := (d.setLaunch tree { l with discard := l.discard + 1 }).setArmed x false
      let d := (d.faultEntry l.part l.ctx (BitVec.ofNat 64 va) 0 0 (va % 2 ^ 32) 3 0 0).1
      d.raiseAbort now tree (clusterOfCell home)

/-- The record's state in its shadow word (R85): ready or running. -/
def Dev.recordBusy (d : Dev) (x : Xlat) : Bool := (d.shadow.find (granKey 0 x.pa)).isSome

/-- A ready record is discarded unstarted (R357, R79): counted, no longer a member, its ARMED cleared in memory (R359). -/
def Dev.discardRec (d : Dev) (now : Nat) (r : Rec) : Dev :=
  let d := d.clearShadow r
  let d := match r.addr with
    | none => d
    | some (_, x) => d.setArmed x false
  match d.launches.find r.launch with
  | none => d
  | some l =>
    (d.setLaunch r.launch { l with discard := l.discard + 1, live := l.live - 1 }).memberLeaves now r 0

/-! Candidates (R87, R90). -/

/-- A core holds a group whose retirement is provisional (R356). -/
def Dev.provisionalOn (d : Dev) (c : Nat) : Bool := match (d.core c).group with
  | none => false
  | some k => (d.groups.find k).any (·.status == .provisional)

/-- A core of a cell that holds no group; one whose group has retired provisionally is given up to a newcomer (R97, log 26). -/
def Dev.coreFree (d : Dev) (c : Nat) : Bool := ((d.core c).group.isNone || d.provisionalOn c) && !d.retired.contains (cellOf c)

/-- The free cores of a cell: those without a group first. -/
def Dev.freeCores (d : Dev) (cell : Nat) : List Nat :=
  let cs := ((List.range 4).map (fun i => 4 * cell + i)).filter d.coreFree
  cs.filter (fun c => !d.provisionalOn c) ++ cs.filter d.provisionalOn

/-- Slots of a context in use (R340). -/
def Dev.usedSlots (d : Dev) (p c : Nat) : List Nat :=
  (d.groups.filter fun kg => match d.launches.find kg.2.recd.launch with
    | some l => l.part = p ∧ l.ctx = c
    | none => false).map (·.2.slot)

def Dev.freeSlotCount (d : Dev) (p c : Nat) : Nat :=
  match (d.ctx p c).latched with
  | none => 0
  | some lt => lt.nslot - (d.usedSlots p c).length

/-- Two records of one team of four (R90). -/
def Rec.sameTeam (r q : Rec) : Bool := q.launch == r.launch && q.team4 && tkGroup q.ticket / 4 == tkGroup r.ticket / 4

/-- The groups of a record's team that have not retired. -/
def Dev.teamGroups (d : Dev) (r : Rec) : List Group :=
  (d.groups.map (·.2)).filter fun h => r.sameTeam h.recd && h.status != .provisional

/-- The groups of a team that have not retired (R90). -/
def Dev.team (d : Dev) (g : Group) : List Group := if g.recd.team4 then d.teamGroups g.recd else [g]

/-- The records of a team in the pool. -/
def Dev.teamPool (d : Dev) (r : Rec) : List Rec := (d.pool (clusterOfCell r.home)).filter r.sameTeam

/-- The records that start with a record: those of its team in the pool, or itself. -/
def Dev.teamRecs (d : Dev) (r : Rec) : List Rec := if r.team4 then d.teamPool r else [r]

/-- The position of a team member (R90), of its record and of its group. -/
def Rec.position (r : Rec) : Nat := 4 * r.home + tkGroup r.ticket % 4
def teamCore (g : Group) : Nat := g.recd.position

/-- The group is off its core and ready to resume (R94, R335). -/
def Group.offReady (g : Group) : Bool := (g.status == .parked || g.status == .away) && g.readyAt.isSome

/-- A team of four can take its positions together (R90): its records that wait, all of them and each with its position free,
and its members off their cores, each ready and with its position free. A team that starts takes all four cores; one of which
the start of some members was abandoned (R89) goes on as a whole, the others resuming with their start. Members that hold
their cores, or wait for a reply (R335), do not keep the others back. -/
def Dev.teamReady (d : Dev) (free : List Nat) (r : Rec) : Bool :=
  (d.teamPool r).all (fun q => (d.teamPool r).length == q.mates && free.contains q.position) &&
  (d.teamGroups r).all (fun h => h.core.isSome || h.status == .suspended || (h.offReady && free.contains (teamCore h)))

/-- A record that free cores of its cell can take: a team by the record of its lowest member (R90). -/
def Dev.canTake (d : Dev) (free : List Nat) (r : Rec) : Bool :=
  if r.team4 then d.teamReady free r && (d.teamPool r).all (fun q => r.ticket.toNat ≤ q.ticket.toNat) else !free.isEmpty

/-- Slots are free for a record, or a team; without one it waits in its pool (R340). -/
def Dev.hasSlots (d : Dev) (r : Rec) : Bool :=
  match d.launches.find r.launch with
  | none => false
  | some l => (d.teamRecs r).length ≤ d.freeSlotCount l.part l.ctx

/-- A group off its core that a free core can take (R94): a team on its own positions, its members that are off their cores
together (R90), and with its records where some wait. -/
def Dev.canResume (d : Dev) (free : List Nat) (g : Group) : Bool :=
  g.offReady ∧ d.runs g.recd.launch ∧
    (if g.recd.team4 then (d.teamPool g.recd).isEmpty && d.teamReady free g.recd else !free.isEmpty)

/-- The ready time by which a group off its core competes: a team's is the latest of its members (R87, R90; DEDUCED, log 84). -/
def Dev.offSince (d : Dev) (g : Group) : Nat :=
  ((d.team g).filter Group.offReady).foldl (fun t h => max t (h.readyAt.getD 0)) (g.readyAt.getD 0)

/-- What may start on a cell. -/
inductive Cand where
  | record (r : Rec)
  | group (gid : Nat) (k : DispKey)
  deriving DecidableEq, Repr

def Cand.key : Cand → DispKey
  | .record r => r.key
  | .group _ k => k

/-- Members of the fret domain of a cell have begun to arrive at a fret (R96). -/
def Launch.fretOpen (l : Launch) (cell : Nat) : Bool :=
  l.bars.any fun (ko : Nat × BarObj) => ko.2.kind == 7 && domKey l.ceiling (firstCell ko.1) == l.domOf cell

/-- A child that became ready during arrival or commit starts in the next compute phase (R97). -/
def Dev.mayStart (d : Dev) (r : Rec) : Bool :=
  r.addr.isNone || (match d.launches.find r.launch with
    | none => true
    | some l => l.raisedAt.isSome ||
        ((l.doms.getD (l.domOf r.home) (Dom.reset none)).phase == .compute && !(r.late && l.fretOpen r.home)))

/-- Everything that free cores of a cell could take (R87, R94), slots aside. -/
def Dev.candidates (d : Dev) (cell : Nat) (free : List Nat) : List Cand :=
  (((d.pool (clusterOfCell cell)).filter fun r => r.home = cell ∧ d.runs r.launch ∧ d.mayStart r ∧ d.canTake free r).map .record) ++
  ((d.groups.map (·.2)).filter fun g => g.recd.home = cell ∧ d.canResume free g).map fun g =>
    .group g.gid ⟨g.recd.prio, d.offSince g, g.recd.ticket.toNat, g.recd.order⟩

/-- A record starts only where slots are free. -/
def Dev.startable (d : Dev) : Cand → Bool
  | .record r => d.hasSlots r
  | .group _ _ => true

def Dev.bestCand (d : Dev) (cell : Nat) (free : List Nat) : Option Cand :=
  firstBy Cand.key ((d.candidates cell free).filter d.startable)

/-! Waiting and parking. -/

/-- The stall can end only through the commit of the group's own superstep (R311): it is one of a `wait` or `done` on a
ticketed operation's entry. -/
def Group.commitWaits (g : Group) (st : Stall) : Bool :=
  match st with
  | .wait tok n =>
    let es := g.arch.toks.toList.getD tok []
    (es.take (es.length - n)).any (·.awaitsCommit)
  | .done => g.arch.toks.toList.any fun es => es.any (·.awaitsCommit)
  | _ => false

/-- The entries whose release a `wait` needs (R131). -/
def Group.needed (g : Group) (tok n : Nat) : List TokEntry :=
  let es := g.arch.toks.toList.getD tok []
  es.take (es.length - n)

/-- The stall needs the group's own matrix commands, which run only while it holds its core (R256). -/
def Group.needsMatrix (g : Group) : Bool :=
  match g.stall with
  | .fret | .done => g.arrived.isNone && !g.arch.mu.queue.isEmpty
  | .wait tok n => if g.commitWaits g.stall then g.arrived.isNone && !g.arch.mu.queue.isEmpty
      else (g.needed tok n).any fun e => e.row == .matrix && !e.done
  | _ => false

/-- The group stalls in a wait (R92, R131, R311, R318). While that wait still needs its own matrix commands it keeps its core:
parked it would wait for ever (DESIGN CHOICE, log 64). -/
def Group.waiting (g : Group) : Bool :=
  !g.needsMatrix &&
  match g.stall with
  | .bar _ | .fret | .fwait _ _ | .evw _ => true
  | .wait tok n => g.commitWaits g.stall || (g.needed tok n).any (·.remote)
  | .done => g.commitWaits g.stall
  | _ => false

/-- A group that may park: it waits, and so does every other unretired member of its team (R90). -/
def Dev.parkable (d : Dev) (g : Group) : Bool := (d.team g).all fun h => h.status == .running && h.waiting

/-- Cores of a cell that its groups in a wait would leave free by parking. -/
def Dev.waitingCores (d : Dev) (cell : Nat) : List Nat :=
  (d.groups.map (·.2)).filterMap fun h => if h.recd.home = cell ∧ d.parkable h then h.core else none

/-- A waiting group parks when another record or parked group could start on its home cell, once those that wait there have
parked; a team as a whole (R90, R93): so a team, which needs every position, starts or resumes although several groups wait
on its cell (R95). -/
def Dev.maybePark (d : Dev) (g : Group) : Dev :=
  if g.waiting ∧ d.parkable g then
    let free := (d.freeCores g.recd.home ++ d.waitingCores g.recd.home).filter fun c => !d.retired.contains (cellOf c)
    if (d.candidates g.recd.home free).isEmpty then d
    else (d.team g).foldl (fun d h => d.leaveCore ((d.groups.find h.gid).getD h) .parked) d
  else d

end Sys2Proof.Machine
end

