-- ==== Sys2Proof/Machine/Teardown.lean ====
section
/-!
DEFINITION. Work that is brought to an end (03_launching R62, R79; 17_interruption R344): runnable-list entries in memory,
teardown of launches and queues, retirement of a context, and the line that cannot be saved.
-/

namespace Sys2Proof.Machine

/-! Runnable-list entries (R60). -/

def Dev.entryPa (d : Dev) (p c : Nat) : Nat := (d.part p).plbase.toNat + 64 * c

def Dev.runEntry (d : Dev) (p c : Nat) : Nat := d.physRead (d.entryPa p c) 64

/-- The VALID bit of an entry in memory (bit 399). -/
def Dev.setValid (d : Dev) (p c : Nat) (b : Bool) : Dev :=
  let a := d.entryPa p c + 49
  d.physWrite a 1 (putBits (d.physRead a 1) 7 1 (if b then 1 else 0))

def Dev.setErr (d : Dev) (p n : Nat) : Dev := d.setPart p { d.part p with err := BitVec.ofNat 8 n }

/-! Teardown (R79). -/

/-- Launches of a context, with their TREE numbers. -/
def Dev.launchesOf (d : Dev) (p c : Nat) : List (Nat × Launch) := d.launches.filter fun kl => kl.2.part = p ∧ kl.2.ctx = c

/-- Launch groups not yet produced for a position (R86): from the next index on. -/
def remaining (l : Launch) (gang : Nat) (next : Nat) : Nat :=
  let step := l.cells.length * (if l.scope = 5 then gang else 1)
  if l.team4 then
    if l.groups ≤ next then 0 else 4 * ((l.groups / 4 - next / 4 + step - 1) / step) - next % 4
  else (l.groups - next + step - 1) / step

/-- An accepted launch is brought to an end: undispatched records and all groups are discarded, logs dropped, no abort
routine runs; its completion record follows (R79). -/
def Dev.tearLaunch (d : Dev) (tree : Nat) : Dev :=
  match d.launches.find tree with
  | none => d
  | some l0 =>
    let d := d.setLaunch tree { l0 with torn := true, frets := l0.frets + (if l0.raisedAt.isNone then l0.openFrets else 0) }
    let recs := ((d.pools ++ d.overflow).flatMap (·.2)).filter (·.launch = tree)
    let keep (t : Tab (List Rec)) : Tab (List Rec) := t.map fun (k, rs) => (k, rs.filter (·.launch ≠ tree))
    let freed := d.pools.map fun kr => (kr.1, (kr.2.filter (·.launch = tree)).length)
    let d := { d with pools := keep d.pools, overflow := keep d.overflow }
    let d := recs.foldl (fun d r => d.discardRec 0 r) (freed.foldl (fun d kn => d.moveIn kn.1 kn.2) d)
    let d := (d.groups.filter fun kg => kg.2.recd.launch = tree).foldl (fun d kg => d.discardGroup 0 ((d.groups.find kg.1).getD kg.2)) d
    match d.launches.find tree with
    | none => d
    | some l =>
      let left := (l.cells.map fun c => remaining l d.gangSize c.2).foldl (· + ·) 0
      d.setLaunch tree
        { l with discard := l.discard + left, live := 0, cells := l.cells.map fun c => (c.1, l.groups),
                 doms := l.doms.map fun (k, dm) => (k, { dm with log := [], charge := 0, phase := .compute }) }

/-- TEAR on a running queue (R64, R79). -/
def Dev.tearQueue (d : Dev) (p c q : Nat) : Dev :=
  let x := d.lqueue p c q
  if x.state = 1 then
    let d := d.setQueue p c q { x with state := 2, head := x.tail, held := none }
    ((d.launchesOf p c).filter fun kl => kl.2.queue = q).foldl (fun d kl => d.tearLaunch kl.1) d
  else d

/-- The context is retired with all its work (R62). -/
def Dev.retireCtx (d : Dev) (p c : Nat) : Dev :=
  let d := (d.setValid p c false)
  let d := d.setCtx p c { d.ctx p c with retiring := true, readySince := none }
  let d := (List.range 8).foldl (fun d q => d.tearQueue p c q) d
  (d.launchesOf p c).foldl (fun d kl => if kl.2.torn then d else d.tearLaunch kl.1) d

/-- A context that is damaged or fails is ended (R344 step 4, R367): the last fault-queue entry, which names the group
concerned (R336), then retirement. -/
def Dev.damageCtx (d : Dev) (p c : Nat) (g : Group) (val : Word) (cause : Nat) : Dev :=
  let core := (g.core.orElse fun _ => g.linesOn).getD 0
  let d := (d.faultEntry p c val g.arch.pc g.recd.ticket 0 5 cause core).1
  (d.setCtx p c { d.ctx p c with damaged := true }).retireCtx p c

/-! Lines that cannot be saved (R344). -/

/-- Bytes written from a physical address, in pieces that do not cross 64 bytes. -/
def Dev.physStore (d : Dev) (pa : Nat) (bs : List Byte) : Nat → Dev
  | 0 => d
  | fuel + 1 =>
    if bs.isEmpty then d
    else
      let n := min bs.length (64 - pa % 64)
      Dev.physStore (d.physWrite pa n (ofBytes (bs.take n))) (pa + n) (bs.drop n) fuel

/-- Place of an entry of a partition's rescue area (R344). -/
def rescueAt (p i : Nat) : Nat := 0x7FFF000000 + 0x100000 * p + 512 * (i % 2048)

/-- The next entry of the rescue area whose frame is not quarantined (R364). -/
def Dev.rescueNext (d : Dev) (p i : Nat) : Option Nat :=
  ((List.range 2048).map (i + ·)).find? fun k => !d.quarantine.contains (rescueAt p k / 2 ^ 16)

/-- A failed write-out of a line of a group (R344): the rescue area, the damage registers, the last entry, the end of the
context. -/
def Dev.saveFailed (d : Dev) (p c : Nat) (asid : BitVec 12) (g : Group) (va v : Nat) : Dev :=
  let pt := d.part p
  let place := d.rescueNext p pt.rescue
  let d := match place with
    | none => d
    | some k => d.physStore (rescueAt p k) (toBytes (v + va * 2 ^ 2048 + asid.toNat * 2 ^ 2112) 512) 513
  let first := pt.dmgCtx.getLsbD 6 == false
  let d := d.setPart p
    { pt with rescue := place.getD pt.rescue + 1, err := 3, dmgVa := if first then BitVec.ofNat 57 va else pt.dmgVa,
              dmgCtx := if first then BitVec.ofNat 7 (64 + c) else pt.dmgCtx }
  d.damageCtx p c g (BitVec.ofNat 64 va) cCONTEXT_DAMAGED

end Sys2Proof.Machine
end

