-- ==== Sys2Proof/Machine/Ops.lean ====
section
/-!
DEFINITION. The operations every instruction shares: taking an exception (17_interruption R333 to R335) and returning
from one (R348), suspension (R335, R339), consumed poison (20 R363, R366), and the lifting of a group's meaning to
the device and to the machine.
-/

namespace Sys2Proof.Machine

/-! Control registers (R330 to R332). -/

/-- `kstatus` as software reads it (R331). -/
def kstatusOf (k : TrapRegs) : Word :=
  BitVec.ofNat 64 (k.qsave.toNat * 2 ^ 25 + 2 ^ 24 + k.lsave.toNat * 2 ^ 20 + (if k.deferBit then 2 ^ 8 else 0) +
    (if k.cmpl then 2 ^ 7 else 0) + (if k.inTrap then 2 ^ 6 else 0))

/-- `kdomain` (R80). -/
def kdomainOf (pkg cell pos scope tree : Nat) : Word :=
  BitVec.ofNat 64 (pkg % 64 * 2 ^ 58 + cell / 512 % 2 * 2 ^ 57 + cell / 16 % 64 * 2 ^ 51 + cell % 1024 * 2 ^ 41 +
    pos % 4 * 2 ^ 39 + scope % 8 * 2 ^ 36 + tree % 2 ^ 32)

def Mode.code : Mode → Nat
  | .det => 0 | .free => 1 | .ilv => 2

/-- A bound entry as a word (R268). -/
def Bound.word (b : Bound) : Word :=
  BitVec.ofNat 64 (b.hi.toNat * 2 ^ 48 + b.lo.toNat * 2 ^ 32 + b.tid.toNat * 2 ^ 8 + (if b.v then 2 ^ 7 else 0) +
    (if b.nan then 2 ^ 6 else 0) + b.act.toNat * 2 ^ 4)

/-- The value of a control register (R330). -/
def controlReg (e : Env) (g : Group) (n : Nat) : Word :=
  let k := g.arch.k
  let m := g.arch.m
  match n with
  | 0x000 => kstatusOf k
  | 0x001 => k.cause.setWidth 64
  | 0x002 => k.val
  | 0x003 => k.pc
  | 0x004 => k.vec
  | 0x005 => k.scratch
  | 0x006 => e.seed
  | 0x007 => g.recd.ticket
  | 0x008 => BitVec.ofNat 64 (nbits g.recd.ticket.toNat 24 24)
  | 0x009 => BitVec.ofNat 64 (g.core.getD 0)
  | 0x00A => BitVec.ofNat 64 (cellOf (g.core.getD 0))
  | 0x00B => kdomainOf e.pkg g.recd.home (g.core.getD 0 % 4) e.scope e.tree
  | 0x00C => BitVec.ofNat 64 (e.mode.code * 4 + (if e.dit then 2 else 0) + (if k.strict then 1 else 0))
  | 0x010 => m.fa.setWidth 64
  | 0x011 => m.fb.setWidth 64
  | 0x012 => m.sa.setWidth 64
  | 0x013 => m.sb.setWidth 64
  | 0x014 => BitVec.ofNat 64 (m.tidb.toNat * 256 + m.tida.toNat)
  | 0x015 => if g.arch.mu.queue.isEmpty then 0 else BitVec.ofNat 64 (g.arch.mu.run.steps % 2 ^ 32)
  | 0x016 => m.gov.setWidth 64
  | 0x017 => m.stall
  | 0x018 => m.th.setWidth 64
  | _ => (m.bnd.toList.getD (n - 0x020) Bound.reset).word

/-! What the instruction sees of its launch and its core. -/

/-- The register that a file and a number name (R133). -/
def regOf (file n : Nat) : RegRef :=
  match file with
  | 0 => .x n | 1 => .v n | 2 => .w n | 3 => .q n | 4 => .lc n | _ => .acc n

/-- The register of an upset unit of a group (R369): its number is the low 8 bits, its 32-bit word the bits above. -/
def upsetReg (gid : Nat) : UpsetUnit → Option RegRef
  | .reg k file n => if k = gid then some (regOf file (n % 256)) else none
  | _ => none

/-- The word of a group's local store that an upset has hit. -/
def upsetWord (gid : Nat) : UpsetUnit → Option Nat
  | .ls k w => if k = gid then some w else none
  | _ => none

/-- Lines written out of each other group whose other lines lie in a core's arrays (R341). -/
def Dev.othersOn (d : Dev) (core : Option Nat) : List (List Nat) :=
  match core with
  | none => []
  | some _ => d.groups.filterMap fun kg => if kg.2.core.isNone ∧ kg.2.linesOn = core then some kg.2.linesOut else none

def Dev.env (d : Dev) (clk : Clock) (g : Group) : Env :=
  let base : Env := ⟨clk.aclk, clk.fclk, .free, false, false, 0, g.recd.launch, 0, g.recd.team4, d.pkg,
    d.othersOn g.core, d.upsets.filterMap fun t => upsetReg g.gid t.unit,
    d.upsets.filterMap fun t => upsetWord g.gid t.unit⟩
  match d.launchOf g with
  | none => base
  | some l =>
    { base with mode := l.mode, dit := l.dit, scope := l.scope, seed := l.seed,
                aborted := l.abortIn (clusterOfCell g.recd.home) || g.isAbort }

/-! The group's image in memory (R339). -/

/-- n bytes of the register image of a group; what R339 does not list is device-private (log 10). -/
def imageReg (e : Env) (g : Group) (off : Nat) : Nat :=
  let a := g.arch
  if off < 0x200 then (a.xr (off / 8)).toNat
  else if off < 0x280 then nbits (a.wr ((off - 0x200) / 16)).toNat (64 * (off / 8 % 2)) 64
  else if off = 0x280 then
    ((List.range 8).foldl (fun n i => n + (if a.qr i then 2 ^ i else 0)) 0) +
      (List.range 7).foldl (fun n i => n + (Config.imageByte g.gid (off + 1 + i)).toNat * 2 ^ (8 * (i + 1))) 0
  else if off = 0x288 then (a.lcr 0).toNat + (a.lcr 1).toNat * 2 ^ 32
  else if 0x400 ≤ off ∧ off < 0x400 + 8 * 0x30 ∧ isControlReg ((off - 0x400) / 8) then
    (controlReg e g ((off - 0x400) / 8)).toNat
  else if 0x1000 ≤ off ∧ off < 0x2000 then nbits (a.vr ((off - 0x1000) / 128)).toNat (64 * (off / 8 % 16)) 64
  else (List.range 8).foldl (fun n i => n + (Config.imageByte g.gid (off + i)).toNat * 2 ^ (8 * i)) 0

/-- The address space and partition of a group's context. -/
def Dev.latchedOf (d : Dev) (g : Group) : Option (Nat × Latched) :=
  match d.launchOf g with
  | none => none
  | some l =>
    match (d.ctx l.part l.ctx).latched with
    | none => none
    | some lt => some (l.part, lt)

/-- The virtual address of a group's image slot (R338). -/
def slotVa (l : Latched) (slot : Nat) : Nat := l.backing + 0x10000 + 0x100000 * slot

/-- Where the image holds a register (R339). -/
def RegRef.offset : RegRef → Nat
  | .x n => 8 * n
  | .v n => 0x1000 + 128 * n
  | .w n => 0x200 + 16 * n
  | .q _ => 0x280
  | .lc n => 0x288 + 4 * n
  | .acc _ => 0x100000

/-- Eight bytes of the register image hold a poisoned word of a register. -/
def imageBad (a : Arch) (off : Nat) : Bool :=
  a.regPoison.any fun p => off ≤ p.1.offset + 4 * p.2 && p.1.offset + 4 * p.2 < off + 8

/-- n words of the register image as one number. -/
def imageValue (e : Env) (g : Group) (off : Nat) : Nat → Nat
  | 0 => 0
  | n + 1 => imageReg e g off + 2 ^ 64 * imageValue e g (off + 8) n

/-- The register image is written to the slot (R335, R339), line by line with the poison of its registers (R362): the device,
and whether every line could be saved; one that could not ends the context (R344). -/
def Dev.writeImage (d : Dev) (e : Env) (p c : Nat) (l : Latched) (g : Group) : Nat → Nat → Dev × Bool
  | 0, _ => (d, true)
  | n + 1, line =>
    let va := slotVa l g.slot + 256 * line
    let v := imageValue e g (256 * line) 32
    match d.spillLine g.engCore p l va v fun s => (List.range 4).any fun i => imageBad g.arch (256 * line + 32 * s + 8 * i) with
    | none => (d.saveFailed p c l.asid g va v, false)
    | some d => Dev.writeImage d e p c l g n (line + 1)

/-- The apply pass of an indirect job has begun: it is not stopped before its end (R229). -/
def IndJob.applying (j : IndJob) : Bool := j.merged && j.next != 0

/-- A job that is set aside: a merge or read pass restarts (R229, R234). -/
def IndJob.restart (j : IndJob) : IndJob :=
  if j.merged ∨ (j.cmd.op ≠ .scaAdd ∧ j.cmd.op ≠ .chs) then j else { j with next := 0, oorc := 0, ups := [], bad := none }

/-- The pass of a group's job that its suspension stops restarts when the group is back (R229, R234, R342). -/
def Dev.restartPass (d : Dev) (gid : Nat) : Dev :=
  { d with indirect := d.indirect.map fun (k, e) => (k, { e with job := e.job.map fun j => if j.cmd.gid = gid then j.restart else j }) }

/-- `GROUP_SUSPEND` (R335): the image is written, a TYPE 1 entry is made and the group leaves its core, its registers in
its slot; without room for the entry the group is ended (R337). -/
def Dev.suspend (d : Dev) (clk : Clock) (g : Group) (cause : Nat) (val pc : Word) (aux dest : Nat) (link : Word) (clash : Bool := false) : Dev :=
  match d.launchOf g with
  | none => d
  | some l =>
    match (d.ctx l.part l.ctx).latched with
    | none => d
    | some lt =>
      let g := { g with arch := { g.arch with pc := pc }, suspended := some ⟨cause, dest, link, clash⟩ }
      let d := d.setGroup g
      match d.writeImage (d.env clk g) l.part l.ctx lt g 32 0 with
      | (d, false) => d
      | (d, true) =>
        match d.groupEntry g val pc aux 1 cause with
        | (d, true) =>
          let g := { g with linesOut := List.range 32 ++ g.linesOut.filter (32 ≤ ·) }
          ((d.setGroup g).leaveCore g .suspended).restartPass g.gid
        | (d, false) => d.endGroup clk.fclk g cause val pc

/-! Lines of code. -/

/-- N of a sound line header, by R101 and R104; none is `ILLEGAL_LINE`. -/
def tailSum (line : Nat) : Nat → Nat → Nat
  | 0, _ => 0
  | n + 1, i => tlBytes (nbits line (16 + 16 * i + 4) 3) + tailSum line n (i + 1)

def lineHeads (line : Nat) : Option Nat :=
  let n := nbits line 0 5
  if nbits line 5 11 ≠ 0 ∨ n = 0 ∨ n = 31 then none
  else if 2 + 2 * n + tailSum line n 0 > 64 then none
  else some n

/-- The memory a group's reads of code and data see at once: its domain's read state in a deterministic launch (R97,
R301), or the one that it has kept from the domain of a retired cell (R372; log 48); what the launch's last commit left for an
abort group (R358); otherwise memory. -/
def Dev.viewOf (d : Dev) (g : Group) : MemSys :=
  match d.launchOf g with
  | none => d.ms
  | some l =>
    if l.mode ≠ .det then d.ms
    else ((if g.isAbort then l.lastView
      else g.recd.ownView.orElse fun _ => (l.doms.getD (l.domOf g.recd.home) (Dom.reset none)).view)).getD d.ms

/-- A line of code read for a check (R106 stage 2 of `kvec`); none where its page does not let it be fetched. -/
def Dev.peekLine (d : Dev) (g : Group) (va : Nat) : Option Nat :=
  match d.launchOf g with
  | none => none
  | some l =>
    match (d.ctx l.part l.ctx).latched with
    | none => none
    | some lt =>
      match d.xlatOn g.core l.part lt (va / 64 * 64) .fetch with
      | .error _ => none
      | .ok x => some (d.readIn (d.viewOf g) x 64).1

/-- Stage 1 and stage 2 of R106 on `kvec`, entered from pc: the cause by which it fails, with its kval and its kpc
(R119). -/
def Dev.vecFails (d : Dev) (g : Group) (v pc : Word) : Option (Nat × Word × Word) :=
  if !validTarget v then some (cILLEGAL_TARGET, v, pc)
  else
    match d.peekLine g v.toNat with
    | none => none
    | some line =>
      match lineHeads line with
      | none => some (cILLEGAL_LINE, BitVec.ofNat 64 (v.toNat / 64 * 64), v)
      | some n => if n ≤ (v.toNat % 64 - 2) / 2 then some (cILLEGAL_TARGET, v, v) else none

/-- The caches that drop at trap entry, `kret` and fret completion (R120, R182, R260). -/
def Dev.dropCaches (d : Dev) (core : Option Nat) : Dev :=
  match core with
  | none => d
  | some c => { d with cores := d.cores.modify c Core.reset fun k => { k with icache := [], rcache := [], scales := [] } }

def Arch.qsave (a : Arch) : BitVec 7 := BitVec.ofNat 7 ((List.range 7).foldl (fun n i => n + (if a.qr (i + 1) then 2 ^ i else 0)) 0)

/-- ACTIVE of lc1, ACTIVE of lc0, INNER of lc1, INNER of lc0, from bit 3 down (R331). -/
def Arch.lsave (a : Arch) : BitVec 4 :=
  let b (x : Bool) (n : Nat) : Nat := if x then n else 0
  BitVec.ofNat 4 (b (a.loopAt 1).active 8 + b (a.loopAt 0).active 4 + b (a.loopAt 1).inner 2 + b (a.loopAt 0).inner 1)

/-- The registers of a group as trap entry leaves them (R333); a phase that has completed for the interrupted instruction waits
for its reissue (R318). -/
def enterHandler (g : Group) (cause : Nat) (val pc : Word) (cmpl deferBit : Bool) : Group :=
  let a := g.arch
  let k := { a.k with pc := pc, cause := BitVec.ofNat 8 cause, val := val, qsave := a.qsave, lsave := a.lsave, cmpl := cmpl,
                      deferBit := deferBit, inTrap := true }
  let kept := if g.released = some 5 then none else g.released
  let a := { a with k := k, loops := a.loops.map fun l => { l with active := false }, keptLoops := a.loops, pc := a.k.vec, relOuter := kept, arrivedIn := false, joinedIn := false }
  { g with arch := a, stall := .none, ganged := false, flagSeen := false, released := none }

/-- `TRAP_ENTRY` (R333): TAKING AN EXCEPTION of a cause with its kval at the instruction boundary pc. Within a handler
the group ends (R334); without a handler it is suspended or ended (R335); otherwise the saved registers are written,
the status changed, the caches dropped, and the pc goes to the handler. -/
def Dev.takeTrap (d : Dev) (clk : Clock) (g : Group) (cause : Nat) (val pc : Word) (cmpl deferBit : Bool) : Dev :=
  if g.arch.k.inTrap then d.endGroup clk.fclk g cause val pc
  else if g.arch.k.vec = 0 then
    if cause = cPAGE ∨ cause = cACCESS then d.suspend clk g cause val pc 0 0 pc
    else d.endGroup clk.fclk g cause val pc
  else
    match d.vecFails g g.arch.k.vec pc with
    | some (c, v, at_) => d.endGroup clk.fclk g c v at_
    | none =>
      let d := d.breakConsort g
      let g := { (d.groups.find g.gid).getD g with arch := g.arch }
      let d := d.dropCaches g.core
      d.setGroup { enterHandler g cause val pc cmpl deferBit with notBefore := clk.aclk + 1 }

/-- A deterministic consumer of poison is cancelled, and the domain rolls back (R363, R366). -/
def Dev.askRollback (d : Dev) (g : Group) (addr : Word) : Dev :=
  match d.launchOf g with
  | none => d
  | some l =>
    let k := l.domOf g.recd.home
    let dm := l.doms.getD k (Dom.reset none)
    d.setLaunch g.recd.launch { l with doms := l.doms.put k { dm with rollback := dm.rollback.orElse fun _ => some (g.gid, addr) } }

def Dev.modArch (d : Dev) (gid : Nat) (f : Arch → Arch) : Dev :=
  match d.groups.find gid with
  | none => d
  | some g => d.setGroup { g with arch := f g.arch }

/-- What an instruction's stop does to its group (R329, R333, R363, R369). -/
def Dev.onStop (d : Dev) (clk : Clock) (g : Group) : Stop → Dev
  | .stall s =>
    let g := { g with stall := s, notBefore := clk.aclk + 1 }
    (d.setGroup g).maybePark g
  | .trap c v none => d.takeTrap clk g c v g.arch.pc false false
  | .trap c v (some p) => d.takeTrap clk g c v p true false
  | .rollback a => (d.setGroup { g with notBefore := clk.aclk + 1 }).askRollback g a
  | .repairWords a n => (d.setGroup g).repairAll fun t => (upsetWord g.gid t.unit).any fun w => a / 8 ≤ w && w * 8 < a + n
  | .repair r => (d.setGroup { g with notBefore := clk.aclk + 4 }).repairAll fun t => upsetReg g.gid t.unit == some r

/-- The group on the issuing core, if one runs there. -/
def Dev.current (d : Dev) : Option Group :=
  match (d.core d.cur).group with
  | none => none
  | some gid =>
    match d.groups.find gid with
    | none => none
    | some g => if g.status = .running then some g else none

/-- A machine step that changes only the device: the clocks, the agenda and the move count are untouched. -/
def State.onDev (s : State) (f : Clock → Dev → Host.Outcome Dev Fault Refusal) : Host.Outcome State Fault Refusal :=
  match f s.clk s.dev with
  | .next d => .next { s with dev := d }
  | .fault r => .fault r
  | .refused r => .refused r

/-- A meaning of an instruction with access to the device: the group, then the device to leave or a stop. -/
def State.onGroup (s : State) (f : Clock → Dev → Group → Except Stop Dev) : Host.Outcome State Fault Refusal :=
  s.onDev fun clk d =>
    match d.current with
    | none => .refused .noRunningGroup
    | some g =>
      match f clk d g with
      | .ok d' => .next d'
      | .error st => .next (d.onStop clk g st)

/-- A meaning that acts on the group's own state alone. -/
def State.onCur (s : State) (m : GM Unit) : Host.Outcome State Fault Refusal :=
  s.onGroup fun clk d g =>
    match m (d.env clk g) g with
    | .ok (_, g') => .ok (d.setGroup g')
    | .error st => .error st

/-- A step of another agent: enabled or refused by name. -/
def State.event (s : State) (f : Clock → Dev → Option Dev) : Host.Outcome State Fault Refusal :=
  s.onDev fun clk d =>
    match f clk d with
    | some d' => .next d'
    | none => .refused .notEnabled

/-- A loop as `kret` restores it: START and END as kept, ACTIVE and INNER from LSAVE (R348). -/
def Arch.keptLoop (a : Arch) (k : Nat) : Loop :=
  { a.keptLoops.toList.getD k Loop.reset with active := nbit a.k.lsave.toNat (2 + k), inner := nbit a.k.lsave.toNat k }

/-- RETURNING FROM AN EXCEPTION (R348): predicates and loop state restored, IN cleared, the pc at `kpc`, the matrix
queue resumed unless a trap that the unit has raised is still to be taken (R271, R334). -/
def leaveHandler (g : Group) : Group :=
  let a := g.arch
  let qs := a.k.qsave.toNat
  let q := (List.range 7).foldl (fun (v : Vector Bool 8) i => v.setIfInBounds (i + 1) (nbit qs i)) a.q
  let loops := (a.loops.setIfInBounds 0 (a.keptLoop 0)).setIfInBounds 1 (a.keptLoop 1)
  { g with released := a.relOuter,
           arch := { a with q := q, loops := loops, k := { a.k with inTrap := false }, pc := a.k.pc, relOuter := none, arrivedIn := false, joinedIn := false,
                            mu := { a.mu with halted := a.mu.halted && a.deferred.any (·.matrix) } } }

end Sys2Proof.Machine
end

