-- ==== Sys2Proof/Machine/Operands.lean ====
section
/-!
DEFINITION. Operand forms: the address of format M (05_fetching R113, 08_memory R196), the parameter words of format P
(R116), local-store accesses with their checks, lines, poison and snapshot blocks (08 R180, R181, R195; 20 R362, R365),
vector lanes and byte masks (07 R151 to R154).
-/

namespace Sys2Proof.Machine

/-! Addresses. -/

/-- xA + xB * scale + sext(OFF) modulo 2^64 (R113). -/
def addrM (t : TailM) : GM Word := do
  let a ← readX t.a
  let b ← readX t.b
  return a + b * BitVec.ofNat 64 (2 ^ t.sc.toNat) + t.off.signExtend 64

/-- The four parameter words of format P (R116). -/
def parWord (sm : Bool) (s : BitVec 6) (p : BitVec 32) : GM (BitVec 32) := do
  if sm then return (← readX s).setWidth 32 else return p

def parWords (t : TailP) : GM (BitVec 32 × BitVec 32 × BitVec 32 × BitVec 32) := do
  let w0 ← parWord (t.sm.getLsbD 0) t.s0 t.par0
  let w1 ← parWord (t.sm.getLsbD 1) t.s1 t.par1
  let w2 ← parWord (t.sm.getLsbD 2) t.s2 t.par2
  let w3 ← parWord (t.sm.getLsbD 3) t.s3 t.par3
  return (w0, w1, w2, w3)

/-- R225: the lowest-numbered failing word decides; each word with the causes of its failing limits in order. -/
def checkWords : List (BitVec 32 × List (Bool × Nat)) → GM Unit
  | [] => pure ()
  | (w, cs) :: rest =>
    match cs.find? (fun c => !c.1) with
    | some c => raise c.2 (w.setWidth 64)
    | none => checkWords rest

/-- Bytes of a size code (R115). -/
def sizeBytes (sz : Nat) : Nat := 2 ^ sz

/-! The local store. -/

def lsSize : Nat := 0x40000

/-- Poisoned 64-bit words among those of n bytes from a (R362): the lowest byte concerned. -/
def poisonIn (ps : List Nat) (a : Nat) : Nat → Option Nat
  | 0 => none
  | n + 1 => if ps.contains (a / 8) then some a else poisonIn ps (a + 1) n

/-- Bytes written word by word: a partial write of a poisoned 64-bit word writes nothing, a whole one clears the mark
(R362). The memory and the marks are returned. -/
def writeWords (m : Memory) (ps : List Nat) (a v mask : Nat) : Nat → Nat → Memory × List Nat
  | 0, _ => (m, ps)
  | fuel + 1, n =>
    if n = 0 then (m, ps)
    else
      let o := a % 8
      let k := min n (8 - o)
      let mk := mask % 2 ^ k
      let bad := ps.contains (a / 8)
      let r : Memory × List Nat :=
        if mk = 0 then (m, ps)
        else if bad then (if k = 8 ∧ mk = 255 then (m.writeMasked a v mk k, ps.filter (· ≠ a / 8)) else (m, ps))
        else (m.writeMasked a v mk k, ps)
      writeWords r.1 r.2 (a + k) (v / 2 ^ (8 * k)) (mask / 2 ^ k) fuel (n - k)

/-- A write that covers a poisoned 64-bit word only in part (R362). -/
def partWords (ps : List Nat) (a mask : Nat) : Nat → Nat → Bool
  | 0, _ => false
  | fuel + 1, n =>
    if n = 0 then false
    else
      let o := a % 8
      let k := min n (8 - o)
      let m := mask % 2 ^ k
      (m ≠ 0 && ps.contains (a / 8) && !(k = 8 && m = 255)) || partWords ps (a + k) (mask / 2 ^ k) fuel (n - k)

/-- A store of n bytes under a mask; one that covers a poisoned word only in part writes nothing (R362). -/
def storeWords (m : Memory) (ps : List Nat) (a n v mask : Nat) : Memory × List Nat :=
  if partWords ps a mask (n / 4 + 2) n then (m, ps) else writeWords m ps a v mask (n / 4 + 2) n

/-- Blocks of 256 bytes of an access, in the numbering of the image lines, from a base line (R339). -/
def blocksOf (base a n : Nat) : List Nat := if n = 0 then [] else (List.range ((a + n - 1) / 256 - a / 256 + 1)).map (fun i => base + a / 256 + i)

def lsBase : Nat := 256
def accBase : Nat := 1280
def winBase : Nat := 1792
def flagLine : Nat := 32

/-- The poison marks of one block's words: those of a list outside the block, and the block's own from another. -/
def marksFrom (old cur : List Nat) (block : Nat) : List Nat :=
  (old.filter fun w => w / 32 != block) ++ cur.filter fun w => w / 32 == block

/-- The snapshot with the poison marks of a block as they are now; its bytes have not changed since (R362, R365). -/
def asideMarks (a : Arch) (b : Nat) (s : Arch) : Arch :=
  if b < lsBase then s
  else if b < accBase then { s with lsPoison := marksFrom s.lsPoison a.lsPoison (b - lsBase) }
  else if b < winBase then { s with accPoison := marksFrom s.accPoison a.accPoison (b - accBase) }
  else { s with winPoison := marksFrom s.winPoison a.winPoison (b - winBase) }

/-- Blocks copied aside at their first write since the fret, with their poison: the blocks so far and the snapshot
(R365). -/
def asideBlocks (a : Arch) (bs : List Nat) (c : List Nat × Option Arch) : List Nat × Option Arch :=
  bs.foldl (fun c b => if c.1.contains b then c else (b :: c.1, c.2.map (asideMarks a b))) c

def Group.aside (g : Group) (bs : List Nat) : Group :=
  let r := asideBlocks g.arch bs (g.capo, g.snap)
  { g with capo := r.1, snap := r.2 }

/-- Local-store bytes written by the core, its engines or a fetch; the snapshot keeps the old block (R365). -/
def Group.lsWrite (g : Group) (a n v mask : Nat) : Group :=
  let r := storeWords g.arch.ls g.arch.lsPoison a n v mask
  let g := g.aside (blocksOf lsBase a n)
  { g with arch := { g.arch with ls := r.1, lsPoison := r.2 } }

def Group.winWrite (g : Group) (a n v mask : Nat) : Group :=
  let r := storeWords g.arch.win g.arch.winPoison a n v mask
  let g := g.aside (blocksOf winBase a n)
  { g with arch := { g.arch with win := r.1, winPoison := r.2 } }

def Group.accWrite (g : Group) (a n v : Nat) : Group :=
  let r := storeWords g.arch.acc g.arch.accPoison a n v (2 ^ n - 1)
  let g := g.aside (blocksOf accBase a n)
  { g with arch := { g.arch with acc := r.1, accPoison := r.2 } }

/-- Poisoned sectors of a refilled line as words, and a list of words brought up to date. -/
def refillWords (ps : List Nat) (first : Nat) (bad : Nat → Bool) : List Nat :=
  (ps.filter fun w => !(first ≤ w && w < first + 32)) ++ ((List.range 32).filter fun i => bad (i / 4)).map (first + ·)

/-- A line of the local store, the accumulators or the window taken from its bytes. -/
def refillMem (a : Arch) (line v : Nat) (bad : Nat → Bool) : Arch :=
  if lsBase ≤ line ∧ line < accBase then
    { a with ls := a.ls.writeN (256 * (line - lsBase)) v 256, lsPoison := refillWords a.lsPoison (32 * (line - lsBase)) bad }
  else if accBase ≤ line ∧ line < winBase then
    { a with acc := a.acc.writeN (256 * (line - accBase)) v 256, accPoison := refillWords a.accPoison (32 * (line - accBase)) bad }
  else if winBase ≤ line ∧ line < 2048 then
    { a with win := a.win.writeN (256 * (line - winBase)) v 256, winPoison := refillWords a.winPoison (32 * (line - winBase)) bad }
  else a

/-- A line of a slot as the device reads it back: its bytes and its poisoned sectors. -/
def Dev.slotLine (d : Dev) (g : Group) (line : Nat) : Option (Nat × (Nat → Bool)) :=
  match d.latchedOf g with
  | none => none
  | some (p, lt) =>
    match d.slotXlat g.engCore p lt (slotVa lt g.slot + 256 * line) .load with
    | .error _ => none
    | .ok x => some ((d.readIn d.ms x 256).1, fun s => !d.reachable x.pa || d.ms.poisonAt x.place (x.pa + 32 * s))

/-- What the device's reads of lines in a slot bring about (R303, R369, R376). -/
def Dev.askedLines (d : Dev) (g : Group) (lines : List Nat) : Dev :=
  (lines.filter g.linesOut.contains).foldl (fun (d : Dev) line => match d.latchedOf g with
    | none => d
    | some (p, lt) => match d.slotXlat g.engCore p lt (slotVa lt g.slot + 256 * line) .load with
      | .error _ => d
      | .ok x => d.asked x 256) d

/-- The group as its engines and its matrix unit find lines of it, wherever they lie (R218, R246): those in its slot as they
stand there; one whose place in the slot does not translate as it was written there. -/
def Dev.withLines (d : Dev) (g : Group) (lines : List Nat) : Group :=
  (lines.filter g.linesOut.contains).foldl (fun (g : Group) line => match d.slotLine g line with
    | none => g
    | some (v, bad) => { g with arch := refillMem g.arch line v bad }) g

/-- A line of the local store must be on the core (R180). -/
def needBlocks : List Nat → GM Unit
  | [] => pure ()
  | b :: bs => do
    needLine b
    needBlocks bs

/-- Range check of a local access (R195 step 3). -/
def localRange (a : Word) (n : Nat) : GM Unit := do
  if lsSize < a.toNat + n then raise cACCESS (if a.toNat < lsSize then BitVec.ofNat 64 lsSize else a)

/-- Alignment check (R195 step 2). -/
def aligned (a : Word) (n : Nat) : GM Unit := do
  if a.toNat % n ≠ 0 then raise cALIGN a

/-- 64-bit words from the first to the last that n bytes touch hold w. -/
def inWords (a n w : Nat) : Bool := 0 < n && a / 8 ≤ w && w * 8 < a + n

/-- n local bytes read at issue (R181); a correctable error among them is repaired first (R369). -/
def localRead (a n : Nat) : GM Nat := do
  needBlocks (blocksOf lsBase a n)
  if (← read).upsetWords.any (inWords a n) then stop (.repairWords a n)
  let ar ← arch
  match poisonIn ar.lsPoison a n with
  | some b => consumePoison (BitVec.ofNat 64 b)
  | none => return ar.ls.readN a n

/-- n local bytes stored at issue (R181). -/
def localWrite (a n v mask : Nat) : GM Unit := do
  needBlocks (blocksOf lsBase a n)
  modify fun g => g.lsWrite a n v mask

/-! Vectors. -/

/-- Lane i of a register under a width (R151). -/
def lane (w : Nat) (v : Nat) (i : Nat) : Nat := nbits v (w * i) w

/-- A register from its lanes, lane 0 first. -/
def ofLanes (w : Nat) : List Nat → Nat
  | [] => 0
  | x :: xs => x % 2 ^ w + 2 ^ w * ofLanes w xs

/-- Lane i is active under a mask (R153). -/
def active (w m : Nat) (i : Nat) : Bool := nbit m (w * i / 8)

/-- A vector register written under WM (R154), all its bytes lying in computed lanes. -/
def writeV (d : BitVec 6) (wm : BitVec 3) (res lat : Nat) (computed : Nat := 2 ^ 128 - 1) : GM Unit := do
  let m ← readW wm.toNat
  let old := (← arch).reg (.v d.toNat)
  writeReg (.v d.toNat) (underMask old res (m &&& computed)) lat fun k => nbits (m &&& computed) (4 * k) 4 == 15

end Sys2Proof.Machine
end

