-- ==== Sys2Proof/Machine/Flags.lean ====
section
/-!
DEFINITION. Flags and conditions: the flag array of a group and its writes (06_issuing R147, R148; 15 R324, R325), the
condition codes of `qset` (R144) and `vcmp` (07 R162), and the truth tables of `qop` (R144).
-/

namespace Sys2Proof.Machine

/-- The condition codes of `qset` (R144). -/
def qcond (c : Nat) (a b : Word) : Bool :=
  match c with
  | 0 => a == b
  | 1 => a != b
  | 2 => a.slt b
  | 3 => !(a.slt b)
  | 4 => a.ult b
  | 5 => !(a.ult b)
  | 6 => (a &&& b) != 0
  | _ => (a &&& b) == 0

/-- fn[2*qA + qB] (R144). -/
def qfn (fn : Nat) (a b : Bool) : Bool := nbit fn ((if a then 2 else 0) + (if b then 1 else 0))

/-- The condition codes of `vcmp` on two patterns (R162, R56). -/
def vcond (t : Ty) (c : Nat) (p q : Nat) : Bool :=
  if t.isInt then
    let a := intVal t p
    let b := intVal t q
    match c with
    | 0 => a == b
    | 1 => a != b
    | 2 => a < b
    | 3 => b ≤ a
    | 4 => a ≤ b
    | 5 => b < a
    | 6 => (p &&& q) != 0
    | _ => (p &&& q) == 0
  else
    let a := decodeVal t p
    let b := decodeVal t q
    match c with
    | 0 => a.eqv b
    | 1 => !(a.eqv b)
    | 2 => a.lt b
    | 3 => !a.isNan && !b.isNan && !a.lt b
    | 4 => !a.isNan && !b.isNan && !b.lt a
    | _ => b.lt a

def Arch.flag (a : Arch) (f : Nat) : Bool := a.flags.toList.getD f false

/-- The core's own latest write of a flag not yet performed (R148): seen by its own tests. -/
def latestOwn (target : Option Nat) (f : Nat) : List GOp → Option Bool
  | [] => none
  | o :: os =>
    match latestOwn target f os with
    | some v => some v
    | none => match o.kind with
      | .flag tg f' v => if tg = target ∧ f' = f then some v else none
      | _ => none

/-- A flag written in a group's array: a write of 1 is a bridge event, whether or not the flag was 1 (R325, R235). -/
def Group.setFlag (g : Group) (f : Nat) (v : Bool) : Group :=
  let b := g.arch.bridge
  let b := if v then { b with flagEvents := b.flagEvents ++ [f] } else b
  let g := g.aside [flagLine]
  { g with arch := { g.arch with flags := g.arch.flags.setIfInBounds f v, bridge := b } }

/-- The group that holds a core, when it is of the same context (R325). -/
def Dev.flagTarget (d : Dev) (g : Group) (core : Nat) : Option Group :=
  match (d.core core).group with
  | none => none
  | some gid =>
    match d.groups.find gid with
    | none => none
    | some h =>
      match d.launchOf g, d.launchOf h with
      | some l, some m => if l.part = m.part ∧ l.ctx = m.ctx then some h else none
      | _, _ => none

/-- The group addressed by a flag operand of `g`: its own array, or position p of its cell (R147). -/
def Dev.flagGroup (d : Dev) (g : Group) (target : Option Nat) : Option Group :=
  match target with
  | none => some g
  | some p => if g.core = some (4 * g.recd.home + p) then some g else d.flagTarget g (4 * g.recd.home + p)

/-- A flag of a group has become 1: the groups whose `fwait` stalls on it have read it (R147), but for one whose own later
write of it is still to be performed, which sees that one (R148). -/
def Dev.noticeFlag (d : Dev) (gid f : Nat) : Dev :=
  let see (h : Group) : Group := match h.stall with
    | .fwait tg n => if n = f ∧ latestOwn tg f h.arch.gops = none ∧ ((d.flagGroup h tg).map (·.gid)) = some gid then { h with flagSeen := true } else h
    | _ => h
  { d with groups := d.groups.map fun kg => (kg.1, see kg.2) }

/-- A write performed at a flag (R148): of those of one fclk the last in the fixed order stands, rank 0 an engine, 1 the
bridge, 2 and more the cores by position. -/
def Dev.writeFlagAt (d : Dev) (now rank : Nat) (h : Group) (f : Nat) (v : Bool) : Dev :=
  let seen := if h.flagNow.1 = now then h.flagNow.2 else []
  let before := seen.any fun p => p.1 == f && rank < p.2
  let h := { h with flagNow := (now, if before then seen else (f, rank) :: seen.filter (·.1 != f)) }
  let h' := h.setFlag f (if before then h.arch.flag f else v)
  let h' := if before ∧ v then { h' with arch := { h'.arch with bridge := { h.arch.bridge with flagEvents := h.arch.bridge.flagEvents ++ [f] } } }
    else if before then { h' with arch := { h'.arch with bridge := h.arch.bridge } } else h'
  let d := d.setGroup h'
  if v ∧ !before then d.noticeFlag h.gid f else d

/-- Flag number and target of a format-I flag instruction (R147): the core itself, or another position of its cell. -/
def flagNum (t : TailI) : Nat := t.imm.toNat % 1024
def flagPos (t : TailI) (core : Option Nat) : Option Nat :=
  let k := nbits t.imm.toNat 10 3
  if k = 0 ∨ core.map (· % 4) = some (k - 4) then none else some (k - 4)

/-- A flag as the tests of a core read it (R148, R325): its own latest write, or the performed value, 0 where no group
of the context holds the core. -/
def Dev.testFlag (d : Dev) (g : Group) (target : Option Nat) (f : Nat) : Bool :=
  match latestOwn target f g.arch.gops with
  | some v => v
  | none => match d.flagGroup g target with
    | some h => h.arch.flag f
    | none => false

end Sys2Proof.Machine
end

