-- ==== Sys2Proof/Machine/Scalar.lean ====
section
/-!
DEFINITION. The scalar instructions (06_issuing R136 to R141): one meaning for each opcode over the shared forms.
-/

namespace Sys2Proof.Machine

/-- A three-register operation (R137): xD := f a b c after a latency. -/
def alu (lat : Nat) (g : Guard) (t : TailA) (f : Word → Word → Word → Word) (useC : Bool := false) : GM Unit :=
  guarded g none do
    let a ← readX t.a
    let b ← readX t.b
    let c ← if useC then readX t.c else pure 0
    writeX t.d (f a b c) lat
    return .fall

/-- An immediate operation (R139). -/
def aluI (g : Guard) (t : TailI) (f : Word → BitVec 32 → Word) : GM Unit :=
  guarded g none do
    let a ← readX t.a
    writeX t.d (f a t.imm) 1
    return .fall

/-- A unary operation (R140). -/
def aluH (g : Guard) (t : TailH) (f : Word → Word) : GM Unit :=
  guarded g none do
    let a ← readX t.a
    writeX t.d (f a) 1
    return .fall

/-- A long-latency divide (R138): completes exactly 40 aclk after issue. -/
def divide (g : Guard) (t : TailA) (f : Nat → Nat → Nat) : GM Unit :=
  guarded g (some (t.e.toNat % 32)) do
    let a ← readX t.a
    let b ← readX t.b
    let now := (← read).aclk
    let r : RegRef := .x t.d.toNat
    let _ ← issueEntry (t.e.toNat % 32) .divide false false (some (now + 40)) [r] [(r, f a.toNat b.toNat)]
    return .fall

def bool64 (b : Bool) : Word := if b then 1 else 0

/-- The set bits of the low n bits. -/
def popCount (x : Nat) : Nat → Nat
  | 0 => 0
  | n + 1 => x % 2 + popCount (x / 2) n

/-- Leading zeros of a w-bit pattern. -/
def leadZeros (w x : Nat) : Nat := if x % 2 ^ w = 0 then w else w - 1 - Nat.log2 (x % 2 ^ w)

/-- Trailing zeros of the low n bits, n where there is no one bit. -/
def trailZeros (x : Nat) : Nat → Nat
  | 0 => 0
  | n + 1 => if x % 2 = 1 then 0 else 1 + trailZeros (x / 2) n

/-- The high half of the signed product (R137). -/
def mulhS (a b : Word) : Word := BitVec.ofInt 64 (a.toInt * b.toInt / 2 ^ 64)
def mulhU (a b : Word) : Word := BitVec.ofNat 64 (a.toNat * b.toNat / 2 ^ 64)

/-- ((a*2^64 + b) >> n)[63:0] (R137). -/
def funnel (a b c : Word) : Word := BitVec.ofNat 64 ((a.toNat * 2 ^ 64 + b.toNat) / 2 ^ (c.toNat % 64))

def bitField (a : Word) (imm : BitVec 32) : Word := BitVec.ofNat 64 (nbits a.toNat (imm.toNat % 64) (nbits imm.toNat 6 7))

/-- d with d[pos+len-1:pos] := a[len-1:0] (R139). -/
def bitInsert (d a : Word) (imm : BitVec 32) : Word :=
  BitVec.ofNat 64 (putBits d.toNat (imm.toNat % 64) (nbits imm.toNat 6 7) a.toNat)

def execAdd (g : Guard) (t : TailA) (s : State) := s.onCur (alu 1 g t fun a b _ => a + b)
def execSub (g : Guard) (t : TailA) (s : State) := s.onCur (alu 1 g t fun a b _ => a - b)
def execAddi (g : Guard) (t : TailI) (s : State) := s.onCur (aluI g t fun a i => a + i.signExtend 64)
def execMul (g : Guard) (t : TailA) (s : State) := s.onCur (alu 3 g t fun a b _ => a * b)
def execMulh (g : Guard) (t : TailA) (s : State) := s.onCur (alu 3 g t fun a b _ => mulhS a b)
def execMulhn (g : Guard) (t : TailA) (s : State) := s.onCur (alu 3 g t fun a b _ => mulhU a b)
def execDiv (g : Guard) (t : TailA) (s : State) := s.onCur (divide g t (divI .i64))
def execDivn (g : Guard) (t : TailA) (s : State) := s.onCur (divide g t (divI .n64))
def execRem (g : Guard) (t : TailA) (s : State) := s.onCur (divide g t (remI .i64))
def execRemn (g : Guard) (t : TailA) (s : State) := s.onCur (divide g t (remI .n64))
def execAnd (g : Guard) (t : TailA) (s : State) := s.onCur (alu 1 g t fun a b _ => a &&& b)
def execOr (g : Guard) (t : TailA) (s : State) := s.onCur (alu 1 g t fun a b _ => a ||| b)
def execXor (g : Guard) (t : TailA) (s : State) := s.onCur (alu 1 g t fun a b _ => a ^^^ b)
def execAndn (g : Guard) (t : TailA) (s : State) := s.onCur (alu 1 g t fun a b _ => a &&& ~~~b)
def execOrn (g : Guard) (t : TailA) (s : State) := s.onCur (alu 1 g t fun a b _ => a ||| ~~~b)
def execShl (g : Guard) (t : TailA) (s : State) := s.onCur (alu 1 g t fun a b _ => a <<< (b.toNat % 64))
def execShr (g : Guard) (t : TailA) (s : State) := s.onCur (alu 1 g t fun a b _ => a >>> (b.toNat % 64))
def execSha (g : Guard) (t : TailA) (s : State) := s.onCur (alu 1 g t fun a b _ => a.sshiftRight (b.toNat % 64))
def execRol (g : Guard) (t : TailA) (s : State) := s.onCur (alu 1 g t fun a b _ => a.rotateLeft (b.toNat % 64))
def execShli (g : Guard) (t : TailI) (s : State) := s.onCur (aluI g t fun a i => a <<< (i.toNat % 64))
def execShri (g : Guard) (t : TailI) (s : State) := s.onCur (aluI g t fun a i => a >>> (i.toNat % 64))
def execShai (g : Guard) (t : TailI) (s : State) := s.onCur (aluI g t fun a i => a.sshiftRight (i.toNat % 64))
def execRoli (g : Guard) (t : TailI) (s : State) := s.onCur (aluI g t fun a i => a.rotateLeft (i.toNat % 64))
def execClz (g : Guard) (t : TailH) (s : State) := s.onCur (aluH g t fun a => BitVec.ofNat 64 (leadZeros 64 a.toNat))
def execCtz (g : Guard) (t : TailH) (s : State) := s.onCur (aluH g t fun a => BitVec.ofNat 64 (trailZeros a.toNat 64))
def execPopc (g : Guard) (t : TailH) (s : State) := s.onCur (aluH g t fun a => BitVec.ofNat 64 (popCount a.toNat 64))
def execBfx (g : Guard) (t : TailI) (s : State) := s.onCur (aluI g t bitField)

/-- `bfi` reads xD as a source (R139). -/
def execBfi (g : Guard) (t : TailI) (s : State) := s.onCur (guarded g none do
  let a ← readX t.a
  let d ← readX t.d
  writeX t.d (bitInsert d a t.imm) 1
  return .fall)

def execFsh (g : Guard) (t : TailA) (s : State) := s.onCur (alu 1 g t funnel true)
def execMin (g : Guard) (t : TailA) (s : State) := s.onCur (alu 1 g t fun a b _ => if b.slt a then b else a)
def execMax (g : Guard) (t : TailA) (s : State) := s.onCur (alu 1 g t fun a b _ => if a.slt b then b else a)
def execMinn (g : Guard) (t : TailA) (s : State) := s.onCur (alu 1 g t fun a b _ => if b.ult a then b else a)
def execMaxn (g : Guard) (t : TailA) (s : State) := s.onCur (alu 1 g t fun a b _ => if a.ult b then b else a)

/-- `sext` by its size code (R140). -/
def execSext (g : Guard) (t : TailH) (s : State) :=
  s.onCur (aluH g t fun a => sext64 (8 * 2 ^ (t.e.toNat % 4)) a.toNat)

def execSlt (g : Guard) (t : TailA) (s : State) := s.onCur (alu 1 g t fun a b _ => bool64 (a.slt b))
def execSltn (g : Guard) (t : TailA) (s : State) := s.onCur (alu 1 g t fun a b _ => bool64 (a.ult b))
def execSeq (g : Guard) (t : TailA) (s : State) := s.onCur (alu 1 g t fun a b _ => bool64 (a == b))
def execSne (g : Guard) (t : TailA) (s : State) := s.onCur (alu 1 g t fun a b _ => bool64 (a != b))
def execCsel (g : Guard) (t : TailA) (s : State) := s.onCur (alu 1 g t (fun a b c => if c ≠ 0 then a else b) true)

def execLi (g : Guard) (t : TailL) (s : State) := s.onCur (guarded g none do
  writeX t.d t.imm 1
  return .fall)

/-- `lea` (R141): the address of format M; nothing is read or translated. -/
def execLea (g : Guard) (t : TailM) (s : State) := s.onCur (guarded g none do
  let a ← addrM t
  writeX t.d a 1
  return .fall)

/-- `mov` between the x and lc files (R140, R143). -/
def execMov (g : Guard) (t : TailH) (s : State) := s.onCur (guarded g none do
  let v ← if t.e.toNat / 4 = 0 then readReg (.x t.a.toNat) else readReg (.lc t.a.toNat)
  if t.e.toNat % 4 = 0 then writeReg (.x t.d.toNat) v 1 else writeReg (.lc t.d.toNat) (v % 2 ^ 32) 1
  return .fall)

end Sys2Proof.Machine
end

