-- ==== Sys2Proof/Machine/Control.lean ====
section
/-!
DEFINITION. Branches, jumps and loops (06_issuing R142, R143), predicates and delay (R144, R145), flags (R147, R148),
`abort` and `abchk` (R149, R150).
-/

namespace Sys2Proof.Machine

/-- A conditional branch of format J (R142). -/
def branch (g : Guard) (t : TailJ) (c : Word → Word → Bool) (two : Bool := true) : GM Unit :=
  guarded g none do
    let a ← readX t.a
    let b ← if two then readX t.b else pure 0
    if c a b then
      let p := jTarget (← arch).pc t.disp t.slot
      checkTarget p
      return .jump p
    else return .fall

def execBeq (g : Guard) (t : TailJ) (s : State) := s.onCur (branch g t fun a b => a == b)
def execBne (g : Guard) (t : TailJ) (s : State) := s.onCur (branch g t fun a b => a != b)
def execBlt (g : Guard) (t : TailJ) (s : State) := s.onCur (branch g t fun a b => a.slt b)
def execBge (g : Guard) (t : TailJ) (s : State) := s.onCur (branch g t fun a b => !a.slt b)
def execBltn (g : Guard) (t : TailJ) (s : State) := s.onCur (branch g t fun a b => a.ult b)
def execBgen (g : Guard) (t : TailJ) (s : State) := s.onCur (branch g t fun a b => !a.ult b)
def execBz (g : Guard) (t : TailJ) (s : State) := s.onCur (branch g t (fun a _ => a == 0) false)
def execBnz (g : Guard) (t : TailJ) (s : State) := s.onCur (branch g t (fun a _ => a != 0) false)

def execJ (g : Guard) (t : TailJ) (s : State) := s.onCur (guarded g none do
  let p := jTarget (← arch).pc t.disp t.slot
  checkTarget p
  return .jump p)

/-- `jl` writes the link and is a call: it neither ends nor deactivates a loop (R142, R143). -/
def execJl (g : Guard) (t : TailJ) (s : State) := s.onCur (guarded g none do
  let p := jTarget (← arch).pc t.disp t.slot
  checkTarget p
  writeX t.d (← get).link 1
  return .call p)

/-- `jr` reads xA before it writes the link; D = 0 gives no link (R142). -/
def execJr (g : Guard) (t : TailH) (s : State) := s.onCur (guarded g none do
  let p ← readX t.a
  checkTarget p
  if t.d = 0 then return .jump p
  else do
    writeX t.d (← get).link 1
    return .call p)

/-- `loop` (R143). Its END is checked whatever the guard (R118 step 4). -/
def loopBody (t : TailJ) : GM Next := do
  let k := t.d.toNat % 2
  let stop := jTarget (← arch).pc t.disp t.slot
  let c ← readX t.a
  let c := c.setWidth 32
  if c = 0 then
    checkTarget stop
    writeReg (.lc k) 0 1
    setArch fun a => { a with loops := a.loops.setIfInBounds k { a.loopAt k with active := false } }
    return .skip stop
  else
    writeReg (.lc k) c.toNat 1
    let link := (← get).link
    setArch fun a =>
      let other := { a.loopAt (1 - k) with inner := false }
      let mine : Loop := ⟨true, link, stop, true⟩
      { a with loops := (a.loops.setIfInBounds k mine).setIfInBounds (1 - k) other }
    return .fall

/-- `loop` (R143); its END is checked after every field of the format (DEDUCED, log 22). -/
def execLoop (g : Guard) (t : TailJ) (s : State) := s.onCur (do
  let stop := jTarget (← arch).pc t.disp t.slot
  if stop ≤ (← get).link then raise cILLEGAL_TARGET stop
  guarded g none (loopBody t))

/-- `dly` (R145): n issue slots, n - 1 in tail bits 11:0. -/
def execDly (g : Guard) (t : TailH) (s : State) := s.onCur (do
  if ← guardTrue g then retire .fall (t.a.toNat * 64 + t.d.toNat + 1)
  else retire .fall)

def execNop (g : Guard) (s : State) := s.onCur (guarded g none (return .fall))

def execQset (g : Guard) (t : TailA) (s : State) := s.onCur (guarded g none do
  let a ← readX t.a
  let b ← readX t.b
  writeReg (.q t.d.toNat) (if qcond (t.e.toNat % 8) a b then 1 else 0) 1
  return .fall)

def execQop (g : Guard) (t : TailA) (s : State) := s.onCur (guarded g none do
  let a ← readQ t.a.toNat
  let b ← readQ t.b.toNat
  writeReg (.q t.d.toNat) (if qfn (t.e.toNat % 16) a b then 1 else 0) 1
  return .fall)

/-! Flags. -/

/-- The next global operation of a group, appended to those not yet performed. -/
def pushOp (mk : Nat → Nat → GOp) : GM Unit := do
  let now := (← read).aclk
  let core := (← get).core
  setArch fun a => { a with gops := a.gops ++ [{ mk a.nextId now with epoch := a.epoch, core := core }], nextId := a.nextId + 1 }

/-- A flag write (R147, R148): a release at cell scope, performed by FLAG_WRITE_PERFORMED; `va` keeps the core it was issued
on, whose position orders it among the writes of one fclk. -/
def writeFlag (g : Guard) (t : TailI) (v : Bool) : GM Unit :=
  guarded g none do
    let core := (← get).core.getD 0
    let target := flagPos t (← get).core
    pushOp fun id now =>
      { id := id, kind := .flag target (flagNum t) v, va := core, size := 0, xl := default, entry := none, acq := false, rel := true,
        epoch := 0, plain := false, seq := 0, sub := 0, issued := now, core := none }
    return .fall

def execFset (g : Guard) (t : TailI) (s : State) := s.onCur (writeFlag g t true)
def execFclr (g : Guard) (t : TailI) (s : State) := s.onCur (writeFlag g t false)

/-- An acquire drops the read cache and the scale cache of the core (R182, R260). -/
def Dev.acquireOn (d : Dev) (core : Option Nat) : Dev :=
  match core with
  | none => d
  | some c => { d with cores := d.cores.modify c Core.reset fun k => { k with rcache := [], scales := [] } }

/-- An acquire by a group on its core. -/
def Dev.acquire (d : Dev) (g : Group) : Dev := d.acquireOn g.core

/-- A meaning on the group's own state, then an acquire where its guard is true (R148). -/
def Dev.thenAcquire (d : Dev) (clk : Clock) (g : Group) (gd : Guard) (m : GM Unit) : Except Stop Dev :=
  match guardTrue gd (d.env clk g) g, m (d.env clk g) g with
  | .ok (true, _), .ok (_, g') => .ok ((d.setGroup g').acquire g')
  | _, .ok (_, g') => .ok (d.setGroup g')
  | _, .error st => .error st

/-- A global load, or an atomic, which counts as a load (R297). -/
def GOpKind.isLoad : GOpKind → Bool
  | .load _ _ _ | .amo _ _ _ _ _ _ _ | .spawn _ _ | .join _ => true
  | _ => false

/-- An earlier operation that R299 keeps before a later acquire: a load, an atomic or an acquire (PL, FA and AQ before
AQ). Uncached accesses are ordered by `fence` alone (R290). -/
def GOp.beforeAcquire (o : GOp) : Bool := o.xl.typ != 2 && (o.acq || o.kind.isLoad)

/-- A test of a flag is an acquire: it comes after every load, atomic and acquire before it (R297, R299 class AQ). -/
def afterAcquires : GM Unit := do
  if (← arch).gops.any GOp.beforeAcquire then stop (.stall .acq)

/-- `ftst` (R147): latency 4 for an own flag, 8 for one of another position; one that names its own position takes 8
(R125 can be read either way: DESIGN CHOICE, log 69). -/
def execFtst (g : Guard) (t : TailI) (s : State) := s.onGroup fun clk d gr =>
  let v := d.testFlag gr (flagPos t gr.core) (flagNum t)
  d.thenAcquire clk gr g (guarded g none do
    afterAcquires
    writeX t.d (if v then 1 else 0) (if nbits t.imm.toNat 10 3 = 0 then 4 else 8)
    return .fall)

/-- `fwait` (R147): the flag is read at issue and at every change; in an abort group it completes at once with status 1
(R358). -/
def execFwait (g : Guard) (t : TailI) (s : State) := s.onGroup fun clk d gr =>
  let v := d.testFlag gr (flagPos t gr.core) (flagNum t) || gr.flagSeen
  d.thenAcquire clk gr g (guarded g none do
    afterAcquires
    if v && !gr.isAbort then writeX t.d 0 1
    else if (← read).aborted then writeX t.d 1 1
    else stop (.stall (.fwait (flagPos t gr.core) (flagNum t)))
    modify fun h => { h with flagSeen := false }
    return .fall)

/-! Abort. -/

/-- `abort` (R149): the line is raised in the cluster of the group's home cell. -/
def execAbort (g : Guard) (s : State) := s.onGroup fun clk d gr =>
  match guardTrue g (d.env clk gr) gr, guarded g none (return .fall) (d.env clk gr) gr with
  | .ok (true, _), .ok (_, gr') => .ok ((d.setGroup gr').raiseAbort clk.fclk gr.recd.launch (clusterOfCell gr.recd.home))
  | _, .ok (_, gr') => .ok (d.setGroup gr')
  | _, .error st => .error st

def execAbchk (g : Guard) (t : TailH) (s : State) := s.onCur (guarded g none do
  writeX t.d (bool64 (← read).aborted) 2
  return .fall)

end Sys2Proof.Machine
end

