-- ==== Sys2Proof/Machine/System.lean ====
section
/-!
DEFINITION. The system instructions (17_interruption R345 to R350): control registers, `trap`, `svc`, `kret`, `tlbinv`
and `halt`.
-/

namespace Sys2Proof.Machine

def boundOf (v : Word) : Bound :=
  { hi := v.extractLsb' 48 16, lo := v.extractLsb' 32 16, tid := v.extractLsb' 8 8, v := v.getLsbD 7, nan := v.getLsbD 6,
    act := v.extractLsb' 4 2 }

/-- The trap registers after a `cset` (R128, R331, R332): read-only registers and fields keep their values. -/
def TrapRegs.set (k : TrapRegs) (n : Nat) (v : Word) : TrapRegs :=
  match n with
  | 0x000 => { k with qsave := v.extractLsb' 25 7 }
  | 0x001 => { k with cause := v.setWidth 8 }
  | 0x002 => { k with val := v }
  | 0x003 => { k with pc := v }
  | 0x004 => { k with vec := v }
  | 0x005 => { k with scratch := v }
  | 0x00C => { k with strict := v.getLsbD 0 }
  | _ => k

/-- The matrix registers after a `cset` (R247, R259, R268, R270). -/
def MatrixRegs.set (m : MatrixRegs) (n : Nat) (v : Word) : MatrixRegs :=
  match n with
  | 0x010 => { m with fa := v.setWidth 6 }
  | 0x011 => { m with fb := v.setWidth 6 }
  | 0x012 => { m with sa := v.setWidth 57 }
  | 0x013 => { m with sb := v.setWidth 57 }
  | 0x014 => { m with tida := v.setWidth 8, tidb := v.extractLsb' 8 8 }
  | 0x016 => if v.toNat % 128 ≤ 64 then { m with gov := v.setWidth 7 } else m
  | 0x017 => { m with stall := v }
  | 0x018 => { m with th := v.setWidth 48 }
  | _ => if 0x020 ≤ n ∧ n ≤ 0x02F then { m with bnd := m.bnd.setIfInBounds (n - 0x020) (boundOf v) } else m

def Arch.setControl (a : Arch) (n : Nat) (v : Word) : Arch := { a with k := a.k.set n v, m := a.m.set n v }

/-- Control-register number of a format-I instruction (R345). -/
def cregOf (t : TailI) : Nat := t.imm.toNat % 0x1000

/-- The line of the image that holds a control register (R179, R339). -/
def controlLine (n : Nat) : Nat := 4 + n / 32

def execCget (g : Guard) (t : TailI) (s : State) := s.onCur (guarded g none do
  needLine (controlLine (cregOf t))
  writeX t.d (controlReg (← read) (← get) (cregOf t)) 2
  return .fall)

/-- A write of `msa`, `msb` or `mtid` drops the scale cache (R260). -/
def dropScales (n : Nat) (d : Dev) (g : Group) : Dev :=
  if n = 0x012 ∨ n = 0x013 ∨ n = 0x014 then
    match g.core with
    | none => d
    | some c => { d with cores := d.cores.modify c Core.reset fun k => { k with scales := [] } }
  else d

/-- A meaning on the group's own state, then an effect on the device where the guard is true. -/
def Dev.thenDev (d : Dev) (clk : Clock) (g : Group) (gd : Guard) (m : GM Unit) (f : Dev → Group → Dev) : Except Stop Dev :=
  match guardTrue gd (d.env clk g) g, m (d.env clk g) g with
  | .ok (true, _), .ok (_, g') => .ok (f (d.setGroup g') g')
  | _, .ok (_, g') => .ok (d.setGroup g')
  | _, .error st => .error st

def execCset (g : Guard) (t : TailI) (s : State) := s.onGroup fun clk d gr =>
  d.thenDev clk gr g (guarded g none do
    let v ← readX t.a
    needLine (controlLine (cregOf t))
    setArch fun a => a.setControl (cregOf t) v
    return .fall) (dropScales (cregOf t))

/-- `trap` (R346) completes: its kpc is the link. -/
def execTrap (g : Guard) (t : TailI) (s : State) := s.onCur (guarded g none do
  stop (.trap cTRAP (t.imm.setWidth 64) (some (← get).link)))

/-- A device-level meaning under its guard (R108, R109): `f` where it is true, otherwise the instruction only retires. -/
def Dev.underGuard (d : Dev) (clk : Clock) (g : Group) (gd : Guard) (f : Group → Except Stop Dev) : Except Stop Dev :=
  match guardTrue gd (d.env clk g) g with
  | .error st => .error st
  | .ok (true, g') => f g'
  | .ok (false, g') =>
    match retire .fall 1 (d.env clk g) g' with
    | .ok (_, g') => .ok (d.setGroup g')
    | .error st => .error st

/-- The same for an instruction that names a token: a false guard completes its entry at issue (R109). -/
def Dev.underGuardTok (d : Dev) (clk : Clock) (g : Group) (gd : Guard) (tok : Nat) (f : Group → Except Stop Dev) : Except Stop Dev :=
  match guardTrue gd (d.env clk g) g with
  | .error st => .error st
  | .ok (true, g') => f g'
  | .ok (false, g') =>
    let m : GM Unit := do
      issueDone tok
      retire .fall
    match m (d.env clk g) g' with
    | .ok (_, g') => .ok (d.setGroup g')
    | .error st => .error st

/-- `svc` (R347): suspended with CAUSE 21, VAL xA, AUX the code, at its own pc; STRICT checks its later write of xD when it
issues (R133), and whether it is the second of two writers is known then (R126). -/
def execSvc (g : Guard) (t : TailI) (s : State) := s.onGroup fun clk d gr =>
  d.underGuard clk gr g fun gr' =>
    let m : GM Word := do
      let v ← readX t.a
      if !(RegRef.x t.d.toNat).fixed then strictWrite (.x t.d.toNat) 1
      return v
    match m (d.env clk gr) gr' with
    | .ok (v, gr') =>
      .ok (d.suspend clk gr' cSVC v gr.arch.pc t.imm.toNat t.d.toNat gr.link (gr'.arch.second clk.aclk 1 (.x t.d.toNat)))
    | .error st => .error st

/-- `halt` (R350): suspended with CAUSE 22 at its own pc. -/
def execHalt (g : Guard) (s : State) := s.onGroup fun clk d gr =>
  d.underGuard clk gr g fun gr' => .ok (d.suspend clk gr' cHALT 0 gr.arch.pc 0 0 gr.link)

/-- `kret` (R348). -/
def execKret (g : Guard) (s : State) := s.onGroup fun clk d gr =>
  d.underGuard clk gr g fun gr' =>
    if missesLine (d.othersOn gr'.core) gr' (controlLine 0) then .error (.stall (.refill (controlLine 0)))
    else if missesLine (d.othersOn gr'.core) gr' 2 then .error (.stall (.refill 2))
    else if gr'.arch.k.inTrap then
      if validTarget gr'.arch.k.pc then
        .ok ((d.dropCaches gr'.core).setGroup { leaveHandler gr' with stall := .none, notBefore := clk.aclk + 1 })
      else .ok (d.endGroup clk.fclk gr' cILLEGAL_TARGET gr'.arch.k.pc gr'.arch.pc)
    else .error (.trap cILLEGAL_OPCODE 0xE200 none)

/-! Translation invalidation (R349). -/

/-- A translation that an invalidation removes. -/
def Inval.removes (i : Inval) (t : Tlb) : Bool :=
  t.asid == i.asid && (match i.page with
    | none => true
    | some va => t.base ≤ va && va < t.base + 2 ^ t.bits)

/-- The translations of the targeted cores are dropped. -/
def Dev.dropTlb (d : Dev) (i : Inval) : Dev :=
  { d with cores := d.cores.map fun (c, k) => (c, if i.cores.contains c then { k with tlb := k.tlb.filter fun t => !i.removes t } else k) }

/-- Walks begun for the targeted cores will be discarded. -/
def Dev.markWalks (d : Dev) (i : Inval) : Dev :=
  { d with walks := d.walks.map fun (k, ws) => (k, ws.map fun w => if i.cores.contains w.core then { w with drop := true } else w) }

/-- Cores of the partition that a group runs in. -/
def Dev.partCores (d : Dev) (p : Nat) : List Nat := (List.range 4096).filter fun c => (d.part p).hasCell (cellOf c)

/-- An invalidation removes a translation that the device keeps of an address: it covers the page named (R193, R349). -/
def Inval.removesVa (i : Inval) (va : Nat) (x : Xlat) : Bool :=
  match i.page with
  | none => true
  | some a => a / 2 ^ x.bits == va / 2 ^ x.bits

/-- The device's own translations of DONE and PRED (R393) go with the others; each is made again where it is needed. -/
def Dev.forgetDone (d : Dev) (i : Inval) : Dev :=
  let mine (p c : Nat) : Bool := (d.ctx p c).latched.any fun lt => lt.asid == i.asid
  let keep (va : Nat) (x : Option Xlat) : Option Xlat := x.filter fun x => !i.removesVa va x
  let launch (l : Launch) : Launch := if mine l.part l.ctx then { l with doneX := keep l.doneVa l.doneX } else l
  let head (h : Held) : Held :=
    { h with done := keep (nbits h.record 320 64) h.done, pred := h.pred.map (keep (nbits h.record 448 64)) }
  let queue (k : Nat) (q : LQueue) : LQueue := if mine (k / 512) (k / 8 % 64) then { q with held := q.held.map head } else q
  { d with launches := d.launches.map fun kl => (kl.1, launch kl.2), queues := d.queues.map fun kq => (kq.1, queue kq.1 kq.2) }

/-- `tlbinv`: translations are dropped by TLBINV_COMPLETE at the latest; at issue by a free choice (log 5). -/
def execTlbinv (g : Guard) (t : TailA) (s : State) := s.onGroup fun clk d gr =>
  let tok := t.e.toNat % 32
  let m : GM (Option (Word × Nat × Nat)) := do
    if ← guardTrue g then
      let v ← readX t.a
      let id ← issueEntry tok .tlbinv false false none [] []
      let early ← pick
      retire .fall
      return some (v, id, early)
    else
      issueDone tok
      retire .fall
      return none
  match m (d.env clk gr) gr with
  | .error st => .error st
  | .ok (none, gr') => .ok (d.setGroup gr')
  | .ok (some (v, id, early), gr') =>
    let d := d.setGroup gr'
    match d.latchedOf gr' with
    | none => .ok d
    | some (p, lt) =>
      let cores := if nbit t.e.toNat 6 then d.partCores p else gr'.core.toList
      let i : Inval := ⟨gr'.gid, tok, id, cores, lt.asid, if nbit t.e.toNat 5 then none else some v.toNat, clk.fclk⟩
      let d := { d with invals := d.invals ++ [i] }.markWalks i
      .ok (if early % 2 = 1 then d.dropTlb i else d)

/-- TLBINV_COMPLETE: every targeted TLB drops the translations, no earlier walk is left, and the entry completes. -/
def execTlbinvComplete (gid entry : Nat) (s : State) := s.event fun _ d =>
  match d.invals.find? (fun i => i.gid = gid ∧ i.id = entry), d.groups.find gid with
  | some i, some g =>
    if d.walks.any (fun kw => kw.2.any fun w => w.drop && i.cores.contains w.core) then none
    else
      let d := { d with invals := d.invals.filter fun j => !(j.gid = gid ∧ j.id = entry) }.dropTlb i
      let d := d.forgetDone i
      some (d.setGroup (completeEntry g i.tok entry []))
  | _, _ => none

/-- DIVIDE_COMPLETE (R138): the quotient or remainder is written 40 aclk after issue. -/
def execDivideComplete (gid entry : Nat) (s : State) := s.event fun clk d =>
  match d.groups.find gid with
  | none => none
  | some g => (completeKnown .divide clk.aclk entry g).map d.setGroup

/-- VECTOR_LONG_COMPLETE (R157). -/
def execVectorLongComplete (gid entry : Nat) (s : State) := s.event fun clk d =>
  match d.groups.find gid with
  | none => none
  | some g => (completeKnown .vector clk.aclk entry g).map d.setGroup

/-- FIXED_ENTRY_COMPLETE (R240, R267): `rpush`, `rpop` and `mstat`, 4 aclk after issue. -/
def execFixedEntryComplete (gid entry : Nat) (s : State) := s.event fun clk d =>
  match d.groups.find gid with
  | none => none
  | some g => (completeKnown .port clk.aclk entry g).map d.setGroup

end Sys2Proof.Machine
end

