-- ==== Sys2Proof/Machine/Context.lean ====
section
/-!
DEFINITION. Partitions, contexts and launch queues (03_launching R58 to R66, R78, R79; 17_interruption R335, R337,
R344): validation and retirement of runnable-list entries, teardown, the launch-control registers, replies to
suspended groups.
-/

namespace Sys2Proof.Machine

/-- SLICE in µs, read at each use (R61); 0, which only a write after validation can leave, counts as 1 (log 62). -/
def entrySlice (e : Nat) : Nat := max 1 (nbits e 352 32)
def entryLimit (e : Nat) : Nat := nbits e 320 32

/-- Every entry of the partition's list has VALID = 0 in memory, and none is retiring, which counts as valid (R59, R62). -/
def Dev.listEmpty (d : Dev) (p : Nat) : Bool :=
  (List.range 64).all fun c => (d.ctx p c).latched.isNone && !nbit (d.runEntry p c) 399

/-- A page is mapped resident-required (R61). -/
def Dev.resident (d : Dev) (l : Latched) (va : Nat) : Bool :=
  va / 2 ^ 57 = 0 && (match d.walk l va with
    | some t => nbit t.leaf.toNat 10
    | none => false)

/-- Every 64 KiB page of a range is resident-required. -/
def Dev.residentRange (d : Dev) (l : Latched) (va n : Nat) : Bool :=
  (List.range ((n + 0xFFFF) / 0x10000)).all fun i => d.resident l (va + 0x10000 * i)

/-- Field limits of R60, and the ASID unique among valid entries. -/
def Dev.entryFieldsOk (d : Dev) (p c e : Nat) : Bool :=
  nbits e 400 112 = 0 && nbits e 396 1 = 0 && nbits e 288 32 = 0 &&
  1 ≤ nbits e 352 32 && nbits e 352 32 ≤ 1000000 &&
  (entryLimit e = 0 || (20 ≤ entryLimit e && entryLimit e ≤ 1000000)) &&
  nbits e 256 32 % 64 = 0 && nbits e 192 64 % 0x10000 = 0 && nbits e 64 64 % 0x10000 = 0 &&
  nbits e 0 12 = 0 && nbits e 52 12 = 0 &&
  d.ctxs.all fun (k, x) => k = ctxKey p c || (match x.latched with
    | some l => l.asid.toNat ≠ nbits e 384 12
    | none => true)

/-- Validation of an entry (R61, R338): what it latches. -/
def Dev.validate (d : Dev) (p c e : Nat) : Option Latched :=
  if d.entryFieldsOk p c e then
    let l : Latched :=
      { ptroot := nbits e 0 64, backing := nbits e 64 64, asid := BitVec.ofNat 12 (nbits e 384 12), pool := nbits e 192 64,
        poolsz := nbits e 256 32, nslot := 0 }
    match d.ctxRead p l l.backing 8 .load with
    | .error _ => none
    | .ok h =>
      let n := h % 2 ^ 20
      if h / 2 ^ 20 = 0 ∧ 4 * (d.cellList p).length ≤ n ∧ d.residentRange l l.backing (0x10000 + n * 0x100000) ∧
          d.residentRange l l.pool (l.poolsz * 1024) then some { l with nslot := n }
      else none
  else none

/-- What the walks of the 64 KiB pages of a range bring about (R376). -/
def Dev.askedPages (d : Dev) (l : Latched) (va n : Nat) : Dev :=
  (List.range ((n + 0xFFFF) / 0x10000)).foldl (fun d i => d.takeBackWalk l (va + 0x10000 * i) false) d

/-- What the read of a backing area's header brings about. -/
def Dev.askedHeader (d : Dev) (p : Nat) (l : Latched) : Dev :=
  match d.walkXlat p l l.backing .load with
  | .error _ => d
  | .ok x => d.asked x 8

/-- A write of VALID from 0 to 1 (R61, R62). -/
def Dev.validWrite (d : Dev) (p c : Nat) : Dev :=
  if (d.ctx p c).retiring then (d.setValid p c false).setErr p 4
  else
    let d := (d.setValid p c true).askedPhys (d.entryPa p c) 64
    match d.validate p c (d.runEntry p c) with
    | none => (d.setValid p c false).setErr p 2
    | some l =>
      let d := ((d.askedHeader p l).askedPages l l.backing (0x10000 + l.nslot * 0x100000)).askedPages l l.pool (l.poolsz * 1024)
      d.setCtx p c { d.ctx p c with latched := some l, damaged := false, readySince := none, lastQueue := 7 }

/-! Partition registers (R58, R59, R344). -/

def Dev.writePlbase (d : Dev) (p : Nat) (v : Word) : Dev :=
  if v.toNat / 2 ^ 52 ≠ 0 ∨ v.toNat % 2 ^ 12 ≠ 0 then d
  else if d.listEmpty p then d.setPart p { d.part p with plbase := v }
  else d.setErr p 1

/-- A cluster named by a set belongs to another partition. -/
def Dev.clustersTaken (d : Dev) (p : Nat) (v : Word) : Bool :=
  (List.range 16).any fun q => q ≠ p && ((d.part q).pclus &&& v) != 0

def Dev.writePclus (d : Dev) (p : Nat) (v : Word) : Dev :=
  if d.listEmpty p ∧ !d.clustersTaken p v then d.setPart p { d.part p with pclus := v } else d.setErr p 1

def Dev.writePstat (d : Dev) (p : Nat) : Dev := d.setPart p { d.part p with err := 0 }

def Dev.writePdmgctx (d : Dev) (p : Nat) : Dev := d.setPart p { d.part p with dmgCtx := 0 }

/-- PLBASE_WRITE (R59). -/
def execPlbaseWrite (p : Nat) (v : Word) (s : State) := s.event fun _ d => if p < 16 then some (d.writePlbase p v) else none

/-- PCLUS_WRITE (R59). -/
def execPclusWrite (p : Nat) (v : Word) (s : State) := s.event fun _ d => if p < 16 then some (d.writePclus p v) else none

/-- PSTAT_WRITE (R58). -/
def execPstatWrite (p : Nat) (_ : Word) (s : State) := s.event fun _ d => if p < 16 then some (d.writePstat p) else none

/-- PDMGCTX_WRITE (R344). -/
def execPdmgctxWrite (p : Nat) (s : State) := s.event fun _ d => if p < 16 then some (d.writePdmgctx p) else none

/-- ENTRY_VALIDATE (R61): the host writes VALID from 0 to 1. -/
def execEntryValidate (p c : Nat) (s : State) := s.event fun _ d =>
  if p < 16 ∧ c < 64 ∧ nbit (d.runEntry p c) 399 = false then some (d.validWrite p c) else none

/-- CONTEXT_RETIRE (R62): the host writes VALID from 1 to 0. -/
def execContextRetire (p c : Nat) (s : State) := s.event fun _ d =>
  if (d.ctx p c).latched.isSome ∧ (d.ctx p c).retiring = false then some (d.retireCtx p c) else none

/-- CONTEXT_RETIREMENT_END (R62). -/
def execContextRetirementEnd (p c : Nat) (s : State) := s.event fun _ d =>
  let x := d.ctx p c
  match x.latched with
  | none => none
  | some l =>
    if x.retiring ∧ (d.launchesOf p c).isEmpty then
      let d := (List.range 8).foldl (fun d q => d.setQueue p c q { d.lqueue p c q with state := 3, held := none }) d
      let dropT (co : Core) : Core := { co with tlb := co.tlb.filter fun t => t.asid != l.asid }
      let d := { d with cores := d.cores.map fun (k, co) => (k, dropT co) }
      let d := d.setPart p { d.part p with running := if (d.part p).running = some c then none else (d.part p).running }
      some (d.setCtx p c { x with latched := none, retiring := false, poolUsed := 0, damaged := false, readySince := none, lastQueue := 7 })
    else none

/-! Launch-queue registers (R64 to R66). -/

/-- An error recorded in LQERR (R66). -/
def Dev.queueErr (d : Dev) (p c q code : Nat) (idx : BitVec 32) : Dev :=
  let x := d.lqueue p c q
  d.setQueue p c q { x with errCount := satInc16 x.errCount, errCode := BitVec.ofNat 8 code, errIndex := idx }

/-- A write of LQTAIL (R65). -/
def Dev.writeTail (d : Dev) (p c q : Nat) (v : Word) : Dev :=
  if v.toNat / 2 ^ 32 ≠ 0 then d
  else
    let x := d.lqueue p c q
    let t : BitVec 32 := v.setWidth 32
    let room := 2 ^ x.log2n - (x.tail - x.head).toNat
    if x.state ≠ 1 then d.queueErr p c q 6 t
    else if 2 ^ 31 < (t - x.tail).toNat then d.queueErr p c q 5 t
    else if room < (t - x.tail).toNat then d.queueErr p c q 4 t
    else d.setQueue p c q { x with tail := t }

/-- EN (R64): the positions begin anew, and no grant for one of before stands (R385). -/
def Dev.enableQueue (d : Dev) (p c q : Nat) : Dev :=
  let x := d.lqueue p c q
  if x.state = 0 ∨ x.state = 3 then
    { d.setQueue p c q { x with state := 1, head := 0, tail := 0, held := none } with
      grants := d.grants.filter fun g => !(g.1 = p && g.2.1 = c && g.2.2.1 = q) }
  else d

def Dev.clearQueueErr (d : Dev) (p c q : Nat) : Dev :=
  d.setQueue p c q { d.lqueue p c q with errCount := 0, errCode := 0, errIndex := 0 }

def queueNamed (p c q : Nat) : Bool := p < 16 && c < 64 && q < 8

/-- LQTAIL_WRITE (R65). -/
def execLqtailWrite (p c q : Nat) (v : Word) (s : State) := s.event fun _ d =>
  if queueNamed p c q then some (d.writeTail p c q v) else none

/-- LQCTL_EN (R64). -/
def execLqctlEn (p c q : Nat) (s : State) := s.event fun _ d => if queueNamed p c q then some (d.enableQueue p c q) else none

/-- LQCTL_TEAR (R79). -/
def execLqctlTear (p c q : Nat) (s : State) := s.event fun _ d => if queueNamed p c q then some (d.tearQueue p c q) else none

/-- TEARDOWN_END (R79): every launch of the queue has its completion record. -/
def execTeardownEnd (p c q : Nat) (s : State) := s.event fun _ d =>
  let x := d.lqueue p c q
  if x.state = 2 ∧ (d.ctx p c).retiring = false ∧ ((d.launchesOf p c).filter fun kl => kl.2.queue = q).isEmpty then
    some (d.setQueue p c q { x with state := 3 })
  else none

/-- LQERR_WRITE (R64). -/
def execLqerrWrite (p c q : Nat) (s : State) := s.event fun _ d => if queueNamed p c q then some (d.clearQueueErr p c q) else none

/-! Lines of a group taken from their bytes (R339). -/

/-- A register from its bytes in a line of the image, with the marks of its words (R362). -/
def refillReg (line v : Nat) (bad : Nat → Bool) (a : Arch) (r : RegRef) : Arch :=
  let off := r.offset - 256 * line
  let bits := match r with
    | .q n => nbits v (8 * off + n) 1
    | _ => nbits v (8 * off) (32 * r.words)
  if r.fixed then a
  else
    { a.setReg r bits with
      regPoison := (a.regPoison.filter fun p => !(p.1 == r)) ++
        ((List.range r.words).filter fun w => bad ((off + 4 * w) / 32)).map fun w => (r, w) }

/-- The registers that a line of the image holds. -/
def lineRegs (line : Nat) : List RegRef :=
  if line < 2 then (List.range 32).map fun i => .x (32 * line + i)
  else if line = 2 then (List.range 8).map .w ++ (List.range 8).map .q ++ [.lc 0, .lc 1]
  else if 16 ≤ line ∧ line < 32 then [.v (2 * (line - 16)), .v (2 * (line - 16) + 1)]
  else []

/-- A trap register from a doubleword of the image (R331, R332): what a group stores of it; the others follow from its
record, its launch and its core. -/
def TrapRegs.refill (k : TrapRegs) (n : Nat) (v : Word) : TrapRegs :=
  match n with
  | 0x000 => { k with qsave := v.extractLsb' 25 7, lsave := v.extractLsb' 20 4, deferBit := v.getLsbD 8, cmpl := v.getLsbD 7, inTrap := v.getLsbD 6 }
  | _ => k.set n v

/-- A control register from its doubleword in a line of the image. -/
def refillControl (line v : Nat) (a : Arch) (i : Nat) : Arch :=
  let n := 32 * (line - 4) + i
  let w := BitVec.ofNat 64 (nbits v (64 * i) 64)
  { a with k := a.k.refill n w, m := a.m.set n w }

/-- The storage of a group with one line taken from its bytes. -/
def refillArch (a : Arch) (line v : Nat) (bad : Nat → Bool) : Arch :=
  if line = 4 ∨ line = 5 then (List.range 32).foldl (refillControl line v) a
  else if line < 32 then (lineRegs line).foldl (refillReg line v bad) a
  else if line = flagLine then { a with flags := (List.range 1024).foldl (fun (f : Vector Bool 1024) i => f.setIfInBounds i (nbit v i)) a.flags }
  else refillMem a line v bad

/-! Replies (R335, R337). -/

/-- The suspended group of a context that a ticket names. -/
def Dev.suspendedAt (d : Dev) (p c : Nat) (tk : Word) : Option Group :=
  ((d.groups.map (·.2)).filter fun g => g.status == .suspended && g.recd.ticket == tk &&
    (match d.launchOf g with
      | some l => l.part == p && l.ctx == c
      | none => false)).head?

/-- The group resumes as a parked group does, with the reply's arrival as its ready time (R335). -/
def resumeFrom (now : Nat) (g : Group) : Group :=
  { g with status := .parked, stall := .none, suspended := none, readyAt := some now }

/-- The value that the reply to an `svc` leaves in its destination: another producer's may stand in its place (R126). -/
def replyValue (g : Group) (u : Suspended) (val : Word) : Nat :=
  let r := RegRef.x u.dest
  if u.clash then mixPure g.gid g.nfree [val.toNat, g.arch.reg r] r.words 0 else val.toNat

/-- RESUME: after an `svc`, which writes xD, or a `halt`; for a fault as RETRY. -/
def resumeAfter (clk : Clock) (e : Env) (val : Word) (g : Group) : Group :=
  match g.suspended with
  | none => g
  | some u =>
    if u.cause = cSVC ∨ u.cause = cHALT then
      let r := RegRef.x u.dest
      let writes := u.cause = cSVC && !r.fixed
      let a := if writes then
          { g.arch.setReg r (replyValue g u val) with regPoison := keptPoison g.arch.regPoison r (fun _ => true), toks := g.arch.toks.map (markClash r) }
        else g.arch
      match retire .fall 1 e { g with arch := a, link := u.link, nfree := if writes && u.clash then g.nfree + r.words else g.nfree } with
      | .ok (_, h) => resumeFrom clk.fclk h
      | .error _ => resumeFrom clk.fclk g
    else resumeFrom clk.fclk g

/-- The end check of the instruction that a reply completes reads the line of the loop counters in the slot (R143, R335). -/
def Group.readsCounters (g : Group) : Bool :=
  g.suspended.any (fun u => u.cause == cSVC || u.cause == cHALT) && g.linesOut.contains 2 && g.arch.loops.toList.any (·.active)

/-- The suspended group with that line as its slot holds it. -/
def Dev.withCounters (d : Dev) (g : Group) : Group :=
  if g.readsCounters then
    match d.slotLine g 2 with
    | none => g
    | some (v, bad) => { g with arch := refillArch g.arch 2 v bad }
  else g

/-- A write of ACT to FQRACT (R335, R337). -/
def Dev.reply (d : Dev) (clk : Clock) (p c act : Nat) : Dev :=
  let x := d.ctx p c
  match d.suspendedAt p c x.fqTick with
  | none => d
  | some g =>
    match act with
    | 0 => d.setGroup (resumeFrom clk.fclk g)
    | 1 => (d.askedLines g (if g.readsCounters then [2] else [])).setGroup (resumeAfter clk (d.env clk g) x.fqVal (d.withCounters g))
    | 2 => d.endGroup clk.fclk g 0 0 0 false
    | _ => d

def ctxNamed (p c : Nat) : Bool := p < 16 && c < 64

/-- FQ_REPLY_RETRY (R335). -/
def execFqReplyRetry (p c : Nat) (s : State) := s.event fun clk d => if ctxNamed p c then some (d.reply clk p c 0) else none

/-- FQ_REPLY_RESUME (R335). -/
def execFqReplyResume (p c : Nat) (s : State) := s.event fun clk d => if ctxNamed p c then some (d.reply clk p c 1) else none

/-- FQ_REPLY_ABORT (R335). -/
def execFqReplyAbort (p c : Nat) (s : State) := s.event fun clk d => if ctxNamed p c then some (d.reply clk p c 2) else none

/-- FQTAIL_WRITE (R337): any write clears LOST. -/
def execFqtailWrite (p c : Nat) (s : State) := s.event fun _ d =>
  if ctxNamed p c then some (d.setCtx p c { d.ctx p c with fqLost := 0 }) else none

end Sys2Proof.Machine
end

