-- ==== Sys2Proof/Machine/Lines.lean ====
section
/-!
DEFINITION. The memory-backed lines of a group (17_interruption R339, R341, R344; 08_memory R178 to R180) and the blocks
of its snapshot (20_retirement R365): their bytes, the slot they spill to and refill from, and what follows of them when
a group changes its core.
-/

namespace Sys2Proof.Machine

/-- Eight bytes of a group's image (R339): registers, flags, local store, accumulators, window; the rest is
device-private. -/
def lineWord (e : Env) (g : Group) (off : Nat) : Nat :=
  let a := g.arch
  if off < 0x2000 then imageReg e g off
  else if off < 0x2080 then (List.range 64).foldl (fun n i => n + (if a.flag (8 * (off - 0x2000) + i) then 2 ^ i else 0)) 0
  else if off < 0x10000 then (List.range 8).foldl (fun n i => n + (Config.imageByte g.gid (off + i)).toNat * 2 ^ (8 * i)) 0
  else if off < 0x50000 then a.ls.readN (off - 0x10000) 8
  else if off < 0x70000 then a.acc.readN (off - 0x50000) 8
  else a.win.readN (off - 0x70000) 8

/-- A word of the image is poisoned. -/
def lineBad (g : Group) (off : Nat) : Bool :=
  let a := g.arch
  if off < 0x2000 then imageBad a off
  else if 0x10000 ≤ off ∧ off < 0x50000 then a.lsPoison.contains ((off - 0x10000) / 8)
  else if 0x50000 ≤ off ∧ off < 0x70000 then a.accPoison.contains ((off - 0x50000) / 8)
  else if 0x70000 ≤ off ∧ off < 0x80000 then a.winPoison.contains ((off - 0x70000) / 8)
  else false

/-- n words of the image from an offset as one number. -/
def imageWords (e : Env) (g : Group) (off : Nat) : Nat → Nat
  | 0 => 0
  | n + 1 => lineWord e g off + 2 ^ 64 * imageWords e g (off + 8) n

/-- Blocks of the snapshot: 33 of the image and the engines, and those copied aside (R365). -/
def Group.blocks (g : Group) : Nat := if g.snap.isSome then 33 + g.capo.length else 0

/-- The line of the image that block j of the snapshot holds, in the order in which the blocks were copied. -/
def Group.blockLine (g : Group) (j : Nat) : Nat := if j < 33 then j else g.capo.reverse.getD (j - 33) 0

/-- The group as its snapshot holds it. -/
def Group.atSnap (g : Group) : Group := match g.snap with
  | none => g
  | some s => { g with arch := s }

/-- The bytes of a line as one number: of the image, or block j of the snapshot, line 2048 + j. What the image says of the
group's core is the core whose arrays hold the line. -/
def Group.lineValue (g : Group) (e : Env) (line : Nat) : Nat :=
  let g := { g with core := g.engCore }
  if line < 2048 then imageWords e g (256 * line) 32 else imageWords e g.atSnap (256 * g.blockLine (line - 2048)) 32

/-- Word i of a line is poisoned. -/
def Group.lineMark (g : Group) (line i : Nat) : Bool :=
  if line < 2048 then lineBad g (256 * line + 8 * i)
  else g.capoBad.contains (32 * (line - 2048) + i) || lineBad g.atSnap (256 * g.blockLine (line - 2048) + 8 * i)

/-- Bytes of a line of which its slot's copy is kept where nothing has changed them: the 8-byte words that differ, and a whole
sector of 32 bytes where a poison mark of it stands or has changed (R341, R362). -/
def lineChange (words : Nat → Bool) (marks : Nat → Bool) (anyMark : Nat → Bool) : Nat :=
  (List.range 8).foldl (fun m s =>
    let ws := (List.range 4).map (4 * s + ·)
    m + (if ws.any marks || (ws.any words && ws.any anyMark) then (2 ^ 32 - 1) * 2 ^ (32 * s)
      else ws.foldl (fun n i => if words i then n + 255 * 2 ^ (8 * i) else n) 0)) 0

/-- A line of a group, its bytes of `mask`, goes to its slot; one that cannot be saved ends its context (R341, R344). -/
def Dev.lineOut (d : Dev) (clk : Clock) (g : Group) (line : Nat) (mask : Nat := 2 ^ 256 - 1) : Dev :=
  match d.launchOf g with
  | none => d
  | some l =>
    match (d.ctx l.part l.ctx).latched with
    | none => d
    | some lt =>
      let va := slotVa lt g.slot + 256 * line
      let v := g.lineValue (d.env clk g) line
      match d.spillLine g.engCore l.part lt va v (fun s => nbits mask (32 * s) 32 != 0 && (List.range 4).any fun i => g.lineMark line (4 * s + i)) mask with
      | none => d.saveFailed l.part l.ctx lt.asid g va v
      | some d => d.setGroup { g with linesOut := line :: g.linesOut.filter (· ≠ line) }

/-- A line is read from its slot (R376), and the core whose arrays hold the group's lines keeps the translation of its place there
(R193). -/
def Dev.keepLine (d : Dev) (g : Group) (line : Nat) : Dev :=
  match d.latchedOf g with
  | none => d
  | some (_, lt) =>
    let va := slotVa lt g.slot + 256 * line
    (d.askedLines g [line]).keepOne g.engCore lt true va

/-- A line of a group refilled from its slot (R179, R180); none where the slot does not translate. -/
def Dev.lineIn (d : Dev) (g : Group) (line : Nat) : Option Dev :=
  (d.slotLine g line).map fun (v, bad) =>
    (d.keepLine g line).setGroup { g with arch := refillArch g.arch line v bad, linesOut := g.linesOut.filter (· ≠ line) }

/-- The place of a line in a core's arrays is freed of the groups that have left the core (R341). -/
def Dev.claim (d : Dev) (clk : Clock) (core line : Nat) : Dev :=
  d.groups.foldl (fun d kg =>
    match d.groups.find kg.1 with
    | none => d
    | some h => if h.core.isNone ∧ h.linesOn = some core ∧ !h.linesOut.contains line then d.lineOut clk h line else d) d

/-- Footprint lines take their places in a core's arrays, refilled where they lie in the slot (R89, R94). -/
def Dev.pinLines (d : Dev) (clk : Clock) (gid core : Nat) (pins : List Nat) : Dev :=
  pins.foldl (fun d line =>
    let d := d.claim clk core line
    match d.groups.find gid with
    | none => d
    | some g => if g.linesOut.contains line then (d.lineIn g line).getD d else d) d

/-- Lines of a group that hold anything: registers, flags, and the written lines of its memories. -/
def Group.usedLines (g : Group) : List Nat :=
  let of_ (base : Nat) (m : Memory) : List Nat := m.foldl (fun acc (c : Host.Cell) => addBlocks acc [base + c.1 / 256]) []
  List.range 33 ++ of_ lsBase g.arch.ls ++ of_ accBase g.arch.acc ++ of_ winBase g.arch.win

/-- A group that resumes on another core than it left finds its lines in its slot (R94): those that still lie in the arrays
of the old core are written out first; lines that hold nothing but zeros take no part (log 65). -/
def Dev.changeCore (d : Dev) (clk : Clock) (gid core : Nat) : Dev :=
  match d.groups.find gid with
  | none => d
  | some g =>
    if g.linesOn = some core then d
    else
      let d := ((g.usedLines ++ (List.range g.blocks).map (2048 + ·)).filter fun l => !g.linesOut.contains l).foldl (fun (d : Dev) line =>
        match d.groups.find gid with
        | none => d
        | some h => d.lineOut clk h line) d
      match d.groups.find gid with
      | none => d
      | some h => d.setGroup { h with linesOn := some core }

/-- Lines that lie in a slot take what an operation of the group has written to them since (R341, R342): the words that it has
changed, and no others, since what stands in the slot is all that the group holds of the rest (R335). -/
def Dev.pushLines (was d : Dev) (clk : Clock) : Dev :=
  d.groups.foldl (fun d kg =>
    match was.groups.find kg.1, d.groups.find kg.1 with
    | some g, some h =>
      (h.linesOut.filter fun l => g.linesOut.contains l && l < 2048).foldl (fun d line =>
        match d.groups.find kg.1 with
        | none => d
        | some h =>
          let same := { h with core := g.core, linesOn := g.linesOn }
          let v := g.lineValue (was.env clk g) line
          let w := same.lineValue (d.env clk h) line
          let mask := lineChange (fun i => nbits v (64 * i) 64 != nbits w (64 * i) 64) (fun i => h.lineMark line i != g.lineMark line i)
            fun i => h.lineMark line i || g.lineMark line i
          if mask = 0 then d else d.lineOut clk h line mask) d
    | _, _ => d) d

/-- On-chip blocks of a core's capo (R365, R178). -/
def capoBlocks : Nat := 256

/-- Blocks of snapshots that the capo of a core cannot hold go to their slots: those beyond its 256, and those of a group
that has left the core where the newcomer's blocks take their places (R341, R365). -/
def Dev.spillCapo (d : Dev) (clk : Clock) : Dev :=
  d.groups.foldl (fun d kg =>
    match d.groups.find kg.1 with
    | none => d
    | some g =>
      let taken : Nat := match g.core, g.linesOn with
        | none, some c => (match (d.core c).group with
          | none => 0
          | some k => ((d.groups.find k).map Group.blocks).getD 0)
        | _, _ => 0
      if g.blocks ≤ capoBlocks ∧ taken = 0 then d
      else
        (((List.range g.blocks).filter fun j => (capoBlocks ≤ j || j < taken) && !g.linesOut.contains (2048 + j)).foldl (fun d j =>
          match d.groups.find kg.1 with
          | none => d
          | some h => d.lineOut clk h (2048 + j)) d)) d

/-- The first block of a group's snapshot that holds an uncorrectable error of the capo or of the slot (R367), as a line. -/
def Dev.snapBad (d : Dev) (g : Group) : Option Nat :=
  ((List.range g.blocks).find? fun j => g.capoBad.any (fun w => w / 32 == j) || (g.linesOut.contains (2048 + j) &&
    (match d.slotLine g (2048 + j) with
      | none => true
      | some (_, bad) => (List.range 8).any fun s => bad s && !(List.range 4).any fun i => lineBad g.atSnap (256 * g.blockLine j + 32 * s + 8 * i)))).map
    (2048 + ·)

/-- What follows of a restore's reads: the translations with which it reads blocks back stay in the core's TLB (R193);
correctable errors of the capo are corrected (R369). -/
def Dev.keepSnap (d : Dev) (g : Group) : Dev :=
  let capo (u : UpsetUnit) : Bool := match u with
    | .capo k _ => k == g.gid
    | _ => false
  let d := d.repairAll fun t => capo t.unit
  ((List.range g.blocks).filter fun j => g.linesOut.contains (2048 + j)).foldl (fun d j => d.keepLine g (2048 + j)) d

/-- The snapshot as a restore finds it: blocks that lie in the slot are read back. -/
def Dev.readSnap (d : Dev) (g : Group) (s : Arch) : Arch :=
  ((List.range g.blocks).filter fun j => g.linesOut.contains (2048 + j)).foldl (fun (s : Arch) j =>
    match d.slotLine g (2048 + j) with
    | none => s
    | some (v, _) => if j = 32 then s else refillArch s (g.blockLine j) v fun _ => false) s

end Sys2Proof.Machine
end

