-- ==== Sys2Proof/Machine/Launch.lean ====
section
/-!
DEFINITION. Launches from their record to their completion (03_launching R67 to R77, 04_placing R86 to R94,
20_retirement R356 to R361): acceptance, time slices, record production, group start with its footprint, resumption,
exhausted slots, the abort group, the completion record.
-/

namespace Sys2Proof.Machine

/-! The launch record (R67, R68). -/

/-- The record at the head of a queue, read by physical address (R65). -/
def Dev.headRecord (d : Dev) (x : LQueue) : Nat := d.physRead (x.base.toNat + 128 * (x.head.toNat % 2 ^ x.log2n)) 128

def lrFirst (r : Nat) : Nat := nbits r 0 64
def lrCtrl (r : Nat) : Nat := nbits r 64 64
def lrSeed (r : Nat) : Nat := nbits r 128 64
def lrFoot (r : Nat) : Nat := nbits r 192 64
def lrAbort (r : Nat) : Nat := nbits r 256 64
def lrDone (r : Nat) : Nat := nbits r 320 64
def lrLogq (r : Nat) : Nat := nbits r 384 32
def lrPred (r : Nat) : Nat := nbits r 448 64
def lrGroups (r : Nat) : Nat := nbits (lrCtrl r) 24 24
def lrMode (r : Nat) : Nat := nbits (lrCtrl r) 9 2
def lrScope (r : Nat) : Nat := nbits (lrCtrl r) 11 3
def lrTeam4 (r : Nat) : Bool := nbit (lrCtrl r) 4
def lrIrq (r : Nat) : Bool := nbit (lrCtrl r) 15

/-- Fields of the record (R67, R68) and the agreement of mode and scope (R31). -/
def recordFieldsOk (r : Nat) : Bool :=
  let c := lrCtrl r
  nbits r 512 512 = 0 && nbits r 416 32 = 0 &&
  lrFirst r / 2 ^ 57 = 0 && lrAbort r / 2 ^ 57 = 0 && lrFoot r / 2 ^ 57 = 0 && lrDone r / 2 ^ 57 = 0 && lrPred r / 2 ^ 57 = 0 &&
  lrFirst r % 64 = 2 && (lrAbort r = 0 || lrAbort r % 64 = 2) && lrFoot r % 64 = 0 && lrDone r % 64 = 0 &&
  lrLogq r % 64 = 0 && (lrMode r = 0 || lrLogq r = 0) &&
  nbits c 48 16 = 0 && nbits c 16 8 = 0 && nbits c 5 4 = 0 && nbits c 0 4 = 3 &&
  1 ≤ lrGroups r && (!lrTeam4 r || lrGroups r % 4 = 0) && lrScope r ≤ 5 && lrMode r ≤ 2 &&
  ((lrMode r = 0) == (lrScope r ≠ 0))

/-- An address that meets its row of R393, translated. -/
def Dev.addressAt (d : Dev) (p : Nat) (lt : Latched) (va : Nat) (a : Acc) (types : List Nat) : Option Xlat :=
  match d.walkXlat p lt va a with
  | .error _ => none
  | .ok x => if types.contains x.typ then some x else none

/-- DONE meets its row. -/
def Dev.doneAt (d : Dev) (p : Nat) (lt : Latched) (r : Nat) : Option Xlat := d.addressAt p lt (lrDone r) .store [0, 1, 3]

/-- The footprint template that the record names, none where it has none: it obeys R29 and R30 and has no join count
(R69); no template where a check fails. Its zero field 127:100 is not among these checks (DESIGN CHOICE, log 76). -/
def Dev.footAt (d : Dev) (p : Nat) (lt : Latched) (r : Nat) : Option (Option Nat) :=
  if lrFoot r = 0 then some none
  else
    match d.addressAt p lt (lrFoot r) .load [1] with
    | none => none
    | some x =>
      let n := (d.readIn d.ms x 64).1
      if regionsOk (regionsOf n) ∧ nbits n 64 32 = 0 then some (some n) else none

/-- The translation of PRED, where the record names one. -/
def Dev.predAt (d : Dev) (p : Nat) (lt : Latched) (r : Nat) : Option (Option Xlat) :=
  if lrPred r = 0 then some none else (d.addressAt p lt (lrPred r) .load [0, 1, 3]).map some

/-- Validation of a head record (R69, R393): what the queue holds of a valid one. -/
def Dev.validRecord (d : Dev) (p : Nat) (lt : Latched) (r : Nat) : Option Held :=
  if recordFieldsOk r && (d.addressAt p lt (lrFirst r) .fetch [0]).isSome &&
      (lrAbort r = 0 || (d.addressAt p lt (lrAbort r) .fetch [0]).isSome) then
    match d.footAt p lt r, d.predAt p lt r, d.doneAt p lt r with
    | some f, some q, some x => some { record := r, done := some x, pred := q.map some, foot := f, awaits := none, status := none }
    | _, _, _ => none
  else none

/-- The addresses of a record that its validation translates. -/
def recordVas (r : Nat) : List Nat :=
  ((if recordFieldsOk r then [lrFirst r, lrAbort r, lrFoot r, lrPred r] else []).filter (· ≠ 0) ++ [lrDone r]).filter fun va => va / 2 ^ 57 = 0

/-- What validation of a record reads brings about (R376): walks, and the template. -/
def Dev.askedRecord (d : Dev) (p : Nat) (lt : Latched) (r : Nat) : Dev :=
  let d' := (recordVas r).foldl (fun (d : Dev) va => d.takeBackWalk lt va false) d
  match if recordFieldsOk r ∧ lrFoot r ≠ 0 then d.addressAt p lt (lrFoot r) .load [1] else none with
  | some x => d'.asked x 64
  | none => d'

/-- DONE translates (R69), whatever its permissions and type. -/
def Dev.doneTranslates (d : Dev) (p : Nat) (lt : Latched) (r : Nat) : Option Xlat :=
  if lrDone r / 2 ^ 57 ≠ 0 then none
  else
    match d.walk lt (lrDone r) with
    | none => none
    | some t => d.placed p t (lrDone r)

/-! The completion record (R360, R361). -/

/-- What a completion record holds. -/
structure Completion where
  status : Nat
  abrt : Bool
  groups : Nat
  field : Nat
  discard : Nat
  child : Nat
  rollb : Nat
  strand : Nat
  frets : Nat
  commits : Nat
  time : Nat
  deriving DecidableEq, Repr, Inhabited

def sat32 (n : Nat) : Nat := min n (2 ^ 32 - 1)

def Completion.word (c : Completion) : Nat :=
  c.status % 256 + (if c.abrt then 2 ^ 8 else 0) + 2 ^ 15 + c.groups % 2 ^ 24 * 2 ^ 16 + c.field % 2 ^ 16 * 2 ^ 40 +
  sat32 c.discard * 2 ^ 64 + sat32 c.child * 2 ^ 96 + sat32 c.rollb * 2 ^ 128 + sat32 c.strand * 2 ^ 160 +
  sat32 c.frets * 2 ^ 192 + sat32 c.commits * 2 ^ 224 + c.time % 2 ^ 64 * 2 ^ 256

def Completion.ofStatus (s : Nat) : Completion := ⟨s, false, 0, 0, 0, 0, 0, 0, 0, 0, 0⟩

/-- COMPLETION_RECORD_WRITE by a translation of DONE: bytes 8 to 63, then 0 to 7, then the interrupt (R361). A record at
an address on control space is not written (log 61). -/
def Dev.writeCompletion (d : Dev) (p c : Nat) (x : Xlat) (irq : Bool) (r : Completion) : Dev :=
  match (d.ctx p c).latched with
  | none => d
  | some lt =>
    let d := if x.typ = 2 then d
      else (d.writeX { x with pa := x.pa + 8 } lt.asid 56 (r.word / 2 ^ 64) (2 ^ 56 - 1)).writeX x lt.asid 8 (r.word % 2 ^ 64) (2 ^ 8 - 1)
    let vec := nbits (d.ctx p c).intv.toNat 0 11
    if irq ∧ vec ≠ 0 then d.interrupt vec else d

/-- A translation that the device holds, or, where `tlbinv` has removed it, one made by a new walk that meets the row of
R393 again (R193). -/
def Dev.orAgain (d : Dev) (p c va : Nat) (a : Acc) (x : Option Xlat) : Option Xlat :=
  match x, (d.ctx p c).latched with
  | some x, _ => some x
  | none, some lt => d.addressAt p lt va a [0, 1, 3]
  | none, none => none

/-- What a new walk for a translation that is no longer held brings about (R376). -/
def Dev.askedAgain (d : Dev) (p c va : Nat) (x : Option Xlat) : Dev :=
  match x, (d.ctx p c).latched with
  | none, some lt => if va / 2 ^ 57 = 0 then d.takeBackWalk lt va false else d
  | _, _ => d

/-- The translation of a launch's DONE. -/
def Dev.launchDone (d : Dev) (l : Launch) : Option Xlat := d.orAgain l.part l.ctx l.doneVa .store l.doneX

/-! Acceptance (R69 to R77). -/

/-- HEAD passes the record. -/
def Dev.advance (d : Dev) (p c q : Nat) : Dev :=
  let x := d.lqueue p c q
  (d.setQueue p c q { x with head := x.head + 1, held := none }).setCtx p c { d.ctx p c with lastQueue := q }

/-- A record rejected with a status and a code (R69, R71); the completion record is written where DONE translates. -/
def Dev.reject (d : Dev) (p c q r status code : Nat) (x : Option Xlat) : Dev :=
  let h := (d.lqueue p c q).head
  let d := (d.queueErr p c q code h).advance p c q
  match x with
  | some x => d.writeCompletion p c x (lrIrq r) (Completion.ofStatus status)
  | none => d

/-- PREDECESSOR_RESOLVE (R70): the final status, the launch it waits for, or none to be had. -/
inductive Pred where
  | waits (tree : Nat)
  | final (status : Nat)
  | unresolved
  deriving DecidableEq, Repr

/-- The incomplete launch of a context with a DONE that was accepted last. -/
def Dev.lastWith (d : Dev) (p c va : Nat) : Option Nat := (((d.launchesOf p c).filter fun kl => kl.2.doneVa = va).getLast?).map (·.1)

def Dev.resolvePred (d : Dev) (p c : Nat) (h : Held) : Pred :=
  match h.pred, h.status, h.awaits with
  | none, _, _ => .final 0
  | some _, some st, _ => .final st
  | some _, none, some tree => .waits tree
  | some x, none, none =>
    match d.lastWith p c (lrPred h.record) with
    | some tree => .waits tree
    | none =>
      match d.orAgain p c (lrPred h.record) .load x with
      | none => .unresolved
      | some x =>
        let n := (d.readIn d.ms x 64).1
        if nbit n 15 then .final (nbits n 0 8) else .unresolved

/-- What the resolution of a predecessor reads brings about (R376): the completion record at PRED. -/
def Dev.askedPred (d : Dev) (p c : Nat) (h : Held) : Dev :=
  match h.pred, h.status, h.awaits with
  | some x, none, none =>
    let va := lrPred h.record
    if (d.lastWith p c va).isSome then d
    else match d.orAgain p c va .load x with
      | none => d.askedAgain p c va x
      | some y => (d.askedAgain p c va x).asked y 64
  | _, _, _ => d

def ceilingOf (scope : Nat) : Nat := if scope = 0 then 4 else scope

/-- Fret domains that a launch can have on the package (R71): one for device and gang scope, the dies and clusters of the
partition, retired or not, or the cells of its list. -/
def Dev.domKeys (d : Dev) (p scope : Nat) : List Nat :=
  let lv := ceilingOf scope
  let clusters := (List.range 64).filter fun k => nbit (d.part p).pclus.toNat k
  if 4 ≤ lv then [domKey lv 0]
  else if lv = 1 then (d.cellList p).map (domKey 1)
  else distinct (clusters.map fun k => domKey lv (16 * k))

/-- The LAUNCH field (R77): none means the launch waits at its queue head. -/
def Dev.ticketField (d : Dev) (p c scope : Nat) : Option Nat :=
  if scope = 0 then some 0
  else
    let seq := (d.ctx p c).seqs.toList.getD (scope - 1) 0
    if (d.launchesOf p c).any (fun kl => kl.2.scope = scope && !kl.2.torn) then
      (if seq < 65535 then some (seq + 1) else none)
    else some 1

/-- The first group index of a position in the cell list (R82, R384). -/
def firstGroup (team4 gangScope : Bool) (gang pkg i : Nat) : Nat :=
  let k := if gangScope then i * gang + pkg else i
  if team4 then 4 * k else k

/-- The members of the gang's barrier object that are not on this package (R315): on package 0 the other packages that have
groups; elsewhere the object is on package 0, and one member stands here for its flips (R316; log 74). -/
def Launch.openGang (l : Launch) (gang pkg : Nat) : Launch :=
  let units := if l.team4 then (l.groups + 3) / 4 else l.groups
  let o := l.bar (domKey 5 0)
  l.setBar (domKey 5 0) { o with expect := o.expect + if pkg = 0 then min units gang - min units 1 else 1 }

/-- LAUNCH_ACCEPT (R72): the quota, the seed, the timing mode, the LAUNCH field; HEAD advances; the members join. -/
def Dev.accept (d : Dev) (clk : Clock) (p c q : Nat) (h : Held) (field quota : Nat) : Dev :=
  let r := h.record
  let d := d.askedPhys (d.entryPa p c) 64
  let e := d.runEntry p c
  let scope := lrScope r
  let mode : Mode := match lrMode r with
    | 0 => .det
    | 1 => .free
    | _ => .ilv
  let foot : Option Rec := h.foot.map fun n =>
    { addr := none, launch := d.nextTree, ticket := 0, code := 0, frame := BitVec.ofNat 51 (nbits n 179 51), prio := nbits n 96 2,
      regions := regionsOf n, team4 := lrTeam4 r, ready := clk.fclk, order := 0, home := 0, late := false, mates := 1, ownView := none }
  let team4 := lrTeam4 r
  let cells := d.cellList p
  let starts := (List.range cells.length).map (firstGroup team4 (scope = 5) d.gangSize d.pkg)
  let l : Launch :=
    { part := p, ctx := c, queue := q, firstpc := BitVec.ofNat 64 (lrFirst r), foot := foot, abortpc := BitVec.ofNat 64 (lrAbort r),
      doneVa := lrDone r, doneX := h.done, logq := lrLogq r, groups := lrGroups r, irq := lrIrq r, team4 := team4, scope := scope, mode := mode,
      seed := BitVec.ofNat 64 (nbits e 128 64) ^^^ BitVec.ofNat 64 (lrSeed r), dit := nbit (lrCtrl r) 14 || nbit e 398,
      field := BitVec.ofNat 16 field, accepted := clk.fclk, cells := cells.zip starts, quota := quota, raised := [],
      raisedAt := none, torn := false,
      doms := (d.domKeys p scope).foldl (fun t k => t.put k (Dom.reset (if mode = .det then some d.ms else none))) [],
      bars := [], armed := [], live := 0, groupsDone := 0, childDone := 0, discard := 0, strand := 0, rollb := 0, frets := 0,
      commits := 0, abortGroup := .notStarted, grants := [], digest := Config.digest r,
      lastView := if mode = .det then some d.ms else none, posViews := [], finalDone := false }
  let l := l.cells.foldl (fun l cs =>
    let n := remaining l d.gangSize cs.2
    if n = 0 then l
    else
      let l1 := l.addMember cs.1
      let k := domKey 1 cs.1
      { l1.setBar k { l1.bar k with expect := (l1.bar k).expect + (n - 1) } with live := l.live + n }) l
  let l := if scope = 5 ∧ d.inGang then l.openGang d.gangSize d.pkg else l
  let x := d.ctx p c
  let d := d.setCtx p c { x with poolUsed := x.poolUsed + quota,
                                 seqs := if scope = 0 then x.seqs else x.seqs.setIfInBounds (scope - 1) field }
  ({ d.setLaunch d.nextTree l with nextTree := d.nextTree + 1 }).advance p c q

/-- The gang's part of acceptance (R385): package 0 sends the field and the digest; another package takes the field of
the grant that stands for the record's position, or rejects a record whose digest differs. -/
inductive GangTurn where
  | wait
  | take (field : Nat)
  | mismatch
  deriving DecidableEq, Repr

def Dev.gangTurn (d : Dev) (p c q r field : Nat) : GangTurn :=
  if lrScope r ≠ 5 ∨ !d.inGang ∨ d.pkg = 0 then .take field
  else
    match d.grants.find? (fun g => g.1 = p && g.2.1 = c && g.2.2.1 = q && g.2.2.2.1 = (d.lqueue p c q).head.toNat) with
    | none => .wait
    | some g => if g.2.2.2.2.2 = Config.digest r then .take g.2.2.2.2.1 else .mismatch

/-- What an acceptance round makes of a head record: it stays at the head, or the queue has passed it. -/
inductive HeadTurn where
  | waits (d : Dev)
  | passed (d : Dev)
  deriving DecidableEq, Repr

def Dev.holdHead (d : Dev) (p c q : Nat) (h : Held) : Dev := d.setQueue p c q { d.lqueue p c q with held := some h }

/-- DONE of a head record, as the device holds it or makes it again. -/
def Dev.heldDone (d : Dev) (p c : Nat) (h : Held) : Option Xlat := d.orAgain p c (lrDone h.record) .store h.done

/-- A launch that ends before it runs: HEAD advances and the completion record has this status. -/
def Dev.endHead (d : Dev) (p c q : Nat) (h : Held) (status : Nat) : Dev :=
  match d.heldDone p c h with
  | some x => (d.advance p c q).writeCompletion p c x (lrIrq h.record) (Completion.ofStatus status)
  | none => d.advance p c q

/-- A grant that has been used, or answered by a rejection, is gone (R385). -/
def Dev.dropGrant (d : Dev) (p c q pos : Nat) : Dev :=
  { d with grants := d.grants.filter fun g => !(g.1 = p && g.2.1 = c && g.2.2.1 = q && g.2.2.2.1 = pos) }

/-- A valid head record whose predecessor has ended with status DONE: its log pool (R71), its LAUNCH field (R77), the gang's
part (R385), and acceptance (R72). -/
def Dev.admitHead (d : Dev) (clk : Clock) (p c q : Nat) (lt : Latched) (h : Held) : HeadTurn :=
  let r := h.record
  let x := d.lqueue p c q
  let quota := lrLogq r * (d.domKeys p (lrScope r)).length
  if lt.poolsz < quota then .passed (d.reject p c q r 3 2 (d.heldDone p c h))
  else if lt.poolsz < (d.ctx p c).poolUsed + quota then .waits (d.holdHead p c q h)
  else
    match d.ticketField p c (lrScope r) with
    | none => .waits (d.holdHead p c q h)
    | some f =>
      match d.gangTurn p c q r f with
      | .wait => .waits (d.holdHead p c q h)
      | .mismatch =>
        let d' := (d.reject p c q r 2 1 (d.heldDone p c h)).dropGrant p c q x.head.toNat
        .passed { d' with out := d'.out ++ d.otherPkgs.map fun k => .mismatch k p c q x.head.toNat }
      | .take f =>
        let d' := (d.accept clk p c q h f quota).dropGrant p c q x.head.toNat
        .passed (if lrScope r = 5 ∧ d.inGang ∧ d.pkg = 0 then
          { d' with out := d'.out ++ d.otherPkgs.map fun k => .grant k p c q x.head.toNat f (Config.digest r) } else d')

/-- A valid head record (R70). -/
def Dev.heldTurn (d : Dev) (clk : Clock) (p c q : Nat) (lt : Latched) (h : Held) : HeadTurn :=
  let d := (d.askedPred p c h).askedAgain p c (lrDone h.record) h.done
  match d.resolvePred p c h with
  | .waits tree => .waits (d.holdHead p c q { h with awaits := some tree })
  | .unresolved => .passed ((d.queueErr p c q 7 (d.lqueue p c q).head).endHead p c q h 1)
  | .final st => if st ≠ 0 then .passed (d.endHead p c q h 1) else d.admitHead clk p c q lt { h with status := some 0 }

/-- The head record of a running queue: read and validated once, when it is first taken (R69, R393; log 61). -/
def Dev.tryHead (d : Dev) (clk : Clock) (p c q : Nat) (lt : Latched) : HeadTurn :=
  let x := d.lqueue p c q
  match x.held with
  | some h => d.heldTurn clk p c q lt h
  | none =>
    let d := d.askedPhys (x.base.toNat + 128 * (x.head.toNat % 2 ^ x.log2n)) 128
    let r := d.headRecord x
    let d := d.askedRecord p lt r
    match d.validRecord p lt r with
    | some h => d.heldTurn clk p c q lt h
    | none =>
      match d.doneTranslates p lt r with
      | some y => .passed (d.reject p c q r 2 1 (some y))
      | none => .passed (d.reject p c q r 2 3 none)

/-- The queues of a context in the cyclic order of the round (R73): the first head record that does not wait. -/
def Dev.tryQueues (d : Dev) (clk : Clock) (p c : Nat) (lt : Latched) : List Nat → Dev
  | [] => d
  | q :: qs =>
    let x := d.lqueue p c q
    if x.state = 1 ∧ x.head ≠ x.tail then
      match d.tryHead clk p c q lt with
      | .passed d' => d'
      | .waits d' => Dev.tryQueues d' clk p c lt qs
    else Dev.tryQueues d clk p c lt qs

/-- ACCEPTANCE_ROUND (R73). -/
def Dev.acceptRound (d : Dev) (clk : Clock) (p : Nat) : Dev :=
  (List.range 64).foldl (fun d c =>
    let x := d.ctx p c
    match x.latched with
    | none => d
    | some lt => if x.retiring then d else d.tryQueues clk p c lt ((List.range 8).map fun i => (x.lastQueue + 1 + i) % 8)) d

def execAcceptanceRound (p : Nat) (s : State) := s.event fun clk d => if p < 16 then some (d.acceptRound clk p) else none

/-! Time slices (R63, R341, R343). -/

/-- Jobs or commands of a group are at work. -/
def Group.busy (g : Group) : Bool :=
  !g.arch.copyIn.isEmpty || g.arch.copyJob.isSome || !g.arch.mu.queue.isEmpty || g.arch.indPending ≠ 0

/-- The abort group is to run and has not started (R358). -/
def Launch.abortDue (l : Launch) : Bool :=
  l.raisedAt.isSome && !l.torn && l.abortpc != 0 && l.abortGroup == .notStarted && l.live == 0

/-- A context has ready work: groups to produce or to run, records in its pools or overflow lists, an abort group that is
due, jobs or commands under way (which work counts: DESIGN CHOICE, log 66). -/
def Dev.readyWork (d : Dev) (p c : Nat) : Bool :=
  (d.launchesOf p c).any (fun kl => kl.2.cells.any (fun cs => cs.2 < kl.2.groups) || kl.2.abortDue) ||
  (d.pools ++ d.overflow).any (fun kr => kr.2.any fun r => match d.launches.find r.launch with
    | some l => l.part == p && l.ctx == c
    | none => false) ||
  d.groups.any (fun kg => (match d.launchOf kg.2 with
      | some l => l.part == p && l.ctx == c
      | none => false) &&
    (kg.2.status == .running || kg.2.status == .fetching || kg.2.status == .away || kg.2.busy ||
      (kg.2.status == .parked && kg.2.readyAt.isSome)))

/-- The entry may run: valid, not retiring, with ready work. -/
def Dev.runnable (d : Dev) (p c : Nat) : Bool :=
  let x := d.ctx p c
  x.latched.isSome && !x.retiring && d.readyWork p c

/-- The fclk at which a waiting entry becomes due (R63): ready work for LIMIT µs. -/
def Dev.dueAt (d : Dev) (p c : Nat) : Option Nat :=
  match d.runnable p c, (d.ctx p c).readySince with
  | true, some t => if entryLimit (d.runEntry p c) = 0 then none else some (t + 1200 * entryLimit (d.runEntry p c))
  | _, _ => none

def Dev.due (d : Dev) (now p c : Nat) : Bool := (d.dueAt p c).any (· ≤ now)

/-- A group that was being started is abandoned: its record returns to its pool with its ready time (R89), to start with
`mates` records of its team; an abort group starts again from its launch (R342, R358). -/
def Dev.abandonOne (d : Dev) (mates : Nat) (g : Group) : Dev :=
  let d := match g.core with
    | none => d
    | some c => d.freeCore c
  let d := { d with groups := d.groups.del g.gid }
  if g.isAbort then
    match d.launches.find g.recd.launch with
    | none => d
    | some l => d.setLaunch g.recd.launch { l with abortGroup := .notStarted }
  else { d with overflow := d.overflow.modify (clusterOfCell g.recd.home) [] (· ++ [{ g.recd with mates := mates }]) }.moveIn (clusterOfCell g.recd.home) 1

/-- A start is abandoned (R89): in a team that of every member whose footprint is not in place. -/
def Dev.abandonStart (d : Dev) (g : Group) : Dev :=
  let team := (d.team g).filter fun h => h.status == .fetching
  if d.groups.find g.gid = none then d else team.foldl (fun d h => d.abandonOne team.length h) d

/-- The context of the group that an indirect command belongs to. -/
def Dev.jobCtx (d : Dev) (c : IndCmd) : Option Nat :=
  match d.groups.find c.gid with
  | none => none
  | some g => (d.launchOf g).map fun l => ctxKey l.part l.ctx

/-- The jobs of a context in an indirect engine are set aside, in their order (R343); a merge or read pass restarts
(R229, R234); one in its apply pass goes on to its end. -/
def Dev.setAside (d : Dev) (key : Nat) (e : Indirect) : Indirect :=
  let mine (c : IndCmd) : Bool := d.jobCtx c == some key
  let job := (e.job.filter fun j => mine j.cmd && !j.applying).map IndJob.restart
  let queue := e.queue.filter mine
  if job.isNone ∧ queue.isEmpty then e
  else
    let held : Option IndJob × List IndCmd := ((e.aside.find? (fun a => a.1 = key)).map (·.2)).getD (none, [])
    { queue := e.queue.filter fun c => !mine c, job := e.job.filter fun j => !mine j.cmd || j.applying,
      aside := (key, held.1.orElse fun _ => job, held.2 ++ queue) ::
        ((if held.1.isSome then job else none).map fun j => (groupKey j.cmd.gid, some j, [])).toList ++ e.aside.filter fun a => a.1 != key }

/-- A group whose retirement is provisional leaves a core (R341, R356). -/
def Dev.leaveRetired (d : Dev) (core : Nat) : Dev :=
  let off (g : Group) : Group := if g.core = some core ∧ g.status = .provisional then { g with core := none } else g
  let d := d.freeCore core
  { d with groups := d.groups.map fun (k, g) => (k, off g) }

/-- The running context leaves the partition's cores (R341, R343): groups stop at an instruction boundary, records move
to the overflow lists with their ready times, jobs of the indirect engines are set aside. -/
def Dev.leaveSlice (d : Dev) (now p c : Nat) : Dev :=
  let mine (g : Group) : Bool := match d.launchOf g with
    | some l => l.part == p && l.ctx == c
    | none => false
  let gs := (d.groups.map (·.2)).filter fun g => mine g && (g.status == .running || g.status == .fetching)
  let d := gs.foldl (fun d g =>
    if g.status = .fetching then d.abandonStart g
    else
      let d := d.leaveCore g .away
      match d.groups.find g.gid with
      | none => d
      | some h => d.setGroup { h with readyAt := some now }) d
  let d := (d.groups.map (·.2)).foldl (fun d g => match g.core with
    | some k => if mine g && g.status == .provisional then d.leaveRetired k else d
    | none => d) d
  let clusters := (List.range 64).filter fun k => nbit (d.part p).pclus.toNat k
  let d := clusters.foldl (fun d k =>
    { d with overflow := d.overflow.put k (d.overflow.getD k [] ++ d.pool k), pools := d.pools.put k [] }) d
  let d := { d with indirect := d.indirect.map fun (k, e) => (k, if clusters.contains k then d.setAside (ctxKey p c) e else e) }
  d.setPart p { d.part p with running := none }

/-- A context takes the partition for a slice, as a due entry or by the walk: its records move in, its jobs of the indirect
engines run again first. -/
def Dev.enterSlice (d : Dev) (now p c : Nat) (due : Bool) : Dev :=
  let clusters := (List.range 64).filter fun k => nbit (d.part p).pclus.toNat k
  let d := d.askedPhys (d.entryPa p c) 64
  let d := d.setPart p { d.part p with running := some c, sliceEnd := now + 1200 * entrySlice (d.runEntry p c), dueRun := if due then some now else none }
  let back (e : Indirect) : Indirect :=
    match e.aside.find? (fun a => a.1 = ctxKey p c) with
    | none => e
    | some (_, j, q) =>
      let left := e.aside.filter fun a => a.1 ≠ ctxKey p c
      match e.job with
      | none => { queue := q ++ e.queue, job := j, aside := left }
      | some _ => { queue := q ++ e.queue, job := e.job, aside := (j.map fun j => (groupKey j.cmd.gid, some j, [])).toList ++ left }
  let d := { d with indirect := d.indirect.map fun (k, e) => (k, if clusters.contains k then back e else e) }
  let d := clusters.foldl (fun d k => d.moveIn k 960) d
  d.setCtx p c { d.ctx p c with readySince := none }

/-- The next entry of the circular walk with ready work (R63). -/
def Dev.nextEntry (d : Dev) (p : Nat) : Option Nat :=
  (((List.range 64).map fun i => ((d.part p).last + 1 + i) % 64).filter (d.runnable p)).head?

/-- The lowest due entry that waits. -/
def Dev.firstDue (d : Dev) (now p : Nat) : Option Nat :=
  ((List.range 64).filter fun c => (d.part p).running ≠ some c && d.due now p c).head?

/-- Another entry than the running one has ready work. -/
def Dev.othersRunnable (d : Dev) (p c : Nat) : Bool := (List.range 64).any fun n => n ≠ c && d.runnable p n

/-- SLICE_END (R63): the slice has expired or its context has no ready work; the walk moves on, or, where no other entry has
ready work, the slice is renewed without a switch. -/
def Dev.endSlice (d : Dev) (now p : Nat) : Option Dev :=
  let pt := d.part p
  let start (d : Dev) (c : Nat) (walk : Bool) : Dev :=
    let d := if walk then d.setPart p { d.part p with last := c } else d
    d.enterSlice now p c !walk
  let leave (d : Dev) : Dev := match pt.running with
    | none => d
    | some c => d.leaveSlice now p c
  let isOver := match pt.running with
    | none => true
    | some c => pt.sliceEnd ≤ now || !d.runnable p c
  if !isOver then none
  else
    match d.firstDue now p with
    | some c => some (start (leave d) c false)
    | none =>
      match d.nextEntry p, pt.running with
      | none, none => none
      | none, some c => some (d.leaveSlice now p c)
      | some n, some c =>
        if n = c ∧ !d.othersRunnable p c then
          let d := d.askedPhys (d.entryPa p c) 64
          some (d.setPart p { pt with last := c, dueRun := none, sliceEnd := now + 1200 * entrySlice (d.runEntry p c) })
        else some (start (leave d) n true)
      | some n, none => some (start d n true)

def execSliceEnd (p : Nat) (s : State) := s.event fun clk d => if p < 16 then d.endSlice clk.fclk p else none

/-- The running slice may be cut short by an entry that became due at a moment: the slice of a due entry only by one that
became due after its begin, since of several due entries the lower goes first (R63; DEDUCED, log 80). -/
def Part.mayCut (p : Part) (due : Nat) : Bool := p.running.isNone || (match p.dueRun with
  | none => true
  | some t => t < due)

/-- The lowest due entry that may cut the running slice short. -/
def Dev.firstCut (d : Dev) (now p : Nat) : Option Nat :=
  ((List.range 64).filter fun c => (d.part p).running ≠ some c && d.due now p c && (d.dueAt p c).any (d.part p).mayCut).head?

/-- ENTRY_DUE (R63): the lowest due entry cuts the running slice short and runs for a full slice. -/
def execEntryDue (p c : Nat) (s : State) := s.event fun clk d =>
  if p < 16 ∧ d.firstCut clk.fclk p = some c then
    let d := match (d.part p).running with
      | none => d
      | some r => d.leaveSlice clk.fclk p r
    some (d.enterSlice clk.fclk p c true)
  else none

/-! Records and groups. -/

/-- The next group index after one at a position (R82, R86). -/
def nextGroup (l : Launch) (gang grp : Nat) : Nat :=
  let step := l.cells.length * (if l.scope = 5 then gang else 1)
  if l.team4 then (if grp % 4 < 3 then grp + 1 else grp - 3 + 4 * step) else grp + step

/-- The launch-derived record of a group (R32, R86). -/
def launchRec (tree : Nat) (l : Launch) (home grp : Nat) : Rec :=
  let tk := BitVec.ofNat 64 (l.field.toNat * 2 ^ 48 + grp * 2 ^ 24)
  let t : Rec := l.foot.getD
    { addr := none, launch := tree, ticket := 0, code := 0, frame := 0, prio := 2, regions := [], team4 := l.team4, ready := 0,
      order := 0, home := 0, late := false, mates := 1, ownView := none }
  { t with mates := if l.team4 then 4 else 1, launch := tree, ticket := tk, code := BitVec.ofNat 51 (l.firstpc.toNat / 64), team4 := l.team4, ready := l.accepted,
           home := home, regions := t.regions.map fun r => { r with addr := r.addr + grp * r.str * 256 } }

/-- The lowest group index not yet produced among positions whose home lies in a cluster. -/
def nextPosition (l : Launch) (cl : Nat) : Option (Nat × Nat × Nat) :=
  ((List.range l.cells.length).filterMap fun i =>
    match l.cells[i]? with
    | some (home, g) => if clusterOfCell home = cl ∧ g < l.groups then some (i, home, g) else none
    | none => none).foldl (fun best x => match best with
      | none => some x
      | some b => if x.2.2 < b.2.2 then some x else some b) none

/-- RECORD_PRODUCE (R86, R88); of several launches of the context the one with the lowest TREE comes first (R86 names no
order among them: DESIGN CHOICE, log 67). -/
def execRecordProduce (cluster : Nat) (s : State) := s.event fun _ d =>
  if (d.pool cluster).length + 64 < 1024 then
    match (d.launches.filterMap fun kl => if d.runs kl.1 ∧ !kl.2.torn then
        (nextPosition kl.2 cluster).map fun x => (kl.1, kl.2, x) else none).head? with
    | none => none
    | some (tree, l, i, home, grp) =>
      let l' := { l with cells := l.cells.set i (home, nextGroup l d.gangSize grp) }
      some ((d.setLaunch tree l').enterPool { launchRec tree l home grp with ownView := l.posViews.find i } false)
  else none

/-- STRICT of the context's entry, read at each use (R61, R89). -/
def Dev.entryStrict (d : Dev) (p c : Nat) : Bool := nbit (d.runEntry p c) 397

/-- The device's choice among free slots (R340, log 13). -/
def Dev.chooseSlot (d : Dev) (p c : Nat) : Option Nat :=
  match (d.ctx p c).latched with
  | none => none
  | some lt =>
    let used := d.usedSlots p c
    let free := (List.range lt.nslot).filter fun i => !used.contains i
    free[Config.slotChoice d.nfree % free.length]?

/-- A new group on a core (R89): its footprint fetch begins. -/
def newGroup (gid : Nat) (r : Rec) (core slot : Nat) (strict : Bool) : Group :=
  let pc := BitVec.ofNat 64 (r.code.toNat * 64 + 2)
  { gid := gid, recd := r, core := some core, slot := slot, status := .fetching, stall := .none, readyAt := none, fetchPos := 0,
    fetchFault := none, pinned := [], arch := Arch.reset pc (BitVec.ofNat 64 (r.frame.toNat * 64)) strict, snap := none, snapReleased := none, capo := [],
    capoBad := [], linesOut := [], linesOn := some core, flagSeen := false, flagNow := (0, []), ringAt := 0, arrived := none, released := none, suspended := none, consort := .none, ganged := false, link := pc,
    notBefore := 0, nfree := 0, isAbort := false }

/-- A core's caches hold nothing of an earlier group's code, data and scales (R120, R182, R260). -/
def Dev.takeCore (d : Dev) (core gid : Nat) : Dev :=
  let d := (d.leaveRetired core).dropCaches (some core)
  { d with cores := d.cores.modify core Core.reset fun k => { k with group := some gid } }

def Dev.startRec (d : Dev) (r : Rec) (core : Nat) : Dev :=
  match d.launches.find r.launch with
  | none => d
  | some l =>
    match d.chooseSlot l.part l.ctx with
    | none => d
    | some slot =>
      let g := newGroup d.nextGid r core slot (d.entryStrict l.part l.ctx)
      let d := (d.takeRec r).setGroup g
      { d with nextGid := d.nextGid + 1, nfree := d.nfree + 1 }.takeCore core g.gid

/-- A group is back on a core (R94): its footprint lines are in place and pinned again. -/
def Dev.resumeOn (d : Dev) (clk : Clock) (g : Group) (core : Nat) : Dev :=
  let pins := g.recd.regions.flatMap fun r => (List.range r.nb).map fun i => lsBase + r.lso + i
  let d := (d.changeCore clk g.gid core).pinLines clk g.gid core pins
  match d.groups.find g.gid with
  | none => d
  | some g =>
    (d.setGroup { g with core := some core, status := .running, stall := .none, readyAt := none, pinned := pins,
                         notBefore := clk.aclk + 1 }).takeCore core g.gid

/-- A team takes its positions together (R90): its records in the pool start, and its members off their cores resume. -/
def Dev.bringTeam (d : Dev) (clk : Clock) (r : Rec) : Dev :=
  let recs := d.teamPool r
  let off := (d.teamGroups r).filter (·.offReady)
  off.foldl (fun d h => d.resumeOn clk h (teamCore h)) (recs.foldl (fun d q => d.startRec q q.position) d)

/-- GROUP_START (R87, R89, R90): the first record in the order starts, a team as a whole; a record of an aborted launch is
discarded at dispatch (R357). -/
def execGroupStart (cell core : Nat) (s : State) := s.event fun clk d =>
  let free := d.freeCores cell
  if free.contains core then
    match d.bestCand cell free with
    | some (.record r) =>
      match d.launches.find r.launch with
      | none => none
      | some l =>
        if l.abortIn (clusterOfCell cell) then
          some ((d.teamRecs r).foldl (fun d q => (d.takeRec q).discardRec clk.fclk q) d)
        else if r.team4 then some (d.bringTeam clk r)
        else some (d.startRec r core)
    | _ => none
  else none

/-- The pieces of a footprint, 4 KiB each, in ascending address within a region: address, local offset, bytes (R74, R89). -/
def piecesOf (rs : List Region) : List (Nat × Nat × Nat) :=
  rs.flatMap fun r =>
    let n := r.nb * 256
    (List.range ((n + 4095) / 4096)).map fun i => (r.addr + 4096 * i, r.lso * 256 + 4096 * i, min 4096 (n - 4096 * i))

/-- Words of a line that come from poisoned units are marked (R89, R362). -/
def markPoison (ps : List Nat) (ls : Nat) (bad : Nat → Bool) : Nat → List Nat
  | 0 => ps
  | n + 1 =>
    let ps := markPoison ps ls bad n
    if bad n ∧ !ps.contains (ls / 8 + n) then (ls / 8 + n) :: ps else ps

/-- A fault of the footprint fetch: the one with the lowest address is kept (R89, R329). -/
def Group.noteFault (g : Group) (cause va : Nat) : Group :=
  match g.fetchFault with
  | some (_, a) => if a ≤ va then g else { g with fetchFault := some (cause, va) }
  | none => { g with fetchFault := some (cause, va) }

/-- 256 bytes of a footprint copied into the local store; an uncached page takes no such access (R194; DEDUCED, log 68). -/
def Dev.fetchLine (d : Dev) (p : Nat) (lt : Latched) (g : Group) (va ls : Nat) : Group :=
  match d.xlatOn g.core p lt va .load with
  | .error c => g.noteFault c va
  | .ok x =>
    if x.typ = 2 then g.noteFault cACCESS va else
    let ms := d.viewOf g
    let v := (d.readIn ms x 256).1
    let g := g.lsWrite ls 256 v (2 ^ 256 - 1)
    let bad (i : Nat) : Bool := !d.reachable x.pa || d.badAt ms x.place (x.pa + 8 * i)
    { g with arch := { g.arch with lsPoison := markPoison g.arch.lsPoison ls bad 32 },
             pinned := if g.pinned.contains (lsBase + ls / 256) then g.pinned else (lsBase + ls / 256) :: g.pinned }

/-- One piece. R89 copies every region, and a region of which an address fails does not stop placement: the rest of such a
region is copied too, as far as it translates (DESIGN CHOICE, log 86). -/
def Dev.fetchPiece (d : Dev) (p : Nat) (lt : Latched) (g : Group) (va ls : Nat) : Nat → Group
  | 0 => g
  | n + 1 =>
    let g := d.fetchLine p lt g va ls
    Dev.fetchPiece d p lt g (va + 256) (ls + 256) n

/-- What the reads of a fetch bring about (R303, R369, R376). -/
def Dev.takeBack (d : Dev) (core : Option Nat) (p : Nat) (lt : Latched) (va n : Nat) : Dev :=
  (List.range n).foldl (fun (d : Dev) i => match d.xlatOn core p lt (va + 256 * i) .load with
    | .ok x => if x.typ = 2 then d else d.asked x 256
    | .error _ => d) d

/-- The head of an interleave launch's grants is this group (R74). -/
def Launch.granted (l : Launch) (gid : Nat) : Bool := l.mode ≠ .ilv || l.grants.head? = some gid

/-- The access granted has completed. -/
def Dev.spendGrant (d : Dev) (tree gid : Nat) : Dev :=
  match d.launches.find tree with
  | none => d
  | some l => if l.mode = .ilv ∧ l.grants.head? = some gid then d.setLaunch tree { l with grants := l.grants.drop 1 } else d

/-- The routine starts (R89 steps 3 and 4): ARMED is cleared in the step that marks the record running. -/
def Dev.startRoutine (d : Dev) (clk : Clock) (g : Group) : Dev :=
  let d := match g.recd.addr with
    | none => d
    | some (_, x) => { d.setArmed x false with shadow := d.shadow.put (granKey 0 x.pa) true }
  let g := { g with status := .running, capo := [], notBefore := clk.aclk + 1 }
  let d := d.setGroup g
  match g.fetchFault with
  | none => d
  | some (c, va) => d.takeTrap clk g c (BitVec.ofNat 64 va) g.arch.pc false false

/-- FOOTPRINT_FETCH_COMPLETE (R89): the next piece is copied, or, with every region in place, the routine starts. -/
def execFootprintFetchComplete (gid : Nat) (s : State) := s.event fun clk d =>
  match d.groups.find gid with
  | none => none
  | some g =>
    if g.status ≠ .fetching then none
    else
      match d.launchOf g with
      | none => none
      | some l =>
        match (piecesOf g.recd.regions)[g.fetchPos]?, (d.ctx l.part l.ctx).latched with
        | none, _ => some (d.startRoutine clk g)
        | some (va, ls, n), some lt =>
          if l.granted gid then
            let core := g.core.getD 0
            let d := d.pinLines clk gid core (blocksOf lsBase ls n)
            match d.groups.find gid with
            | none => some d
            | some g =>
              let g := d.fetchPiece l.part lt g va ls (n / 256)
              let d := (d.setGroup { g with fetchPos := g.fetchPos + 1 }).spendGrant g.recd.launch gid
              some ((d.takeBack g.core l.part lt va (n / 256)).keepOn g.core lt (pagesOf [va, va + (n - 1)]))
          else none
        | some _, none => none

/-- GROUP_RESUME (R87, R90, R94): the first in the order is a group off its core. -/
def execGroupResume (gid core : Nat) (s : State) := s.event fun clk d =>
  let cell := cellOf core
  let free := d.freeCores cell
  match d.groups.find gid with
  | none => none
  | some g =>
    if free.contains core ∧ g.recd.home = cell then
      match d.bestCand cell free with
      | some (.group k _) =>
        if g.recd.team4 then
          if (d.team g).any (fun h => h.gid = k) then some (d.bringTeam clk g.recd) else none
        else if k = gid then some (d.resumeOn clk g core) else none
      | _ => none
    else none

/-- SLOTS_EXHAUSTED (R340): a ready record with a free core waits while parked or suspended groups hold every slot; a
TYPE 6 entry, and its launch is ended as R79 states. -/
def execSlotsExhausted (p c : Nat) (s : State) := s.event fun _ d =>
  let mine := (d.groups.map (·.2)).filter fun g => match d.launchOf g with
    | some l => l.part = p ∧ l.ctx = c
    | none => false
  let waiting := (d.pools.flatMap (·.2)).filter fun r => d.runs r.launch && !(d.freeCores r.home).isEmpty &&
    (match d.launches.find r.launch with
      | some l => l.part == p && l.ctx == c
      | none => false)
  if (d.part p).running = some c ∧ d.freeSlotCount p c = 0 ∧ mine.all (fun g => g.status = .parked ∨ g.status = .suspended) then
    match firstBy Rec.key waiting with
    | none => none
    | some r => some ((d.faultEntry p c 0 0 r.ticket 0 6 0 0).1.tearLaunch r.launch)
  else none

/-! Abort and completion. -/

/-- Retirements of an aborted launch that were provisional become final: no commit follows (R357). -/
def Dev.settleRetired (d : Dev) (tree : Nat) : Dev :=
  ((d.groups.map (·.2)).filter fun g => g.recd.launch = tree ∧ g.status = .provisional).foldl (fun d g => d.removeGroup g) d

def Launch.aborted (l : Launch) : Bool := l.torn || l.raisedAt.isSome

/-- ABORT_GROUP_START (R358): on entry 0 of the cell list, with GROUP the group count. -/
def execAbortGroupStart (launch : Nat) (s : State) := s.event fun _ d =>
  match d.launches.find launch with
  | none => none
  | some l =>
    if l.abortDue ∧ d.runs launch then
      let d := d.settleRetired launch
      match (d.cellList l.part).head? with
      | none => none
      | some cell =>
        match (d.freeCores cell).head?, d.chooseSlot l.part l.ctx with
        | some core, some slot =>
          let r : Rec := { launchRec launch { l with foot := none, firstpc := l.abortpc } cell l.groups with team4 := false, mates := 1 }
          let g := { newGroup d.nextGid r core slot (d.entryStrict l.part l.ctx) with isAbort := true }
          let d := (d.setLaunch launch { l with abortGroup := .running }).setGroup g
          some ({ d with nextGid := d.nextGid + 1, nfree := d.nfree + 1 }.takeCore core g.gid)
        | _, _ => none
    else none

/-- Armed records that can never become ready are discarded (R359). -/
def Dev.strandArmed (d : Dev) (l : Launch) : Dev := l.armed.foldl (fun d a => d.setArmed a.2 false) d

/-- What a gang launch still owes the other packages has been done (R386): no package has a member left, and the final commit,
whose end markers and ready every package sends, has ended here. -/
def Dev.gangOver (d : Dev) (l : Launch) : Bool :=
  l.scope ≠ 5 || !d.inGang || l.torn || l.raisedAt.isSome || ((l.bar (domKey 5 0)).expect = 0 && (d.gangSize = 1 || l.finalDone))

/-- The launch can complete (R359): no member left, no abort routine to run or running, the last commit applied, in a gang
that of every package. -/
def Dev.completable (d : Dev) (tree : Nat) (l : Launch) : Bool :=
  d.gangOver l && l.live = 0 && l.cells.all (fun cs => l.groups ≤ cs.2) &&
  (l.torn || l.raisedAt.isNone || l.abortpc = 0 || l.abortGroup = .retired) &&
  !d.groups.any fun kg => kg.2.recd.launch = tree && (kg.2.status ≠ .provisional || kg.2.isAbort || !l.aborted)

/-- Head records that await a launch learn its final status (R70). -/
def Dev.tellHeads (d : Dev) (tree status : Nat) : Dev :=
  let tell (h : Held) : Held := if h.awaits = some tree then { h with status := some status } else h
  { d with queues := d.queues.map fun kq => (kq.1, { kq.2 with held := kq.2.held.map tell }) }

/-- The completion record of a launch, then the heads that await it. Where DONE no longer translates there is neither record
nor interrupt (DESIGN CHOICE, log 61). -/
def Dev.finalStatus (d : Dev) (l : Launch) (tree : Nat) (r : Completion) : Dev :=
  let d := d.askedAgain l.part l.ctx l.doneVa l.doneX
  (match d.launchDone l with
    | some x => d.writeCompletion l.part l.ctx x l.irq r
    | none => d).tellHeads tree r.status

/-- LAUNCH_COMPLETE (R359 to R361). -/
def execLaunchComplete (launch : Nat) (s : State) := s.event fun clk d =>
  match d.launches.find launch with
  | none => none
  | some l =>
    if d.completable launch l then
      let d := (d.settleRetired launch).strandArmed l
      let r : Completion :=
        { status := if l.aborted then 1 else 0, abrt := l.abortGroup = .retired, groups := l.groupsDone, field := l.field.toNat,
          discard := l.discard, child := l.childDone, rollb := l.rollb, strand := l.armed.length, frets := l.frets,
          commits := if l.mode = .det then l.commits else 0, time := clk.fclk - l.accepted }
      let d := d.finalStatus l launch r
      let x := d.ctx l.part l.ctx
      let d := d.setCtx l.part l.ctx { x with poolUsed := x.poolUsed - l.quota }
      some { d with launches := d.launches.del launch }
    else none

/-! What the dispatchers see at every moment. -/

/-- Nothing of the group is under way: accesses, commit buffer, jobs, commands (R146, R310). -/
def Group.quiet (g : Group) : Bool := g.arch.gops.isEmpty && g.arch.buffer.isEmpty && !g.busy

/-- Every access of the group that a barrier orders has been performed: an access to an uncached-device page is ordered by
`fence` only (R290). -/
def Group.orderedDone (g : Group) : Bool := g.arch.gops.all (·.xl.typ == 2)

/-- What a fret waits for before it arrives (R318, R273): those accesses, the commit buffer, jobs and commands. -/
def Group.drained (g : Group) : Bool := g.orderedDone && g.arch.buffer.isEmpty && !g.busy

/-- The group has not arrived and may arrive now (R97, R311, R318). -/
def Group.mayArrive (g : Group) (ready : Bool) : Bool := g.arrived.isNone && ready && !g.recd.late

/-- The condition that a parked group waits for holds (R94). -/
def Dev.waitOver (d : Dev) (g : Group) : Bool :=
  let aborted := g.isAbort || (match d.launchOf g with
    | some l => l.abortIn (clusterOfCell g.recd.home)
    | none => true)
  match g.stall with
  | .wait tok n => g.arch.tokCount tok ≤ n
  | .done => g.arch.toks.toList.all (·.isEmpty)
  | .bar _ | .fret => g.released.isSome || aborted
  | .fwait tg f => g.flagSeen || d.testFlag g tg f || aborted
  | .evw i => nbit g.arch.latches.toNat i || aborted
  | _ => true

/-- Ready times: the moment a parked group's condition came to hold (R87), and since when an entry has had ready work
without running (R63). -/
def Dev.settle (d : Dev) (now : Nat) : Dev :=
  let wake (g : Group) : Group :=
    if g.status = .parked ∧ g.readyAt.isNone ∧ d.waitOver g then { g with readyAt := some now } else g
  let d := { d with groups := d.groups.map fun (k, g) => (k, wake g) }
  { d with ctxs := d.ctxs.map fun (k, x) =>
      let p := k / 64
      let c := k % 64
      if x.latched.isSome ∧ (d.part p).running ≠ some c ∧ d.readyWork p c then
        (k, { x with readySince := x.readySince.orElse fun _ => some now })
      else (k, { x with readySince := none }) }

end Sys2Proof.Machine
end

