-- ==== Sys2Proof/Machine/Access.lean ====
section
/-!
DEFINITION. Memory instructions at issue (08_memory R195 to R203, 15_synchronising R306 to R309, R313, R320, R321):
local accesses, translation through the core's TLB, global loads and stores, atomics, `spawn` and `join`, the commit
buffer and its charges, fences.
-/

namespace Sys2Proof.Machine

/-! Local accesses (R197, R199, R200). -/

/-- Registers of a scalar access: one, or the pair of `.q` (R197). -/
def scalarRegs (d : BitVec 6) (sz : Nat) : List RegRef := if sz = 4 then [.x d.toNat, .x (d.toNat + 1)] else [.x d.toNat]

/-- A value split over the registers of an access. -/
def scalarWrites (d : BitVec 6) (sz v : Nat) : List (RegRef × Nat) :=
  if sz = 4 then [(.x d.toNat, v % 2 ^ 64), (.x (d.toNat + 1), v / 2 ^ 64)] else [(.x d.toNat, v)]

/-- The bytes a scalar store takes from its registers. -/
def scalarData (d : BitVec 6) (sz : Nat) : GM Nat := do
  let lo ← readReg (.x d.toNat)
  if sz = 4 then return lo + 2 ^ 64 * (← readReg (.x (d.toNat + 1)))
  else return lo % 2 ^ (8 * sizeBytes sz)

def writeAll (lat : Nat) : List (RegRef × Nat) → GM Unit
  | [] => pure ()
  | (r, v) :: ws => do
    writeReg r v lat
    writeAll lat ws

def execLdl (g : Guard) (t : TailM) (s : State) := s.onCur (guarded g none do
  let a ← addrM t
  let n := sizeBytes t.sz.toNat
  aligned a n
  localRange a n
  let v ← localRead a.toNat n
  writeAll 4 (scalarWrites t.d t.sz.toNat v)
  return .fall)

def execStl (g : Guard) (t : TailM) (s : State) := s.onCur (guarded g none do
  let a ← addrM t
  let n := sizeBytes t.sz.toNat
  aligned a n
  localRange a n
  let v ← scalarData t.d t.sz.toNat
  localWrite a.toNat n v (2 ^ n - 1)
  return .fall)

def execVldl (g : Guard) (t : TailM) (s : State) := s.onCur (guarded g none do
  let a ← addrM t
  aligned a 128
  localRange a 128
  let v ← localRead a.toNat 128
  writeV t.d t.wm v 4
  return .fall)

def execVstl (g : Guard) (t : TailM) (s : State) := s.onCur (guarded g none do
  let a ← addrM t
  aligned a 128
  localRange a 128
  let v ← readV t.d
  let m ← readW t.wm.toNat
  localWrite a.toNat 128 v m
  return .fall)

/-- The lowest enabled byte address outside the local store (R200). The bytes A + j are taken modulo 2^64, as R196 takes A itself
(DESIGN CHOICE, log 87). -/
def firstOutside (a : Word) (m : Nat) : List Nat → Option Nat
  | [] => none
  | j :: js =>
    let b := (a + BitVec.ofNat 64 j).toNat
    let rest := firstOutside a m js
    if nbit m j ∧ lsSize ≤ b then some (match rest with
      | some r => min b r
      | none => b)
    else rest

/-- Only enabled bytes are accessed and checked (R200). -/
def checkBytes (a : Word) (m : Nat) : GM Unit := do
  match firstOutside a m (List.range 128) with
  | some b => raise cACCESS (BitVec.ofNat 64 b)
  | none => pure ()

/-- Enabled bytes read at issue, byte by byte. -/
def readBytes (a : Word) (m : Nat) : Nat → Nat → GM Nat
  | 0, _ => return 0
  | n + 1, j => do
    let v ← if nbit m j then localRead (a + BitVec.ofNat 64 j).toNat 1 else pure 0
    return v + 256 * (← readBytes a m n (j + 1))

def execVldu (g : Guard) (t : TailM) (s : State) := s.onCur (guarded g none do
  let a ← addrM t
  let m ← readW t.wm.toNat
  checkBytes a m
  let v ← readBytes a m 128 0
  writeV t.d t.wm v 4
  return .fall)

/-- The enabled bytes lie in one run of the local store, from the lowest enabled one to the highest. -/
def execVstu (g : Guard) (t : TailM) (s : State) := s.onCur (guarded g none do
  let a ← addrM t
  let m ← readW t.wm.toNat
  checkBytes a m
  let v ← readV t.d
  let k := trailZeros m 128
  if k < 128 then localWrite (a + BitVec.ofNat 64 k).toNat (Nat.log2 m + 1 - k) (v / 2 ^ (8 * k)) (m / 2 ^ k)
  return .fall)

/-! Translation at issue (R193, R195). -/

/-- A miss asks the cluster's page-walk unit once and stalls (R193). -/
def Dev.missTlb (d : Dev) (clk : Clock) (g : Group) (va : Nat) : Dev :=
  let d := d.setGroup { g with stall := .tlb, notBefore := clk.aclk + 1 }
  match g.core with
  | none => d
  | some c =>
    let cl := clusterOfCell (cellOf c)
    let ws := d.walks.getD cl []
    if ws.any (fun w => w.gid = g.gid ∧ w.va = va ∧ w.core = c) then d
    else { d with walks := d.walks.put cl (ws ++ [⟨c, g.gid, va, false⟩]) }

/-- The outcome of a translation at issue: the access, a fault, or a miss. -/
inductive Transl where
  | ok (x : Xlat)
  | fault (cause : Nat)
  | miss
  deriving DecidableEq, Repr

/-- Checks 3 to 5 of R195 on a global address. -/
def Dev.translate (d : Dev) (g : Group) (va : Word) (a : Acc) : Transl :=
  if va.toNat / 2 ^ 57 ≠ 0 then .fault cACCESS
  else
    match d.latchedOf g, g.core with
    | some (p, lt), some c =>
      match (d.core c).findTlb false lt.asid va.toNat with
      | none => .miss
      | some t =>
        match d.xlat p t va.toNat a with
        | .ok x => .ok x
        | .error e => .fault e
    | _, _ => .fault cPAGE

/-- A global memory instruction: its operands and alignment on the group, its translation, then its effect. -/
def Dev.global (d : Dev) (clk : Clock) (g : Group) (gd : Guard) (tok : Option Nat) (acc : Acc) (n : Nat) (addr : GM Word)
    (f : Group → Word → Xlat → Except Stop Dev) : Except Stop Dev :=
  let e := d.env clk g
  match guardTrue gd e g with
  | .error st => .error st
  | .ok (false, g') =>
    let m : GM Unit := do
      match tok with
      | some t => issueDone t
      | none => pure ()
      retire .fall
    match m e g' with
    | .ok (_, g') => .ok (d.setGroup g')
    | .error st => .error st
  | .ok (true, g') =>
    let m : GM Word := do
      match tok with
      | some t => tokenRoom t
      | none => pure ()
      let a ← addr
      aligned a n
      return a
    match m e g' with
    | .error st => .error st
    | .ok (a, g') =>
      match d.translate g' a acc with
      | .fault c => .error (.trap c a none)
      | .miss => .ok (d.missTlb clk g' a.toNat)
      | .ok x => f g' a x

/-- The end of a meaning on the group: its device, or its stop. -/
def Dev.finish {α : Type} (d : Dev) (clk : Clock) (g : Group) (m : GM α) (f : Dev → Group → α → Dev := fun d _ _ => d) : Except Stop Dev :=
  match m (d.env clk g) g with
  | .error st => .error st
  | .ok (x, g') => .ok (f (d.setGroup g') g' x)

/-! The commit buffer (R306 to R309). -/

/-- The launch's abort line has been raised: ticketed operations of its groups are dropped, those of the abort group are
not (R357, R358). -/
def Launch.drops (l : Launch) (g : Group) : Bool := l.raisedAt.isSome && !g.isAbort

/-- The charge of an operation against the quota of its fret domain (R309): the launch with the count raised, or none. -/
def Dev.charge (d : Dev) (g : Group) (n : Nat) : Option Dev :=
  match d.launchOf g with
  | none => some d
  | some l =>
    let k := l.domOf g.recd.home
    let dm := l.doms.getD k (Dom.reset none)
    if dm.charge + n ≤ l.logq * 1024 then some (d.setLaunch g.recd.launch { l with doms := l.doms.put k { dm with charge := dm.charge + n } })
    else none

/-- A ticketed instruction (R306, R307): dropped in an aborted launch, else charged and put into the commit buffer. -/
def Dev.ticketed (d : Dev) (clk : Clock) (g : Group) (charge : Nat) (tok : Option Nat) (dests : List RegRef)
    (mk : Option (Nat × Nat) → GOp) (pre : GM Unit := pure ()) : Except Stop Dev :=
  match d.launchOf g with
  | none => .ok d
  | some l =>
    if l.drops g then
      d.finish clk g do
        pre
        match tok with
        | some t => issueDone t
        | none => pure ()
        retire .fall
    else if 64 ≤ g.arch.buffer.length then .error (.stall .buffer)
    else
      match d.charge g charge with
      | none => .error (.trap cLOG_FULL (BitVec.ofNat 64 charge) none)
      | some d =>
        d.finish clk g do
          pre
          let entry ← match tok with
            | some t => do
              let id ← issueEntry t .ticketed true false none dests []
              pure (some (t, id))
            | none => pure none
          setArch fun a =>
            let op : GOp := { mk entry with id := a.nextId, seq := a.seq, sub := 0, epoch := a.epoch }
            { a with buffer := a.buffer ++ [op], seq := a.seq + 1, nextId := a.nextId + 1 }
          retire .fall

/-! Global loads and stores (R197 to R199). -/

def Dev.modeOf (d : Dev) (g : Group) : Mode := match d.launchOf g with
  | some l => l.mode
  | none => .free

/-- An operation of the group's own list; the caller names what differs. -/
def opOf (kind : GOpKind) (va : Word) (size : Nat) (x : Xlat) (entry : Option (Nat × Nat)) (ord : Nat) (plain : Bool) (now : Nat)
    (core : Option Nat := none) : GOp :=
  { id := 0, kind := kind, va := va.toNat, size := size, xl := x, entry := entry, acq := ord = 1 || ord = 3, rel := ord = 2 || ord = 3,
    epoch := 0, plain := plain, seq := 0, sub := 0, issued := now, core := core }

/-- A load issued: its entry, and the operation that GLOBAL_LOAD_PERFORMED performs. -/
def issueLoad (tok : Nat) (dests : List RegRef) (isVec : Bool) (mask n : Nat) (va : Word) (x : Xlat) (ord : Nat) : GM Unit := do
  let id ← issueEntry tok .load true false none dests []
  let now := (← read).aclk
  let plain := ord = 0 && x.typ = 0 && (← read).mode = .free
  let core := (← get).core
  setArch fun a => { a with gops := a.gops ++ [{ opOf (.load dests isVec (BitVec.ofNat 128 mask)) va n x (some (tok, id)) ord plain now core with
    id := id, epoch := a.epoch }] }
  retire .fall

def execLdg (g : Guard) (t : TailM) (s : State) := s.onGroup fun clk d gr =>
  let n := sizeBytes t.sz.toNat
  d.global clk gr g (some t.tk.toNat) (if t.sz.toNat = 4 then .loadQ else .load) n (addrM t) fun gr a x =>
    d.finish clk gr (issueLoad t.tk.toNat (scalarRegs t.d t.sz.toNat) false (2 ^ 128 - 1) n a x t.ord.toNat)

def execVldg (g : Guard) (t : TailM) (s : State) := s.onGroup fun clk d gr =>
  d.global clk gr g (some t.tk.toNat) .vload 128 (addrM t) fun gr a x =>
    d.finish clk gr do
      let m ← readW t.wm.toNat
      issueLoad t.tk.toNat [.v t.d.toNat] true m 128 a x t.ord.toNat

/-- An address in a queue window (R250, R375). -/
def inWindow (pa : Nat) : Bool := 0xF00001000000 ≤ pa && pa < 0xF00001040000

/-- A store issued, ticketed in a deterministic launch (R198) but for one to a queue window (R250). -/
def Dev.issueStore (d : Dev) (clk : Clock) (g : Group) (va : Word) (x : Xlat) (n ord charge : Nat) (data : GM (Nat × Nat)) :
    Except Stop Dev :=
  match data (d.env clk g) g with
  | .error st => .error st
  | .ok ((v, m), g) =>
    let mk (e : Option (Nat × Nat)) : GOp := opOf (.store v (BitVec.ofNat 128 m)) va n x e ord false clk.aclk g.core
    if d.modeOf g = .det ∧ !(x.typ = 2 && inWindow x.pa) then d.ticketed clk g charge none [] mk
    else
      d.finish clk g do
        setArch fun a => { a with gops := a.gops ++ [{ mk none with id := a.nextId, epoch := a.epoch }], nextId := a.nextId + 1 }
        retire .fall

def execStg (g : Guard) (t : TailM) (s : State) := s.onGroup fun clk d gr =>
  let n := sizeBytes t.sz.toNat
  d.global clk gr g none (if t.sz.toNat = 4 then .storeQ else .store) n (addrM t) fun gr a x =>
    d.issueStore clk gr a x n t.ord.toNat 32 do
      let v ← scalarData t.d t.sz.toNat
      return (v, 2 ^ n - 1)

def execVstg (g : Guard) (t : TailM) (s : State) := s.onGroup fun clk d gr =>
  d.global clk gr g none .vstore 128 (addrM t) fun gr a x =>
    d.issueStore clk gr a x 128 t.ord.toNat 160 do
      let v ← readV t.d
      let m ← readW t.wm.toNat
      return (v, m)

/-! Fences (R203). -/

/-- `acq` stalls until every earlier global load has completed, then drops the read cache. -/
def execAcq (g : Guard) (_ : TailA) (s : State) := s.onGroup fun clk d gr =>
  d.thenAcquire clk gr g (guarded g none do
    if (← arch).gops.any (fun o => o.kind.isLoad) then stop (.stall .acq)
    return .fall)

/-- `rel`: every later store, flag write and push waits for every earlier access. -/
def execRel (g : Guard) (_ : TailA) (s : State) := s.onCur (guarded g none do
  setArch fun a => { a with epoch := a.epoch + 1 }
  return .fall)

/-- `fence`: both, and it stalls until earlier stores and flag writes are performed. -/
def execFence (g : Guard) (_ : TailA) (s : State) := s.onGroup fun clk d gr =>
  d.thenAcquire clk gr g (guarded g none do
    if !(← arch).gops.isEmpty then stop (.stall .fence)
    setArch fun a => { a with epoch := a.epoch + 1 }
    return .fall)

/-! Atomics, `spawn` and `join` (R313, R320, R321). -/

/-- An atomic operation issued: at its home engine in free and interleave launches, ticketed in deterministic ones. -/
def Dev.issueAtomic (d : Dev) (clk : Clock) (g : Group) (va : Word) (x : Xlat) (n ord tok : Nat) (dests : List RegRef)
    (kind : GOpKind) (pre : GM Unit := pure ()) : Except Stop Dev :=
  let mk (e : Option (Nat × Nat)) : GOp := opOf kind va n x e ord false clk.aclk g.core
  if d.modeOf g = .det then d.ticketed clk g 32 (some tok) dests mk pre
  else
    d.finish clk g do
      pre
      let id ← issueEntry tok .amo true false none dests []
      setArch fun a => { a with gops := a.gops ++ [{ mk (some (tok, id)) with id := id, epoch := a.epoch }] }
      retire .fall

/-- The address of format W (R114). -/
def addrW (t : TailW) : GM Word := do return (← readX t.a) + t.off.signExtend 64

/-- An operand of an `amo`: its low n bits, or a pair (R313). -/
def amoOperand (r : BitVec 6) (sz : Nat) : GM Nat := do
  let lo ← readReg (.x r.toNat)
  if sz = 4 then return lo + 2 ^ 64 * (← readReg (.x (r.toNat + 1)))
  else return lo % 2 ^ (8 * sizeBytes sz)

def execAmo (g : Guard) (t : TailW) (s : State) := s.onGroup fun clk d gr =>
  let n := sizeBytes t.sz.toNat
  d.global clk gr g (some t.tk.toNat) .amo n (addrW t) fun gr a x =>
    let m : GM (Nat × Nat) := do
      let b ← amoOperand t.b t.sz.toNat
      let c ← if t.op = 10 then amoOperand t.c t.sz.toNat else pure 0
      return (b, c)
    match m (d.env clk gr) gr with
    | .error st => .error st
    | .ok ((b, c), gr) =>
      let dest := if t.d = 0 then [] else scalarRegs t.d t.sz.toNat
      d.issueAtomic clk gr a x n t.ord.toNat t.tk.toNat dest
        (.amo t.op.toNat (t.e.toNat % 32) (nbits t.e.toNat 5 2) (nbit t.e.toNat 7) b c dest)

/-- The child's ticket and the ordinals after it (R321). -/
def childTicket (a : Arch) (t : Word) : Option (Word × BitVec 12 × BitVec 12) :=
  if tkChild1 t = 0 then
    (if a.o1 = 4095 then none else some (t + BitVec.ofNat 64 ((a.o1 + 1).toNat * 2 ^ 12), a.o1 + 1, a.o2))
  else if tkChild2 t = 0 then
    (if a.o2 = 4095 then none else some (t + BitVec.ofNat 64 (a.o2 + 1).toNat, a.o1, a.o2 + 1))
  else none

/-- `spawn` (R320, R321): a release at `dev` scope in a free launch. That of an abort group arms nothing (R358). -/
def execSpawn (g : Guard) (t : TailM) (s : State) := s.onGroup fun clk d gr =>
  d.global clk gr g (some t.tk.toNat) .rmw 64 (addrM t) fun gr a x =>
    if gr.isAbort then
      d.finish clk gr do
        let _ ← issueEntry t.tk.toNat .amo true false none [.x t.d.toNat] []
        modify fun g => completeLast g t.tk.toNat [(.x t.d.toNat, 0)]
        retire .fall
    else
      match childTicket gr.arch gr.recd.ticket with
      | none => .error (.trap cSPAWN_DEPTH gr.recd.ticket none)
      | some (child, o1, o2) =>
        d.issueAtomic clk gr a x 64 2 t.tk.toNat [.x t.d.toNat] (.spawn child [.x t.d.toNat])
          (setArch fun b => { b with o1 := o1, o2 := o2 })

/-- `join` (R320, R322). -/
def execJoin (g : Guard) (t : TailM) (s : State) := s.onGroup fun clk d gr =>
  d.global clk gr g (some t.tk.toNat) .rmw 64 (addrM t) fun gr a x =>
    d.issueAtomic clk gr a x 64 2 t.tk.toNat [.x t.d.toNat] (.join [.x t.d.toNat])

/-! Page walks (R193). -/

/-- PAGE_WALK: the oldest walk of the cluster fills the TLB, or its access faults `PAGE`; a walk begun before an
invalidation is discarded (R349). -/
def execPageWalk (cluster : Nat) (s : State) := s.event fun clk d =>
  match d.walks.getD cluster [] with
  | [] => none
  | w :: ws =>
    let d := { d with walks := d.walks.put cluster ws }
    match d.groups.find w.gid with
    | none => some d
    | some g =>
      if w.drop then some d
      else
        match d.latchedOf g with
        | none => some d
        | some (_, lt) =>
          let d := d.takeBackWalk lt w.va false
          match d.walk lt w.va with
          | some t => some { d with cores := d.cores.modify w.core Core.reset fun k => { k with tlb := t :: k.tlb } }
          | none =>
            if g.stall = .tlb ∧ g.status = .running then
              some (d.takeTrap clk g cPAGE (BitVec.ofNat 64 w.va) g.arch.pc false false)
            else some d

end Sys2Proof.Machine
end

