-- ==== Sys2Proof/Machine/EngineOps.lean ====
section
/-!
DEFINITION. What the copy and indirect engines share (10_engines R206 to R222, R230, R232, R269): shape records and
chain descriptors, element order, the three spaces, bound entries, fingerprints, completion elements and job
completion.
-/

namespace Sys2Proof.Machine

/-! Descriptors copied at issue (R207, R213, R214, R232). -/

/-- Bits of an element by ESZ. -/
def eszBits : Nat → Nat
  | 0 => 4 | 1 => 6 | 2 => 8 | 3 => 16 | 4 => 32 | _ => 64

/-- Elements of a packing group (R216) and its bytes. -/
def groupLen (w : Nat) : Nat := if w = 4 then 2 else if w = 6 then 4 else 1
def groupBytes (w : Nat) : Nat := groupLen w * w / 8

/-- Elements of a chunk (R217). -/
def chunkElems (w : Nat) : Nat := if w = 4 then 8192 else if w = 6 then 5460 else 4096 * 8 / w

def dimAt (n k : Nat) : Dim := ⟨nbits n (128 + 128 * k) 32, sInt 32 (nbits n (160 + 128 * k) 32), sInt 32 (nbits n (192 + 128 * k) 32)⟩

def Shape.total (s : Shape) : Nat := s.dims.foldl (fun n d => n * d.size) 1
def Shape.chunks (s : Shape) : Nat := (s.total + chunkElems (eszBits s.esz) - 1) / chunkElems (eszBits s.esz)

/-- Dimensions in destination order: extent, source stride, destination stride (R215). -/
def Shape.walk (s : Shape) : List (Nat × Int × Int) :=
  (List.range s.dims.length).map fun d =>
    let src := s.dims.getD (s.perm.getD d 0) ⟨0, 0, 0⟩
    (src.size, src.sstr, (s.dims.getD d ⟨0, 0, 0⟩).dstr)

/-- Source and destination element numbers of element k (R215). -/
def elemAt : List (Nat × Int × Int) → Nat → Int × Int
  | [], _ => (0, 0)
  | (n, ss, ds) :: rest, k =>
    let j : Nat := k % n
    let r := elemAt rest (k / n)
    (r.1 + j * ss, r.2 + j * ds)

/-- The lowest source and destination element numbers of a job. -/
def lowest : List (Nat × Int × Int) → Int × Int
  | [] => (0, 0)
  | (n, ss, ds) :: rest =>
    let r := lowest rest
    let m : Int := (n : Int) - 1
    (r.1 + min 0 (m * ss), r.2 + min 0 (m * ds))

/-- The rule of R216 for 4-bit and 6-bit elements. -/
def packedOk (w : Nat) (ds : List (Nat × Int × Int)) : Bool :=
  if groupLen w = 1 then true
  else if ds.any (fun d => d.1 = 0) then true
  else
    let g : Int := groupLen w
    0 ≤ (lowest ds).1 && 0 ≤ (lowest ds).2 &&
    (match ds with
      | [] => false
      | (n, _, d0) :: rest => d0 = 1 && n % groupLen w = 0 && rest.all fun d => d.1 = 1 || d.2.2 % g = 0)

/-- A shape record (R213, R214, R216, R217): none is SHAPE. -/
def parseShape (n : Nat) : Option Shape :=
  let ty := nbits n 59 5
  let fpe := nbit n 58
  let tidv := nbit n 57
  let nd := nbits n 25 3
  let esz := nbits n 22 3
  let perm := (List.range 7).map fun k => nbits n (28 + 3 * k) 3
  let rest := (List.range 7).drop nd
  let s : Shape :=
    { ty := ty, fpe := fpe, tidv := tidv, tid := nbits n 49 8, perm := perm.take nd, dims := (List.range nd).map (dimAt n), esz := esz,
      ch0 := nbits n 64 32 }
  if nd = 0 ∨ 6 ≤ esz ∨ nbits n 0 22 ≠ 0 ∨ nbits n 96 32 ≠ 0 then none
  else if (fpe ∨ tidv) ∧ (17 < ty ∨ (Ty.ofCode ty).width ≠ eszBits esz) then none
  else if (List.range nd).any (fun k => nbits n (224 + 128 * k) 32 ≠ 0) then none
  else if rest.any (fun k => nbits n (128 + 128 * k) 128 ≠ 0 || perm.getD k 0 ≠ k) then none
  else if !(List.range nd).all (fun k => (perm.take nd).contains k) then none
  else if 2 ^ 24 < s.chunks then none
  else if packedOk (eszBits esz) s.walk then some s
  else none

/-- A chain descriptor (R232): none is SHAPE, also where RK, EF or NF is out of its range (DESIGN CHOICE, log 81). -/
def parseChain (n : Nat) : Option Chain :=
  let nf := nbits n 8 4
  let b := nbits n 0 8 + 1
  let fs := (List.range nf).map fun f =>
    let lo := 128 * (f + 1)
    (nbits n lo 64, nbits n (lo + 64) 13, nbits n (lo + 80) 5)
  if nbits n 13 51 ≠ 0 ∨ nbits n 64 64 ≠ 0 ∨ b = 1 ∨ nf = 0 ∨ 8 < nf then none
  else if (List.range nf).any (fun f => nbits n (128 * (f + 1) + 85) 43 ≠ 0 || nbits n (128 * (f + 1) + 77) 3 ≠ 0) then none
  else if ((List.range 8).drop nf).any (fun f => nbits n (128 * (f + 1)) 128 ≠ 0) then none
  else if fs.any (fun f => f.2.1 = 0 || 4096 < f.2.1 || f.2.2 = 0 || 16 < f.2.2) then none
  else if (fs.getLastD (0, 0, 0)).2.2 ≠ 1 ∨ 4096 < fs.foldl (fun e f => e * f.2.1) 1 then none
  else some ⟨nbit n 12, b, fs⟩

/-! Spaces. -/

/-- Where an engine's access goes: the group's local store, cluster memory (or the window of a deterministic launch,
R212), or global memory. -/
inductive EPlace where
  | loc (a : Nat)
  | clu (a : Nat)
  | glb (va : Nat) (x : Xlat)
  deriving DecidableEq, Repr

/-- Status codes of R222. -/
def sOK : Nat := 0
def sPAGE : Nat := 1
def sACCESS : Nat := 2
def sALIGN : Nat := 3
def sSHAPE : Nat := 4
def sPOISON : Nat := 5
def sATOMIC : Nat := 6
def sBOUND : Nat := 7
def sABORTED : Nat := 8

def causeStatus (c : Nat) : Nat := if c = cPAGE then sPAGE else if c = cATOMIC_TYPE then sATOMIC else sACCESS

/-- A translation for an engine of a group: the TLB of its core, else a walk (R193); an uncached-device page refuses it. -/
def Dev.engXlat (d : Dev) (g : Group) (va : Nat) (a : Acc) : Except Nat Xlat :=
  match d.latchedOf g with
  | none => .error cPAGE
  | some (p, lt) =>
    match d.xlatOn g.engCore p lt va a with
    | .ok x => if x.typ = 2 then .error cACCESS else .ok x
    | .error c => .error c

/-- The core keeps the translations of an engine's accesses (R193). -/
def Dev.keepEng (d : Dev) (g : Group) (vas : List Nat) : Dev :=
  match d.latchedOf g with
  | none => d
  | some (_, lt) => d.keepOn g.engCore lt vas

/-- Bytes of cluster space in the launch's mode (R212). -/
def cluLimit (m : Mode) : Nat := if m = .det then 0x10000 else 0x400000

/-- An access of n bytes in a space: its place, or the status and the address by which it fails (R195, R212). -/
def Dev.engPlace (d : Dev) (g : Group) (space : Nat) (a : Word) (n : Nat) (acc : Acc) : Except (Nat × Nat) EPlace :=
  match space with
  | 0 => if lsSize < a.toNat + n then .error (sACCESS, a.toNat) else .ok (.loc a.toNat)
  | 1 => if cluLimit (d.modeOf g) < a.toNat + n then .error (sACCESS, a.toNat) else .ok (.clu a.toNat)
  | _ =>
    match d.engXlat g a.toNat acc with
    | .error c => .error (causeStatus c, a.toNat)
    | .ok x => .ok (.glb a.toNat x)

/-- The value at a place and its lowest poisoned byte; the group's own lines wherever they lie (R218). -/
def Dev.engRead (d : Dev) (g : Group) (n : Nat) : EPlace → Nat × Option Nat
  | .loc a =>
    let ar := (d.withLines g (blocksOf lsBase a n)).arch
    (ar.ls.readN a n, poisonIn ar.lsPoison a n)
  | .clu a =>
    if d.modeOf g = .det then
      let ar := (d.withLines g (blocksOf winBase a n)).arch
      (ar.win.readN a n, poisonIn ar.winPoison a n)
    else
      let cl := clusterOfCell g.recd.home
      ((d.clusterMem.getD cl []).readN a n, poisonIn (d.clusterPoison.getD cl []) a n)
  | .glb va x =>
    let r := d.readIn (d.viewOf g) x n
    (r.1, r.2.map fun pa => va + (pa - x.pa))

/-- A packing group of 3 bytes, which may cross a line or a page, goes byte by byte: address, bytes, value (R216). -/
def groupPieces (a : Word) (n v : Nat) : List (Word × Nat × Nat) :=
  if n = 3 then [(a, 1, v % 2 ^ 8), (a + 1, 1, nbits v 8 8), (a + 2, 1, nbits v 16 8)] else [(a, n, v)]

/-- An operation enters the log of its group's fret domain (R306, R307); after the abort line it is dropped (R357). -/
def Dev.logOp (d : Dev) (g : Group) (op : GOp) : Dev :=
  match d.launchOf g with
  | none => d
  | some l =>
    if l.drops g then d else
    let k := l.domOf g.recd.home
    let dm := l.doms.getD k (Dom.reset none)
    d.setLaunch g.recd.launch { l with doms := l.doms.put k { dm with log := dm.log ++ [⟨g.recd.ticket, op, g.gid⟩] } }

/-- An acquire of a job's data: the read cache of a core drops its lines (R182, R209), the scale cache everything (R260). -/
def Dev.dropLines (d : Dev) (core : Option Nat) (lines : List Nat) : Dev :=
  match core with
  | none => d
  | some c => { d with cores := d.cores.modify c Core.reset fun k =>
      { k with rcache := k.rcache.filter fun e => !lines.contains (e.1 % 2 ^ 47 / 8), scales := [] } }

/-- The record of a job or command, and of the lines that it wrote, for the `wait` that observes the release of its token
entry (R209, R272, R293); 2^44, which is no line, stands for the job itself. -/
def Arch.keepDone (a : Arch) (entry : Option (Nat × Nat)) (lines : List Nat) : Arch :=
  match entry with
  | none => a
  | some (tok, id) => { a with drains := a.drains ++ (2 ^ 44 :: lines).map fun l => (tok, id, l) }

/-- Lines of global memory among the places of a chunk's writes. -/
def linesOf (m : Mode) (ls : List Nat) (ws : List (EPlace × Nat × Nat × Nat)) : List Nat :=
  if m = .det then ls
  else addBlocks ls (ws.flatMap fun w => match w.1 with
    | .glb _ x => [x.pa / 256, (x.pa + (w.2.1 - 1)) / 256]
    | _ => [])

/-- Virtual addresses of global places. -/
def vasOf (ps : List EPlace) : List Nat := pagesOf (ps.filterMap fun p => match p with
  | .glb va _ => some va
  | _ => none)

/-- A read of n bytes at a place of a group's engine finds an upset of a unit. -/
def EPlace.finds (gid n : Nat) : EPlace → UpsetUnit → Bool
  | .loc a, .ls k w => k == gid && inWords a n w
  | .glb _ x, u => x.finds n u
  | _, _ => false

/-- What reads of a group at these places bring about in global memory, and in its slot (R303, R369, R376). -/
def Dev.askedAll (d : Dev) (g : Group) (ps : List (EPlace × Nat)) : Dev :=
  ps.foldl (fun (d : Dev) p => match p with
    | (.glb _ x, n + 1) => d.asked x (n + 1)
    | (.loc a, n + 1) => d.askedLines g (blocksOf lsBase a (n + 1))
    | (.clu a, n + 1) => if d.modeOf g = .det then d.askedLines g (blocksOf winBase a (n + 1)) else d
    | _ => d) d

/-- The same, with the correctable errors that they find corrected (R369). -/
def Dev.foundBy (d : Dev) (g : Group) (ps : List (EPlace × Nat)) : Dev :=
  (d.askedAll g ps).repairAll fun t => ps.any fun p => p.1.finds g.gid p.2 t.unit

/-- Sectors of global memory among the places of reads. -/
def sectorsRead (ps : List (EPlace × Nat)) : List Nat := ps.flatMap fun p => match p with
  | (.glb _ x, n + 1) => (List.range ((x.pa + n) / 32 - x.pa / 32 + 1)).map (x.pa / 32 + ·)
  | _ => []

/-- The read cache of a core gives up sectors that a job of its group has read at their home: a later load of the group may not
return what stood there before (R295 condition 3, R289). -/
def Dev.dropSectors (d : Dev) (core : Option Nat) (secs : List Nat) : Dev :=
  match core with
  | none => d
  | some c => { d with cores := d.cores.modify c Core.reset fun k => { k with rcache := k.rcache.filter fun e => !secs.contains (e.1 % 2 ^ 47) } }

/-- What reads by a group's engines bring about: host copies are taken back, other packages asked, correctable errors
corrected, cached copies given up, and the core keeps their translations (R193). -/
def Dev.touch (d : Dev) (g : Group) (ps : List (EPlace × Nat)) : Dev :=
  ((d.foundBy g ps).dropSectors g.core (sectorsRead ps)).keepEng g (vasOf (ps.map (·.1)))

def Dev.asidOf (d : Dev) (g : Group) : BitVec 12 := match d.latchedOf g with
  | some (_, lt) => lt.asid
  | none => 0

/-! The order of a group's own writes (R292). -/

/-- Jobs or commands of the group that may still write. -/
def Arch.writing (a : Arch) : Bool := !a.copyIn.isEmpty || a.copyJob.isSome || a.indPending ≠ 0 || !a.mu.queue.isEmpty

/-- A performed write of a group at its position in program order, kept while jobs of earlier positions may still write. -/
def Arch.noteWrite (a : Arch) (pos pa n mask : Nat) : Arch :=
  { a with later := if a.writing then (pos, pa, n, mask) :: a.later else [] }

/-- The bytes of a write at a position that no performed write of a later position of the group has written. -/
def Arch.freshBytes (a : Arch) (pos pa n : Nat) : Nat :=
  (List.range n).foldl (fun m i =>
    if a.later.any fun w => pos < w.1 && w.2.1 ≤ pa + i && pa + i < w.2.1 + w.2.2.1 && nbit w.2.2.2 (pa + i - w.2.1) then m else m + 2 ^ i) 0

/-- The bytes that a job of a group writes: in a free launch those that a later write of the group has written already stay;
in an interleave launch the sequence of accesses decides (R302). -/
def Dev.jobBytes (d : Dev) (g : Group) (pos pa n : Nat) : Nat := if d.modeOf g = .free then g.arch.freshBytes pos pa n else 2 ^ n - 1

def Dev.notePos (d : Dev) (gid pos pa n mask : Nat) : Dev := d.modArch gid fun a => a.noteWrite pos pa n mask

/-- A write by an engine of a group (R211): at once, or a ticketed store with the push's SEQ and an ordinal; `pos` is the
job's position among the group's instructions. -/
def Dev.engWrite (d : Dev) (gid pos n v seq sub : Nat) (pl : EPlace) : Dev :=
  match d.groups.find gid with
  | none => d
  | some g =>
    match pl with
    | .loc a => d.setGroup ((d.withLines g (blocksOf lsBase a n)).lsWrite a n v (2 ^ n - 1))
    | .clu a =>
      if d.modeOf g = .det then d.setGroup ((d.withLines g (blocksOf winBase a n)).winWrite a n v (2 ^ n - 1))
      else
        let cl := clusterOfCell g.recd.home
        let r := storeWords (d.clusterMem.getD cl []) (d.clusterPoison.getD cl []) a n v (2 ^ n - 1)
        { d with clusterMem := d.clusterMem.put cl r.1, clusterPoison := d.clusterPoison.put cl r.2 }
    | .glb va x =>
      if d.modeOf g = .det then
        d.logOp g { opOf (.store v (BitVec.ofNat 128 (2 ^ n - 1))) (BitVec.ofNat 64 va) n x none 0 false 0 with seq := seq, sub := sub }
      else
        let mask := d.jobBytes g pos x.pa n
        (d.writeX x (d.asidOf g) n v mask).notePos gid pos x.pa n mask

/-- The second place follows n bytes after the first within 64 bytes. -/
def EPlace.joins (p : EPlace) (n : Nat) (q : EPlace) : Bool :=
  match p, q with
  | .loc a, .loc b => a + n = b && b % 64 != 0
  | .clu a, .clu b => a + n = b && b % 64 != 0
  | .glb a x, .glb b y => a + n = b && x.pa + n = y.pa && x.place == y.place && y.pa % 64 != 0
  | _, _ => false

/-- Adjacent writes of a chunk joined within 64 bytes, so that a unit whose every byte the chunk writes is written whole
(R362): place, bytes, value, ordinal of the first. -/
def joinWrites : List (EPlace × Nat × Nat × Nat) → List (EPlace × Nat × Nat × Nat)
  | [] => []
  | (p, n, v, k) :: rest =>
    match joinWrites rest with
    | (q, m, w, j) :: more =>
      if p.joins n q then (p, n + m, v % 2 ^ (8 * n) + 2 ^ (8 * n) * w, k) :: more else (p, n, v, k) :: (q, m, w, j) :: more
    | [] => [(p, n, v, k)]

/-- The writes of one chunk, in order. -/
def Dev.engWrites (d : Dev) (gid pos seq : Nat) (ws : List (EPlace × Nat × Nat × Nat)) : Dev :=
  (joinWrites ws).foldl (fun d w => d.engWrite gid pos w.2.1 w.2.2.1 seq w.2.2.2 w.1) d

/-! Bound entries (R220, R269). -/

/-- What the bound entries make of a value: whether one with action flag matched, the value, or a trap. -/
inductive Bounded where
  | pass (flag : Bool) (clamp : Option FVal)
  | trap
  deriving DecidableEq, Repr

def Bound.outOf (b : Bound) (v : FVal) : Bool :=
  let lo := decodeVal .bf16 b.lo.toNat
  let hi := decodeVal .bf16 b.hi.toNat
  if v.isNan then !b.nan else lo.isNan || hi.isNan || v.lt lo || hi.lt v

/-- Entries in ascending index; later ones see a clamped value. -/
def boundsFrom (tid : Nat) : List Bound → Bool → FVal → Option FVal → Bounded
  | [], fl, _, cl => .pass fl cl
  | b :: bs, fl, v, cl =>
    if b.v ∧ b.tid.toNat = tid ∧ b.outOf v then
      match b.act.toNat with
      | 1 =>
        let lo := decodeVal .bf16 b.lo.toNat
        let w := if v.isNan || v.lt lo then lo else decodeVal .bf16 b.hi.toNat
        boundsFrom tid bs fl w (some w)
      | 2 => .trap
      | _ => boundsFrom tid bs true v cl
    else boundsFrom tid bs fl v cl

/-- `round(x, t, rne, sat)` in any type. -/
def roundAny (t : Ty) (v : FVal) : Nat := if t.isInt then roundI t .rne v else roundF t .rne true v

/-! Fingerprints (R219, R55). -/

def Finger.reset : Finger := ⟨0, 0, 0, 0⟩

/-- One element added, in element order. -/
def Finger.add (f : Finger) (t : Ty) (p : Nat) : Finger :=
  let v := decodeVal t p
  if v.isNan then { f with nanc := min (f.nanc + 1) (2 ^ 24 - 1) }
  else
    let x := roundF .f64 .rne false v
    let m := x % 2 ^ 63
    { f with sum := addRne .f64 f.sum x, ssq := fmaRne .f64 x x f.ssq, amax := tyMinMax .f64 true f.amax m }

/-! Completion (R209, R210, R221, R222, R230). -/

/-- A completion element enters a FIFO of 16; a full one loses its oldest (R210). -/
def pushElem (fifo : List (BitVec 256)) (lost : Bool) (e : BitVec 256) : List (BitVec 256) × Bool :=
  if 16 ≤ fifo.length then (fifo.drop 1 ++ [e], true) else (fifo ++ [e], lost)

/-- The lines of the two oldest elements joined. -/
def joinFirst : List (List Nat) → List (List Nat)
  | a :: b :: rest => (a ++ b) :: rest
  | ls => ls

/-- The lines of a completion element beside it in its FIFO: those of a discarded element join the next one's, whose pop
acquires them too (R210). -/
def pushLinesOf (fifo : List (BitVec 256)) (ls : List (List Nat)) (l : List Nat) : List (List Nat) :=
  if 16 ≤ fifo.length then joinFirst (ls ++ [l]) else ls ++ [l]

def Ring.cap (r : Ring) : Nat := if r.tile = 0 then 0 else r.size / r.tile
def Ring.occ (r : Ring) : Nat := (r.tail - r.head).toNat

def Arch.ring (a : Arch) (k : Nat) : Ring := a.rings.toList.getD k ⟨0, 0, 0, 0, 0⟩
def Arch.setRing (a : Arch) (k : Nat) (r : Ring) : Arch := { a with rings := a.rings.setIfInBounds k r }

/-- RING_TAIL_ADVANCE by one tile (R240): the group and whether the ring was full. -/
def Group.advanceRing (g : Group) (k : Nat) : Group × Bool :=
  let r := g.arch.ring k
  if r.occ < r.cap then ({ g with arch := g.arch.setRing k { r with tail := r.tail + 1 } }, false) else (g, true)

/-- EVENT_LINE_PULSE (R231): latch E of every started group of the context homed in the cluster. -/
def Dev.pulse (d : Dev) (g : Group) (ev : Nat) : Dev :=
  match d.launchOf g with
  | none => d
  | some l =>
    let hit (h : Group) : Bool := clusterOfCell h.recd.home == clusterOfCell g.recd.home && h.status != .fetching &&
      h.status != .provisional && (match d.launchOf h with
        | some m => m.part == l.part && m.ctx == l.ctx
        | none => false)
    let set (h : Group) : Group := { h with arch := { h.arch with latches := h.arch.latches ||| BitVec.ofNat 16 (2 ^ ev) } }
    { d with groups := d.groups.map fun (k, h) => (k, if hit h then set h else h) }

/-- A report of an engine's PAGE or ACCESS (R222, R336 TYPE 2). -/
def Dev.engReport (d : Dev) (g : Group) (code addr : Nat) : Dev :=
  if code = sPAGE then (d.groupEntry g (BitVec.ofNat 64 addr) 0 0 2 cPAGE).1
  else if code = sACCESS then (d.groupEntry g (BitVec.ofNat 64 addr) 0 0 2 cACCESS).1
  else d

/-- A deferred trap of a group (R363, R392, R271). -/
def Group.defer (g : Group) (cause val : Nat) (matrix : Bool := false) : Group :=
  { g with arch := { g.arch with deferred := g.arch.deferred ++ [⟨cause, BitVec.ofNat 64 val, matrix⟩] } }

/-- A token entry completes, if there is one. -/
def Group.completeJob (g : Group) : Option (Nat × Nat) → Group
  | none => g
  | some (tok, id) => completeEntry g tok id []

/-- The completion element of a copy job (R221); NEXT is the number modulo 2^24 (DESIGN CHOICE, log 78). -/
def copyElem (s : Shape) (j : CopyJob) (status next : Nat) : BitVec 256 :=
  let fp := if s.fpe then j.fp else Finger.reset
  let amax := roundF .f32 .rup false (decodeVal .f64 fp.amax)
  BitVec.ofNat 256 (fp.ssq * 2 ^ 192 + fp.sum * 2 ^ 128 + amax * 2 ^ 96 + fp.nanc * 2 ^ 72 + status * 2 ^ 64 + next % 2 ^ 24 * 2 ^ 40 +
    (j.elems * eszBits s.esz + 7) / 8 % 2 ^ 40)

def Shape.none : Shape := ⟨0, false, false, 0, [], [], 2, 0⟩

/-- A copy job ends (R209): the ring's tail, the element, the token entry, the flag, the bridge. -/
def Dev.copyDone (d : Dev) (now gid : Nat) (j : CopyJob) (code next addr : Nat) : Dev :=
  match d.groups.find gid with
  | none => d
  | some g =>
    let r : Group × Bool := if code = sOK ∧ j.cmd.re then g.advanceRing j.cmd.ring else (g, false)
    let g := r.1
    let status := code + (if r.2 then 32 else 0) + (if j.bf then 128 else 0)
    let s := j.cmd.shape.getD Shape.none
    let q := pushElem g.arch.copyOut g.arch.copyLost (copyElem s j status next)
    let g := { g with arch := { g.arch with copyJob := none, copyOut := q.1, copyLost := q.2,
                                            copyLines := pushLinesOf g.arch.copyOut g.arch.copyLines j.lines } }
    let g := { g with arch := g.arch.keepDone j.cmd.entry j.lines }
    let g := g.completeJob j.cmd.entry
    let br := { g.arch.bridge with copyEvents := g.arch.bridge.copyEvents + 1 }
    let g := { g with arch := { g.arch with bridge := br } }
    let g := if code = sPOISON then g.defer cPOISON addr else g
    let d := match j.cmd.flag with
      | some f => d.writeFlagAt now 0 g f true
      | none => d.setGroup g
    d.engReport g code addr

/-- The completion element of an indirect job (R230). -/
def indElem (oorc status next : Nat) : BitVec 256 := BitVec.ofNat 256 (oorc % 2 ^ 32 * 2 ^ 96 + status * 2 ^ 64 + next % 2 ^ 17 * 2 ^ 24)

/-- An indirect job ends (R209): the element, the token entry, the bridge, the event line. -/
def Dev.indDone (d : Dev) (cl : Nat) (j : IndJob) (code next addr : Nat) : Dev :=
  let d := { d with indirect := d.indirect.modify cl Indirect.reset fun e => { e with job := none } }
  match d.groups.find j.cmd.gid with
  | none => d
  | some g =>
    let q := pushElem g.arch.indOut g.arch.indLost (indElem j.oorc code next)
    let br := { g.arch.bridge with indEvents := g.arch.bridge.indEvents + 1 }
    let g := { g with arch := { g.arch with indOut := q.1, indLost := q.2, indLines := pushLinesOf g.arch.indOut g.arch.indLines j.lines,
                                            indPending := g.arch.indPending - 1, bridge := br } }
    let g := { g with arch := g.arch.keepDone j.cmd.entry j.lines }
    let g := g.completeJob j.cmd.entry
    let g := if code = sPOISON then g.defer cPOISON addr else g
    ((d.setGroup g).engReport g code addr).pulse g j.cmd.ev

/-! When engines work. -/

/-- The engines of a group run while its context holds the slice and it runs or is parked (R218). -/
def Dev.engineRuns (d : Dev) (g : Group) : Bool := d.runs g.recd.launch && (g.status == .running || g.status == .parked)

/-- Every operation that a push released has been performed (R207); accesses to uncached-device pages are ordered by
`fence` alone (R290). -/
def Arch.released (a : Arch) (after : Nat) : Bool := a.gops.all fun o => after ≤ o.id || o.xl.typ == 2

/-- The launch's abort line is raised in the cluster of a group; the abort group's own jobs go on. -/
def Dev.stopsJobs (d : Dev) (g : Group) : Bool := match d.launchOf g with
  | some l => l.abortIn (clusterOfCell g.recd.home) && !g.isAbort
  | none => true

/-- An access of an engine has the grant it needs (R74, R211). -/
def Dev.granted (d : Dev) (g : Group) (isGlobal : Bool) : Bool := !isGlobal || (match d.launchOf g with
  | some l => l.granted g.gid
  | none => false)

def Dev.spend (d : Dev) (g : Group) (isGlobal : Bool) : Dev := if isGlobal then d.spendGrant g.recd.launch g.gid else d

end Sys2Proof.Machine
end

