-- ==== Sys2Proof/Machine/Engines.lean ====
section
/-!
DEFINITION. The copy engine, operand rings and the bridge (10_engines R206 to R226, R231, R235 to R240): `cpy`, `epop`,
`evw`, `xbar`, `rset`, `rpush`, `rpop`, and the steps of copy jobs and of the bridge.
-/

namespace Sys2Proof.Machine

/-! `cpy` (R223, R225). -/

def isMul (w : BitVec 32) (n : Nat) : Bool := w.toNat % n = 0

/-- Fields of E of `cpy`. -/
def cpyRe (e : Nat) : Bool := nbit e 24
def cpyRing (e : Nat) : Nat := nbits e 21 3
def cpyFl (e : Nat) : Bool := nbit e 20
def cpySlot (e : Nat) : Nat := nbits e 18 2
def cpyArm (e : Nat) : Nat := nbits e 16 2
def cpySs (e : Nat) : Nat := nbits e 14 2
def cpyDs (e : Nat) : Nat := nbits e 12 2
def cpyXs (e : Nat) : Nat := nbits e 6 6
def cpyXt (e : Nat) : Nat := nbits e 0 6

/-- The limits of the parameter words (R223, R225). -/
def cpyChecks (e : Nat) (w : BitVec 32 × BitVec 32 × BitVec 32 × BitVec 32) : List (BitVec 32 × List (Bool × Nat)) :=
  if cpyArm e = 3 then [(w.1, [(w.1 == 0, cACCESS)]), (w.2.1, [(w.2.1 == 0, cACCESS)]), (w.2.2.1, [(w.2.2.1 == 0, cACCESS)]),
    (w.2.2.2, [(w.2.2.2 == 0, cACCESS)])]
  else [(w.2.2.1, [(isMul w.2.2.1 128, cALIGN), (w.2.2.1.toNat < lsSize, cACCESS)]),
    (w.2.2.2, [(if cpyFl e then w.2.2.2.toNat < 1024 else w.2.2.2 == 0, cACCESS)])]

/-- A copy command built at issue, its shape record copied (R207, R223). -/
def buildCopy (e : Nat) (w : BitVec 32 × BitVec 32 × BitVec 32 × BitVec 32) : GM CopyCmd := do
  let xt ← readReg (.x (cpyXt e))
  let xs ← readReg (.x (cpyXs e))
  let rec_ ← localRead w.2.2.1.toNat 128
  return { ds := cpyDs e, ss := cpySs e, dbase := BitVec.ofNat 64 xt + w.1.signExtend 64, sbase := BitVec.ofNat 64 xs + w.2.1.signExtend 64,
           shape := parseShape rec_, re := cpyRe e, ring := cpyRing e, flag := if cpyFl e then some (w.2.2.2.toNat % 1024) else none,
           entry := none, seq := 0, after := 0, exch := false }

/-- The log charge of a copy job to global memory (R308): each chunk from CH0 on. -/
def copyCharge (c : CopyCmd) : Nat :=
  match c.shape with
  | none => 0
  | some s =>
    if c.ds ≠ 2 then 0
    else
      let w := eszBits s.esz
      let ce := chunkElems w
      (((List.range s.chunks).drop s.ch0).map fun k =>
        32 + 32 * (((min ce (s.total - k * ce)) * w / 8 + 31) / 32)).foldl (· + ·) 0

/-- A push takes its place among the group's ticketed instructions and pushes, and releases what came before (R207,
R307). -/
def takeSeq : GM (Nat × Nat) := do
  let a ← arch
  setArch fun a => { a with seq := a.seq + 1 }
  return (a.seq, a.nextId)

/-- The charge of a job of a group in a deterministic launch, none where it does not fit; after the abort line nothing is
charged (R309, R357). -/
def Dev.chargeJob (d : Dev) (g : Group) (charge : Nat) : Option Dev :=
  let drop := match d.launchOf g with
    | some l => l.drops g
    | none => false
  if d.modeOf g = .det ∧ charge ≠ 0 ∧ !drop then d.charge g charge else some d

/-- A push whose job writes global memory is charged first in a deterministic launch (R309). -/
def Dev.push (d : Dev) (clk : Clock) (g : Group) (charge : Nat) (m : GM Unit) (f : Dev → Group → Dev := fun d _ => d) : Except Stop Dev :=
  match d.chargeJob g charge with
  | none => .error (.trap cLOG_FULL (BitVec.ofNat 64 charge) none)
  | some d => d.finish clk g m fun d g _ => f d g

def execCpy (g : Guard) (t : TailP) (s : State) := s.onGroup fun clk d gr =>
  let tok := t.tk.toNat
  let e := t.e.toNat
  d.underGuardTok clk gr g tok fun gr =>
    let m : GM (Option CopyCmd) := do
      tokenRoom tok
      let w ← parWords t
      checkWords (cpyChecks e w)
      if cpyArm e = 3 then return none
      else
        let c ← buildCopy e w
        if cpyArm e = 0 then
          if 8 ≤ (← arch).copyIn.length then stop (.stall .fifo)
        return some c
    match m (d.env clk gr) gr with
    | .error st => .error st
    | .ok (none, gr) =>
      d.finish clk gr do
        setArch fun a => { a with copySlots := a.copySlots.setIfInBounds (cpySlot e) .empty }
        issueDone tok
        retire .fall
    | .ok (some c, gr) =>
      if cpyArm e = 0 then
        d.push clk gr (copyCharge c) do
          let p ← takeSeq
          let id ← issueEntry tok .job false false none [] []
          setArch fun a => { a with copyIn := a.copyIn ++ [{ c with entry := some (tok, id), seq := p.1, after := p.2 }] }
          retire .fall
      else
        d.finish clk gr do
          let v : Armed CopyCmd := if cpyArm e = 1 then .bridge c else .exchange c
          setArch fun a => { a with copySlots := a.copySlots.setIfInBounds (cpySlot e) v }
          issueDone tok
          retire .fall

/-! `epop` (R226). -/

/-- The element to pop, with LOST set where one was discarded before it: none where the pop waits (R210). -/
def popElem (fifo : List (BitVec 256)) (lost pending : Bool) : Option (BitVec 256 × List (BitVec 256) × Bool) :=
  match fifo with
  | e :: rest => some (if lost then e ||| BitVec.ofNat 256 (64 * 2 ^ 64) else e, rest, false)
  | [] => if pending then none else some (BitVec.ofNat 256 (31 * 2 ^ 64), [], lost)

def elemStatus (e : BitVec 256) : Nat := nbits e.toNat 64 5

/-- The four registers of a pop, from the lowest bits. -/
def popWrites (x : Nat) (e : BitVec 256) : List (RegRef × Nat) := (List.range 4).map fun i => (.x (x + i), nbits e.toNat (64 * i) 64)

/-- The pop: the element, and the lines of the data that it describes. -/
def epopBody (t : TailA) : GM (BitVec 256 × List Nat) := do
  let a ← arch
  let tok := t.e.toNat % 32
  let ind := nbit t.e.toNat 5
  tokenRoom tok
  let p := if ind then popElem a.indOut a.indLost (a.indPending ≠ 0)
    else popElem a.copyOut a.copyLost (!a.copyIn.isEmpty || a.copyJob.isSome)
  match p with
  | none => stop (.stall .epop)
  | some (e, rest, lost) =>
    let ws := popWrites t.d.toNat e
    let _ ← issueEntry tok .pop false false none (ws.map (·.1)) []
    let lines := (if ind then a.indLines else a.copyLines).headD []
    setArch fun a => if ind then { a with indOut := rest, indLost := lost, indLines := a.indLines.drop 1 }
      else { a with copyOut := rest, copyLost := lost, copyLines := a.copyLines.drop 1 }
    modify fun g => completeLast g tok ws
    retire .fall
    return (e, lines)

/-- The pop acquires the job's data (R209); that of an element with status BOUND writes its registers, then traps `BOUND`
with kval NEXT (R220). -/
def execEpop (g : Guard) (t : TailA) (s : State) := s.onGroup fun clk d gr =>
  d.underGuardTok clk gr g (t.e.toNat % 32) fun gr =>
    match epopBody t (d.env clk gr) gr with
    | .error st => .error st
    | .ok ((e, lines), gr') =>
      let d := (d.setGroup gr').dropLines gr'.core lines
      if !nbit t.e.toNat 5 ∧ elemStatus e = sBOUND then
        .ok (d.takeTrap clk gr' cBOUND (BitVec.ofNat 64 (nbits e.toNat 40 24)) gr'.arch.pc true false)
      else .ok d

/-- `evw` (R231): a latch that is set comes first, and the abort line only instead of it (DEDUCED, log 90); in an abort group it
completes at once with status 1 (R358). -/
def execEvw (g : Guard) (t : TailH) (s : State) := s.onCur (guarded g none do
  let a ← arch
  let ev := t.e.toNat
  if nbit a.latches.toNat ev && !(← get).isAbort then
    setArch fun a => { a with latches := a.latches &&& ~~~BitVec.ofNat 16 (2 ^ ev) }
    writeX t.d 0 1
  else if (← read).aborted then writeX t.d 1 1
  else stop (.stall (.evw ev))
  return .fall)

/-! Rings (R238 to R240). -/

/-- No queued matrix command and no copy job with RE names the ring (R239); `uses` says it of a matrix command. -/
def ringBusy (a : Arch) (k : Nat) (uses : MCmd → Nat → Bool) : Bool :=
  a.mu.queue.any (fun c => uses c k) || a.copyIn.any (fun c => c.re && c.ring = k) ||
  (match a.copyJob with
    | some j => j.cmd.re && j.cmd.ring = k
    | none => false)

/-- Words of `rset`: BASE with the limit on BASE + SIZE, SIZE, TILE (R239). -/
def rsetChecks (b s t : BitVec 32) (p3 : BitVec 32) : List (BitVec 32 × List (Bool × Nat)) :=
  let tile := t.toNat
  [(b, [(isMul b 256, cALIGN), (b.toNat + s.toNat ≤ lsSize, cACCESS)]),
   (s, [(tile = 0 || s.toNat % tile = 0, cALIGN),
        (tile = 0 || (1 ≤ s.toNat / tile && s.toNat / tile ≤ 4096), cACCESS)]),
   (t, [(isMul t 64, cALIGN), (64 ≤ tile && tile ≤ 65536, cACCESS)]),
   (p3, [(p3 == 0, cACCESS)])]

/-- Matrix commands that read a ring: MMA and MMAS, rings RA and RB in bits 17:15 and 20:18 of word 1 (R249, R251). -/
def mcmdUsesRing (c : MCmd) (k : Nat) : Bool :=
  let op := nbits (c.words.getD 0 0).toNat 0 4
  let w := (c.words.getD 1 0).toNat
  (op = 1 || op = 2) && (nbits w 15 3 = k || nbits w 18 3 = k)

def execRset (g : Guard) (t : TailP) (s : State) := s.onCur (guarded g none do
  let w ← parWords t
  checkWords (rsetChecks w.1 w.2.1 w.2.2.1 w.2.2.2)
  let k := t.e.toNat % 8
  if ringBusy (← arch) k mcmdUsesRing then stop (.stall .ring)
  setArch fun a => a.setRing k ⟨w.1.toNat, w.2.1.toNat, w.2.2.1.toNat, 0, 0⟩
  return .fall)

/-- A ring moved by up to n tiles (R240): the ring and xD. -/
def ringMove (r : Ring) (n : Nat) (push : Bool) : Ring × Nat :=
  let m := min n (if push then r.cap - r.occ else r.occ)
  let r := if push then { r with tail := r.tail + BitVec.ofNat 32 m } else { r with head := r.head + BitVec.ofNat 32 m }
  (r, m + 2 ^ 32 * r.occ)

def ringOp (g : Guard) (t : TailA) (push : Bool) : GM Unit :=
  guarded g (some (t.e.toNat % 32)) do
    let b ← readX t.b
    let k := t.a.toNat % 8
    let tok := t.e.toNat % 32
    tokenRoom tok
    let now := (← read).aclk
    let r := ringMove ((← arch).ring k) (b.toNat % 2 ^ 32) push
    let _ ← issueEntry tok .port false false (some (now + 4)) [.x t.d.toNat] [(.x t.d.toNat, r.2)]
    modify fun h => { h with ringAt := now + 1 }
    setArch fun a => a.setRing k r.1
    return .fall

def execRpush (g : Guard) (t : TailA) (s : State) := s.onCur (ringOp g t true)
def execRpop (g : Guard) (t : TailA) (s : State) := s.onCur (ringOp g t false)

/-! Copy jobs (R217 to R222). -/

/-- COPY_JOB_START: the next command becomes the job, at its first chunk; a broken record or base ends it, before the
access checks of its destination (DESIGN CHOICE, log 78). -/
def execCopyJobStart (gid : Nat) (s : State) := s.event fun clk d =>
  let now := clk.fclk
  match d.groups.find gid with
  | none => none
  | some g =>
    match g.arch.copyJob, g.arch.copyIn with
    | none, c :: rest =>
      if d.engineRuns g ∧ g.arch.released c.after then
        let j : CopyJob := { cmd := c, chunk := (c.shape.getD Shape.none).ch0, fp := Finger.reset, bf := false, elems := 0, lines := [] }
        let d := d.setGroup { g with arch := { g.arch with copyIn := rest, copyJob := some j } }
        match c.shape with
        | none => some (d.copyDone now gid { j with chunk := 0 } sSHAPE 0 0)
        | some sh =>
          let n := eszBits sh.esz / 8
          if 1 ≤ n ∧ (c.dbase.toNat % n ≠ 0 ∨ c.sbase.toNat % n ≠ 0) then some (d.copyDone now gid j sALIGN sh.ch0 0)
          else if c.exch ∧ c.ds = 2 then some (d.copyDone now gid j sACCESS sh.ch0 c.dbase.toNat)
          else some d
      else none
    | _, _ => none

/-- How a chunk ends before it writes: a status with an address, or poison. -/
inductive ChunkEnd where
  | status (code addr : Nat)
  | poison (addr : Nat)
  deriving DecidableEq, Repr

/-- Byte address of element e of width w from a base, and the bytes and bit offset that hold it (R215, R216). -/
def elemBytes (base : Word) (w : Nat) (e : Int) : Word × Nat × Nat :=
  if 8 ≤ w then (base + BitVec.ofInt 64 (e * (w / 8 : Nat)), w / 8, 0)
  else
    let b : Nat := e.toNat * w
    (base + BitVec.ofNat 64 (b / 8), if b % 8 + w ≤ 8 then 1 else 2, b % 8)

/-- The lower of two poisoned addresses. -/
def minPoison : Option Nat → Option Nat → Option Nat
  | some x, some y => some (min x y)
  | some x, none => some x
  | none, q => q

/-- Bytes read one by one: an element narrower than a byte may lie in two lines. -/
def Dev.readEach (d : Dev) (g : Group) (space : Nat) (a : Word) : Nat → Except (Nat × Nat) (Nat × Option Nat)
  | 0 => .ok (0, none)
  | n + 1 =>
    match d.engPlace g space a 1 .load with
    | .error e => .error e
    | .ok pl =>
      let r := d.engRead g 1 pl
      match Dev.readEach d g space (a + 1) n with
      | .error e => .error e
      | .ok (v, p) => .ok (r.1 + 256 * v, minPoison r.2 p)

/-- The bytes that hold an element. -/
def Dev.readElem (d : Dev) (g : Group) (space w : Nat) (a : Word) (n : Nat) : Except (Nat × Nat) (Nat × Option Nat) :=
  if w < 8 then d.readEach g space a n
  else
    match d.engPlace g space a n .load with
    | .error e => .error e
    | .ok pl => .ok (d.engRead g n pl)

/-- The source elements of a chunk, lowest poison kept apart (R217 step 1). A chunk with both a failing address and poison among its
elements ends with the status of the address (DESIGN CHOICE, log 89). -/
def Dev.readChunk (d : Dev) (g : Group) (c : CopyCmd) (w : Nat) (ds : List (Nat × Int × Int)) :
    Nat → Nat → Except (Nat × Nat) (List Nat × Option Nat)
  | 0, _ => .ok ([], none)
  | n + 1, k =>
    let b := elemBytes c.sbase w (elemAt ds k).1
    match d.readElem g c.ss w b.1 b.2.1 with
    | .error e => .error e
    | .ok r =>
      match Dev.readChunk d g c w ds n (k + 1) with
      | .error e => .error e
      | .ok (vs, p) => .ok (nbits r.1 b.2.2 w :: vs, minPoison r.2 p)

/-- A packing group as bytes. -/
def packed (w : Nat) : List Nat → Nat
  | [] => 0
  | v :: vs => v % 2 ^ w + 2 ^ w * packed w vs

/-- Pieces placed for a store, all with one ordinal. -/
def Dev.placePieces (d : Dev) (g : Group) (space k : Nat) :
    List (Word × Nat × Nat) → Except (Nat × Nat) (List (EPlace × Nat × Nat × Nat))
  | [] => .ok []
  | (a, n, v) :: ps =>
    match d.engPlace g space a n .store with
    | .error x => .error x
    | .ok pl =>
      match Dev.placePieces d g space k ps with
      | .error x => .error x
      | .ok rest => .ok ((pl, n, v, k) :: rest)

/-- The writes of a chunk by packing groups: place, bytes, value, ordinal (R216, R217 step 2). -/
def Dev.placeChunk (d : Dev) (g : Group) (c : CopyCmd) (w : Nat) (ds : List (Nat × Int × Int)) :
    Nat → Nat → List Nat → Except (Nat × Nat) (List (EPlace × Nat × Nat × Nat))
  | 0, _, _ => .ok []
  | n + 1, k, vs =>
    let gl := groupLen w
    let e := (elemAt ds k).2
    let a := if 8 ≤ w then c.dbase + BitVec.ofInt 64 (e * (w / 8 : Nat)) else c.dbase + BitVec.ofNat 64 (e.toNat * w / 8)
    match d.placePieces g c.ds k (groupPieces a (groupBytes w) (packed w (vs.take gl))) with
    | .error x => .error x
    | .ok pl =>
      match Dev.placeChunk d g c w ds n (k + gl) (vs.drop gl) with
      | .error x => .error x
      | .ok rest => .ok (pl ++ rest)

/-- Elements after the bound entries: the written patterns and BF, or a trap (R220). -/
def boundChunk (bnd : List Bound) (s : Shape) : List Nat → Option (List Nat × Bool)
  | [] => some ([], false)
  | v :: vs =>
    if !s.tidv then (boundChunk bnd s vs).map fun r => (v :: r.1, r.2)
    else
      let t := Ty.ofCode s.ty
      match boundsFrom s.tid bnd false (decodeVal t v) none with
      | .trap => none
      | .pass fl cl =>
        let v' := match cl with
          | some x => roundAny t x
          | none => v
        (boundChunk bnd s vs).map fun r => (v' :: r.1, r.2 || fl)

/-- The places from which a chunk's elements are read, with their bytes. -/
def Dev.chunkReads (d : Dev) (g : Group) (c : CopyCmd) (w : Nat) (ds : List (Nat × Int × Int)) (n k0 : Nat) : List (EPlace × Nat) :=
  (List.range n).filterMap fun i =>
    let b := elemBytes c.sbase w (elemAt ds (k0 + i)).1
    match d.engPlace g c.ss b.1 1 .load with
    | .ok pl => some (pl, b.2.1)
    | .error _ => none

/-- COPY_CHUNK: one chunk is read, checked and written, or the job ends (R217, R222). The bound entries are those that stand when the
chunk is performed (DESIGN CHOICE, log 88); of a failing destination address and a bound trap of one chunk the address is
reported (DESIGN CHOICE, log 89). -/
def Dev.copyChunk (d : Dev) (now : Nat) (g : Group) (j : CopyJob) (sh : Shape) : Option Dev :=
  let w := eszBits sh.esz
  let ce := chunkElems w
  let c := j.cmd
  let done := if sh.chunks ≤ j.chunk then true else false
  let isGlobal := (c.ss = 2 || c.ds = 2) && !done
  if d.stopsJobs g then some (d.copyDone now g.gid j sABORTED (min j.chunk sh.chunks) 0)
  else if done then some (d.copyDone now g.gid j sOK sh.chunks 0)
  else if !d.granted g isGlobal then none
  else
    let k0 := j.chunk * ce
    let n := min ce (sh.total - k0)
    let spent := d.spend g isGlobal
    match d.readChunk g c w sh.walk n k0 with
    | .error (code, a) => some (spent.copyDone now g.gid j code j.chunk a)
    | .ok (_, some a) =>
      if d.modeOf g = .det then some (d.askRollback g (BitVec.ofNat 64 a)) else some (spent.copyDone now g.gid j sPOISON j.chunk a)
    | .ok (vs, none) =>
      match boundChunk g.arch.m.bnd.toList sh vs with
      | none =>
        match d.placeChunk g c w sh.walk (n / groupLen w) k0 vs with
        | .error (code, a) => some (spent.copyDone now g.gid j code j.chunk a)
        | .ok _ => some (spent.copyDone now g.gid j sBOUND j.chunk 0)
      | some (ws, fl) =>
        match d.placeChunk g c w sh.walk (n / groupLen w) k0 ws with
        | .error (code, a) => some (spent.copyDone now g.gid j code j.chunk a)
        | .ok pls =>
          let d := (spent.engWrites g.gid c.after c.seq pls).touch g (d.chunkReads g c w sh.walk n k0 ++ pls.map fun p => (p.1, 0))
          match d.groups.find g.gid with
          | none => some d
          | some g =>
            let fp := if sh.fpe then ws.foldl (fun f v => f.add (Ty.ofCode sh.ty) v) j.fp else j.fp
            let j : CopyJob := { j with chunk := j.chunk + 1, fp := fp, bf := j.bf || fl, elems := j.elems + n,
                                           lines := linesOf (d.modeOf g) j.lines pls }
            some (d.setGroup { g with arch := { g.arch with copyJob := some j } })

/-- A job that would advance its ring ends no later in an aclk than the ring's other updates (R238). -/
def execCopyChunk (gid : Nat) (s : State) := s.event fun clk d =>
  match d.groups.find gid with
  | none => none
  | some g =>
    match g.arch.copyJob with
    | none => none
    | some j => if d.engineRuns g ∧ !(j.cmd.re && g.ringAt == clk.aclk + 1) then d.copyChunk clk.fclk g j (j.cmd.shape.getD Shape.none) else none

/-! The bridge (R235, R236). -/

/-- `xbar` (R236): the configuration takes effect from the fclk after issue. -/
def execXbar (g : Guard) (t : TailW) (s : State) := s.onCur (guarded g none do
  let now := (← read).fclk
  setArch fun a =>
    let b := { a.bridge with config := a.bridge.config ++ [(now, t.e, t.ext)] }
    { a with bridge := b }
  return .fall)

/-- One configuration applied. -/
def Bridge.apply (b : Bridge) (e ext : Nat) : Bridge :=
  match e % 4 with
  | 0 => { b with ec := b.ec.setIfInBounds (nbits e 2 4) ⟨nbits e 6 4, nbits e 10 10, ext % 2 ^ 16, 0⟩ }
  | 1 => { b with term := b.term.setIfInBounds (nbits e 2 3) (BitVec.ofNat 16 ext) }
  | 2 => { b with trg := b.trg.setIfInBounds (nbits e 2 3) ⟨BitVec.ofNat 8 ext, nbits e 5 2, nbits e 7 10⟩ }
  | _ => { b with ec := Vector.replicate 16 ⟨0, 0, 0, 0⟩, term := Vector.replicate 8 0, trg := Vector.replicate 8 ⟨0, 0, 0⟩ }

/-- Events of a source since the last evaluation. -/
def Bridge.events (b : Bridge) (c : EvCount) : Nat :=
  match c.src with
  | 1 => b.copyEvents
  | 2 => b.indEvents
  | 3 => (b.flagEvents.filter (· = c.arg)).length
  | 4 => (b.fired.filter (· = c.arg)).length
  | _ => 0

/-- A term is true when its mask is nonzero and every masked counter has reached its threshold. -/
def termTrue (ec : Vector EvCount 16) (mask : BitVec 16) : Bool :=
  mask ≠ 0 && (List.range 16).all fun i => !mask.getLsbD i || (match ec.toList[i]? with
    | some c => c.th ≤ c.c
    | none => false)

/-- The counters of a term consumed. -/
def consumeTerm (ec : Vector EvCount 16) (mask : BitVec 16) : Vector EvCount 16 :=
  (List.range 16).foldl (fun v i => if mask.getLsbD i then vecMod v i fun c => { c with c := c.c - c.th } else v) ec

/-- Triggers in ascending number: the counters left, the triggers fired and their actions. -/
def fireAll (terms : List (BitVec 16)) : List (Nat × Trig) → Vector EvCount 16 → Vector EvCount 16 × List Nat × List (Nat × Nat)
  | [], ec => (ec, [], [])
  | (n, t) :: rest, ec =>
    match ((List.range 8).filter fun i => t.mask.getLsbD i && termTrue ec (terms.getD i 0)).head? with
    | none => fireAll terms rest ec
    | some i =>
      let r := fireAll terms rest (consumeTerm ec (terms.getD i 0))
      (r.1, n :: r.2.1, (t.act, t.arg) :: r.2.2)

/-- One evaluation of the bridge in an fclk (R235). -/
def Bridge.eval (b : Bridge) (now : Nat) : Bridge :=
  let b := (b.config.filter fun c => c.1 < now).foldl (fun b c => b.apply c.2.1.toNat c.2.2.toNat) b
  let ec := b.ec.map fun c => { c with c := min 65535 (c.c + b.events c) }
  let r := fireAll b.term.toList ((List.range 8).zip b.trg.toList) ec
  { b with ec := r.1, fired := r.2.1, waiting := b.waiting ++ r.2.2.filter (fun a => a.1 ≠ 0), copyEvents := 0, indEvents := 0,
           flagEvents := [], config := b.config.filter fun c => !(c.1 < now), last := now }

/-- The bridge has something to evaluate or to do. -/
def Bridge.idle (b : Bridge) (now : Nat) : Bool :=
  b.copyEvents = 0 && b.indEvents = 0 && b.flagEvents.isEmpty && b.fired.isEmpty && b.waiting.isEmpty &&
  !(b.config.any fun c => c.1 < now) && (fireAll b.term.toList ((List.range 8).zip b.trg.toList) b.ec).2.1.isEmpty

/-- A job started by the bridge is charged when it starts; one that does not fit is not started (R309). -/
def Dev.startCopy (d : Dev) (g : Group) (c : CopyCmd) (exch : Bool) : Dev :=
  let charge := if exch then 0 else copyCharge c
  let c := { c with entry := none, seq := g.arch.seq, after := g.arch.nextId, exch := exch }
  let g' := { g with arch := { g.arch with copyIn := g.arch.copyIn ++ [c], seq := g.arch.seq + 1 } }
  match d.chargeJob g charge with
  | none => d.setGroup (g.defer cLOG_FULL charge)
  | some d => d.setGroup g'

end Sys2Proof.Machine
end

