-- ==== Sys2Proof/Machine/Indirect.lean ====
section
/-!
DEFINITION. The indirect engine and the end of the bridge (10_engines R206, R227 to R237): `gat`, `sca`, `chg`, `chs`,
the passes of their jobs, the chain function, the actions of the bridge and the exchange slots.
-/

namespace Sys2Proof.Machine

/-! Posting (R227). -/

def indArm (e : Nat) : Nat := nbits e 25 2
def indSlot (e : Nat) : Nat := nbits e 27 2

/-- Limits of the parameter words (R225, R227). -/
def indChecks (mode : Mode) (op : IndOp) (arm : Nat) (w : BitVec 32 × BitVec 32 × BitVec 32 × BitVec 32) :
    List (BitVec 32 × List (Bool × Nat)) :=
  if arm = 3 then [(w.1, [(w.1 == 0, cACCESS)]), (w.2.1, [(w.2.1 == 0, cACCESS)]), (w.2.2.1, [(w.2.2.1 == 0, cACCESS)]),
    (w.2.2.2, [(w.2.2.2 == 0, cACCESS)])]
  else
    let n := w.2.2.1.toNat % 2 ^ 16 + 1
    let table := op = .gat || op = .sca || op = .scaAdd
    [(w.1, [(isMul w.1 4, cALIGN), (w.1.toNat + 4 * n ≤ lsSize, cACCESS)]),
     (w.2.1, [(isMul w.2.1 8, cALIGN), (w.2.1.toNat < cluLimit mode, cACCESS)]),
     (w.2.2.1, [(if table then w.2.2.1.toNat < 2 ^ 28 else w.2.2.1.toNat < 2 ^ 16, cACCESS)]),
     (w.2.2.2, [(op ≠ .chg || w.2.2.2 == 0, cACCESS)])]

/-- The command built at issue, its chain descriptor copied (R207). -/
def buildInd (op : IndOp) (e : Nat) (w : BitVec 32 × BitVec 32 × BitVec 32 × BitVec 32) : GM IndCmd := do
  let chain := op = .chg || op = .chs
  let desc := e % 2 ^ 12 * 64
  let base ← if chain then pure 0 else readReg (.x (e % 64))
  if chain ∧ lsSize < desc + 144 then raise cACCESS (BitVec.ofNat 64 desc)
  let c ← if chain then (do return parseChain (← localRead desc 144)) else pure none
  return { op := op, list := w.1.toNat, clu := w.2.1.toNat, n := w.2.2.1.toNat % 2 ^ 16 + 1, row := (nbits w.2.2.1.toNat 16 12 + 1) * 8,
           stride := 8 * w.2.2.2.toNat, base := BitVec.ofNat 64 base, ev := nbits e 12 4, desc := c, eta := w.2.2.2.toNat,
           ty := nbits e 16 5, rd := nbits e 21 2, st := nbit e 23, entry := none, gid := (← get).gid, seq := 0, after := 0, exch := false,
           at_ := 0, core := 0 }

def Chain.size (c : Chain) : Nat := if c.bf16 then 2 else 4
def Chain.ty (c : Chain) : Ty := if c.bf16 then .bf16 else .f32
def Chain.nf (c : Chain) : Nat := c.factors.length
def Chain.addr (c : Chain) (f : Nat) : Nat := (c.factors.getD f (0, 0, 0)).1
def Chain.ef (c : Chain) (f : Nat) : Nat := (c.factors.getD f (0, 0, 0)).2.1
def Chain.rk (c : Chain) (f : Nat) : Nat := (c.factors.getD f (0, 0, 0)).2.2
/-- The rank before factor f (factors counted from 0). -/
def Chain.rkb (c : Chain) (f : Nat) : Nat := if f = 0 then 1 else c.rk (f - 1)
def Chain.elems (c : Chain) : Nat := c.factors.foldl (fun e f => e * f.2.1) 1
/-- Elements of one slice of factor f. -/
def Chain.slice (c : Chain) (f : Nat) : Nat := c.rkb f * c.ef f * c.rk f

/-- The log charge of an indirect job (R308). -/
def indCharge (c : IndCmd) : Nat :=
  match c.op with
  | .sca | .scaAdd => c.n * (32 + 32 * ((c.row + 31) / 32))
  | .chs => match c.desc with
    | none => 0
    | some ch => c.n * ((List.range ch.nf).map fun f => 32 + 32 * ((ch.slice f * ch.size + 31) / 32)).foldl (· + ·) 0
  | _ => 0

/-- A command after those of the queue, but before those that cores of higher numbers have posted in the same fclk. -/
def insertCmd (c : IndCmd) : List IndCmd → List IndCmd
  | [] => [c]
  | q :: qs => if q.at_ = c.at_ ∧ c.core < q.core then c :: q :: qs else q :: insertCmd c qs

/-- A command enters the queue of its group's cluster in arrival order; those of one fclk in ascending core (R206). -/
def Dev.postInd (d : Dev) (now : Nat) (g : Group) (c : IndCmd) : Dev :=
  let c := { c with at_ := now, core := (g.engCore).getD 0 }
  { d with indirect := d.indirect.modify (clusterOfCell g.recd.home) Indirect.reset fun e => { e with queue := insertCmd c e.queue } }

def Dev.execInd (d : Dev) (clk : Clock) (gr : Group) (g : Guard) (t : TailP) (op : IndOp) : Except Stop Dev :=
  let tok := t.tk.toNat
  let e := t.e.toNat
  d.underGuardTok clk gr g tok fun gr =>
    let m : GM (Option IndCmd) := do
      tokenRoom tok
      let w ← parWords t
      checkWords (indChecks (← read).mode op (indArm e) w)
      if indArm e = 3 then return none
      else
        let c ← buildInd op e w
        if indArm e = 0 then
          if 4 ≤ (← arch).indPending then stop (.stall .fifo)
        return some c
    let slot (v : Armed IndCmd) : Except Stop Dev := d.finish clk gr do
      setArch fun a => { a with indSlots := a.indSlots.setIfInBounds (indSlot e) v }
      issueDone tok
      retire .fall
    match m (d.env clk gr) gr with
    | .error st => .error st
    | .ok (none, _) => slot .empty
    | .ok (some c, gr) =>
      if indArm e = 1 then slot (.bridge c)
      else if indArm e = 2 then slot (.exchange c)
      else
        let post : GM Unit := do
          let _ ← takeSeq
          let _ ← issueEntry tok .job false false none [] []
          setArch fun a => { a with indPending := a.indPending + 1 }
          retire .fall
        d.push clk gr (indCharge c) post fun d g =>
          d.postInd clk.fclk g { c with entry := some (tok, g.arch.nextId - 1), seq := g.arch.seq - 1, after := g.arch.nextId - 1 }

def execGat (g : Guard) (t : TailP) (s : State) := s.onGroup fun clk d gr => d.execInd clk gr g t .gat
def execSca (g : Guard) (t : TailP) (s : State) := s.onGroup fun clk d gr =>
  d.execInd clk gr g t (if nbit t.e.toNat 24 then .scaAdd else .sca)
def execChg (g : Guard) (t : TailP) (s : State) := s.onGroup fun clk d gr => d.execInd clk gr g t .chg
def execChs (g : Guard) (t : TailP) (s : State) := s.onGroup fun clk d gr => d.execInd clk gr g t .chs

/-! Jobs. -/

/-- Reads of a pass: the lowest poisoned address met so far and the places used with the bytes read there, or the status and
address that end the job. -/
abbrev EM (α : Type) := StateT (Option Nat × List (EPlace × Nat)) (Except (Nat × Nat)) α

def lowerOf : Option Nat → Option Nat → Option Nat
  | some a, some b => some (min a b)
  | some a, none => some a
  | none, b => b

def Dev.eRead (d : Dev) (g : Group) (space : Nat) (a : Word) (n : Nat) : EM Nat := fun p =>
  match d.engPlace g space a n .load with
  | .error e => .error e
  | .ok pl =>
    let r := d.engRead g n pl
    .ok (r.1, lowerOf p.1 r.2, (pl, n) :: p.2)

def Dev.ePlace (d : Dev) (g : Group) (space : Nat) (a : Word) (n : Nat) (acc : Acc) : EM EPlace := fun p =>
  match d.engPlace g space a n acc with
  | .error e => .error e
  | .ok pl => .ok (pl, p.1, (pl, 0) :: p.2)

/-- The job of a cluster with its group, when the group's engines run or the job is in its apply pass (R229). -/
def Dev.indRun (d : Dev) (cl : Nat) : Option (IndJob × Group) :=
  match (d.indirect.getD cl Indirect.reset).job with
  | none => none
  | some j =>
    match d.groups.find j.cmd.gid with
    | none => none
    | some g => if d.engineRuns g ∨ j.applying then some (j, g) else none

def Dev.setInd (d : Dev) (cl : Nat) (j : IndJob) : Dev :=
  { d with indirect := d.indirect.modify cl Indirect.reset fun e => { e with job := some j } }

/-- A job that applies nothing, or everything: NEXT of an end before its apply pass is 0 (R229, R234). -/
def IndJob.nextDone (j : IndJob) : Nat := if j.cmd.op = .scaAdd ∨ j.cmd.op = .chs then 0 else j.next

/-- One pass or chunk of a job with one of these operations: the abort line stops it at the boundary; poison ends it,
or rolls a deterministic superstep back (R222, R363); a failing address ends it. `glob`: it accesses global memory, and
takes a grant (R74, R302). -/
def Dev.indPass {α : Type} (d : Dev) (cl : Nat) (sel : IndJob → Bool) (glob : Dev → IndJob → Group → Bool)
    (m : IndJob → Group → EM α) (f : Dev → IndJob → Group → α → Dev) : Option Dev :=
  match d.indRun cl with
  | none => none
  | some (j, g) =>
    let isGlobal := glob d j g
    if !sel j then none
    else if d.stopsJobs g ∧ !j.applying then some (d.indDone cl j sABORTED j.nextDone 0)
    else if !d.granted g isGlobal then none
    else
      match m j g (none, []) with
      | .error (code, a) => some ((d.spend g isGlobal).indDone cl j code j.nextDone a)
      | .ok (_, some a, _) =>
        if d.modeOf g = .det then some (d.askRollback g (BitVec.ofNat 64 a))
        else some ((d.spend g isGlobal).indDone cl j sPOISON j.nextDone a)
      | .ok (x, none, ps) => some (f ((d.spend g isGlobal).touch g ps) j g x)

/-- The oldest command of the queue whose group's engines run, and the rest (R206: arrival order). -/
def takeCmd (ok : IndCmd → Bool) : List IndCmd → Option (IndCmd × List IndCmd)
  | [] => none
  | c :: cs => if ok c then some (c, cs) else (takeCmd ok cs).map fun r => (r.1, c :: r.2)

/-- A base or factor address that is no multiple ends the job with ALIGN; a broken descriptor with SHAPE (R227, R232). -/
def indStartStatus (c : IndCmd) : Option Nat :=
  match c.op with
  | .chg | .chs => match c.desc with
    | none => some sSHAPE
    | some ch => if (List.range ch.nf).any (fun f => ch.addr f % ch.size ≠ 0) then some sALIGN else none
  | _ => if c.base.toNat % 8 ≠ 0 then some sALIGN else none

/-- INDIRECT_JOB_START (R206): a job saved with its group goes on first, otherwise the oldest command starts, once what its
push released is performed; not in the fclk of its post, whose posts are still being put in order. -/
def execIndirectJobStart (cluster : Nat) (s : State) := s.event fun clk d =>
  let e := d.indirect.getD cluster Indirect.reset
  let runs (gid : Nat) : Bool := match d.groups.find gid with
    | none => false
    | some g => d.engineRuns g
  match e.job with
  | some j =>
    if runs j.cmd.gid ∨ j.applying then none
    else some { d with indirect := d.indirect.put cluster { e with job := none, aside := e.aside ++ [(groupKey j.cmd.gid, some j.restart, [])] } }
  | none =>
    match e.aside.find? (fun a => 1024 ≤ a.1 && runs (a.1 - 1024)) with
    | some a => some { d with indirect := d.indirect.put cluster { e with job := a.2.1, aside := e.aside.erase a } }
    | none =>
      let ready (c : IndCmd) : Bool := c.at_ < clk.fclk && (match d.groups.find c.gid with
        | none => false
        | some g => g.arch.released c.after)
      match takeCmd (fun c => runs c.gid) e.queue with
      | none => none
      | some (c, rest) =>
        if !ready c then none else
        let j : IndJob := { cmd := c, next := 0, oorc := 0, merged := false, ups := [], bad := none, lines := [] }
        let d := { d with indirect := d.indirect.put cluster { e with job := some j, queue := rest } }
        match indStartStatus c with
        | some st => some (d.indDone cluster j st 0 0)
        | none => some d

/-- Index k of the list (R227). -/
def Dev.index (d : Dev) (g : Group) (c : IndCmd) (k : Nat) : EM Nat := d.eRead g 0 (BitVec.ofNat 64 (c.list + 4 * k)) 4

/-- Entries of one chunk (R228). -/
def chunkOf (row n next : Nat) : List Nat := (List.range (min (max 1 (4096 / row)) (n - next))).map (next + ·)

/-- The units of 8 bytes of a row. -/
def rowUnits (row : Nat) : List Nat := (List.range (row / 8)).map (8 * ·)

def tableVa (c : IndCmd) (x off : Nat) : Word := c.base + BitVec.ofNat 64 (c.stride * x + off)
def cluVa (c : IndCmd) (row k off : Nat) : Word := BitVec.ofNat 64 (c.clu + k * row + off)

/-- The job goes on after a chunk, or is complete. -/
def Dev.indNext (d : Dev) (cl : Nat) (j : IndJob) : Dev :=
  if j.cmd.n ≤ j.next then d.indDone cl j sOK j.cmd.n 0 else d.setInd cl j

/-- The moves of a chunk of rows: destination, value and ordinal of each unit (R228). -/
def Dev.moveRows (d : Dev) (g : Group) (c : IndCmd) (gather : Bool) (ks : List Nat) : EM (List (EPlace × Nat × Nat × Nat)) := do
  let xs ← ks.mapM fun k => do return (k, ← d.index g c k)
  let us := xs.flatMap fun kx => (rowUnits c.row).map fun o => (kx.1, kx.2, o)
  let vs ← us.mapM fun (k, x, o) =>
    if gather then d.eRead g 2 (tableVa c x o) 8 else d.eRead g 1 (cluVa c c.row k o) 8
  let pls ← us.mapM fun (k, x, o) =>
    if gather then d.ePlace g 1 (cluVa c c.row k o) 8 .store else d.ePlace g 2 (tableVa c x o) 8 .store
  return (pls.zip (vs.zip us)).map fun (pl, v, k, _, o) => (pl, 8, v, k * (c.row / 8) + o / 8)

def Dev.rowChunk (d : Dev) (cl : Nat) (op : IndOp) (gather : Bool) : Option Dev :=
  d.indPass cl (fun j => j.cmd.op = op) (fun _ _ _ => true) (fun j g => d.moveRows g j.cmd gather (chunkOf j.cmd.row j.cmd.n j.next))
    fun d j g ws =>
      let d := d.engWrites g.gid j.cmd.after j.cmd.seq ws
      d.indNext cl { j with next := j.next + (chunkOf j.cmd.row j.cmd.n j.next).length, lines := linesOf (d.modeOf g) j.lines ws }

def execGatherChunk (cluster : Nat) (s : State) := s.event fun _ d => d.rowChunk cluster .gat true
def execScatterChunk (cluster : Nat) (s : State) := s.event fun _ d => d.rowChunk cluster .sca false

/-! `sca.add` (R229). -/

/-- Rows summed by distinct index, in order of first occurrence. -/
def mergeRow (t : Ty) (rd : Rnd) (st : Bool) (x : Nat) (row : List Nat) : List (Nat × List Nat) → List (Nat × List Nat)
  | [] => [(x, row)]
  | (y, s) :: rest =>
    if x = y then (y, (s.zip row).map fun p => tyAdd t rd st p.1 p.2) :: rest else (y, s) :: mergeRow t rd st x row rest

def Dev.mergePass (d : Dev) (g : Group) (c : IndCmd) : EM (List (Nat × Xlat × Nat)) := do
  let t := Ty.ofCode c.ty
  let n := t.width / 8
  let offs := (List.range (c.row / n)).map (n * ·)
  let entries ← (List.range c.n).mapM fun k => do
    let x ← d.index g c k
    return (x, ← offs.mapM fun o => d.eRead g 1 (cluVa c c.row k o) n)
  let sums := entries.foldl (fun acc e => mergeRow t (Rnd.ofCode c.rd) c.st e.1 e.2 acc) []
  let targets := sums.flatMap fun xs => (offs.zip xs.2).map fun os => (tableVa c xs.1 os.1, os.2)
  let ups ← targets.mapM fun (va, s) => do
    match ← d.ePlace g 2 va n .rmw with
    | .glb a x => return [(a, x, s)]
    | _ => return []
  if d.modeOf g = .free then
    for t in targets do
      let _ ← d.eRead g 2 t.1 n
  return ups.flatten

/-- Bytes of a target element of `sca.add`. -/
def IndCmd.elemSize (c : IndCmd) : Nat := (Ty.ofCode c.ty).width / 8

/-- The target elements that one grant of an interleave launch reads: 4 KiB (R74). -/
def IndJob.nextTargets (j : IndJob) : List (Nat × Xlat × Nat) := (j.ups.drop j.next).take (4096 / j.cmd.elemSize)

/-- The places of updates, with the bytes of an element. -/
def updPlaces (n : Nat) (us : List (Nat × Xlat × Nat)) : List (EPlace × Nat) := us.map fun u => (EPlace.glb u.1 u.2.1, n)

/-- The next 4 KiB of the target elements are read; the job ends, after the last of them, by the lowest poisoned address
(R229). -/
def Dev.readTargets (d : Dev) (j : IndJob) : EM IndJob := fun p =>
  let us := j.nextTargets
  let bad := us.foldl (fun b u => lowerOf b (if (d.readIn d.ms u.2.1 j.cmd.elemSize).2.isSome then some u.1 else none)) j.bad
  let k := j.next + us.length
  if k < j.ups.length then .ok ({ j with next := k, bad := bad }, p)
  else .ok ({ j with merged := true, next := 0, bad := none }, lowerOf p.1 bad, p.2)

/-- SCA_ADD_MERGE_PASS: every check is made before any addition. In an interleave launch the sums, which touch no global
memory, take no grant; then each grant reads 4 KiB of the target elements (R74, R302). -/
def execScaAddMergePass (cluster : Nat) (s : State) := s.event fun _ d =>
  d.indPass cluster (fun j => j.cmd.op = .scaAdd && !j.merged) (fun d j g => d.modeOf g ≠ .ilv || !j.ups.isEmpty)
    (fun j g => if j.ups.isEmpty then do
        let ups ← d.mergePass g j.cmd
        return { j with merged := d.modeOf g ≠ .ilv, next := 0, ups := ups, bad := none }
      else d.readTargets j)
    fun d was g j => (d.foundBy g (updPlaces was.cmd.elemSize was.nextTargets)).setInd cluster j

/-- Updates in the sync engine: the device, and the first poisoned element met, which takes none; `bytes` gives those of an
element that are written (R292). -/
def Dev.applyNow (d : Dev) (asid : BitVec 12) (n : Nat) (bytes : Nat → Nat) (f : Nat → Nat → Nat) :
    List (Nat × Xlat × Nat) → Option Nat → Dev × Option Nat
  | [], p => (d, p)
  | (va, x, v) :: ups, p =>
    match d.readIn d.ms x n with
    | (_, some _) => Dev.applyNow d asid n bytes f ups (lowerOf p (some va))
    | (old, none) => Dev.applyNow (d.writeX x asid n (f v old) (bytes x.pa)) asid n bytes f ups p

/-- The updates as ticketed reductions, in order (R211). -/
def Dev.logUps (d : Dev) (g : Group) (seq n : Nat) (kind : Nat → GOpKind) : List (Nat × Xlat × Nat) → Nat → Dev
  | [], _ => d
  | (va, x, v) :: ups, sub =>
    Dev.logUps (d.logOp g { opOf (kind v) (BitVec.ofNat 64 va) n x none 0 false 0 with seq := seq, sub := sub }) g seq n kind ups (sub + 1)

/-- The apply pass of a job: element bytes, the update at once, and as a logged operation. In an interleave launch each
4 KiB of updates is one access (R74). -/
def Dev.applyPass (d : Dev) (cl : Nat) (j : IndJob) (g : Group) (n : Nat) (f : Nat → Nat → Nat) (kind : Nat → GOpKind) : Dev :=
  let mode := d.modeOf g
  if mode = .det then (d.logUps g j.cmd.seq n kind j.ups 0).indDone cl j sOK j.cmd.n 0
  else
    let m := if mode = .ilv then max 1 (4096 / n) else j.ups.length
    let now := j.ups.take m
    let d := d.foundBy g (updPlaces n now)
    let bytes (pa : Nat) : Nat := d.jobBytes g j.cmd.after pa n
    let r := d.applyNow (d.asidOf g) n bytes f now j.bad
    let r := (now.foldl (fun (d : Dev) (u : Nat × Xlat × Nat) => d.notePos g.gid j.cmd.after u.2.1.pa n (bytes u.2.1.pa)) r.1, r.2)
    let j := { j with ups := j.ups.drop m, bad := r.2, next := j.next + 1,
                      lines := addBlocks j.lines (now.map fun (u : Nat × Xlat × Nat) => u.2.1.pa / 256) }
    if j.ups.isEmpty then
      match j.bad with
      | none => r.1.indDone cl j sOK j.cmd.n 0
      | some a => r.1.indDone cl j sPOISON j.cmd.n a
    else r.1.setInd cl j

/-- The apply pass has updates to make. -/
def IndJob.hasUps (_ : Dev) (j : IndJob) (_ : Group) : Bool := !j.ups.isEmpty

def execScaAddApplyPass (cluster : Nat) (s : State) := s.event fun _ d =>
  d.indPass cluster (fun j => j.cmd.op = .scaAdd && j.merged) IndJob.hasUps (fun _ _ => pure ()) fun d j g _ =>
    let c := j.cmd
    let t := Ty.ofCode c.ty
    d.applyPass cluster j g (t.width / 8) (fun v old => tyAdd t (Rnd.ofCode c.rd) c.st old v) (fun v => .red c.ty c.rd c.st false v 0)

/-! The chain function (R232 to R234). -/

/-- A chain: one rounded product, then fused additions (R55, R234). -/
def chainDot (t : Ty) : List (Nat × Nat) → Nat
  | [] => 0
  | (a, b) :: ps => ps.foldl (fun acc p => fmaRne t p.1 p.2 acc) (mulRne t a b)

/-- rows × inner times inner × cols. -/
def chainMul (t : Ty) (rows inner cols : Nat) (p q : List Nat) : List Nat :=
  (List.range rows).flatMap fun i => (List.range cols).map fun c =>
    chainDot t ((List.range inner).map fun j => (p.getD (i * inner + j) 0, q.getD (j * cols + c) 0))

/-- Digits of an index, the most significant first: none where the index is out of range. -/
def digits (b : Nat) : Nat → Nat → List Nat
  | 0, _ => []
  | n + 1, x => digits b n (x / b) ++ [x % b]

def Chain.digits (c : Chain) (x : Nat) : Option (List Nat) := if c.b ^ c.nf ≤ x then none else some (Machine.digits c.b c.nf x)

/-- Addresses of a slice of a factor, in the order of its elements (R232). -/
def Chain.sliceVas (c : Chain) (f s : Nat) : List Word :=
  (List.range (c.slice f)).map fun i => BitVec.ofNat 64 (c.addr f + c.size * (s * c.slice f + i))

def Dev.readSlices (d : Dev) (g : Group) (c : Chain) (ds : List Nat) : EM (List (List Nat)) :=
  (List.range c.nf).mapM fun f => (c.sliceVas f (ds.getD f 0)).mapM fun va => d.eRead g 2 va c.size

/-- The product of factors 0 to f - 1, as rows by the rank before factor f; empty where f is 0. -/
def Chain.left (c : Chain) (gs : List (List Nat)) : Nat → List Nat
  | 0 => []
  | 1 => gs.getD 0 []
  | f + 1 =>
    let rows := (List.range f).foldl (fun n i => n * c.ef i) 1
    chainMul c.ty rows (c.rkb f) (c.ef f * c.rk f) (Chain.left c gs f) (gs.getD f [])

/-- The product of the last k factors, formed from the last downward: the rank before them by their extents. -/
def Chain.right (c : Chain) (gs : List (List Nat)) : Nat → List Nat
  | 0 => []
  | 1 => gs.getD (c.nf - 1) []
  | k + 1 =>
    let f := c.nf - 1 - k
    let cols := ((List.range k).map fun i => c.ef (c.nf - 1 - i)).foldl (· * ·) 1
    chainMul c.ty (c.rkb f * c.ef f) (c.rk f) cols (gs.getD f []) (Chain.right c gs k)

/-- The quiet NaN with payload 1 of an out-of-range row (R233). -/
def Chain.outRow (c : Chain) : List Nat := List.replicate c.elems (nanPattern c.ty false 1)

/-- One row of the virtual table, and 1 where its index is out of range. -/
def Dev.chainRow (d : Dev) (g : Group) (c : IndCmd) (ch : Chain) (k : Nat) : EM (List Nat × Nat) := do
  match ch.digits (← d.index g c k) with
  | none => return (ch.outRow, 1)
  | some ds => do return (ch.left (← d.readSlices g ch ds) ch.nf, 0)

def noChain : Chain := ⟨false, 2, [(0, 1, 1)]⟩
def IndCmd.chain (c : IndCmd) : Chain := c.desc.getD noChain
def Chain.rowBytes (c : Chain) : Nat := c.elems * c.size

def Dev.chainChunk (d : Dev) (g : Group) (j : IndJob) : EM (List (EPlace × Nat × Nat × Nat) × Nat) := do
  let c := j.cmd
  let ch := c.chain
  let ks := chunkOf ch.rowBytes c.n j.next
  let rows ← ks.mapM fun k => do return (k, ← d.chainRow g c ch k)
  let ws ← rows.mapM fun (k, vs, _) => ((List.range ch.elems).zip vs).mapM fun (i, v) => do
    let pl ← d.ePlace g 1 (cluVa c ch.rowBytes k (i * ch.size)) ch.size .store
    return (pl, ch.size, v, k * ch.elems + i)
  return (ws.flatten, (rows.map (·.2.2)).foldl (· + ·) 0)

/-- One of some entries has an index in range: the pass over them reads global memory (R233, R302). -/
def Dev.anyInRange (d : Dev) (g : Group) (c : IndCmd) (ks : List Nat) : Bool :=
  match (ks.mapM fun k => d.index g c k) (none, []) with
  | .ok (xs, _) => xs.any fun x => (c.chain.digits x).isSome
  | .error _ => false

/-- Entries that the next event of a chain job handles: a chunk of a gather, or of the read pass of `chs` in an interleave
launch; else the whole pass. -/
def Dev.chainEntries (d : Dev) (j : IndJob) (g : Group) : List Nat :=
  if j.cmd.op = .chs ∧ d.modeOf g ≠ .ilv then (List.range (j.cmd.n - j.next)).map (j.next + ·)
  else chunkOf j.cmd.chain.rowBytes j.cmd.n j.next

/-- CHAIN_GATHER: the next chunk of rows is formed and written (R233, R228). -/
def execChainGather (cluster : Nat) (s : State) := s.event fun _ d =>
  d.indPass cluster (fun j => j.cmd.op = .chg) (fun d j g => d.anyInRange g j.cmd (d.chainEntries j g)) (fun j g => d.chainChunk g j) fun d j g r =>
    let d := d.engWrites g.gid j.cmd.after j.cmd.seq r.1
    d.indNext cluster { j with next := j.next + (chunkOf j.cmd.chain.rowBytes j.cmd.n j.next).length, oorc := j.oorc + r.2 }

/-- The gradient of factor f for one entry (R234): D_f in the order of the slice's elements. -/
def Chain.grad (c : Chain) (gs : List (List Nat)) (row : List Nat) (f : Nat) : List Nat :=
  let t := c.ty
  let nl := (List.range f).foldl (fun n i => n * c.ef i) 1
  let nr := ((List.range c.nf).drop (f + 1)).foldl (fun n i => n * c.ef i) 1
  let e := c.ef f
  let r := c.rk f
  let right := c.right gs (c.nf - 1 - f)
  let tt : List Nat := if f + 1 = c.nf then row
    else (List.range (nl * e)).flatMap fun li => (List.range r).map fun b =>
      chainDot t ((List.range nr).map fun q => (row.getD (li * nr + q) 0, right.getD (b * nr + q) 0))
  let left := c.left gs f
  if f = 0 then tt
  else (List.range (c.rkb f)).flatMap fun a => (List.range (e * r)).map fun ib =>
    chainDot t ((List.range nl).map fun l => (left.getD (l * c.rkb f + a) 0, tt.getD (l * (e * r) + ib) 0))

/-- The updates of one entry, and 1 where its index is out of range. -/
def Dev.chsEntry (d : Dev) (g : Group) (c : IndCmd) (ch : Chain) (k : Nat) : EM (List (Nat × Xlat × Nat) × Nat) := do
  match ch.digits (← d.index g c k) with
  | none => return ([], 1)
  | some ds =>
    let gs ← d.readSlices g ch ds
    let row ← (List.range ch.elems).mapM fun i => d.eRead g 1 (cluVa c ch.rowBytes k (i * ch.size)) ch.size
    let ups ← (List.range ch.nf).mapM fun f =>
      ((ch.sliceVas f (ds.getD f 0)).zip (ch.grad gs row f)).mapM fun (va, v) => do
        match ← d.ePlace g 2 va ch.size .rmw with
        | .glb a x => return [(a, x, v)]
        | _ => return []
    return (ups.flatten.flatten, 0)

/-- CHS_READ_PASS: every gradient from factor values before any update of the job; every address is checked. -/
def execChsReadPass (cluster : Nat) (s : State) := s.event fun _ d =>
  d.indPass cluster (fun j => j.cmd.op = .chs && !j.merged) (fun d j g => d.anyInRange g j.cmd (d.chainEntries j g))
    (fun j g => (d.chainEntries j g).mapM fun k => d.chsEntry g j.cmd j.cmd.chain k)
    fun d j g (rs : List (List (Nat × Xlat × Nat) × Nat)) =>
      let k := j.next + (d.chainEntries j g).length
      let j := { j with ups := j.ups ++ (rs.map fun (r : List (Nat × Xlat × Nat) × Nat) => r.1).flatten, oorc := j.oorc + (rs.map fun (r : List (Nat × Xlat × Nat) × Nat) => r.2).foldl (· + ·) 0 }
      d.setInd cluster (if j.cmd.n ≤ k then { j with merged := true, next := 0 } else { j with next := k })

/-- fma(η, D, old) with one rounding in FMT; η is a binary32 pattern. -/
def fmaEta (t : Ty) (eta v old : Nat) : Nat := roundF t .rne false (FVal.fma .rne (decodeVal .f32 eta) (decodeVal t v) (decodeVal t old))

/-- CHS_APPLY_PASS. -/
def execChsApplyPass (cluster : Nat) (s : State) := s.event fun _ d =>
  d.indPass cluster (fun j => j.cmd.op = .chs && j.merged) IndJob.hasUps (fun _ _ => pure ()) fun d j g _ =>
    let ch := j.cmd.chain
    d.applyPass cluster j g ch.size (fmaEta ch.ty j.cmd.eta) (fun v => .red (if ch.bf16 then 9 else 10) 0 false true j.cmd.eta v)

/-! Jobs that the bridge and the exchange phase start (R235, R237, R309). -/

/-- An armed indirect command is posted; it takes no token. One that the bridge starts is charged when it starts, and not
started where it does not fit (R309). -/
def Dev.startInd (d : Dev) (now : Nat) (g : Group) (c : IndCmd) (exch : Bool) : Dev :=
  let charge := if exch then 0 else indCharge c
  let c := { c with entry := none, seq := g.arch.seq, after := g.arch.nextId, exch := exch }
  let g' := { g with arch := { g.arch with indPending := g.arch.indPending + 1, seq := g.arch.seq + 1 } }
  match d.chargeJob g charge with
  | none => d.setGroup (g.defer cLOG_FULL charge)
  | some d => (d.setGroup g').postInd now g c

/-- One waiting action of the bridge: done, or not yet possible. -/
def Dev.bridgeAct (d : Dev) (now : Nat) (g : Group) (a : Nat × Nat) : Option Dev :=
  match a.1 with
  | 1 => match g.arch.copySlots.toList.getD a.2 .empty with
    | .bridge c => if 8 ≤ g.arch.copyIn.length then none else some (d.startCopy g c false)
    | _ => some d
  | 2 => match g.arch.indSlots.toList.getD a.2 .empty with
    | .bridge c => if 4 ≤ g.arch.indPending then none else some (d.startInd now g c false)
    | _ => some d
  | _ => some (d.writeFlagAt now 1 g a.2 true)

/-- Waiting actions in order, up to the first that must wait. -/
def Dev.bridgeActs (d : Dev) (now gid : Nat) : List (Nat × Nat) → Dev
  | [] => d
  | a :: rest =>
    match d.groups.find gid with
    | none => d
    | some g =>
      match d.bridgeAct now g a with
      | none => d
      | some d =>
        match d.groups.find gid with
        | none => d
        | some g =>
          let b := { g.arch.bridge with waiting := rest }
          Dev.bridgeActs (d.setGroup { g with arch := { g.arch with bridge := b } }) now gid rest

/-- A bridge works while its group is on its core (R342) and there is something to do in this fclk. -/
def Dev.bridgeDue (d : Dev) (now : Nat) (g : Group) : Bool := d.engineRuns g && g.core.isSome && g.arch.bridge.last < now && !g.arch.bridge.idle now

/-- BRIDGE_EVALUATE (R235): once in an fclk, when its events are all counted. -/
def execBridgeEvaluate (gid : Nat) (s : State) := s.event fun clk d =>
  match d.groups.find gid with
  | none => none
  | some g =>
    if clk.closing ∧ d.bridgeDue clk.fclk g then
      let b := g.arch.bridge.eval clk.fclk
      let g := { g with arch := { g.arch with bridge := b } }
      some ((d.setGroup g).bridgeActs clk.fclk gid b.waiting)
    else none

/-- The exchange slots of a member start in ascending order, copy slots first (R237). -/
def Dev.startExchange (d : Dev) (now gid : Nat) : Dev :=
  let d := (List.range 4).foldl (fun d i =>
    match d.groups.find gid with
    | none => d
    | some g => match g.arch.copySlots.toList.getD i .empty with
      | .exchange c => d.startCopy g c true
      | _ => d) d
  (List.range 4).foldl (fun d i =>
    match d.groups.find gid with
    | none => d
    | some g => match g.arch.indSlots.toList.getD i .empty with
      | .exchange c => d.startInd now g c true
      | _ => d) d

end Sys2Proof.Machine
end

