-- ==== Sys2Proof/Machine/Matrix.lean ====
section
/-!
DEFINITION. The commands of the matrix unit (12_matrix_unit R244 to R253, R261 to R267; 13_sparse_tiles R279): their
fields, their checks, their push, the instructions that build them, `mstat`, and the queue window.
-/

namespace Sys2Proof.Machine

/-! Fields of a command (R249). -/

/-- The 512 bits of a command, word 0 lowest. -/
def ofWords : List Word → Nat
  | [] => 0
  | w :: ws => w.toNat + 2 ^ 64 * ofWords ws

def toWords (n : Nat) : Nat → List Word
  | 0 => []
  | k + 1 => BitVec.ofNat 64 n :: toWords (n / 2 ^ 64) k

/-- w bits from bit lo of word i. -/
def MCmd.f (c : MCmd) (i lo w : Nat) : Nat := nbits (c.words.getD i 0).toNat lo w

def MCmd.op (c : MCmd) : Nat := c.f 0 0 4
def MCmd.at64 (c : MCmd) : Bool := c.f 0 11 1 = 1
def MCmd.bw (c : MCmd) : Nat := if c.at64 then 16 else 32
def MCmd.nb (c : MCmd) : Nat := c.f 0 14 3 + 1
def MCmd.m (c : MCmd) : Nat := 32 * (c.f 0 12 2 + 1)
def MCmd.n (c : MCmd) : Nat := c.bw * c.nb
def MCmd.slot (c : MCmd) : Nat := c.f 0 17 5
def MCmd.fa (c : MCmd) : Nat := c.f 0 22 5
def MCmd.fb (c : MCmd) : Nat := c.f 0 27 5
def MCmd.mxa (c : MCmd) : Bool := c.f 0 32 1 = 1
def MCmd.mxb (c : MCmd) : Bool := c.f 0 33 1 = 1
def MCmd.tida (c : MCmd) : Nat := c.f 0 40 8
def MCmd.tidb (c : MCmd) : Nat := c.f 0 48 8
def MCmd.k (c : MCmd) : Nat := c.f 1 0 13
def MCmd.ra (c : MCmd) : Nat := c.f 1 15 3
def MCmd.rb (c : MCmd) : Nat := c.f 1 18 3
def MCmd.ka (c : MCmd) : Bool := c.f 1 21 1 = 1
def MCmd.kb (c : MCmd) : Bool := c.f 1 22 1 = 1
def MCmd.acc (c : MCmd) : Bool := c.f 1 23 1 = 1
def MCmd.count (c : MCmd) : Nat := c.f 1 0 6
def MCmd.rstr (c : MCmd) : Nat := c.f 1 0 24
def MCmd.ot (c : MCmd) : Nat := c.f 1 24 5
def MCmd.st (c : MCmd) : Bool := c.f 1 29 1 = 1
/-- Element space: DS of DRAIN, SS of LOAD. -/
def MCmd.ds (c : MCmd) : Bool := c.f 1 30 1 = 1
def MCmd.cs (c : MCmd) : Bool := c.f 1 31 1 = 1
def MCmd.clr (c : MCmd) : Bool := c.f 1 32 1 = 1
def MCmd.tidv (c : MCmd) : Bool := c.f 1 33 1 = 1
def MCmd.tidd (c : MCmd) : Nat := c.f 1 34 8
def MCmd.dst (c : MCmd) : Nat := c.f 1 0 3
def MCmd.addr (c : MCmd) : Word := c.words.getD 2 0
def MCmd.saddr (c : MCmd) : Word := c.words.getD 3 0
/-- Slots a command covers (R244, R262). -/
def MCmd.slots (c : MCmd) : Nat := if c.op = 3 then c.count else (c.m / 32) * c.nb
/-- Type of the accumulator (R244). -/
def MCmd.accTy (c : MCmd) : Ty := if c.at64 then .f64 else .f32

def widthOf (code : Nat) : Nat := if code ≤ 17 then (Ty.ofCode code).width else 0
def isNarrow (code : Nat) : Bool := 12 ≤ code && code ≤ 16
def isDense (code : Nat) : Bool := 8 ≤ code && code ≤ 16
def isSparse (code : Nat) : Bool := isDense code && code ≠ 11

/-- Bytes of a row of the tile in a type. -/
def MCmd.rowBytes (c : MCmd) (code : Nat) : Nat := (c.n * widthOf code + 7) / 8

/-! The checks of R253. -/

/-- The bits that a command of an operation may set (R249). -/
def bitsMask (fs : List (Nat × Nat)) : Nat := fs.foldl (fun n f => n ||| (2 ^ f.2 - 1) * 2 ^ f.1) 0

def allowed (op : Nat) : Nat :=
  let tile : List (Nat × Nat) := [(0, 4), (11, 11)]
  match op with
  | 1 | 2 => bitsMask (tile ++ [(22, 12), (40, 16), (64, 13), (79, 9), (128, 64), (192, 64), (256, 64)])
  | 3 => bitsMask [(0, 4), (17, 5), (64, 6)]
  | 4 => bitsMask (tile ++ [(64, 42), (128, 64), (192, 64)])
  | 5 => bitsMask (tile ++ [(64, 24), (88, 5), (94, 1), (128, 64)])
  | 6 => bitsMask (tile ++ [(64, 3)])
  | _ => 0

/-- The lowest set bit. -/
def lowBit (n : Nat) : Nat := trailZeros n 512

/-- Failing conditions as check code and lowest offending bit (R253); `tile` gives TILE of a ring.
Where an operand exceeds TILE the field of its ring is named (DEDUCED, log 22). -/
def MCmd.bad (c : MCmd) (team : Bool) (tile : Nat → Nat) : List (Nat × Nat) :=
  let op := c.op
  let mm := op = 1 || op = 2
  let mx := op = 4 || op = 5
  let n := ofWords c.words
  let extra := n - (n &&& allowed op)
  let okTy (t : Nat) : Bool := if op = 2 then isSparse t else isDense t
  let k := c.k
  let (ba, bb) : Nat × Nat := if op = 1 then (c.m * k * widthOf c.fa / 8, c.n * k * widthOf c.fb / 8)
    else (16 + c.m * k / 8, 16 + k * c.n / 8)
  let conds : List (Bool × Nat × Nat) :=
    [(op = 0 || 7 ≤ op, 1, 0), (extra ≠ 0, 1, lowBit extra),
     (mm && !okTy c.fa, 2, 22), (mm && !okTy c.fb, 2, 27), (mm && c.mxa && !isNarrow c.fa, 2, 32), (mm && c.mxb && !isNarrow c.fb, 2, 33),
     (mm && (c.fa = 11) != (c.fb = 11), 2, 22), (mm && c.at64 != (op = 1 && c.fa = 11), 2, 11),
     (mm && (k % 32 ≠ 0 || k < 32 || 4096 < k), 3, 64), (op = 3 && c.count = 0, 3, 64), (32 < c.slot + c.slots, 3, 17),
     (mx && c.rstr < c.rowBytes c.ot, 3, 64),
     (mm && c.ra = c.rb, 4, 79), (mm && tile c.ra < ba, 4, 79), (mm && tile c.rb < bb, 4, 82),
     (op = 4 && !(if c.at64 then c.ot = 10 || c.ot = 11 else c.ot = 9 || c.ot = 10 || isNarrow c.ot), 5, 88),
     (op = 5 && !(if c.at64 then c.ot = 11 else c.ot = 9 || c.ot = 10), 5, 88),
     (op = 4 && c.st && !(if c.at64 then c.ot = 10 else c.ot = 9), 5, 93), (op = 4 && c.cs && !isNarrow c.ot, 5, 95),
     (op = 6 && 4 < c.dst, 6, 64), (op = 6 && !team, 6, 64)]
  (conds.filter (·.1)).map (·.2)

/-- The code that decides, the lowest, with its lowest offending bit. -/
def decide2 : List (Nat × Nat) → Option (Nat × Nat)
  | [] => none
  | x :: xs =>
    match decide2 xs with
    | none => some x
    | some y => if y.1 < x.1 ∨ (y.1 = x.1 ∧ y.2 < x.2) then some y else some x

/-- How a command fails R253. -/
inductive MFail where
  | code (c bit : Nat)
  | align (v : Nat)
  | access (a : Nat)
  deriving DecidableEq, Repr

/-- Alignment and local ranges of DRAIN and LOAD (R253). -/
def MCmd.placeFail (c : MCmd) : Option MFail :=
  if c.op = 4 ∨ c.op = 5 then
    let es := widthOf c.ot / 8
    let a := c.addr.toNat
    if 1 < es ∧ a % es ≠ 0 then some (.align a)
    else if 1 < es ∧ c.rstr % es ≠ 0 then some (.align c.rstr)
    else if !c.ds ∧ lsSize < a + (c.m - 1) * c.rstr + c.rowBytes c.ot then some (.access a)
    else if c.op = 4 ∧ isNarrow c.ot ∧ !c.cs ∧ lsSize < c.saddr.toNat + c.m * (c.n / 32) then some (.access c.saddr.toNat)
    else none
  else none

def MCmd.fail (c : MCmd) (team : Bool) (tile : Nat → Nat) (pars : List (Nat × Nat)) : Option MFail :=
  match decide2 (c.bad team tile ++ pars) with
  | some x => some (.code x.1 x.2)
  | none => c.placeFail

/-- The log charge of a global drain (R308). -/
def mCharge (c : MCmd) : Nat :=
  let b := (if c.ds then 32 * c.bw * widthOf c.ot / 8 else 0) + (if c.cs then 32 else 0)
  if c.op = 4 ∧ (c.ds ∨ c.cs) then c.slots * (32 + 32 * ((b + 31) / 32)) else 0

/-! Pushing (R248, R253, R272). -/

/-- The head of an instruction (R102). -/
def headWord (opc tl : Nat) (g : Guard) : Nat := opc * 128 + tl * 16 + g.toNat

/-- The checks of a command that an instruction pushes. -/
def checkCmd (head : Nat) (c : MCmd) (pars : List (Nat × Nat)) : GM Unit := do
  let g ← get
  match c.fail g.recd.team4 (fun k => (g.arch.ring k).tile) pars with
  | none => pure ()
  | some (.code k b) => raise cILLEGAL_FIELD (BitVec.ofNat 64 (head + 0xFE * 2 ^ 16 + k * 2 ^ 24 + b * 2 ^ 32))
  | some (.align v) => raise cALIGN (BitVec.ofNat 64 v)
  | some (.access a) => raise cACCESS (BitVec.ofNat 64 a)

/-- The matrix unit of a group's core still brings a step of a group that has left the core to its boundary: until then it takes
no command of this one (R343). -/
def Dev.unitHeld (d : Dev) (g : Group) : Bool :=
  d.groups.any fun kh => kh.2.arch.mu.run.begun && kh.2.gid != g.gid && kh.2.core.isNone && g.core.isSome && kh.2.linesOn == g.core

/-- A built command checked and pushed with its token. -/
def Dev.pushCmd (d : Dev) (clk : Clock) (gr : Group) (g : Guard) (tok head : Nat) (build : GM (MCmd × List (Nat × Nat))) : Except Stop Dev :=
  d.underGuardTok clk gr g tok fun gr =>
    let m : GM MCmd := do
      tokenRoom tok
      let (c, pars) ← build
      checkCmd head c pars
      if 16 ≤ (← arch).mu.queue.length ∨ d.unitHeld gr then stop (.stall .fifo)
      return c
    match m (d.env clk gr) gr with
    | .error st => .error st
    | .ok (c, gr) =>
      d.push clk gr (mCharge c) do
        let p ← takeSeq
        let id ← issueEntry tok .matrix (c.op = 6) false none [] []
        setArch fun a =>
          let mu := { a.mu with queue := a.mu.queue ++ [{ c with entry := some (tok, id), seq := p.1, after := p.2 }] }
          { a with mu := mu }
        retire .fall

def cmdOf (n : Nat) : MCmd := { words := toWords n 8, entry := none, seq := 0, after := 0 }

/-! The instructions. -/

/-- `mma` and `mmas` (R261, R279). A parameter word that must be zero, and that is no part of the command, fails with code 1 and
bit 0 (DESIGN CHOICE, log 91). -/
def buildMma (op : Nat) (t : TailP) : GM (MCmd × List (Nat × Nat)) := do
  let w ← parWords t
  let m := (← arch).m
  let e := t.e.toNat
  let fa := m.fa.toNat % 32
  let at64 := op = 1 && fa = 11
  let w0 := op + (if at64 then 2 ^ 11 else 0) + nbits e 7 2 * 2 ^ 12 + nbits e 9 3 * 2 ^ 14 + nbits e 0 5 * 2 ^ 17 + fa * 2 ^ 22 +
    m.fb.toNat % 32 * 2 ^ 27 + m.fa.toNat / 32 * 2 ^ 32 + m.fb.toNat / 32 * 2 ^ 33 + m.tida.toNat * 2 ^ 40 + m.tidb.toNat * 2 ^ 48
  let w1 := w.1.toNat % 2 ^ 13 + nbits e 12 3 * 2 ^ 15 + nbits e 15 3 * 2 ^ 18 + nbits e 18 3 * 2 ^ 21
  let n := w0 + w1 * 2 ^ 64 + w.2.1.toNat * 2 ^ 128 + w.2.2.1.toNat * 2 ^ 160 + m.sa.toNat * 2 ^ 192 + m.sb.toNat * 2 ^ 256
  return (cmdOf n, (if w.1.toNat < 2 ^ 13 then [] else [(3, 64)]) ++ (if w.2.2.2 = 0 then [] else [(1, 0)]))

def execMma (g : Guard) (t : TailP) (s : State) := s.onGroup fun clk d gr =>
  d.pushCmd clk gr g t.tk.toNat (headWord 0x180 7 g) (buildMma 1 t)

def execMmas (g : Guard) (t : TailP) (s : State) := s.onGroup fun clk d gr =>
  d.pushCmd clk gr g t.tk.toNat (headWord 0x181 7 g) (buildMma 2 t)

/-- `mzero` (R262). -/
def execMzero (g : Guard) (t : TailA) (s : State) := s.onGroup fun clk d gr =>
  d.pushCmd clk gr g (t.e.toNat % 32) (headWord 0x182 2 g) do
    return (cmdOf (3 + t.d.toNat % 32 * 2 ^ 17 + (t.a.toNat % 32 + 1) * 2 ^ 64), [])

/-- The geometry that `mdrain` and `mload` take from PAR2, and its zero bits. -/
def geometry (op at_ slot p2 : Nat) : Nat := op + at_ * 2 ^ 11 + nbits p2 24 2 * 2 ^ 12 + nbits p2 26 3 * 2 ^ 14 + slot * 2 ^ 17

/-- `mdrain` (R263). -/
def buildDrain (t : TailP) : GM (MCmd × List (Nat × Nat)) := do
  let w ← parWords t
  let e := t.e.toNat
  let xd ← readReg (.x (nbits e 5 6))
  let xc ← readReg (.x (nbits e 11 6))
  let ea := BitVec.ofNat 64 xd + w.1.signExtend 64
  let sa := BitVec.ofNat 64 xc + w.2.1.signExtend 64
  let p2 := w.2.2.1.toNat
  let p3 := w.2.2.2.toNat
  let w1 := p2 % 2 ^ 24 + nbits e 17 5 * 2 ^ 24 + nbits e 22 1 * 2 ^ 29 + nbits e 23 1 * 2 ^ 30 + nbits e 24 1 * 2 ^ 31 +
    nbits e 25 1 * 2 ^ 32 + nbits p3 8 1 * 2 ^ 33 + p3 % 256 * 2 ^ 34
  let n := geometry 4 (nbits e 26 1) (e % 32) p2 + w1 * 2 ^ 64 + ea.toNat * 2 ^ 128 + sa.toNat * 2 ^ 192
  return (cmdOf n, if p2 < 2 ^ 29 ∧ p3 < 2 ^ 9 ∧ (w.2.1 = 0 ∨ isNarrow (nbits e 17 5) = true) then [] else [(1, 0)])

def execMdrain (g : Guard) (t : TailP) (s : State) := s.onGroup fun clk d gr =>
  d.pushCmd clk gr g t.tk.toNat (headWord 0x183 7 g) (buildDrain t)

/-- `mload` (R264). -/
def buildLoad (t : TailP) : GM (MCmd × List (Nat × Nat)) := do
  let w ← parWords t
  let e := t.e.toNat
  let xs ← readReg (.x (nbits e 5 6))
  let sa := BitVec.ofNat 64 xs + w.1.signExtend 64
  let p2 := w.2.2.1.toNat
  let w1 := p2 % 2 ^ 24 + nbits e 17 5 * 2 ^ 24 + nbits e 23 1 * 2 ^ 30
  let n := geometry 5 (nbits e 26 1) (e % 32) p2 + w1 * 2 ^ 64 + sa.toNat * 2 ^ 128
  return (cmdOf n, if p2 < 2 ^ 29 ∧ w.2.1 = 0 ∧ w.2.2.2 = 0 then [] else [(1, 0)])

def execMload (g : Guard) (t : TailP) (s : State) := s.onGroup fun clk d gr =>
  d.pushCmd clk gr g t.tk.toNat (headWord 0x184 7 g) (buildLoad t)

/-- `mred` (R265). -/
def buildRed (t : TailP) : GM (MCmd × List (Nat × Nat)) := do
  let w ← parWords t
  let e := t.e.toNat
  let n := 6 + nbits e 6 1 * 2 ^ 11 + nbits e 7 2 * 2 ^ 12 + nbits e 9 3 * 2 ^ 14 + e % 32 * 2 ^ 17 + nbits e 12 3 * 2 ^ 64
  return (cmdOf n, if w.1 = 0 ∧ w.2.1 = 0 ∧ w.2.2.1 = 0 ∧ w.2.2.2 = 0 then [] else [(1, 0)])

def execMred (g : Guard) (t : TailP) (s : State) := s.onGroup fun clk d gr =>
  d.pushCmd clk gr g t.tk.toNat (headWord 0x185 7 g) (buildRed t)

/-- `mq` (R266). -/
def execMq (g : Guard) (t : TailM) (s : State) := s.onGroup fun clk d gr =>
  d.pushCmd clk gr g t.tk.toNat (headWord 0x186 4 g) do
    let a ← addrM t
    aligned a 64
    localRange a 64
    return (cmdOf (← localRead a.toNat 64), [])

/-- A word of a core's staging buffer (R250). -/
def Dev.stageWord (d : Dev) (core word : Nat) (v : Word) : Dev :=
  { d with cores := d.cores.modify core Core.reset fun k => { k with staging := k.staging.setIfInBounds word v } }

/-- `mstat` (R267): read at issue, written 4 aclk later; selector 0 clears WERR. -/
def Matrix.stat (m : Matrix) (sel : Nat) : Nat :=
  match sel with
  | 0 => (match m.queue with
      | [] => 0
      | c :: _ => c.op) + m.queue.length * 2 ^ 16 + m.werr.toNat * 2 ^ 32
  | 1 => m.lastOp + m.lastSteps % 2 ^ 26 * 2 ^ 28 + m.lastCode * 2 ^ 54 + (if m.lastBf then 2 ^ 63 else 0)
  | _ => m.lastCounts.toNat

def execMstat (g : Guard) (t : TailA) (s : State) :=
  let tok := t.e.toNat % 32
  s.onCur (guarded g (some tok) do
    tokenRoom tok
    let sel := t.e.toNat / 32
    let v := (← arch).mu.stat sel
    let now := (← read).aclk
    let _ ← issueEntry tok .port false false (some (now + 4)) [.x t.d.toNat] [(.x t.d.toNat, v)]
    if sel = 0 then
      setArch fun a =>
        let mu := { a.mu with werr := 0 }
        { a with mu := mu }
    return .fall)

/-! The queue window (R250). -/

def execQueueWindowStage (core word : Nat) (v : Word) (s : State) := s.event fun _ d =>
  if core < 4096 ∧ word < 7 then some (d.stageWord core word v) else none

/-- The group whose queue a window feeds. -/
def Dev.windowGroup (d : Dev) (core : Nat) : Option Group :=
  match (d.core core).group with
  | none => none
  | some gid => d.groups.find gid

/-- A staged command: discarded with its code in WERR, charged where it drains to global memory, or pushed with no
token. -/
def Dev.windowPush (d : Dev) (g : Group) (c : MCmd) : Dev :=
  let keep (g : Group) : Group :=
    let c := { c with seq := g.arch.seq, after := g.arch.nextId }
    let mu := { g.arch.mu with queue := g.arch.mu.queue ++ [c] }
    { g with arch := { g.arch with mu := mu, seq := g.arch.seq + 1 } }
  match c.fail g.recd.team4 (fun k => (g.arch.ring k).tile) [] with
  | some (.code k _) =>
    let mu := { g.arch.mu with werr := BitVec.ofNat 8 k }
    d.setGroup { g with arch := { g.arch with mu := mu } }
  | some _ => d
  | none =>
    let drop := match d.launchOf g with
      | some l => l.drops g
      | none => false
    if d.modeOf g = .det ∧ mCharge c ≠ 0 ∧ !drop then
      match d.charge g (mCharge c) with
      | none => d.setGroup (g.defer cLOG_FULL (mCharge c))
      | some d => d.setGroup (keep g)
    else d.setGroup (keep g)

/-- QUEUE_WINDOW_PUSH: held at the window while the queue is full, or the unit not yet free for the group (R343). -/
def execQueueWindowPush (core : Nat) (v : Word) (s : State) := s.event fun _ d =>
  if core < 4096 then
    match d.windowGroup core with
    | none => some d
    | some g =>
      if 16 ≤ g.arch.mu.queue.length ∨ d.unitHeld g then none
      else some (d.windowPush g { words := (d.core core).staging.toList ++ [v], entry := none, seq := 0, after := 0 })
  else none

end Sys2Proof.Machine
end

