-- ==== Sys2Proof/Machine/MatrixRun.lean ====
section
/-!
DEFINITION. How the matrix unit runs its commands (12_matrix_unit R251 to R260, R262 to R273; 13_sparse_tiles R275 to
R287): array steps and the governor, operands and scales, the sums of R54, drains with bounds, loads, the cell
reduction, the scan and the intersection steps, retirement and its deferred traps.
-/

namespace Sys2Proof.Machine

/-! Array time (R258, R259, R283). -/

/-- Array steps of a K-group, c of R258. -/
def rateDense (t : Nat) : Nat := match t with
  | 16 => 4 | 8 => 16 | 9 => 16 | 10 => 64 | 11 => 256 | _ => 8

/-- r of R283. -/
def rateSparse (t : Nat) : Nat := match t with
  | 8 => 2 | 9 => 2 | 10 => 8 | _ => 1

/-- The head command's work of this aclk counts as an array step. -/
def Matrix.arrayWork (m : Matrix) : Bool :=
  match m.queue with
  | [] => false
  | c :: _ => m.run.ending.isNone && (c.op = 1 || (c.op = 2 && m.run.scan.isSome))

/-- One aclk of the matrix unit of a group (R258, R259). -/
def Group.matrixTick (g : Group) : Group :=
  let mu := g.arch.mu
  if mu.queue.isEmpty ∨ mu.run.left = 0 then g
  else
    let run := { mu.run with left := mu.run.left - 1, begun := true }
    if mu.arrayWork then
      if g.arch.m.govNow ≠ 0 ∧ g.arch.m.govNow.toNat ≤ mu.windowSteps then
        let m := { g.arch.m with stall := g.arch.m.stall + 1 }
        { g with arch := { g.arch with m := m } }
      else
        let mu := { mu with run := run, windowSteps := mu.windowSteps + 1 }
        { g with arch := { g.arch with mu := mu } }
    else
      let mu := { mu with run := run }
      { g with arch := { g.arch with mu := mu } }

/-- GOVERNOR_WINDOW (R259): at an aclk that is a multiple of 64 a new budget window begins with the BUDGET written. -/
def execGovernorWindow (s : State) := s.event fun clk d =>
  let w := clk.aclk / 64 * 64
  if d.windowAt < w then
    let fresh (g : Group) : Group :=
      let m := { g.arch.m with govNow := g.arch.m.gov }
      let mu := { g.arch.mu with windowSteps := 0 }
      { g with arch := { g.arch with m := m, mu := mu } }
    some { d with windowAt := w, groups := d.groups.map fun (k, g) => (k, fresh g) }
  else none

/-! The course of a command (R254, R256, R273). -/

def Dev.modGroup (d : Dev) (gid : Nat) (f : Group → Group) : Dev :=
  match d.groups.find gid with
  | none => d
  | some g => d.setGroup (f g)

def Group.setRun (g : Group) (f : MRun → MRun) : Group :=
  let mu := { g.arch.mu with run := f g.arch.mu.run }
  { g with arch := { g.arch with mu := mu } }

/-- The head command ends with a status and the value that its trap reports. -/
def Dev.mEnd (d : Dev) (gid code val : Nat) : Dev :=
  d.modGroup gid fun g => g.setRun fun r => { r with ending := some code, endVal := BitVec.ofNat 64 val, left := 0, begun := false }

/-- What the last retired command leaves in `mstat` (R267). -/
def Group.mLast (g : Group) (op code : Nat) : Group :=
  let r := g.arch.mu.run
  let sat16 (n : Nat) : Nat := min n 65535
  let mu : Matrix :=
    { g.arch.mu with run := MRun.reset, lastOp := op, lastCode := code, lastSteps := r.steps, lastBf := r.bf,
                     lastCounts := BitVec.ofNat 48 (sat16 r.satc + sat16 r.nanr * 2 ^ 16 + sat16 r.sov * 2 ^ 32) }
  { g with arch := { g.arch with mu := mu } }

/-- The matrix unit runs a group's queue while the group is on its core in its context's slice, once it has brought a step of the
group before to its boundary; otherwise it only brings the step under way to its boundary (R256, R285, R343). -/
def Dev.matrixRuns (d : Dev) (g : Group) : Bool :=
  g.arch.mu.run.begun || (d.runs g.recd.launch && g.status == .running && !d.unitHeld g)

/-- The lines that a DRAIN wrote wait for the `wait` that acquires them (R272). -/
def Group.keepDrain (g : Group) (c : MCmd) : Group := { g with arch := g.arch.keepDone c.entry g.arch.mu.run.lines }

/-- ABORTED: the head ends and every queued command is discarded, their token entries complete (R273). -/
def Group.mAbort (g : Group) : Group :=
  match g.arch.mu.queue with
  | [] => g
  | c :: cs =>
    let g' := (g.keepDrain c).mLast c.op 8
    let mu := { g'.arch.mu with queue := [] }
    (c :: cs).foldl (fun g x => g.completeJob x.entry) { g' with arch := { g'.arch with mu := mu } }

/-- The abort line ends the head command at its boundary: no step of it is under way (R273). -/
def Dev.abortsHead (d : Dev) (g : Group) : Bool := d.stopsJobs g && d.engineRuns g && !g.arch.mu.run.begun

/-- A step has been performed: its grant is spent, and a raised abort line ends the command at this boundary. -/
def Dev.stepMade (d : Dev) (gid : Nat) (isGlobal : Bool) : Dev :=
  match d.groups.find gid with
  | none => d
  | some g =>
    let d := if d.stopsJobs g ∧ (g.arch.mu.run.ending.getD 0 = 0) then d.setGroup g.mAbort else d
    d.spend g isGlobal

/-- The accumulator lines of a command. -/
def MCmd.accLines (c : MCmd) : List Nat := (List.range c.slots).flatMap fun s => (List.range 16).map (accBase + 16 * (c.slot + s) + ·)

/-- Accumulator lines of a command that lie in the slot can be refilled from there (R246). -/
def Dev.refills (d : Dev) (g : Group) (c : MCmd) : Bool :=
  c.accLines.all fun l => !g.linesOut.contains l || (d.slotLine g l).isSome

/-- Address of a ring's head tile (R238). -/
def Ring.headAt (r : Ring) : Nat := r.base + r.tile * (r.head.toNat % r.cap)

/-- The local-store lines of the tiles that an MMAS scans. -/
def MCmd.tileLines (c : MCmd) (g : Group) : List Nat :=
  if c.op = 2 then [c.ra, c.rb].flatMap fun k => blocksOf lsBase (g.arch.ring k).headAt (g.arch.ring k).tile else []

/-- The group with the accumulator lines of a command, and the lines of the tiles that it scans, as they are found (R246), their correctable errors, and those of the
ring tiles that it reads, corrected (R369). -/
def Dev.withAccs (d : Dev) (g : Group) (c : MCmd) : Dev × Group :=
  let tile (k a : Nat) : Bool := c.op ≤ 2 && (g.arch.ring k).base ≤ a && a < (g.arch.ring k).base + (g.arch.ring k).size
  let found (u : UpsetUnit) : Bool := match u with
    | .acc k w => k == g.gid && c.slot ≤ w / 512 && w / 512 < c.slot + c.slots
    | .ls k w => k == g.gid && (tile c.ra (8 * w) || tile c.rb (8 * w))
    | _ => false
  let lines := c.accLines ++ c.tileLines g
  let h := d.withLines g lines
  (((d.askedLines g lines).repairAll fun t => found t.unit).setGroup h, h)

/-- A step of the head command, when it has this operation and its group's matrix unit runs: it starts, where `start`
gives the aclk to its first boundary, or the work to that boundary is done and `body` performs the step. -/
def Dev.mStep (d : Dev) (gid op : Nat) (start : Group → MCmd → Option Nat) (isGlobal : Dev → Group → MCmd → Bool)
    (body : Dev → Group → MCmd → Option Dev) : Option Dev :=
  match d.groups.find gid with
  | none => none
  | some g =>
    match g.arch.mu.queue with
    | [] => none
    | c :: _ =>
      let r := g.arch.mu.run
      if c.op ≠ op ∨ r.ending.isSome then none
      else if d.abortsHead g then some (d.setGroup g.mAbort)
      else if r.left ≠ 0 ∨ !d.matrixRuns g then none
      else if !r.started then
        if g.arch.mu.halted ∨ !g.arch.released c.after then none
        else (start g c).map fun n => d.setGroup (g.setRun fun r => { r with started := true, left := n })
      else if !d.granted g (isGlobal d g c) ∨ !d.refills g c then none
      else
        let x := d.withAccs g c
        (body x.1 x.2 c).map fun d' => d'.stepMade gid (isGlobal d g c)

/-- Words of an accumulator slot marked poisoned. -/
def markSlots (ps : List Nat) (slots : List Nat) : List Nat := addBlocks ps (slots.flatMap fun s => (List.range 512).map (512 * s + ·))

def MCmd.slotList (c : MCmd) : List Nat := (List.range c.slots).map (c.slot + ·)

/-- A step's reads failed: a status, or poison, which rolls a deterministic superstep back and otherwise marks the
destination slots (R256). -/
def Dev.mFail (d : Dev) (g : Group) (c : MCmd) (code : Nat) (addr : Nat) : Dev :=
  if code = sPOISON then
    if d.modeOf g = .det then d.askRollback g (BitVec.ofNat 64 addr)
    else
      let g' := if c.op = 4 then g else { g with arch := { g.arch with accPoison := markSlots g.arch.accPoison c.slotList } }
      (d.setGroup g').mEnd g.gid sPOISON addr
  else d.mEnd g.gid code addr

/-- A step's reads made whole before any write; the core keeps their translations (R193). -/
def Dev.mRead {α : Type} (d : Dev) (g : Group) (c : MCmd) (m : EM α) (f : Dev → α → Dev) : Dev :=
  match m (none, []) with
  | .error (code, a) => d.mFail g c code a
  | .ok (_, some a, _) => d.mFail g c sPOISON a
  | .ok (x, none, ps) => f (d.touch g ps) x

/-- Every read of a list is tried; of those that fail the lowest address counts (R271). -/
def eachLow {α β : Type} (f : α → EM β) : List α → EM (List β)
  | [], p => .ok ([], p)
  | x :: xs, p =>
    match f x p with
    | .ok (y, p) => match eachLow f xs p with
      | .ok (ys, p) => .ok (y :: ys, p)
      | .error e => .error e
    | .error e => match eachLow f xs p with
      | .ok _ => .error e
      | .error e' => .error (if e.2 ≤ e'.2 then e else e')

/-- The step counted; the command ends after its last, which this boundary follows by one aclk (R254), otherwise works `left` aclk to the next boundary. -/
def Dev.mNext (d : Dev) (gid total left : Nat) (f : MRun → MRun := id) : Dev :=
  d.modGroup gid fun g => g.setRun fun r =>
    let r := f { r with steps := r.steps + 1, begun := false, vals := none }
    if total ≤ r.steps then { r with ending := some 0, left := 0 } else { r with left := left }

/-! Accumulators (R244). -/

/-- The address of row r of a slot; a row is 128 bytes in either type. -/
def accRow (slot r : Nat) : Nat := slot * 4096 + r * 128

/-- The poisoned accumulator data of an access, named as R363 names a register. -/
def accPoisonIn (g : Group) (a n : Nat) : Option Nat :=
  match poisonIn g.arch.accPoison a n with
  | some _ => some (regPoisonVal (.acc (a / 4096))).toNat
  | none => none

def readAcc (g : Group) (slot r : Nat) : EM Nat := fun p =>
  .ok (g.arch.acc.readN (accRow slot r) 128, lowerOf p.1 (accPoisonIn g (accRow slot r) 128), p.2)

/-- The elements of a row of a slot, in the accumulator type. -/
def rowElems (t : Ty) (v : Nat) : List Nat := (List.range (1024 / t.width)).map (lane t.width v)

/-- The slot and row that hold tile row i, block column b. -/
def MCmd.slotAt (c : MCmd) (i b : Nat) : Nat := c.slot + i / 32 * c.nb + b

/-- Rows of the tile, written: address and value. -/
def Dev.writeAccs (d : Dev) (gid : Nat) (ws : List (Nat × Nat)) : Dev :=
  d.modGroup gid fun g => ws.foldl (fun g w => g.accWrite w.1 128 w.2) g

/-- Single `f32` elements, written. -/
def Dev.writeElems (d : Dev) (gid : Nat) (ws : List (Nat × Nat)) : Dev :=
  d.modGroup gid fun g => ws.foldl (fun g w => g.accWrite w.1 4 w.2) g

/-- The row and block coordinates of a tile. -/
def MCmd.blocks (c : MCmd) : List (Nat × Nat) := (List.range c.m).flatMap fun i => (List.range c.nb).map fun b => (i, b)

/-- A row of negative zeros (R255). -/
def minusRow (t : Ty) : Nat := ofLanes t.width (List.replicate (1024 / t.width) (signBit t true))

def isNanPat (t : Ty) (p : Nat) : Bool := (decodeVal t p).isNan

/-- NaN elements of the tile at retirement (R270). -/
def MCmd.nans (c : MCmd) (g : Group) : Nat :=
  (c.blocks.map fun ib => ((rowElems c.accTy (g.arch.acc.readN (accRow (c.slotAt ib.1 ib.2) (ib.1 % 32)) 128)).filter (isNanPat c.accTy)).length)
    |>.foldl (· + ·) 0

/-! Operands and scales (R251, R252, R260). -/

/-- n bits of the local store from bit offset o of an address. -/
def Dev.localBits (d : Dev) (g : Group) (a o n : Nat) : EM Nat := do
  let lo := o / 8
  let v ← d.eRead g 0 (BitVec.ofNat 64 (a + lo)) ((o % 8 + n + 7) / 8)
  return nbits v (o % 8) n

/-- The values of 32 elements from element number e of a dense operand. -/
def Dev.readGroup (d : Dev) (g : Group) (base : Nat) (t : Ty) (e : Nat) : EM (List FVal) := do
  let v ← d.localBits g base (e * t.width) (32 * t.width)
  return (List.range 32).map fun i => decodeVal t (lane t.width v i)

/-- 32 scales by one read (R260), byte by byte where the array's base is not aligned. -/
def Dev.scaleLine (d : Dev) (g : Group) (base ln : Nat) : EM Nat :=
  let a := BitVec.ofNat 64 (base + 32 * ln)
  if a.toNat % 32 = 0 then d.eRead g 2 a 32
  else do return ofBytes ((← eachLow (fun i => d.eRead g 2 (a + BitVec.ofNat 64 i) 1) (List.range 32)).map (BitVec.ofNat 8 ·))

abbrev ScaleCache := List (Nat × Nat × BitVec 256)

def Dev.scaleCache (d : Dev) (g : Group) : ScaleCache := match g.core with
  | some c => (d.core c).scales
  | none => []

def Dev.setScales (d : Dev) (g : Group) (sc : ScaleCache) : Dev := match g.core with
  | some c => { d with cores := d.cores.modify c Core.reset fun k => { k with scales := sc } }
  | none => d

/-- A scale: its tensor id, the base of its array, its block number. -/
abbrev ScaleRef := Nat × Nat × Nat

/-- The scale of row m of operand A, of column n of operand B, in K-group kg (R252). -/
def MCmd.scaleA (c : MCmd) (kg m : Nat) : ScaleRef := (c.tida, (c.words.getD 3 0).toNat, c.f 2 0 32 + m * (c.k / 32) + kg)
def MCmd.scaleB (c : MCmd) (kg n : Nat) : ScaleRef := (c.tidb, (c.words.getD 4 0).toNat, c.f 2 32 32 + n * (c.k / 32) + kg)

/-- The scales of a K-group for these rows and columns, where the operands carry scales. -/
def MCmd.scaleRefs (c : MCmd) (kg : Nat) (ms ns : List Nat) : List ScaleRef :=
  (if c.mxa then ms.map (c.scaleA kg) else []) ++ if c.mxb then ns.map (c.scaleB kg) else []

def lineTag (r : ScaleRef) (l : Nat × Nat × BitVec 256) : Bool := l.1 == r.1 && l.2.1 == r.2.2 / 32

/-- One scale of each line that the cache lacks (R260). -/
def missingScales (sc : ScaleCache) (rs : List ScaleRef) : List ScaleRef :=
  rs.foldl (fun out r => if sc.any (lineTag r) || out.any (fun o => o.1 == r.1 && o.2.2 / 32 == r.2.2 / 32) then out else out ++ [r]) []

/-- The lines of these scales, filled where they are missing: the new ones before those of the cache, which holds 128. -/
def Dev.fillScales (d : Dev) (g : Group) (rs : List ScaleRef) : EM ScaleCache := do
  let sc := d.scaleCache g
  let new := missingScales sc rs
  let vs ← eachLow (fun (r : ScaleRef) => d.scaleLine g r.2.1 (r.2.2 / 32)) new
  return (new.zip vs).map (fun rv => (rv.1.1, rv.1.2.2 / 32, BitVec.ofNat 256 rv.2)) ++ sc

def scaleFrom (sc : ScaleCache) (r : ScaleRef) : Nat := match sc.find? (lineTag r) with
  | some l => lane 8 l.2.2.toNat (r.2.2 % 32)
  | none => 127

/-! The sums of R54. -/

def sumProducts : List (FVal × FVal) → FVal
  | [] => .fin false 0 0
  | p :: ps => ps.foldl (fun s q => FVal.add .rne s (FVal.mul q.1 q.2)) (FVal.mul p.1 p.2)

/-- The value times 2^k. -/
def FVal.scale (k : Int) : FVal → FVal
  | .fin s m e => .fin s m (e + k)
  | v => v

/-- The term sa*sb*S of a group, with the products in ascending k (R54). -/
def groupTerm (ps : List (FVal × FVal)) (sa sb : Nat) : FVal :=
  match firstNan (ps.flatMap fun p => [p.1, p.2]) with
  | some n => n
  | none => if sa = 255 ∨ sb = 255 then defaultNan else (sumProducts ps).scale ((sa : Int) + sb - 254)

def FVal.isFin : FVal → Bool
  | .fin _ _ _ => true
  | _ => false

/-- acc + term with one rounding, and 1 where finite inputs overflow (R270). -/
def foldAcc (acc : Nat) (v : FVal) : Nat × Nat :=
  let a := decodeVal .f32 acc
  let r := roundF .f32 .rne false (FVal.add .rne a v)
  (r, if a.isFin && v.isFin && !(decodeVal .f32 r).isFin then 1 else 0)

/-- One f64 product (R54). -/
def foldFma (acc : Nat) (p : FVal × FVal) : Nat × Nat :=
  let a := decodeVal .f64 acc
  let r := roundF .f64 .rne false (FVal.fma .rne p.1 p.2 a)
  (r, if a.isFin && p.1.isFin && p.2.isFin && !(decodeVal .f64 r).isFin then 1 else 0)

/-- One element over one K-group. -/
def elemStep (at64 : Bool) (acc : Nat) (ps : List (FVal × FVal)) (sa sb : Nat) : Nat × Nat :=
  if at64 then ps.foldl (fun r p => let x := foldFma r.1 p; (x.1, r.2 + x.2)) (acc, 0)
  else foldAcc acc (groupTerm ps sa sb)

def countNan (ss : List Nat) : Nat := (ss.filter (· = 255)).length

/-! MMA (R255, R256). -/

/-- The scales that the MMA's step reads. -/
def MCmd.denseRefs (c : MCmd) (g : Group) : List ScaleRef := c.scaleRefs g.arch.mu.run.steps (List.range c.m) (List.range c.n)

/-- What a K-group step computes: rows of 128 bytes to write, overflows, NaN scales, the scale lines. -/
def Dev.mmaStep (d : Dev) (g : Group) (c : MCmd) : EM (List (Nat × Nat) × Nat × Nat × ScaleCache) := do
  let kg := g.arch.mu.run.steps
  let ta := (g.arch.ring c.ra).headAt
  let tb := (g.arch.ring c.rb).headAt
  let ms := List.range c.m
  let ns := List.range c.n
  let as_ ← ms.mapM fun m => d.readGroup g ta (Ty.ofCode c.fa) (m * c.k + 32 * kg)
  let bs ← ns.mapM fun n => d.readGroup g tb (Ty.ofCode c.fb) (n * c.k + 32 * kg)
  let sc ← d.fillScales g (c.denseRefs g)
  let sas := ms.map fun m => if c.mxa then scaleFrom sc (c.scaleA kg m) else 127
  let sbs := ns.map fun n => if c.mxb then scaleFrom sc (c.scaleB kg n) else 127
  let rows ← c.blocks.mapM fun (i, b) => do
    let a := accRow (c.slotAt i b) (i % 32)
    let old ← if !c.acc ∧ kg = 0 then pure (minusRow c.accTy) else readAcc g (c.slotAt i b) (i % 32)
    let es := (rowElems c.accTy old).zip (List.range c.bw)
    let rs := es.map fun (x, j) =>
      let n := b * c.bw + j
      elemStep c.at64 x ((as_.getD i []).zip (bs.getD n [])) (sas.getD i 127) (sbs.getD n 127)
    return (a, ofLanes c.accTy.width (rs.map (·.1)), (rs.map (·.2)).foldl (· + ·) 0)
  let sat := (rows.map (·.2.2)).foldl (· + ·) 0
  return (rows.map fun r => (r.1, r.2.1), sat, countNan sas + countNan sbs, sc)

/-- Each of the command's rings holds at least one tile (R254). -/
def ringsReady (g : Group) (c : MCmd) : Bool := (g.arch.ring c.ra).occ ≠ 0 && (g.arch.ring c.rb).occ ≠ 0

def MCmd.denseSteps (c : MCmd) : Nat := c.m / 32 * c.nb * max (rateDense c.fa) (rateDense c.fb)

/-- MMA_COMMAND. -/
def execMmaCommand (gid : Nat) (s : State) := s.event fun _ d =>
  d.mStep gid 1 (fun g c => if ringsReady g c then some c.denseSteps else none)
    (fun d g c => !(missingScales (d.scaleCache g) (c.denseRefs g)).isEmpty) fun d g c =>
    some (d.mRead g c (d.mmaStep g c) fun d r =>
      ((d.setScales g (r.2.2.2.take 128)).writeAccs gid r.1).mNext gid (c.k / 32) c.denseSteps fun m =>
        { m with satc := m.satc + r.2.1, sov := m.sov + r.2.2.1 })

/-! ZERO (R262). -/

def execZeroCommand (gid : Nat) (s : State) := s.event fun _ d =>
  d.mStep gid 3 (fun _ _ => some 1) (fun _ _ _ => false) fun d g c =>
    let slot := c.slot + g.arch.mu.run.steps
    some ((d.writeAccs gid ((List.range 32).map fun r => (accRow slot r, 0))).mNext gid c.count 1)

/-! DRAIN (R263, R51, R269). -/

/-- emax of R51. -/
def Ty.emax : Ty → Int
  | .e5m2 => 15
  | .e4m3 => 8
  | .e3m2 => 4
  | _ => 2

def FVal.abs : FVal → FVal
  | .nan _ p => .nan false p
  | .inf _ => .inf false
  | .fin _ m e => .fin false m e

/-- The largest magnitude of a block: a NaN if any is one. -/
def amaxOf (vs : List FVal) : FVal :=
  match firstNan vs with
  | some n => n
  | none => vs.foldl (fun a v => if a.lt v.abs then v.abs else a) (.fin false 0 0)

/-- X of a block (R51) and whether it overflowed; no X where the scale is NaN. -/
def blockX (t : Ty) (vs : List FVal) : Option Int × Bool :=
  match amaxOf vs with
  | .fin _ m e =>
    let x : Int := if m = 0 then -127 else (Nat.log2 m : Int) + e - t.emax
    (some (max (-127) (min 127 x)), decide (x < -127) || decide (127 < x))
  | _ => (none, true)

/-- A rounding to a type overflows (R270). -/
def overflows (t : Ty) (v : FVal) : Bool :=
  match v with
  | .fin _ m e =>
    if m = 0 then false
    else
      let ex : Int := max ((Nat.log2 m : Int) + e) (1 - (t.bias : Int))
      let q : Int := ex - t.sig
      let n := roundTo .rne false m e q
      let nq : Nat × Int := if n = 2 ^ (t.sig + 1) then (2 ^ t.sig, q + 1) else (n, q)
      decide (t.maxFin.2 < nq.2) || (nq.2 == t.maxFin.2 && decide (t.maxFin.1 < nq.1))
  | _ => false

/-- What a drain makes of one element: its pattern, or a bound trap; an action flag matched; overflow; NaN written. -/
structure Drained where
  pat : Option Nat
  bf : Bool
  exceeds : Bool
  nan : Bool
  deriving DecidableEq, Repr

/-- A value checked against the bound entries (R269): `again` rounds a clamped value. -/
def bounded (bnd : List Bound) (c : MCmd) (v : FVal) (pat : Nat) (again : FVal → Nat) : Option Nat × Bool :=
  if !c.tidv then (some pat, false)
  else
    match boundsFrom c.tidd bnd false v none with
    | .trap => (none, false)
    | .pass fl none => (some pat, fl)
    | .pass fl (some w) => (some (again w), fl)

/-- An element in a type that is not narrow. -/
def drainElem (bnd : List Bound) (c : MCmd) (p : Nat) : Drained :=
  let t := Ty.ofCode c.ot
  let v := decodeVal c.accTy p
  let same := t = c.accTy
  let q := if same then p else roundF t .rne c.st v
  let r := bounded bnd c (decodeVal t q) q (fun w => roundF t .rne true w)
  { pat := r.1, bf := r.2, exceeds := !same && overflows t v, nan := r.1.any (isNanPat t) }

/-- An MX block of 32 elements (R51): its scale, its elements, and whether the scale overflowed. Where the scale is NaN
a clamped element has no X to be scaled by: its value is a free one of the block and the clamp (log 5). -/
def drainBlock (bnd : List Bound) (c : MCmd) (block : Nat) (vs : List FVal) : Nat × List Drained × Bool :=
  let t := Ty.ofCode c.ot
  match blockX t vs with
  | (none, o) =>
    (255, (List.range 32).map (fun i =>
      let r := bounded bnd c defaultNan 0 (fun w => Config.unscaled c.ot block i (roundF .f32 .rne false w) % 2 ^ t.width)
      { pat := r.1, bf := r.2, exceeds := false, nan := r.1.any (isNanPat t) }), o)
  | (some x, o) =>
    ((x + 127).toNat, vs.map (fun v =>
      let y := v.scale (-x)
      let q := roundF t .rne true y
      let r := bounded bnd c ((decodeVal t q).scale x) q (fun w => roundF t .rne true (w.scale (-x)))
      { pat := r.1, bf := r.2, exceeds := overflows t y, nan := r.1.any (isNanPat t) }), o)

/-- Where a drain writes: space, address, bytes, value, ordinal. -/
abbrev Out := Nat × Word × Nat × Nat × Nat

def MCmd.elemVa (c : MCmd) (i j : Nat) : Word := c.addr + BitVec.ofNat 64 (i * c.rstr + j * widthOf c.ot / 8)

/-- The packing groups of a run of elements from column j of row i. -/
def packRun (c : MCmd) (i : Nat) : Nat → Nat → List Nat → List Out
  | 0, _, _ => []
  | n + 1, j, vs =>
    let w := widthOf c.ot
    let gl := groupLen w
    ((groupPieces (c.elemVa i j) (groupBytes w) (packed w (vs.take gl))).map fun (p : Word × Nat × Nat) =>
      ((if c.ds then 2 else 0, p.1, p.2.1, p.2.2, 2 * (i * c.n + j)) : Out)) ++ packRun c i n (j + gl) (vs.drop gl)

/-- Outputs of one row of a slot, with its elements and the block-scale event. -/
def drainRow (bnd : List Bound) (c : MCmd) (i b : Nat) (v : Nat) : List Drained × List (Nat × Word × Nat) × Bool :=
  let es := rowElems c.accTy v
  if isNarrow c.ot then
    let r := drainBlock bnd c v (es.map (decodeVal c.accTy))
    (r.2.1, [(2 * (i * c.n + 32 * b + 31) + 1, c.saddr + BitVec.ofNat 64 (i * (c.n / 32) + b), r.1)], r.2.2)
  else (es.map (drainElem bnd c), [], false)

/-- The first element that a bound traps, by its column. -/
def firstTrap : Nat → List Drained → Option Nat
  | _, [] => none
  | j, x :: xs => if x.pat.isNone then some j else firstTrap (j + 1) xs

/-- The places of a step's writes; the lowest failing address where any fails (R271). -/
def Dev.placeOuts (d : Dev) (g : Group) : List Out → Except (Nat × Nat) (List (EPlace × Nat × Nat × Nat))
  | [] => .ok []
  | (sp, a, n, v, k) :: rest =>
    match d.engPlace g sp a n .store, Dev.placeOuts d g rest with
    | .ok pl, .ok ps => .ok ((pl, n, v, k) :: ps)
    | .ok _, .error e => .error e
    | .error e, .ok _ => .error e
    | .error e, .error f => .error (if e.2 ≤ f.2 then e else f)

/-- One slot drained: read, formed, checked, written, and cleared where CLR is set. -/
def Dev.drainSlot (d : Dev) (g : Group) (c : MCmd) : Dev :=
  let si := g.arch.mu.run.steps
  let slot := c.slot + si
  let b := si % c.nb
  let bnd := g.arch.m.bnd.toList
  d.mRead g c ((List.range 32).mapM fun r => readAcc g slot r) fun d vs =>
    let rows := (vs.zip (List.range 32)).map fun (v, r) =>
      let i := si / c.nb * 32 + r
      (i, drainRow bnd c i b v)
    match (rows.filterMap fun x => (firstTrap 0 x.2.1).map fun j => (c.elemVa x.1 (b * c.bw + j)).toNat).head? with
    | some a => d.mEnd g.gid sBOUND a
    | none =>
      let outs : List Out := rows.flatMap fun x =>
        packRun c x.1 (c.bw / groupLen (widthOf c.ot)) (b * c.bw) (x.2.1.map fun e => e.pat.getD 0) ++
          x.2.2.1.map fun s => (if c.cs then 2 else 0, s.2.1, 1, s.2.2, s.1)
      match d.placeOuts g outs with
      | .error (code, a) => d.mFail g c code a
      | .ok ws =>
        let d := (d.engWrites g.gid c.after c.seq ws).touch g (ws.map fun w => (w.1, 0))
        let lines := linesOf (d.modeOf g) g.arch.mu.run.lines ws
        let d := if c.clr then d.writeAccs g.gid ((List.range 32).map fun r => (accRow slot r, 0)) else d
        let all := rows.flatMap fun x => x.2.1
        d.mNext g.gid c.slots 16 fun m =>
          { m with satc := m.satc + (all.filter (·.exceeds)).length, nanr := m.nanr + (all.filter (·.nan)).length,
                   sov := m.sov + (rows.filter fun x => x.2.2.2).length, lines := lines, bf := m.bf || all.any (·.bf) }

/-- DRAIN_COMMAND. -/
def execDrainCommand (gid : Nat) (s : State) := s.event fun _ d =>
  d.mStep gid 4 (fun _ _ => some 16) (fun _ _ c => c.ds || (c.cs && isNarrow c.ot)) fun d g c => some (d.drainSlot g c)

/-! LOAD (R264). -/

/-- A `bf16` pattern as `f32`: exactly; of a NaN the sign, the quiet bit and the payload's number stay (R42, R264; DEDUCED,
log 73). -/
def widenBf16 (e : Nat) : Nat :=
  if nbits e 7 8 = 255 ∧ nbits e 0 7 ≠ 0 then nbits e 7 9 * 2 ^ 23 + nbits e 6 1 * 2 ^ 22 + nbits e 0 6 else e * 2 ^ 16

/-- One slot loaded, element by element. -/
def Dev.loadSlot (d : Dev) (g : Group) (c : MCmd) : Dev :=
  let si := g.arch.mu.run.steps
  let slot := c.slot + si
  let n := widthOf c.ot / 8
  let row (r : Nat) : EM (Nat × Nat) := do
    let i := si / c.nb * 32 + r
    let es ← (List.range c.bw) |> eachLow fun j => d.eRead g (if c.ds then 2 else 0) (c.elemVa i (si % c.nb * c.bw + j)) n
    return (accRow slot r, ofLanes c.accTy.width (es.map fun e => if c.ot = 9 then widenBf16 e else e))
  d.mRead g c (eachLow row (List.range 32)) fun d ws => (d.writeAccs g.gid ws).mNext g.gid c.slots 16

/-- LOAD_COMMAND. -/
def execLoadCommand (gid : Nat) (s : State) := s.event fun _ d =>
  d.mStep gid 5 (fun _ _ => some 16) (fun _ _ c => c.ds) fun d g c => some (d.loadSlot g c)

/-! RED (R265). -/

def headCmd (g : Group) : Option MCmd := g.arch.mu.queue.head?

/-- The member waits with a RED at its head that has not ended. -/
def redHead (g : Group) : Bool := match headCmd g with
  | some c => c.op = 6 && g.arch.mu.run.ending.isNone && !g.arch.mu.halted
  | none => false

/-- The members of a cell's team by position. -/
def Dev.quad (d : Dev) (g : Group) : List Group :=
  (List.range 4).filterMap fun k => (d.team g).find? fun h => tkGroup h.recd.ticket % 4 = k

/-- The sum of four patterns in the order of R55. -/
def sum4 (t : Ty) (xs : List Nat) : Nat := addRne t (addRne t (xs.getD 0 0) (xs.getD 1 0)) (addRne t (xs.getD 2 0) (xs.getD 3 0))

/-- A slot of four members reduced: rows to write. -/
def redSlot (c : MCmd) (gs : List Group) (slot : Nat) : EM (List (Nat × Nat)) :=
  (List.range 32).mapM fun r => do
    let vs ← gs.mapM fun g => readAcc g slot r
    let w := c.accTy.width
    return (accRow slot r, ofLanes w ((List.range (1024 / w)).map fun j => sum4 c.accTy (vs.map fun v => lane w v j)))

/-- One step of the four REDs together. -/
def Dev.redStep (d : Dev) (g : Group) (c : MCmd) (gs : List Group) : Dev :=
  let d := gs.foldl (fun (d : Dev) h => (d.withAccs h c).1) d
  let gs := gs.map fun h => (d.groups.find h.gid).getD h
  let slot := c.slot + g.arch.mu.run.steps
  let into (k : Nat) : Bool := c.dst = 4 || c.dst = k
  match redSlot c gs slot (none, []) with
  | .error (code, a) => gs.foldl (fun d h => d.mEnd h.gid code a) d
  | .ok (_, some a, _) =>
    if d.modeOf g = .det then d.askRollback g (BitVec.ofNat 64 a)
    else gs.foldl (fun d h =>
      let d := if into (tkGroup h.recd.ticket % 4) then
          d.modGroup h.gid fun h => { h with arch := { h.arch with accPoison := markSlots h.arch.accPoison c.slotList } }
        else d
      d.mEnd h.gid sPOISON a) d
  | .ok (ws, none, _) =>
    gs.foldl (fun d h =>
      (if into (tkGroup h.recd.ticket % 4) then d.writeAccs h.gid ws else d).mNext h.gid c.slots 32) d

/-- ORPHAN: nine. -/
def sORPHAN : Nat := 9

/-- RED_COMMAND: it waits for the REDs at the heads of all four members; differing commands, or a member that has
retired, end every waiting RED with ORPHAN. -/
def execRedCommand (gid : Nat) (s : State) := s.event fun _ d =>
  match d.groups.find gid with
  | none => none
  | some g =>
    match headCmd g with
    | none => none
    | some c =>
      let gs := d.quad g
      let r := g.arch.mu.run
      if c.op ≠ 6 ∨ r.ending.isSome then none
      else if d.abortsHead g then some (d.setGroup g.mAbort)
      else if r.left ≠ 0 ∨ g.arch.mu.halted ∨ !d.matrixRuns g then none
      else if gs.length < 4 then some (gs.foldl (fun d h => if redHead h then d.mEnd h.gid sORPHAN 0 else d) d)
      else if !gs.all (fun h => redHead h && d.matrixRuns h && h.arch.mu.run.left = 0 && (match headCmd h with
          | some x => h.arch.released x.after
          | none => false) && d.refills h c) then none
      else if gs.any (fun h => (headCmd h).any fun x => x.words.take 2 ≠ c.words.take 2) then some (gs.foldl (fun d h => d.mEnd h.gid sORPHAN 0) d)
      else if !r.started then
        some (gs.foldl (fun d h => d.modGroup h.gid fun h => h.setRun fun r => { r with started := true, left := 32 }) d)
      else some (gs.foldl (fun d h => d.stepMade h.gid false) (d.redStep g c gs))

/-- An aclk counts for the work of a group's head command: its matrix unit runs; for a RED, those of all four members. -/
def Dev.matrixCounts (d : Dev) (g : Group) : Bool :=
  if redHead g then (d.quad g).all fun h => redHead h && d.matrixRuns h else d.matrixRuns g

/-! MMAS (R275 to R287). -/

/-- Bits of a bitmap, in ascending order. -/
def setBits (n : Nat) : Nat → Nat → List Nat
  | 0, _ => []
  | k + 1, i => if n % 2 = 1 then i :: setBits (n / 2) k (i + 1) else setBits (n / 2) k (i + 1)

/-- A header and a bitmap as the scan reads them (R275, R276), with the first poisoned word. -/
structure Tile where
  base : Nat
  head : Nat
  map : Nat
  poison : Option Nat
  deriving DecidableEq, Repr

def firstOf : Option Nat → Option Nat → Option Nat
  | some a, _ => some a
  | none, b => b

/-- The aligned 8-byte word that holds a poisoned byte. -/
def poisonWord (g : Group) (a n : Nat) : Option Nat := (poisonIn g.arch.lsPoison a n).map fun b => b / 8 * 8

def readTile (g : Group) (base elems : Nat) : Tile :=
  { base := base, head := g.arch.ls.readN base 16, map := g.arch.ls.readN (base + 16) (elems / 8),
    poison := firstOf (poisonWord g base 16) (poisonWord g (base + 16) (elems / 8)) }

def Tile.shapeOk (t : Tile) (rows cols fmt : Nat) (mx : Bool) (tid : Nat) : Bool :=
  nbits t.head 13 3 = 0 && nbits t.head 29 3 = 0 && nbits t.head 38 2 = 0 && nbits t.head 69 59 = 0 &&
  nbits t.head 0 13 = rows && nbits t.head 16 13 = cols && nbits t.head 32 5 = fmt && nbit t.head 37 == mx && nbits t.head 40 8 = tid

def Tile.nnz (t : Tile) : Nat := nbits t.head 48 21

/-- Bytes of a sparse tile with its value area (R275). -/
def tileBytes (elems nnz w : Nat) : Nat := 16 + elems / 8 + (if w = 6 then 3 * ((nnz + 3) / 4) else (nnz * w + 7) / 8)

/-- How a scan ends: latched, or a status with the value of its trap (R280, R286). -/
inductive ScanEnd where
  | ok (s : Scan)
  | fails (code val : Nat)
  | poison (addr : Nat)
  deriving DecidableEq, Repr

def sCOUNT : Nat := 11
def sSPOISON : Nat := 12

/-- The k of a set bit: column of A, row of B. -/
def kOfA (c : MCmd) (e : Nat) : Nat := e % c.k
def kOfB (c : MCmd) (e : Nat) : Nat := e / c.n

def scanTiles (g : Group) (c : MCmd) (dit : Bool) : ScanEnd :=
  let ra := g.arch.ring c.ra
  let rb := g.arch.ring c.rb
  let a := readTile g ra.headAt (c.m * c.k)
  let b := readTile g rb.headAt (c.k * c.n)
  let abits := setBits a.map (c.m * c.k) 0
  let bbits := setBits b.map (c.k * c.n) 0
  let count (opnd : Nat) (t : Tile) (pop : Nat) : Nat := opnd * 2 ^ 63 + t.nnz * 2 ^ 32 + pop
  match firstOf a.poison b.poison with
  | some p => .poison p
  | none =>
    if !a.shapeOk c.m c.k c.fa c.mxa c.tida then .fails sSHAPE a.base
    else if !b.shapeOk c.k c.n c.fb c.mxb c.tidb then .fails sSHAPE b.base
    else if abits.length ≠ a.nnz then .fails sCOUNT (count 0 a abits.length)
    else if bbits.length ≠ b.nnz then .fails sCOUNT (count 1 b bbits.length)
    else if ra.tile < tileBytes (c.m * c.k) a.nnz (widthOf c.fa) then .fails sSHAPE a.base
    else if rb.tile < tileBytes (c.k * c.n) b.nnz (widthOf c.fb) then .fails sSHAPE b.base
    else
      let ks := (List.range c.k).filter fun k => abits.any (fun e => kOfA c e = k) && bbits.any (fun e => kOfB c e = k)
      .ok ⟨abits, bbits, if dit then List.range c.k else ks⟩

/-- Elements of A in column k as (row, value number), of B in row k as (column, value number). -/
def atK (of_ : Nat → Nat) (other : Nat → Nat) (k : Nat) : Nat → List Nat → List (Nat × Nat)
  | _, [] => []
  | p, e :: es => if of_ e = k then (other e, p) :: atK of_ other k (p + 1) es else atK of_ other k (p + 1) es

def Scan.colA (s : Scan) (c : MCmd) (k : Nat) : List (Nat × Nat) := atK (kOfA c) (fun e => e / c.k) k 0 s.aBits
def Scan.rowB (s : Scan) (c : MCmd) (k : Nat) : List (Nat × Nat) := atK (kOfB c) (fun e => e % c.n) k 0 s.bBits

def ceil64 (n : Nat) : Nat := (n + 63) / 64

/-- aclk of the step for k (R283, R284). -/
def Scan.time (s : Scan) (c : MCmd) (dit : Bool) (k : Nat) : Nat :=
  let r := max (rateSparse c.fa) (rateSparse c.fb)
  if dit then ceil64 c.m * ceil64 c.n * r else ceil64 (s.colA c k).length * ceil64 (s.rowB c k).length * r

def Scan.pairs (s : Scan) (c : MCmd) (k : Nat) : Bool := !(s.colA c k).isEmpty && !(s.rowB c k).isEmpty

/-- k is the last of its group that handles a pair. -/
def Scan.lastOf (s : Scan) (c : MCmd) (k : Nat) : Bool :=
  s.pairs c k && !(s.ks.any fun k' => k < k' && k' / 32 = k / 32 && s.pairs c k')

/-- The values of the present elements of one operand. -/
def Dev.sparseVals (d : Dev) (g : Group) (base elems code : Nat) (xs : List (Nat × Nat)) : EM (List (Nat × Nat)) :=
  xs.mapM fun (i, p) => do return (i, ← d.localBits g (base + 16 + elems / 8) (p * widthOf code) (widthOf code))

/-- Distinct numbers, in order of first appearance. -/
def distinctNat (xs : List Nat) : List Nat := distinct xs

/-- The values that the step for k reads: none where k has no pair (R284). -/
def Dev.stepVals (d : Dev) (g : Group) (c : MCmd) (s : Scan) (k : Nat) : EM (List (Nat × Nat) × List (Nat × Nat)) := do
  if !s.pairs c k then return ([], [])
  let as_ ← d.sparseVals g (g.arch.ring c.ra).headAt (c.m * c.k) c.fa (s.colA c k)
  let bs ← d.sparseVals g (g.arch.ring c.rb).headAt (c.k * c.n) c.fb (s.rowB c k)
  return (as_, bs)

/-- The next step of the list begins, and its values are read (R287). -/
def Dev.beginStep (d : Dev) (gid : Nat) : Dev :=
  match d.groups.find gid with
  | none => d
  | some g =>
    match headCmd g, g.arch.mu.run.scan with
    | some c, some s =>
      match s.ks[g.arch.mu.run.steps]? with
      | none => d
      | some k => match d.stepVals g c s k (none, []) with
        | .ok (v, p, _) => d.setGroup (g.setRun fun r => { r with vals := some (v.1, v.2, p) })
        | .error _ => d
    | _, _ => d

/-- Rows of A, and columns of B, that receive a product in K-group kg. -/
def Scan.rowsIn (s : Scan) (c : MCmd) (kg : Nat) : List Nat :=
  distinctNat ((s.ks.filter fun k => k / 32 = kg ∧ s.pairs c k).flatMap fun k => (s.colA c k).map (·.1))
def Scan.colsIn (s : Scan) (c : MCmd) (kg : Nat) : List Nat :=
  distinctNat ((s.ks.filter fun k => k / 32 = kg ∧ s.pairs c k).flatMap fun k => (s.rowB c k).map (·.1))

/-- The scales that the MMAS's next step reads. -/
def MCmd.sparseRefs (c : MCmd) (g : Group) : List ScaleRef :=
  match g.arch.mu.run.scan with
  | none => []
  | some s =>
    match s.ks[g.arch.mu.run.steps]? with
    | none => []
    | some k => if s.lastOf c k then c.scaleRefs (k / 32) (s.rowsIn c (k / 32)) (s.colsIn c (k / 32)) else []

/-- An element of an accumulator: its address, and the read of it, whose poison is that of its 64-bit word. -/
def elemAddr (c : MCmd) (m n : Nat) : Nat := accRow (c.slotAt m (n / 32)) (m % 32) + 4 * (n % 32)
def accElem (g : Group) (a : Nat) : EM Nat := fun p => .ok (g.arch.acc.readN a 4, lowerOf p.1 (accPoisonIn g a 4), p.2)

/-- The rounding at the end of a group: elements to write, overflows, NaN scales, the scale lines. Only elements that
received a product are read and written (R281). -/
def Dev.closeGroup (d : Dev) (g : Group) (c : MCmd) (kg : Nat) (sums : List (Nat × Nat × Nat × Nat)) :
    EM (List (Nat × Nat) × Nat × Nat × ScaleCache) := do
  let ms := distinctNat (sums.map (·.1))
  let ns := distinctNat (sums.map (·.2.1))
  let sc ← d.fillScales g (c.scaleRefs kg ms ns)
  let sa (m : Nat) : Nat := if c.mxa then scaleFrom sc (c.scaleA kg m) else 127
  let sb (n : Nat) : Nat := if c.mxb then scaleFrom sc (c.scaleB kg n) else 127
  let rs ← (distinctNat (sums.map fun s => s.1 * c.n + s.2.1)).mapM fun mn => do
    let m := mn / c.n
    let n := mn % c.n
    let old ← accElem g (elemAddr c m n)
    let ps := (sums.filter fun (s : Nat × Nat × Nat × Nat) => s.1 = m && s.2.1 = n).map fun (s : Nat × Nat × Nat × Nat) =>
      (decodeVal (Ty.ofCode c.fa) s.2.2.1, decodeVal (Ty.ofCode c.fb) s.2.2.2)
    return (elemAddr c m n, foldAcc old (groupTerm ps (sa m) (sb n)))
  return (rs.map fun r => (r.1, r.2.1), (rs.map (·.2.2)).foldl (· + ·) 0, countNan (ms.map sa) + countNan (ns.map sb), sc)

/-- One intersection step (R281): the products of k join the open sums, which the last k of a group rounds. -/
def Dev.sparseStep (d : Dev) (g : Group) (c : MCmd) (s : Scan) (k : Nat) :
    EM (List (Nat × Nat × Nat × Nat) × List (Nat × Nat) × Nat × Nat × ScaleCache) := do
  let v ← match g.arch.mu.run.vals with
    | some (a, b, p) => fun q => .ok ((a, b), lowerOf q.1 p, q.2)
    | none => d.stepVals g c s k
  let news := v.1.flatMap fun (m, a) => v.2.map fun (n, b) => (m, n, a, b)
  let sums := g.arch.mu.run.openSums ++ news
  if s.lastOf c k then
    let r ← d.closeGroup g c (k / 32) sums
    return ([], r.1, r.2.1, r.2.2.1, r.2.2.2)
  else return (sums, [], 0, 0, d.scaleCache g)

/-- The data-independent timing mode of a group's launch (R72, R284). -/
def Dev.ditOf (d : Dev) (g : Group) : Bool := match d.launchOf g with
  | some l => l.dit
  | none => false

/-- The scan is latched at boundary 0; without ACC the tile is set to negative zero. -/
def Dev.latchScan (d : Dev) (g : Group) (c : MCmd) (s : Scan) : Dev :=
  let d := if c.acc then d
    else d.writeAccs g.gid (c.blocks.map fun ib => (accRow (c.slotAt ib.1 ib.2) (ib.1 % 32), minusRow .f32))
  (d.modGroup g.gid fun g => g.setRun fun r =>
    match s.ks with
    | [] => { r with scan := some s, begun := false, ending := some 0 }
    | k :: _ => { r with scan := some s, begun := false, left := s.time c (d.ditOf g) k }).beginStep g.gid

/-- The scan ends: latched, or with a status; SPARSE_POISON marks every destination slot (R286). -/
def Dev.endScan (d : Dev) (g : Group) (c : MCmd) : Dev :=
  match scanTiles g c (d.ditOf g) with
  | .ok s => d.latchScan g c s
  | .fails code v => d.mEnd g.gid code v
  | .poison a =>
    if d.modeOf g = .det then d.askRollback g (BitVec.ofNat 64 a)
    else (d.modGroup g.gid fun g => { g with arch := { g.arch with accPoison := markSlots g.arch.accPoison c.slotList } }).mEnd g.gid sSPOISON a

/-- MMAS_COMMAND: the scan, then one step of the list. -/
def execMmasCommand (gid : Nat) (s : State) := s.event fun _ d =>
  d.mStep gid 2 (fun g c => if ringsReady g c then some ((c.k + 7) / 8) else none)
    (fun d g c => !(missingScales (d.scaleCache g) (c.sparseRefs g)).isEmpty) fun d g c =>
    match g.arch.mu.run.scan with
    | none => some (d.endScan g c)
    | some sc =>
      let j := g.arch.mu.run.steps
      let k := sc.ks.getD j 0
      some (d.mRead g c (d.sparseStep g c sc k) fun d r =>
        (((d.setScales g (r.2.2.2.2.take 128)).writeElems gid r.2.1).mNext gid sc.ks.length (sc.time c (d.ditOf g) (sc.ks.getD (j + 1) 0)) fun m =>
          { m with openSums := r.1, satc := m.satc + r.2.2.1, sov := m.sov + r.2.2.2.1 }).beginStep gid)

/-- The scales that a running product's next step reads. -/
def MCmd.nextRefs (c : MCmd) (g : Group) : List ScaleRef :=
  if !g.arch.mu.run.started ∨ g.arch.mu.run.ending.isSome then []
  else if c.op = 1 then c.denseRefs g else if c.op = 2 then c.sparseRefs g else []

/-- SCALE_CACHE_FILL (R260): a missing line that the step under way reads is filled; the step fills what is still missing.
In an interleave launch the fills are the step's, whose accesses are one access (R272). -/
def execScaleCacheFill (core tensor block : Nat) (s : State) := s.event fun _ d =>
  match d.windowGroup core with
  | none => none
  | some g =>
    match headCmd g with
    | none => none
    | some c =>
      match (missingScales (d.scaleCache g) (c.nextRefs g)).find? (fun r => r.1 == tensor && r.2.2 / 32 == block / 32) with
      | none => none
      | some r =>
        if d.modeOf g = .ilv ∨ !d.matrixRuns g then none
        else
          match d.scaleLine g r.2.1 (block / 32) (none, []) with
          | .ok (v, none, ps) => some ((d.touch g ps).setScales g ((tensor, block / 32, BitVec.ofNat 256 v) :: (d.scaleCache g).take 127))
          | _ => none

/-! Retirement (R254, R270, R271). -/

/-- A count has reached its nonzero threshold. -/
def MRun.excepts (r : MRun) (th : Nat) : Bool :=
  let hit (n t : Nat) : Bool := t ≠ 0 && t ≤ min n 65535
  hit r.satc (nbits th 0 16) || hit r.nanr (nbits th 16 16) || hit r.sov (nbits th 32 16)

/-- The cause of the deferred trap of a status (R271, R286). -/
def statusCause (code : Nat) : Option Nat :=
  if code = sPAGE then some cPAGE else if code = sACCESS then some cACCESS else if code = sSHAPE then some cSPARSE_SHAPE
  else if code = sPOISON then some cPOISON else if code = sBOUND then some cBOUND else if code = 10 then some cMXCEPT
  else if code = sCOUNT then some cSPARSE_COUNT else if code = sSPOISON then some cSPARSE_POISON else none

/-- The head tile of a ring is popped. -/
def Group.popTile (g : Group) (k : Nat) : Group :=
  let r := g.arch.ring k
  { g with arch := g.arch.setRing k { r with head := r.head + 1 } }

/-- The head command retires with a status. -/
def Dev.mRetire (d : Dev) (g : Group) (c : MCmd) (cs : List MCmd) (code : Nat) : Dev :=
  let g := if c.op ≤ 2 then g.setRun fun r => { r with nanr := c.nans g } else g
  let r := g.arch.mu.run
  let code := if code = 0 ∧ r.excepts g.arch.m.th.toNat then 10 else code
  let g := if c.op ≤ 2 ∧ (code = 0 ∨ code = 10) then
      let g := if c.ka then g else g.popTile c.ra
      if c.kb then g else g.popTile c.rb
    else g
  let g := (g.keepDrain c).mLast c.op code
  let mu := { g.arch.mu with queue := cs }
  let g := { g with arch := { g.arch with mu := mu } }
  let g := g.completeJob c.entry
  let val := if code = 10 then g.arch.mu.lastCounts.toNat else r.endVal.toNat
  match statusCause code with
  | none => d.setGroup g
  | some cause =>
    let mu := { g.arch.mu with halted := true }
    let g := { g with arch := { g.arch with mu := mu } }
    (d.setGroup (g.defer cause val true)).engReport g code val

/-- MATRIX_COMMAND_RETIRE: one aclk after the last step; a command that read rings pops them no later in an aclk than the
core moves one (R238). -/
def execMatrixCommandRetire (gid : Nat) (s : State) := s.event fun clk d =>
  match d.groups.find gid with
  | none => none
  | some g =>
    match g.arch.mu.queue, g.arch.mu.run.ending with
    | c :: cs, some code => if d.engineRuns g ∧ !(c.op ≤ 2 && g.ringAt == clk.aclk + 1) then some (d.mRetire { g with ringAt := if c.op ≤ 2 then clk.aclk + 1 else g.ringAt } c cs code) else none
    | _, _ => none

end Sys2Proof.Machine
end

