-- ==== Sys2Proof/Machine/ControlSpace.lean ====
section
/-!
DEFINITION. Control space (21_outside R375): the launch-control window with the queue, partition and fault-queue
registers (R58, R64, R337, R344, R380), the matrix queue windows (R250), the health window (R389), the MSI-X table and
the host attribute table (R377), as loads, stores and the host reach them.
-/

namespace Sys2Proof.Machine

/-! The launch-control window. -/

/-- A queue register read (R64); LQCTL.EN reads as 0 (the table says so of TEAR only: DESIGN CHOICE, log 70). -/
def Dev.queueReg (d : Dev) (p c q r : Nat) : Word :=
  let x := d.lqueue p c q
  match r with
  | 0x00 => x.base
  | 0x08 => BitVec.ofNat 64 x.log2n
  | 0x10 => x.head.setWidth 64
  | 0x18 => x.tail.setWidth 64
  | 0x20 => BitVec.ofNat 64 (x.state % 16 * 16)
  | 0x28 => BitVec.ofNat 64 (x.errCount.toNat * 2 ^ 48 + x.errCode.toNat * 2 ^ 40 + x.errIndex.toNat)
  | _ => 0

/-- LQBASE and LQSIZE take a write only while the queue is off or closed, and only with their zero fields zero (R64). -/
def Dev.writeLqbase (d : Dev) (p c q : Nat) (v : Word) : Dev :=
  let x := d.lqueue p c q
  if (x.state = 0 ∨ x.state = 3) ∧ v.toNat / 2 ^ 52 = 0 ∧ v.toNat % 2 ^ 12 = 0 then d.setQueue p c q { x with base := v } else d

def Dev.writeLqsize (d : Dev) (p c q : Nat) (v : Word) : Dev :=
  let x := d.lqueue p c q
  if (x.state = 0 ∨ x.state = 3) ∧ 4 ≤ v.toNat ∧ v.toNat ≤ 16 then d.setQueue p c q { x with log2n := v.toNat } else d

/-- LQCTL: TEAR, then EN (R64). -/
def Dev.writeLqctl (d : Dev) (p c q : Nat) (v : Word) : Dev :=
  let d := if v.getLsbD 1 then d.tearQueue p c q else d
  if v.getLsbD 0 then d.enableQueue p c q else d

def Dev.writeQueueReg (d : Dev) (p c q r : Nat) (v : Word) : Dev :=
  match r with
  | 0x00 => d.writeLqbase p c q v
  | 0x08 => d.writeLqsize p c q v
  | 0x18 => d.writeTail p c q v
  | 0x20 => d.writeLqctl p c q v
  | 0x28 => d.clearQueueErr p c q
  | _ => d

/-- A partition register read (R58, R344). -/
def Dev.partReg (d : Dev) (p r : Nat) : Word :=
  let x := d.part p
  match r with
  | 0x00 => x.plbase
  | 0x08 => x.pclus
  | 0x10 => x.err.setWidth 64
  | 0x18 => x.dmgVa.setWidth 64
  | 0x20 => x.dmgCtx.setWidth 64
  | _ => 0

def Dev.writePartReg (d : Dev) (p r : Nat) (v : Word) : Dev :=
  match r with
  | 0x00 => d.writePlbase p v
  | 0x08 => d.writePclus p v
  | 0x10 => d.writePstat p
  | 0x20 => d.writePdmgctx p
  | _ => d

/-- A fault-queue register read (R337, R380). -/
def Dev.fqReg (d : Dev) (p c r : Nat) : Word :=
  let x := d.ctx p c
  match r with
  | 0x00 => x.fqHead.setWidth 64
  | 0x08 => BitVec.ofNat 64 (x.fqLost.toNat * 2 ^ 48 + x.fqTail.toNat)
  | 0x10 => x.fqTick
  | 0x18 => x.fqVal
  | 0x28 => x.intv.setWidth 64
  | 0x30 =>
    match d.suspendedAt p c x.fqTick with
    | none => 0
    | some g => BitVec.ofNat 64 (2 ^ 63 + g.slot % 2 ^ 20)
  | _ => 0

def Dev.writeFqReg (d : Dev) (clk : Clock) (p c r : Nat) (v : Word) : Dev :=
  let x := d.ctx p c
  match r with
  | 0x00 => if v.toNat / 2 ^ 32 = 0 then d.setCtx p c { x with fqHead := v.setWidth 32 } else d
  | 0x08 => d.setCtx p c { x with fqLost := 0 }
  | 0x10 => d.setCtx p c { x with fqTick := v }
  | 0x18 => d.setCtx p c { x with fqVal := v }
  | 0x20 => if v.toNat < 3 then d.reply clk p c v.toNat else d
  | 0x28 =>
    if v.toNat / 2 ^ 27 = 0 ∧ nbits v.toNat 11 5 = 0 then d.setCtx p c { x with intv := v.setWidth 27 } else d
  | _ => d

/-! The health window (R389). -/

/-- HSTAT. -/
def Dev.hstat (d : Dev) (clk : Clock) : Word :=
  BitVec.ofNat 64 (d.bootWarn.toNat * 2 ^ 16 + d.bootErr.toNat * 2 ^ 8 + (if d.replace then 2 ^ 7 else 0) +
    (if clk.mhz < 600 then 2 ^ 6 else 0) + (if d.orphans.isEmpty then 0 else 2 ^ 5) + (if d.linkdn then 2 ^ 4 else 0) + d.hstate.toNat)

/-- How many of the bits that the health vector announces are 1 now and were not before, the state `failed` among them. -/
def risen (was now : Word) : Nat :=
  let up := (now &&& ~~~ was).toNat
  ((List.range 4).filter fun i => nbit up (4 + i)).length + if now.toNat % 16 = 4 ∧ was.toNat % 16 ≠ 4 then 1 else 0

/-- The health interrupt (vector 0), sent for each such bit that a change of the device makes 1 (R389). -/
def Dev.tellHealth (d : Dev) (was : Word) (clk : Clock) : Dev := (List.range (risen was (d.hstat clk))).foldl (fun d _ => d.interrupt 0) d

/-- HORPH: the oldest quarantined frame. -/
def Dev.horph (d : Dev) : Word := match d.orphans with
  | [] => 0
  | f :: _ => BitVec.ofNat 64 (f % 2 ^ 36 * 2 ^ 16)

def Dev.popOrphan (d : Dev) : Dev := { d with orphans := d.orphans.drop 1 }

def Dev.healthReg (d : Dev) (clk : Clock) (r : Nat) : Word :=
  match r with
  | 0x00 => d.hstat clk
  | 0x08 => d.horph
  | 0x10 => d.hcorr
  | 0x18 => d.hunc
  | 0x20 => d.hpermit
  | 0x28 => BitVec.ofNat 64 (d.uncTh.toNat * 2 ^ 16 + d.corTh.toNat)
  | 0x30 => BitVec.ofNat 64 (clk.mhz % 2 ^ 16 * 2 ^ 32 + d.temp.toNat * 2 ^ 16 + d.power.toNat)
  | 0x38 => d.hgang
  | _ => 0

/-- HGANG is written only while every partition's list is empty; its zero fields read as zero. -/
def Dev.writeHgang (d : Dev) (v : Word) : Dev :=
  if (List.range 16).all d.listEmpty then
    { d with hgang := BitVec.ofNat 64 (nbits v.toNat 32 32 * 2 ^ 32 + nbits v.toNat 16 6 * 2 ^ 16 + nbits v.toNat 0 6) }
  else d

def Dev.writeHealthReg (d : Dev) (r : Nat) (v : Word) : Dev :=
  match r with
  | 0x00 => if v.getLsbD 4 then { d with linkdn := false } else d
  | 0x10 => { d with hcorr := 0 }
  | 0x18 => { d with hunc := 0 }
  | 0x20 => { d with hpermit := 0 }
  | 0x28 => { d with uncTh := v.extractLsb' 16 16, corTh := v.setWidth 16 }
  | 0x38 => d.writeHgang v
  | _ => d

/-! Tables. -/

/-- A word of the MSI-X table written: an unmasked entry that has an interrupt pending sends it (R380). -/
def Dev.writeMsix (d : Dev) (k : Nat) (v : Word) : Dev :=
  let d := { d with msixTable := d.msixTable.put k v }
  let vec := k / 2
  if k % 2 = 1 ∧ nbit v.toNat 32 = false ∧ nbit (d.msixPending.getD (vec / 64) 0).toNat (vec % 64) then
    { d with msixPending := d.msixPending.modify (vec / 64) 0 fun w => w &&& ~~~ BitVec.ofNat 64 (2 ^ (vec % 64)) }.send (.interrupt vec)
  else d

/-- A word of the host attribute table (R377). -/
def Dev.attrWord (d : Dev) (k : Nat) : Word := BitVec.ofNat 64 (nbits (d.hostAttr.getD (k / 4) 0).toNat (64 * (k % 4)) 64)

def Dev.writeAttr (d : Dev) (k : Nat) (v : Word) : Dev :=
  { d with hostAttr := d.hostAttr.modify (k / 4) 0 fun e => BitVec.ofNat 256 (putBits e.toNat (64 * (k % 4)) 64 v.toNat) }

/-! The whole space, by 8-byte registers. -/

/-- Regions of control space that hold registers. -/
inductive CtrlReg where
  | queue (p c q r : Nat)
  | part (p r : Nat)
  | fq (p c r : Nat)
  | window (core word : Nat)
  | health (r : Nat)
  | msix (k : Nat)
  | pending (k : Nat)
  | attr (k : Nat)
  | none
  deriving DecidableEq, Repr

/-- The register at an offset that is a multiple of 8 (R375). -/
def ctrlReg (o : Nat) : CtrlReg :=
  if o < 0x400000 then
    let p := o / 0x40000
    let r := o % 0x40000
    if r < 0x20000 then .queue p (r / 0x800) (r % 0x800 / 0x100) (r % 0x100)
    else if r < 0x21000 then .part p (r - 0x20000)
    else if r < 0x22000 then .fq p ((r - 0x21000) / 0x40) (r % 0x40)
    else .none
  else if 0x1000000 ≤ o ∧ o < 0x1040000 then .window ((o - 0x1000000) / 64) (o % 64 / 8)
  else if 0x2000000 ≤ o ∧ o < 0x2001000 then .health (o - 0x2000000)
  else if 0x2001000 ≤ o ∧ o < 0x2009000 then .msix ((o - 0x2001000) / 8)
  else if 0x2009000 ≤ o ∧ o < 0x2009100 then .pending ((o - 0x2009000) / 8)
  else if 0x200A000 ≤ o ∧ o < 0x200C000 then .attr ((o - 0x200A000) / 8)
  else .none

/-- The value of the register at an offset, without the effect of reading it. -/
def Dev.ctrlPeek (d : Dev) (clk : Clock) (o : Nat) : Word :=
  match ctrlReg o with
  | .queue p c q r => d.queueReg p c q r
  | .part p r => d.partReg p r
  | .fq p c r => d.fqReg p c r
  | .window _ _ => Config.windowRead d.nfree
  | .health r => d.healthReg clk r
  | .msix k => d.msixWord k
  | .pending k => d.msixPending.getD k 0
  | .attr k => d.attrWord k
  | .none => 0

/-- A read: HORPH pops, and each read of a queue window draws a free value. -/
def Dev.ctrlRead (d : Dev) (clk : Clock) (o : Nat) : Dev × Word :=
  let v := d.ctrlPeek clk o
  match ctrlReg o with
  | .health 0x08 => (d.popOrphan, v)
  | .window _ _ => ({ d with nfree := d.nfree + 1 }, v)
  | _ => (d, v)

/-- A store to a queue window of which the whole word is written (R250). -/
def Dev.windowStore (d : Dev) (core word : Nat) (v : Word) : Dev :=
  if word < 7 then d.stageWord core word v
  else
    match d.windowGroup core with
    | none => d
    | some g => d.windowPush g { words := (d.core core).staging.toList ++ [v], entry := none, seq := 0, after := 0 }

/-- A whole register written. -/
def Dev.ctrlWrite (d : Dev) (clk : Clock) (o : Nat) (v : Word) : Dev :=
  match ctrlReg o with
  | .queue p c q r => d.writeQueueReg p c q r v
  | .part p r => d.writePartReg p r v
  | .fq p c r => d.writeFqReg clk p c r v
  | .window core word => d.windowStore core word v
  | .health r => d.writeHealthReg r v
  | .msix k => d.writeMsix k v
  | .attr k => d.writeAttr k v
  | _ => d

/-- The base of control space (R374). -/
def ctrlBase : Nat := 0xF00000000000

/-- A load of n bytes by a program (R194): the bytes of the register that it covers. -/
def Dev.ctrlLoad (d : Dev) (clk : Clock) (pa n : Nat) : Dev × Nat :=
  let o := pa - ctrlBase
  let r := d.ctrlRead clk (o / 8 * 8)
  (r.1, nbits r.2.toNat (8 * (o % 8)) (8 * n))

/-- A store of n bytes by a program: the other bytes of the register keep what it reads as (log 20); a queue window takes
whole words only. -/
def Dev.ctrlStore (d : Dev) (clk : Clock) (pa n v : Nat) : Dev :=
  let o := pa - ctrlBase
  match ctrlReg (o / 8 * 8) with
  | .window core word => if n = 8 then d.windowStore core word (BitVec.ofNat 64 v) else d
  | _ => d.ctrlWrite clk (o / 8 * 8) (BitVec.ofNat 64 (putBits (d.ctrlPeek clk (o / 8 * 8)).toNat (8 * (o % 8)) (8 * n) v))

/-- A store is held at a queue window while its queue is full (R250). -/
def Dev.ctrlHeld (d : Dev) (pa n : Nat) : Bool :=
  match ctrlReg (pa - ctrlBase) with
  | .window core 7 => n == 8 && (match d.windowGroup core with
    | some g => 16 ≤ g.arch.mu.queue.length || d.unitHeld g
    | none => false)
  | _ => false

/-! Writes of the host. -/

/-- CONTROL_REGISTER_WRITE (R375). -/
def execControlRegisterWrite (o : Nat) (v : Word) (s : State) := s.event fun clk d =>
  if o % 8 = 0 ∧ o < 0x4000000 ∧ d.ctrlHeld (ctrlBase + o) 8 = false then some (d.ctrlWrite clk o v) else none

/-- HSTAT_WRITE (R389): LINKDN is cleared by a 1. -/
def execHstatWrite (v : Word) (s : State) := s.event fun _ d => some (d.writeHealthReg 0x00 v)

/-- HORPH_READ (R389): the host is sent the register, and it pops. -/
def execHorphRead (s : State) := s.event fun _ d => some (d.popOrphan.send (.hostData (toBytes d.horph.toNat 8) false))

/-- HCORR_WRITE (R389). -/
def execHcorrWrite (s : State) := s.event fun _ d => some (d.writeHealthReg 0x10 0)

/-- HUNC_WRITE (R389). -/
def execHuncWrite (s : State) := s.event fun _ d => some (d.writeHealthReg 0x18 0)

/-- HPERMIT_WRITE (R389). -/
def execHpermitWrite (s : State) := s.event fun _ d => some (d.writeHealthReg 0x20 0)

/-- HGANG_WRITE (R389). -/
def execHgangWrite (v : Word) (s : State) := s.event fun _ d => some (d.writeHealthReg 0x38 v)

end Sys2Proof.Machine
end

