-- ==== Sys2Proof/Machine/Perform.lean ====
section
/-!
DEFINITION. Performing issued global operations: the order of one group's operations (14_ordering R297 to R300), loads
(08 R182, R198, R392), stores (R198, R362), atomics (15 R313, R314), `spawn` and `join` (R321, R322) and flag writes
(06 R148), and the interleave rounds (03 R74, 14 R302).
-/

namespace Sys2Proof.Machine

/-! The order of operations. -/

/-- An operation that writes. -/
def GOpKind.writes : GOpKind → Bool
  | .load _ _ _ => false
  | _ => true

def GOpKind.isFlag : GOpKind → Bool
  | .flag _ _ _ => true
  | _ => false

/-- Bytes shared by two operations. -/
def GOp.overlaps (o p : GOp) : Bool := o.xl.pa < p.xl.pa + p.size && p.xl.pa < o.xl.pa + o.size

/-- An older operation o that must be performed before p (R299, every scope taken as the widest, log 4): an acquire
before everything, everything before a release or flag write, loads and atomics before an acquire, what a `rel` or
release precedes, writes of one 256-byte line, overlapping accesses. Uncached accesses keep their own order, and only
`fence`, which waits for all of them, orders them among others (R290). -/
def GOp.before (o p : GOp) : Bool :=
  if o.xl.typ == 2 || p.xl.typ == 2 then o.xl.typ == 2 && p.xl.typ == 2 else
  o.acq || p.rel || (p.acq && o.kind.isLoad) || (o.epoch < p.epoch && p.kind.writes) || (o.rel && p.kind.writes) ||
  (o.kind.writes && p.kind.writes && !o.kind.isFlag && !p.kind.isFlag && o.xl.pa / 256 == p.xl.pa / 256) ||
  o.overlaps p

/-- The operation of an identifier, when no older one of its group must come first. -/
def readyOp (id : Nat) : List GOp → List GOp → Option GOp
  | _, [] => none
  | older, o :: os =>
    if o.id = id then (if older.any (·.before o) then none else some o) else readyOp id (older ++ [o]) os

/-- Flag writes that nothing holds back any more take their four aclk from now (R148). -/
def restart (now : Nat) : List GOp → List GOp → List GOp → List GOp
  | _, _, [] => []
  | was, older, o :: os =>
    let held := was.any (·.before o)
    let holds := older.any (·.before o)
    (if o.kind.isFlag && held && !holds then { o with issued := now } else o) :: restart now (was ++ [o]) (older ++ [o]) os

/-- The list without an operation; `was` grows by it for the younger ones. -/
def dropOp (now id : Nat) : List GOp → List GOp → List GOp
  | _, [] => []
  | older, o :: os => if o.id = id then older ++ restart now (older ++ [o]) older os else dropOp now id (older ++ [o]) os

def Group.opDone (now id : Nat) (g : Group) : Group := { g with arch := { g.arch with gops := dropOp now id [] g.arch.gops } }

/-- A group's operation that may be performed now, and its grant in an interleave launch (R74). -/
def Dev.readyFor (d : Dev) (gid id : Nat) : Option (Group × GOp) :=
  match d.groups.find gid with
  | none => none
  | some g =>
    match readyOp id [] g.arch.gops with
    | none => none
    | some o =>
      if o.kind.isFlag then some (g, o)
      else if d.modeOf g = .ilv ∧ (!d.granted g true ∨ (g.arch.gops.find? (fun p => !p.kind.isFlag)).any (fun p => p.id ≠ id)) then none
      else some (g, o)

/-- The operation leaves the group's list, and its grant is spent. -/
def Dev.opDone (d : Dev) (clk : Clock) (g : Group) (o : GOp) : Dev :=
  let d := d.setGroup (g.opDone clk.aclk o.id)
  if o.kind.isFlag then d else d.spend g true

/-! Loads. -/

/-- The lowest poisoned byte among the enabled ones. -/
def firstBad (bad : Nat → Bool) (mask : Nat) : Nat → Nat → Option Nat
  | 0, _ => none
  | n + 1, i => if nbit mask i && bad i then some i else firstBad bad mask n (i + 1)

/-- The key of a sector in a read cache: the home that the mapping gives it, and the sector (R186). -/
def cacheKey (x : Xlat) (s : Nat) : Nat :=
  (match x.place with
    | .slice c => c
    | .remote k => 4096 + k
    | _ => 4160) * 2 ^ 47 + s

/-- A sector of the read cache, kept to 64 lines (R182): which of the other lines a full cache gives up is the device's
choice (no rule names it: a free choice, log 5). -/
def putSector (t : Tab (BitVec 256)) (k v choice : Nat) : Tab (BitVec 256) :=
  let t := t.put k (BitVec.ofNat 256 v)
  let lines := t.foldl (fun (ls : List Nat) (e : Nat × BitVec 256) => if ls.contains (e.1 / 8) then ls else e.1 / 8 :: ls) []
  if lines.length ≤ 64 then t
  else
    let others := lines.filter (· ≠ k / 8)
    match others[choice % others.length]? with
    | none => t
    | some l => t.filter fun e => e.1 / 8 ≠ l

/-- Sectors that the enabled bytes of an access touch. -/
def sectorsOf (pa n mask : Nat) : List Nat :=
  ((List.range (n / 32 + 2)).map (pa / 32 + ·)).filter fun s => (List.range n).any fun i => nbit mask i && (pa + i) / 32 == s

/-- Units of n bytes of a sector, each from one of two copies: bit i of `k` takes unit i from the first (R291, R295). -/
def mixUnits (n k a b : Nat) : Nat :=
  (List.range (32 / n)).foldl (fun v i => v + nbits (if nbit k i then a else b) (8 * n * i) (8 * n) * 2 ^ (8 * n * i)) 0

/-- One sector of a plain load of a free launch through the read cache of a core: its copy, or the home's, which then fills it.
The device chooses where both stand, for each atomic unit of n bytes (R182, R291, R295; log 5); the copy stays only where every
unit is taken from it. -/
def Dev.loadSector (d : Dev) (g : Group) (core : Option Nat) (x : Xlat) (n s : Nat) : Dev × Nat × Bool :=
  let r := d.readIn d.ms { x with pa := 32 * s } 32
  match core with
  | none => (d, r.1, r.2.isSome)
  | some c =>
    let k := Config.pick g.gid d.nfree
    let d := { d with nfree := d.nfree + 1 }
    let fills (v : Nat) : Dev × Nat × Bool :=
      ({ d with cores := d.cores.modify c Core.reset fun e => { e with rcache := putSector e.rcache (cacheKey x s) v (Config.pick g.gid d.nfree) } }, v, false)
    match (d.core c).rcache.find (cacheKey x s), r.2.isSome with
    | none, true => (d, r.1, true)
    | none, false => fills r.1
    | some v, true => if nbit k 0 then (d, v.toNat, false) else (d, r.1, true)
    | some v, false =>
      let all := 2 ^ (32 / n) - 1
      if k % (all + 1) = all then (d, v.toNat, false) else ((fills r.1).1, mixUnits n k v.toNat r.1, false)

/-- Every sector of a plain load: the device, the bytes from the first sector's base, and the poisoned sectors. -/
def Dev.loadSectors (d : Dev) (g : Group) (core : Option Nat) (x : Xlat) (n : Nat) : List Nat → Dev × (Nat → Nat) × List Nat
  | [] => (d, fun _ => 0, [])
  | s :: ss =>
    let (d, v, bad) := d.loadSector g core x n s
    let (d, f, bads) := d.loadSectors g core x n ss
    (d, fun t => if t = s then v else f t, if bad then s :: bads else bads)

/-- The bytes of an access put together from its sectors. -/
def gather (f : Nat → Nat) (pa : Nat) : Nat → Nat
  | 0 => 0
  | n + 1 => nbits (f (pa / 32)) (8 * (pa % 32)) 8 + 256 * gather f (pa + 1) n

/-- A read of a free or interleave launch brings the line into its home slice or engine (R183, R188, R304). -/
def Dev.fillFor (d : Dev) (x : Xlat) (asid : BitVec 12) (n : Nat) : Dev :=
  if d.reachable x.pa then
    { d with ms := (List.range ((x.pa + n - 1) / 32 - x.pa / 32 + 1)).foldl (fun ms i => ms.fill x.place x.cmp asid (32 * (x.pa / 32 + i))) d.ms }
  else d

/-- The value a load returns, and the lowest poisoned byte of those it reads as an offset. The read cache that serves it is
that of the core that issued it, while its group is on it. -/
def Dev.loadValue (d : Dev) (clk : Clock) (g : Group) (o : GOp) (mask : Nat) : Dev × Nat × Option Nat :=
  let x := o.xl
  let d := if x.typ = 2 then d else d.asked x o.size
  if x.typ = 2 then let r := d.ctrlLoad clk x.pa o.size; (r.1, r.2, none)
  else if o.plain then
    let d := d.fillFor x (d.asidOf g) o.size
    let (d, f, bads) := d.loadSectors g (if g.core = o.core then o.core else none) x (if o.size = 16 then 16 else 8) (sectorsOf x.pa o.size mask)
    (d, gather f x.pa o.size, firstBad (fun i => bads.contains ((x.pa + i) / 32)) mask o.size 0)
  else
    let det := d.modeOf g = .det
    let d := if det then d else d.fillFor x (d.asidOf g) o.size
    let ms := if det then d.viewOf g else d.ms
    (d, (d.readIn ms x o.size).1, firstBad (fun i => !d.reachable x.pa || d.badAt ms x.place (x.pa + i)) mask o.size 0)

/-- What the destination registers take: the pair of a 16-byte access, or a vector under its mask (R197, R199). -/
def loadWrites (a : Arch) (dests : List RegRef) (isVec : Bool) (mask v : Nat) : List (RegRef × Nat) :=
  match dests with
  | [r] => [(r, if isVec then underMask (a.reg r) v mask else v)]
  | [r, r'] => [(r, v % 2 ^ 64), (r', v / 2 ^ 64)]
  | _ => []

/-- The 32-bit words of its destination that a load covers (R362). -/
def loadWhole (isVec : Bool) (mask w : Nat) : Bool := !isVec || nbits mask (4 * w) 4 == 15

/-- The entry of an operation completes with the values it writes. -/
def Group.finishOp (g : Group) (o : GOp) (ws : List (RegRef × Nat)) (whole : Nat → Bool := fun _ => true) : Group :=
  match o.entry with
  | none => g
  | some (tok, id) => completeEntry g tok id ws whole

/-- The acquire of an operation, if it is one: by the core that issued it, and by the core where its group now is (R182). -/
def Dev.acquireOp (d : Dev) (g : Group) (o : GOp) : Dev := if o.acq then (d.acquireOn o.core).acquire g else d

/-- GLOBAL_LOAD_PERFORMED (R198, R392): every byte of the access is read, whatever the mask (log 40). -/
def Dev.performLoad (d : Dev) (clk : Clock) (gid id : Nat) : Option Dev :=
  match d.readyFor gid id with
  | none => none
  | some (g, o) =>
    match o.kind with
    | .load dests isVec mask =>
      let (d, v, bad) := d.loadValue clk g o (2 ^ o.size - 1)
      match bad with
      | some i =>
        if d.modeOf g = .det then some (d.askRollback g (BitVec.ofNat 64 (o.va + i)))
        else
          some ((d.acquireOp g o).opDone clk ((g.finishOp o []).defer cPOISON (o.va + i)) o)
      | none =>
        let g := g.finishOp o (loadWrites g.arch dests isVec mask.toNat v) (loadWhole isVec mask.toNat)
        some ((d.acquireOp g o).opDone clk g o)
    | _ => none

def execGlobalLoadPerformed (gid entry : Nat) (s : State) := s.event fun clk d => d.performLoad clk gid entry

/-! Stores. -/

/-- The read-cache copies of a core take the bytes of a store (R182). -/
def Dev.patchOn (d : Dev) (core : Option Nat) (pa n v mask : Nat) : Dev :=
  match core with
  | none => d
  | some c =>
    let patch (e : Nat × BitVec 256) : Nat × BitVec 256 :=
      (e.1, BitVec.ofNat 256 ((List.range n).foldl (fun w i =>
        if nbit mask i && (pa + i) / 32 == e.1 % 2 ^ 47 then putBits w (8 * ((pa + i) % 32)) 8 (nbits v (8 * i) 8) else w) e.2.toNat))
    { d with cores := d.cores.modify c Core.reset fun k => { k with rcache := k.rcache.map patch } }

/-- The copies take the bytes in the core that issued the store and in the core where its group now is. -/
def Dev.patchCache (d : Dev) (g : Group) (o : GOp) (v mask : Nat) : Dev :=
  let d := d.patchOn o.core o.xl.pa o.size v mask
  if g.core = o.core then d else d.patchOn g.core o.xl.pa o.size v mask

/-- STORE_PERFORMED (R198, R362, R381). -/
def Dev.performStore (d : Dev) (clk : Clock) (gid id : Nat) : Option Dev :=
  match d.readyFor gid id with
  | none => none
  | some (g, o) =>
    match o.kind with
    | .store v mask =>
      let x := o.xl
      if x.typ = 2 then
        if d.ctrlHeld x.pa o.size then none
        else
          let d := d.opDone clk g o
          some (d.ctrlStore clk x.pa o.size v)
      else
        let lost := !d.reachable x.pa || d.ms.partPoison x.place x.pa mask.toNat (o.size / 16 + 2) o.size
        let d := (d.writeX x (d.asidOf g) o.size v mask.toNat).notePos gid (o.id + 1) x.pa o.size mask.toNat
        let g := (d.groups.find gid).getD g
        let d := if lost then d else d.patchCache g o v mask.toNat
        some (d.opDone clk g o)
    | _ => none

def execStorePerformed (gid id : Nat) (s : State) := s.event fun clk d => d.performStore clk gid id

/-! Atomics (R313). -/

/-- The new contents of the location: none where `cas` finds another value. -/
def amoNew (op ty rd : Nat) (st : Bool) (n old b c : Nat) : Option Nat :=
  match op with
  | 0 => some ((old + b) % 2 ^ n)
  | 1 => some (old &&& b)
  | 2 => some (old ||| b)
  | 3 => some (old ^^^ b)
  | 4 => some (if sInt n b < sInt n old then b else old)
  | 5 => some (if sInt n old < sInt n b then b else old)
  | 6 => some (min old b)
  | 7 => some (max old b)
  | 8 => some b
  | 9 => some (tyAdd (Ty.ofCode ty) (Rnd.ofCode rd) st old b)
  | _ => if old = b then some c else none

/-- An operation on a location at its home, as the memory stands: the device, the value it returns, or the poison it
met (R312, R314). -/
inductive Applied where
  | done (d : Dev) (result : Nat)
  | poisoned

/-- The launch in which an armed record waits. -/
def Dev.ownerOf (d : Dev) (x : Xlat) (tree : Nat) : Nat :=
  match d.launches.find? (fun kl => kl.2.armed.any fun a => a.2.pa == x.pa) with
  | some (k, _) => k
  | none => tree

/-- `spawn` on a record (R321): armed with the child's ticket unless it is armed, ready or running; ready where no join
is left. -/
def Dev.applySpawn (d : Dev) (now tree va : Nat) (x : Xlat) (child : Word) : Dev × Nat :=
  let n := d.recordImage x
  let busy := d.recordBusy x
  let fresh := !busy && !nbit n 99
  let d := if fresh then (d.writeRecord x 0 8 child.toNat).setArmed x true else d
  let d := if fresh then
      match d.launches.find tree with
      | none => d
      | some l => d.setLaunch tree { l with armed := l.armed ++ [(va, x)] }
    else d
  let ready := !busy && nbits n 64 32 == 0
  (if ready then d.recordReady now (d.ownerOf x tree) va x true else d, if fresh then child.toNat else 0)

/-- `join` on a record (R322). -/
def Dev.applyJoin (d : Dev) (now tree va : Nat) (x : Xlat) : Dev × Nat :=
  let n := d.recordImage x
  let j := nbits n 64 32
  if j = 0 then (d, 2)
  else
    let d := d.writeRecord x 8 4 (j - 1)
    if j = 1 then (if nbit n 99 && !d.recordBusy x then d.recordReady now (d.ownerOf x tree) va x true else d, 1)
    else (d, 0)

/-- What an operation that is performed at its home on another package returns here: a free value of what it can return
(R303; log 6). -/
def Dev.remoteResult (d : Dev) (pkg : Nat) (o : GOp) : Nat :=
  let v := remoteBytes pkg d.ms.draw o.xl.pa o.size
  match o.kind with
  | .spawn child _ => if v % 2 = 1 then child.toNat else 0
  | .join _ => v % 3
  | _ => v

/-- One operation applied at its place (R310, R313); an atomic of another package's memory goes there (R303). -/
def Dev.applyOp (d : Dev) (clk : Clock) (tree : Nat) (asid : BitVec 12) (o : GOp) : Applied :=
  let x := o.xl
  let now := clk.fclk
  match o.kind, x.place with
  | .amo .., .remote k | .red .., .remote k | .spawn .., .remote k | .join .., .remote k =>
    if d.reachable x.pa then let d := (d.send (.remoteOp k o)).redraw; .done d (d.remoteResult k o) else .poisoned
  | _, _ =>
  match o.kind with
  | .store v mask => if x.typ = 2 then .done (d.ctrlStore clk x.pa o.size v) 0 else .done (d.writeX x asid o.size v mask.toNat) 0
  | .amo op ty rd st b c _ =>
    let d := d.asked x o.size
    let r := d.readIn d.ms x o.size
    if r.2.isSome then .poisoned
    else
      match amoNew op ty rd st (8 * o.size) r.1 b c with
      | none => .done d r.1
      | some w => .done (d.writeX x asid o.size w (2 ^ o.size - 1)) r.1
  | .red ty rd st isFma a b =>
    let d := d.asked x o.size
    let r := d.readIn d.ms x o.size
    if r.2.isSome then .poisoned
    else
      let t := Ty.ofCode ty
      let w := if isFma then fmaEta t a b r.1 else tyAdd t (Rnd.ofCode rd) st r.1 a
      .done (d.writeX x asid o.size w (2 ^ o.size - 1)) r.1
  | .spawn child _ =>
    if (d.readIn d.ms x 64).2.isSome then .poisoned
    else let r := (d.asked x 64).applySpawn now tree o.va x child; .done r.1 r.2
  | .join _ =>
    if (d.readIn d.ms x 64).2.isSome then .poisoned
    else let r := (d.asked x 64).applyJoin now tree o.va x; .done r.1 r.2
  | _ => .done d 0

/-- The destinations of an atomic operation. -/
def GOpKind.dests : GOpKind → List RegRef
  | .load ds _ _ | .amo _ _ _ _ _ _ ds | .spawn _ ds | .join ds => ds
  | _ => []

def GOpKind.isAtomic : GOpKind → Bool
  | .amo _ _ _ _ _ _ _ | .spawn _ _ | .join _ => true
  | _ => false

/-- The bytes of its location that an atomic operation has written, from what it returned (R313, R321, R322): none where a `cas`
found another value, a `spawn` a record that is armed, ready or running, a `join` no join left; TICKET and ARMED of a record;
its JOINS. -/
def GOp.written (o : GOp) (v : Nat) : Nat :=
  match o.kind with
  | .amo op ty rd st b c _ => if (amoNew op ty rd st (8 * o.size) v b c).isSome then 2 ^ o.size - 1 else 0
  | .spawn _ _ => if v = 0 then 0 else 0x10FF
  | .join _ => if v = 2 then 0 else 0xF00
  | _ => 2 ^ o.size - 1

/-- AMO_PERFORMED: an `amo`, `spawn` or `join` of a free or interleave launch at its home engine (R313, R314, R392). -/
def Dev.performAmo (d : Dev) (clk : Clock) (gid id : Nat) : Option Dev :=
  match d.readyFor gid id with
  | none => none
  | some (g, o) =>
    if !o.kind.isAtomic then none
    else
      let bad := (d.readIn d.ms o.xl o.size).2.getD o.xl.pa - o.xl.pa
      match d.applyOp clk g.recd.launch (d.asidOf g) o with
      | .poisoned =>
        some ((d.acquireOp g o).opDone clk ((g.finishOp o []).defer cATOMIC_POISON (o.va + bad)) o)
      | .done d' v =>
        let d' := d'.notePos gid (o.id + 1) o.xl.pa o.size (o.written v)
        let g := (d'.groups.find gid).getD g
        let g := g.finishOp o (loadWrites g.arch o.kind.dests false 0 v)
        some ((d'.acquireOp g o).opDone clk g o)

def execAmoPerformed (gid entry : Nat) (s : State) := s.event fun clk d => d.performAmo clk gid entry

/-- FLAG_WRITE_PERFORMED (R148, R325): a write for a core that holds no group of the context is discarded. -/
def Dev.performFlag (d : Dev) (clk : Clock) (gid id : Nat) : Option Dev :=
  match d.readyFor gid id with
  | none => none
  | some (g, o) =>
    match o.kind with
    | .flag target f v =>
      let h := d.flagGroup g target
      let d := d.opDone clk g o
      match h with
      | none => some d
      | some h =>
        match d.groups.find h.gid with
        | none => some d
        | some h => some (d.writeFlagAt clk.fclk (2 + o.va % 4) h f v)
    | _ => none

def execFlagWritePerformed (gid id : Nat) (s : State) := s.event fun clk d => d.performFlag clk gid id

end Sys2Proof.Machine
end

