-- ==== Sys2Proof/Machine/Sync.lean ====
section
/-!
DEFINITION. Waiting, barriers and frets as instructions (06 R131, R146; 15 R311, R318, R323), retirement (20 R356), the
abort line between clusters (06 R149) and deferred traps (08 R392, 15 R312, 12 R271).
-/

namespace Sys2Proof.Machine

/-! Arriving. -/

/-- BARRIER_ARRIVAL (R316): the group, stalled as given, arrives in its cell's object; the phase may complete, or is
mismatched (R317). `mark` is how the group remembers its arrival. -/
def Dev.arriveAt (d : Dev) (clk : Clock) (g : Group) (kind mark : Nat) (st : Stall) : Dev :=
  match d.launches.find g.recd.launch with
  | none => d
  | some l =>
    let g' := { g with arrived := some mark, stall := st, notBefore := clk.aclk + 1, arch := { g.arch with arrivedIn := g.arch.k.inTrap } }
    match l.arrive g.recd.home kind 5 1 with
    | (l', .waits) => ((d.setLaunch g.recd.launch l').setGroup g').maybePark g'
    | (l', .completes level) => ((d.setLaunch g.recd.launch l').setGroup g').completePhase g.recd.launch l' g.recd.home level
    | (_, .mismatch found) =>
      (d.setGroup { g with stall := .none, notBefore := clk.aclk + 1 }).reportMismatch clk.fclk l g.recd g.arch.pc (g.engCore.getD 0) kind found

/-- The arrival that a group's stall makes when it may (R311, R316, R318): its KIND, and how the group remembers it. -/
def Group.arrival (g : Group) : Option (Nat × Nat) :=
  match g.stall with
  | .bar level => if g.mayArrive g.orderedDone then some (level, level) else none
  | .fret => if g.mayArrive g.drained then some (7, 7) else none
  | .wait _ _ | .done => if g.commitWaits g.stall ∧ g.mayArrive g.drained then some (7, 6) else none
  | _ => none

/-- Parked groups whose barrier, fret or commit wait had to wait before it could arrive arrive when it may: a parked group
becomes ready when its wait is over (R94), and not before (DEDUCED, log 64). -/
def Dev.arriveParked (d : Dev) (clk : Clock) : Dev :=
  d.groups.foldl (fun d kg =>
    match d.groups.find kg.1 with
    | none => d
    | some g =>
      if g.status = .parked ∧ g.released.isNone ∧ !(d.env clk g).aborted then
        match g.arrival with
        | some (kind, mark) => d.arriveAt clk g kind mark g.stall
        | none => d
      else d) d

/-- The status a barrier ends with: its phase's, or 1 once the abort line is raised in its cluster (R99, R318). -/
def barrierEnd (e : Env) (g : Group) : Option Nat :=
  match g.released with
  | some st => some st
  | none => if e.aborted then some 1 else none

/-- The instruction completes with its status and acquires (R299, class BW). -/
def Dev.endBarrier (d : Dev) (clk : Clock) (g : Group) (dest : BitVec 6) (st : Nat) (isFret : Bool) : Except Stop Dev :=
  let a := { g.arch with joinedIn := false }
  d.finish clk { g with arrived := none, released := none, arch := a } (do
    Sys2Proof.Machine.writeX dest (BitVec.ofNat 64 st) 1
    retire .fall) fun d g _ => if isFret then d.dropCaches g.core else d.acquire g

/-- `kval` of an ILLEGAL_FIELD found at execution (R119): the head and the tail bit. -/
def fieldVal (opcode tl : Nat) (g : Guard) (bit : Nat) : Word :=
  BitVec.ofNat 64 (opcode * 128 + tl * 16 + (if g.sense then 8 else 0) + g.q.toNat + bit * 2 ^ 16)

/-- A barrier stalls (R92, R318): one of a handler waits for the phase of an arrival made before the handler, where such an
arrival stands. -/
def Dev.barrierStall (d : Dev) (clk : Clock) (g : Group) (st : Stall) : Dev :=
  let a := { g.arch with joinedIn := g.arch.joinedIn || (g.outerArrival && g.arrived.isSome) }
  d.onStop clk { g with arch := a } (.stall st)

/-- The ceiling of a group's barrier tree. -/
def Dev.ceilingOf (d : Dev) (g : Group) : Nat := match d.launchOf g with
  | none => 0
  | some l => l.ceiling

/-- `bar` (R318): level 0 has no other member, and completes beside a phase that the group has arrived in; every `bar` of
an abort group ends with status 1 (R358). -/
def execBar (g : Guard) (t : TailA) (s : State) := s.onGroup fun clk d gr =>
  let level := t.e.toNat % 8
  d.underGuard clk gr g fun gr =>
    if level = 0 then d.finish clk gr (do
      Sys2Proof.Machine.writeX t.d (if gr.isAbort then 1 else 0) 1
      retire .fall) fun d g _ => d.acquire g
    else if d.ceilingOf gr < level then .error (.trap cILLEGAL_FIELD (fieldVal 0x141 2 g 24) none)
    else
      match barrierEnd (d.env clk gr) gr with
      | some st => d.endBarrier clk gr t.d st false
      | none =>
        if gr.mayArrive gr.orderedDone then .ok (d.arriveAt clk gr level level (.bar level))
        else .ok (d.barrierStall clk gr (.bar level))

/-- `fret` (R318). -/
def execFret (g : Guard) (t : TailA) (s : State) := s.onGroup fun clk d gr =>
  d.underGuard clk gr g fun gr =>
    match barrierEnd (d.env clk gr) gr with
    | some st => d.endBarrier clk gr t.d st true
    | none =>
      if gr.mayArrive gr.drained then .ok (d.arriveAt clk gr 7 7 .fret)
      else .ok (d.barrierStall clk gr .fret)

/-- A stall on an entry that only the group's own commit releases: it arrives by commit wait (R311), as a fret does; the
abort group, which arrives nowhere, has its entries released (R358, log 32). -/
def Dev.commitWait (d : Dev) (clk : Clock) (g : Group) (st : Stall) : Except Stop Dev :=
  if g.isAbort then .ok (d.setGroup { dropWaits g with notBefore := clk.aclk + 1 })
  else if g.mayArrive g.drained then .ok (d.arriveAt clk g 7 6 st)
  else .error (.stall st)
where
  dropWaits (g : Group) : Group :=
    let a := g.arch
    let done (es : List TokEntry) : List TokEntry := es.map fun e => if e.row = .ticketed then { e with done := true } else e
    let a := { a with toks := a.toks.map done }
    { g with arch := a.release }

/-- A `wait` acquires the drains and jobs whose entries it finds released: the lines they wrote leave the caches (R272, R209,
R293). -/
def Dev.acquireDrains (d : Dev) (g : Group) (tok : Nat) : Dev :=
  let open_ := (g.arch.toks.toList.getD tok []).map (·.id)
  let seen (x : Nat × Nat × Nat) : Bool := x.1 == tok && !open_.contains x.2.1
  let a := { g.arch with drains := g.arch.drains.filter fun x => !seen x }
  let d := d.setGroup { g with arch := a }
  if g.arch.drains.any seen then d.dropLines g.core ((g.arch.drains.filter seen).map (·.2.2)) else d

/-- The group as its completed `wait` leaves it: the commit wait that this was has ended (R311); with the abort line raised,
no arrival stands. Phases that an outer barrier has arrived in, or that have completed for it, stand (R318). -/
def Group.waited (g : Group) (aborted : Bool) : Group :=
  { g with released := if g.released = some 5 then none else g.released,
           arrived := if aborted ∧ g.arrived = some 6 then none else g.arrived }

/-- `wait` (R131). -/
def execWait (g : Guard) (t : TailH) (s : State) := s.onGroup fun clk d gr =>
  let tok := t.a.toNat % 32
  let n := t.d.toNat
  d.underGuard clk gr g fun gr =>
    if gr.arch.tokCount tok ≤ n then d.finish clk (gr.waited (d.env clk gr).aborted) (retire .fall) fun d g _ => d.acquireDrains g tok
    else if d.modeOf gr = .det ∧ gr.commitWaits (.wait tok n) then d.commitWait clk gr (.wait tok n)
    else .error (.stall (.wait tok n))

/-! Retiring (R146, R356). -/

/-- The counts of a group that retires by `done` (R360). -/
def Launch.countDone (l : Launch) (g : Group) : Launch :=
  { l with live := if g.isAbort then l.live else l.live - 1,
           groupsDone := if g.isAbort ∨ g.recd.addr.isSome then l.groupsDone else l.groupsDone + 1,
           childDone := if g.recd.addr.isSome then l.childDone + 1 else l.childDone }

/-- A provisional retirement (R356): the barriers no longer count the group; its core, slot, lines and capo blocks stay
until the commit, but that a newcomer takes the core (log 26). Its record counts neither as ready nor as running, so that a
`spawn` of the same superstep can arm it again (R85; DESIGN CHOICE, log 75). -/
def Dev.retireProvisional (d : Dev) (now : Nat) (g : Group) : Dev :=
  let d := d.quitConsort g
  let a := { g.arch with copySlots := Vector.replicate 4 .empty, indSlots := Vector.replicate 4 .empty }
  let d := (d.setGroup { g with arch := a, status := .provisional, stall := .none, consort := .none, pinned := [] }).clearShadow g.recd
  let d := if g.isAbort then d else d.memberLeaves now g.recd g.arch.pc
  match d.launches.find g.recd.launch with
  | none => d
  | some l => d.sendFinal g.recd.launch (l.domOf g.recd.home)

/-- A group of a free or interleave launch leaves the device. -/
def Dev.retireNow (d : Dev) (now : Nat) (g : Group) : Dev :=
  let d := d.removeGroup g
  if g.isAbort then
    match d.launches.find g.recd.launch with
    | none => d
    | some l => d.setLaunch g.recd.launch { l with abortGroup := .retired }
  else d.memberLeaves now g.recd g.arch.pc

/-- `done` (R146, R356). -/
def execDone (g : Guard) (s : State) := s.onGroup fun clk d gr =>
  d.underGuard clk gr g fun gr =>
    if !gr.arch.toks.toList.all (·.isEmpty) then
      if d.modeOf gr = .det ∧ gr.commitWaits .done then d.commitWait clk gr .done else .error (.stall .done)
    else if !gr.quiet then .error (.stall .done)
    else
      match d.launches.find gr.recd.launch with
      | none => .ok (d.removeGroup gr)
      | some l =>
        let d := (d.setLaunch gr.recd.launch (l.countDone gr)).setGroup gr
        .ok (if l.mode = .det then d.retireProvisional clk.fclk gr else d.retireNow clk.fclk gr)

/-! `gang` and `solo` (R323). -/

/-- Position of a group in its team. -/
def teamPos (g : Group) : Nat := tkGroup g.recd.ticket % 4

/-- The member at the lowest position. -/
def lowestMember : List Group → Option Group
  | [] => none
  | g :: gs => match lowestMember gs with
    | none => some g
    | some h => if teamPos g < teamPos h then some g else some h

/-- A member that goes on alone past its `gang` is a follower that has left (R323): it issues 8 aclk later at the earliest
(R122). -/
def goesAlone (now : Nat) (h : Group) : Group := { h with notBefore := max h.notBefore (now + 8) }

/-- A waiting member goes past its `gang`. -/
def Dev.passGang (d : Dev) (clk : Clock) (g : Group) : Dev :=
  match (retire .fall : GM Unit) (d.env clk g) { g with ganged := false } with
  | .ok (_, g') => d.setGroup g'
  | .error _ => d

/-- Rank of a follower: one more than the followers below it. -/
def rankOf (g : Group) (fs : List Group) : Nat := (fs.filter fun h => teamPos h < teamPos g).length + 1

/-- The members whose next PC is that of the lowest form a consort led by it; the others go on alone. -/
def Dev.formConsort (d : Dev) (now : Nat) (members : List Group) : Dev :=
  match lowestMember members with
  | none => d
  | some lead =>
    let fs := members.filter fun h => h.gid ≠ lead.gid ∧ h.arch.pc = lead.arch.pc
    let d := (members.filter fun h => h.arch.pc ≠ lead.arch.pc).foldl (fun d h => d.setGroup (goesAlone now h)) d
    if fs.isEmpty then d
    else
      let d := d.setGroup { lead with consort := .leader (fs.map (·.gid)) }
      fs.foldl (fun d h => d.setGroup { h with consort := .follower lead.gid (rankOf h fs) [] }) d

/-- `gang` (R323): the raised abort line ends it without a consort. -/
def execGang (g : Guard) (s : State) := s.onGroup fun clk d gr =>
  d.underGuard clk gr g fun gr =>
    if !gr.recd.team4 ∨ (d.env clk gr).aborted then d.finish clk { gr with ganged := false } (retire .fall)
    else
      let team := d.team gr
      if team.all fun h => h.gid = gr.gid ∨ h.ganged then
        let d := (d.setGroup gr).breakConsort gr
        let d := (d.team gr).foldl (fun d h => d.passGang clk h) d
        .ok (d.formConsort clk.aclk (d.team gr))
      else .ok (d.setGroup { gr with ganged := true, stall := .gang, notBefore := clk.aclk + 1 })

/-- `solo` (R323): a leader dissolves its consort. -/
def execSolo (g : Guard) (s : State) := s.onGroup fun clk d gr =>
  d.thenDev clk gr g (guarded g none (return .fall)) fun d h => match h.consort with
    | .leader _ => d.breakConsort h
    | _ => d

/-! The abort line and deferred traps. -/

/-- ABORT_LINE_ARRIVE (R149): a raised line reaches another cluster. -/
def execAbortLineArrive (launch cluster : Nat) (s : State) := s.event fun clk d =>
  match d.launches.find launch with
  | none => none
  | some l => if cluster < 64 ∧ l.raisedAt.isSome ∧ !l.raised.contains cluster then some (d.raiseAbort clk.fclk launch cluster) else none

/-- The trap of a commit that met poison waits for the end of the fret or of the commit wait (R312). -/
def Group.poisonDue (g : Group) : Bool :=
  g.arch.commitPoison.isSome && g.arrived.isNone && g.released.isNone && g.arch.relOuter.isNone

/-- A trap waits to be taken before the group's next instruction. Within a handler a deferred one is held; that of a commit
which ended within it is precise and ends the group (R312, R334, R392). -/
def Group.trapDue (g : Group) : Bool :=
  g.status == .running && g.core.isSome && (g.poisonDue || (!g.arch.k.inTrap && !g.arch.deferred.isEmpty))

/-- The deferred trap of a group is taken (R333): poison met by its commit first (R312), then the others in the order of
their completion. -/
def Dev.takeDeferred (d : Dev) (clk : Clock) (g : Group) : Dev :=
  if g.poisonDue then
    let va := g.arch.commitPoison.getD 0
    let g := { g with arch := { g.arch with commitPoison := none } }
    (d.setGroup g).takeTrap clk g cATOMIC_POISON va g.arch.pc true false
  else
    match g.arch.deferred with
    | [] => d
    | t :: ts =>
      let g := { g with arch := { g.arch with deferred := ts } }
      (d.setGroup g).takeTrap clk g t.cause t.val g.arch.pc true true

/-- DEFERRED_TRAP (R271, R309, R312, R392). -/
def execDeferredTrap (gid : Nat) (s : State) := s.event fun clk d =>
  match d.groups.find gid with
  | none => none
  | some g => if g.trapDue then some (d.takeDeferred clk g) else none

end Sys2Proof.Machine
end

