-- ==== Sys2Proof/Machine/Commit.lean ====
section
/-!
DEFINITION. Supersteps of deterministic launches (04 R96 to R99; 15 R306 to R312, R319): the commit buffer and its drain,
the commit, exchange, the end of a fret with its snapshot; rollback (20 R365 to R368); the gang's part of a commit (21
R386); the rounds of interleave launches (03 R74).
-/

namespace Sys2Proof.Machine

/-! Members. -/

def Dev.modDom (d : Dev) (tree dom : Nat) (f : Dom → Dom) : Dev :=
  match d.launches.find tree with
  | none => d
  | some l => d.setLaunch tree { l with doms := l.doms.modify dom (Dom.reset none) f }

/-- COMMIT_BUFFER_DRAIN (R306): the oldest ticketed operation enters the log of its domain. -/
def Dev.drainOne (d : Dev) (gid : Nat) : Option Dev :=
  match d.groups.find gid with
  | none => none
  | some g =>
    match g.arch.buffer with
    | [] => none
    | o :: os => some ((d.setGroup { g with arch := { g.arch with buffer := os } }).logOp g o)

def execCommitBufferDrain (gid : Nat) (s : State) := s.event fun _ d => d.drainOne gid

/-! The commit (R310). -/

/-- The key order of a log: TICKET, SEQ, SUB (R307). -/
def LogOp.le (a b : LogOp) : Bool :=
  if a.ticket ≠ b.ticket then a.ticket.toNat < b.ticket.toNat
  else if a.op.seq ≠ b.op.seq then a.op.seq < b.op.seq
  else a.op.sub ≤ b.op.sub

/-- Ascending keys; equal keys keep their order. Each operation stands with the TREE of its launch. -/
def sortLog : List (Nat × LogOp) → List (Nat × LogOp)
  | [] => []
  | x :: xs => insertBefore x (sortLog xs)
where
  insertBefore (x : Nat × LogOp) : List (Nat × LogOp) → List (Nat × LogOp)
    | [] => [x]
    | y :: ys => if x.2.le y.2 then x :: y :: ys else y :: insertBefore x ys

/-- The result of a ticketed atomic is kept with its entry until the fret completes (R311). -/
def Group.keepResult (g : Group) (o : GOp) (v : Nat) : Group :=
  match o.entry with
  | none => g
  | some (tok, id) =>
    let ws := match o.kind.dests with
      | [r] => [(r, v)]
      | [r, r'] => [(r, v % 2 ^ 64), (r', v / 2 ^ 64)]
      | _ => []
    { g with arch := { g.arch with toks := vecMod g.arch.toks tok (·.map fun e => if e.id = id then { e with writes := ws } else e) } }

/-- Groups that the operations of other packages stand for in a log (R386): this number and the package's. -/
def remoteGid : Nat := 2 ^ 40

/-- The address space of a launch's context. -/
def Dev.launchAsid (d : Dev) (tree : Nat) : BitVec 12 :=
  match d.launches.find tree with
  | none => 0
  | some l => match (d.ctx l.part l.ctx).latched with
    | none => 0
    | some lt => lt.asid

/-- The logged operations of a launch whose homes lie on other packages have gone there with its end marker (R386). -/
def Dev.sentLog (d : Dev) (tree : Nat) : Bool := d.inGang && (d.launches.find tree).any (·.scope == 5)

/-- One operation of the log is applied (R310); poison writes nothing, and the group's first is named by its trap (R312). -/
def Dev.applyLogged (d : Dev) (clk : Clock) (tree : Nat) (e : LogOp) : Dev :=
  if e.op.xl.place.isRemote && d.sentLog tree then d else
  match d.applyOp clk tree (d.launchAsid tree) e.op with
  | .poisoned =>
    match d.groups.find e.gid with
    | none => if remoteGid ≤ e.gid then d.send (.answer (e.gid - remoteGid) (toBytes e.op.va 8) true) else d
    | some g => d.setGroup { g with arch := { g.arch with commitPoison := g.arch.commitPoison.orElse fun _ => some (BitVec.ofNat 64 e.op.va) } }
  | .done d v =>
    match d.groups.find e.gid with
    | none => if remoteGid ≤ e.gid ∧ e.op.kind.isAtomic then d.send (.answer (e.gid - remoteGid) (toBytes (e.op.va + v * 2 ^ 64) 24) false) else d
    | some g => d.setGroup (g.keepResult e.op v)

/-- The operations of a merge round, each with the TREE of its launch. -/
def Dev.applyLog (d : Dev) (clk : Clock) : List (Nat × LogOp) → Dev
  | [] => d
  | e :: es => Dev.applyLog (d.applyLogged clk e.1 e.2) clk es

/-- Domains of the launch that have no member: their read state follows every commit of the launch (R97). -/
def Launch.emptyDoms (l : Launch) : List Nat := (l.doms.filter fun (kd : Nat × Dom) => (l.bar kd.1).expect == 0).map (·.1)

/-- The gang's conditions for a commit (R310, R386): the operations of every other package are here, and every other package
has said that it is ready; a gang of one package has no other. -/
def Dev.gangReady (d : Dev) (l : Launch) (dm : Dom) : Bool :=
  l.scope ≠ 5 || !d.inGang || d.gangSize == 1 || (dm.sentReady && dm.readies.length == d.gangSize - 1)

/-- The commit may begin: arrival has ended, or the domain's last member has retired (R98), in a gang also on a package that
has none of its groups left (R386); every buffer has drained, no
abort line is raised but for an abort group's final commit (R357, R358), and the gang's readies are in. -/
def Dev.commitReady (d : Dev) (tree : Nat) (l : Launch) (dom : Nat) : Bool :=
  let dm := l.doms.getD dom (Dom.reset none)
  let gs := d.domGroups tree l dom
  let some_ := gs.any (fun g => g.status == .provisional) || (l.scope == 5 && d.inGang && dm.sentReady)
  let final := (l.bar dom).expect == 0 && l.between dm && some_ && gs.all (fun g => g.status == .provisional)
  let aborted := l.raisedAt.isSome && !(final && gs.any (·.isAbort))
  l.mode == .det && !l.torn && !aborted && dm.rollback.isNone && (dm.phase == .commit || final) &&
  gs.all (fun g => g.arch.buffer.isEmpty && !g.busy) && d.gangReady l dm

/-- The state of the launch after the commit of a domain: counts, phase and read states. -/
def Launch.committed (l : Launch) (dom : Nat) (ms : MemSys) (empties : List Nat) (final hadAbort : Bool) : Launch :=
  let set (k : Nat) (dm : Dom) : Dom :=
    if k = dom then
      { dm with view := some ms, log := [], charge := 0, phase := if final then .compute else .committed,
                rerun := dm.rerun && !final, exchAgain := dm.exchAgain && !final, markers := [], readies := [], sentReady := false }
    else if empties.contains k then { dm with view := some ms } else dm
  let gone (i : Nat) : Bool := l.domOf (l.cells.getD i (0, 0)).1 == dom
  { l with doms := l.doms.map fun (k, dm) => (k, set k dm), finalDone := l.finalDone || final, posViews := l.posViews.filter fun e => !gone e.1, commits := l.commits + 1, lastView := some ms,
           abortGroup := if hadAbort then .retired else l.abortGroup }

/-- A commit that begins: its domain, its log, and what its end needs of the launch as it was. -/
structure CommitOf where
  tree : Nat
  dom : Nat
  log : List (Nat × LogOp)
  gone : List Group
  final : Bool
  aborted : Bool
  empties : List Nat

/-- The commit of a domain, where it may begin. -/
def Dev.commitOf (d : Dev) (tree dom : Nat) : Option CommitOf :=
  match d.launches.find tree with
  | none => none
  | some l =>
    if l.doms.any (fun kd => kd.1 == dom) ∧ d.commitReady tree l dom then
      let dm := l.doms.getD dom (Dom.reset none)
      some { tree := tree, dom := dom, log := dm.log.map fun e => (tree, e), final := l.between dm, aborted := l.raisedAt.isSome,
             empties := l.emptyDoms, gone := (d.domGroups tree l dom).filter fun g => g.status == .provisional }
    else none

/-- The commit phase begins: retirements of the superstep become final (R356). -/
def Dev.beginCommit (d : Dev) (c : CommitOf) : Dev :=
  (c.gone.foldl (fun d g => d.removeGroup g) d).modDom c.tree c.dom fun dm => { dm with phase := .applying }

/-- A record or group of a domain reads what the commit of its domain leaves from then on (R97, R372). -/
def Rec.reads (l : Launch) (tree dom : Nat) (r : Rec) : Rec := if r.launch = tree ∧ l.domOf r.home = dom then { r with ownView := none } else r

/-- Read states kept from the domains of retired cells end with a commit of the new domain (R372). -/
def Dev.dropOwn (d : Dev) (l : Launch) (tree dom : Nat) : Dev :=
  let tidy (t : Tab (List Rec)) : Tab (List Rec) := t.map fun (k, rs) => (k, rs.map (Rec.reads l tree dom))
  { d with groups := d.groups.map fun (k, g) => (k, { g with recd := g.recd.reads l tree dom }), pools := tidy d.pools, overflow := tidy d.overflow }

/-- The commit phase ends: what the log leaves is the domain's read state (R97). An abort line raised meanwhile did not cut
it short (R99). -/
def Dev.endCommit (d : Dev) (c : CommitOf) : Dev :=
  match d.launches.find c.tree with
  | none => d
  | some l =>
    let d := if !c.aborted ∧ l.raisedAt.isSome then (d.domGroups c.tree l c.dom).foldl (fun d g => d.setGroup (completeTicketed g)) d else d
    (d.dropOwn l c.tree c.dom).setLaunch c.tree (l.committed c.dom d.ms c.empties c.final (c.gone.any (·.isAbort)))

/-- Commits that begin together form one merge round: their logs are applied as one, in ascending (TICKET, SEQ, SUB), the
tickets of different launches among one another (R310, R76). -/
def Dev.mergeRound (d : Dev) (clk : Clock) (cs : List CommitOf) : Dev :=
  cs.foldl Dev.endCommit ((cs.foldl Dev.beginCommit d).applyLog clk (sortLog (cs.flatMap (·.log))))

/-- The commits that may begin now. -/
def Dev.readyCommits (d : Dev) : List CommitOf :=
  d.launches.flatMap fun kl => if kl.2.mode = .det then kl.2.doms.filterMap fun kd => d.commitOf kl.1 kd.1 else []

/-- COMMIT_PHASE_START (R310): when the moves of an fclk are over, every commit phase that may begin then begins, in one
merge round (log 3). -/
def Dev.commit (d : Dev) (clk : Clock) (tree dom : Nat) : Option Dev :=
  let cs := d.readyCommits
  if clk.closing ∧ cs.any (fun c => c.tree == tree && c.dom == dom) then some (d.mergeRound clk cs) else none

def execCommitPhaseStart (launch dom : Nat) (s : State) := s.event fun clk d => d.commit clk launch dom

/-! Exchange and the end of a fret. -/

/-- EXCHANGE_PHASE_START (R237): every member starts its armed exchange slots. -/
def execExchangePhaseStart (launch dom : Nat) (s : State) := s.event fun clk d =>
  match d.launches.find launch with
  | none => none
  | some l =>
    if l.mode = .det ∧ (l.doms.getD dom (Dom.reset none)).phase = .committed ∧ l.raisedAt = none then
      let gs := d.domGroups launch l dom
      let d := d.modDom launch dom fun dm => { dm with phase := .exchange }
      some (gs.foldl (fun d g => d.startExchange clk.fclk g.gid) d)
    else none

/-- An exchange job of a group has not completed. -/
def Dev.exchanging (d : Dev) (g : Group) : Bool :=
  g.arch.copyIn.any (·.exch) || g.arch.copyJob.any (·.cmd.exch) ||
  (let e := d.indirect.getD (clusterOfCell g.recd.home) Indirect.reset
   e.queue.any (fun c => c.gid == g.gid && c.exch) || e.job.any (fun j => j.cmd.gid == g.gid && j.cmd.exch) ||
   e.aside.any (fun a => a.2.1.any (fun j => j.cmd.gid == g.gid && j.cmd.exch) || a.2.2.any fun c => c.gid == g.gid && c.exch))

def Stall.isWait : Stall → Bool
  | .wait _ _ => true
  | _ => false

/-- A member at the end of its fret (R319): the snapshot begins with its state as the fret leaves it, its status to be
written, or its `wait` to be ended. -/
def endFret (det : Bool) (g : Group) : Group :=
  if !det then (if g.arrived = some 7 then g.released_ 0 else g)
  else
    let g := completeTicketed (if g.arrived = some 7 then g.released_ 0
      else { g with arrived := none, released := if g.arrived = some 6 then
          (if g.outerArrival then (if g.arch.joinedIn then some 0 else none) else if g.stall.isWait then some 5 else g.released)
        else g.released })
    let a := { g.arch with seq := 0, joinedIn := false }
    { g with arch := a, snap := some a, snapReleased := g.released, capo := [], capoBad := [], linesOut := g.linesOut.filter (· < 2048) }

/-- FRET_COMPLETE (R319). -/
def Dev.fretDone (d : Dev) (tree dom : Nat) : Option Dev :=
  match d.launches.find tree with
  | none => none
  | some l =>
    let dm := l.doms.getD dom (Dom.reset none)
    let gs := d.domGroups tree l dom
    if dm.phase = .exchange ∧ dm.rollback = none ∧ l.raisedAt = none ∧ !gs.any d.exchanging then
      let d := gs.foldl (fun d g => d.dropCaches g.core) d
      let d := gs.foldl (fun d g => d.setGroup (endFret (l.mode == .det) g)) d
      let d := d.modDom tree dom fun dm =>
        { dm with phase := .compute, rerun := false, exchAgain := false }
      match d.launches.find tree with
      | none => some d
      | some l => some (d.setLaunch tree { l with frets := l.frets + 1 })
    else none

def execFretComplete (launch dom : Nat) (s : State) := s.event fun _ d => d.fretDone launch dom

/-! Rollback (R366). -/

/-- Poisoned units of blocks that the snapshot has no copy of stay poisoned (R367). -/
def keepPoison (base perBlock : Nat) (capo now old : List Nat) : List Nat :=
  old ++ now.filter fun w => !capo.contains (base + w / perBlock) && !old.contains w

/-- The state a member returns to. -/
def restore (g : Group) (s : Arch) : Arch :=
  let a := g.arch
  { s with lsPoison := keepPoison lsBase 32 g.capo a.lsPoison s.lsPoison,
           accPoison := keepPoison accBase 32 g.capo a.accPoison s.accPoison,
           winPoison := keepPoison winBase 32 g.capo a.winPoison s.winPoison }

/-- A retirement is undone (R356): its member counts again. -/
def Dev.undoRetire (d : Dev) (g : Group) : Dev :=
  if g.status ≠ .provisional then d
  else
    match d.launches.find g.recd.launch with
    | none => d
    | some l =>
      let child := g.recd.addr.isSome
      let l := { l with live := l.live + 1, groupsDone := if child then l.groupsDone else l.groupsDone - 1,
                        childDone := if child then l.childDone - 1 else l.childDone }
      let d := d.setLaunch g.recd.launch (l.addMember g.recd.home)
      match g.recd.addr with
      | none => d
      | some (_, x) => { d with shadow := d.shadow.put (granKey 0 x.pa) true }

/-- A member that started in the superstep starts again (R366 step 7): its record is ready as before; an abort group starts
again from its launch (R358). -/
def Dev.restartMember (d : Dev) (mates : Nat) (g : Group) : Dev :=
  if g.isAbort then
    let d := d.removeGroup g
    match d.launches.find g.recd.launch with
    | none => d
    | some l => d.setLaunch g.recd.launch { l with abortGroup := .notStarted }
  else
  let d := (d.undoRetire g).removeGroup g
  let d := match g.recd.addr with
    | none => d
    | some (_, x) => { d.setArmed x true with shadow := d.shadow.put (granKey 0 x.pa) false }
  let cl := clusterOfCell g.recd.home
  { d with overflow := d.overflow.modify cl [] (· ++ [{ g.recd with late := false, mates := mates }]) }.moveIn cl 1

/-- The entries of restored `tlbinv` instructions that have been carried out meanwhile complete again, and invalidations
issued since the fret are without effect (R366 step 4). -/
def Dev.restoreInvals (d : Dev) (g : Group) : Dev × Group :=
  let entries := g.arch.toks.toList.flatMap id
  let d := { d with invals := d.invals.filter fun i => i.gid ≠ g.gid || entries.any (·.id == i.id) }
  let passed (e : TokEntry) : Bool := e.row == .tlbinv && !d.invals.any (fun i => i.gid == g.gid && i.id == e.id)
  let mark (es : List TokEntry) : List TokEntry := es.map fun e => if passed e then { e with done := true } else e
  let a := { g.arch with toks := g.arch.toks.map mark }
  (d, { g with arch := a.release })

/-- One member returns to its snapshot. -/
def Dev.rollbackMember (d : Dev) (clk : Clock) (mates : Nat) (g : Group) : Dev :=
  match g.snap with
  | none => d.restartMember mates g
  | some s =>
    let d := d.undoRetire g
    let d := (d.dropCaches g.core).dropIndirect g.gid (clusterOfCell g.recd.home)
    let off := g.core.isNone
    let r := (d.keepSnap g).restoreInvals { g with arch := restore g (d.readSnap g s) }
    r.1.setGroup
      { r.2 with capo := [], capoBad := [], linesOut := g.linesOut.filter (· < 2048), arrived := none, released := g.snapReleased,
                 stall := .none, ganged := false, suspended := none, notBefore := clk.aclk + 1, recd := { g.recd with late := false },
                 status := if off then .parked else .running, readyAt := if off then some clk.fclk else g.readyAt }

/-- A line drops its clean poisoned sectors. -/
def L2Line.dropBad (l : L2Line) : L2Line :=
  let bad := l.poison &&& ~~~ l.dirty
  { l with valid := l.valid &&& ~~~ bad, poison := l.poison &&& ~~~ bad }

/-- Clean cached copies that hold uncorrectable data are dropped (R366 step 6). -/
def MemSys.dropBad (ms : MemSys) : MemSys :=
  { ms with l2 := ms.l2.map fun (k, l) => (k, l.dropBad), sram := ms.sram.filter fun e => e.2.dirty || !e.2.poison }

/-- The objects of a domain have no arrival, and every member counts in the superstep that begins again. -/
def Launch.clearBars (l : Launch) (dom : Nat) : Launch :=
  { l with bars := l.bars.map fun (k, o) =>
      if domKey l.ceiling (firstCell k) = dom then (k, { o with count := 0, kind := 0, late := 0, lateUp := false }) else (k, o) }

/-- The records of a record's team that start together once some of its members start again (R90, R366): those members', and
those that wait. -/
def Dev.matesOf (d : Dev) (again : List Group) (r : Rec) : Nat :=
  if r.team4 then (again.filter fun g => r.sameTeam g.recd).length + ((d.pools ++ d.overflow).flatMap (·.2) |>.filter r.sameTeam).length else 1

/-- Records of the domain that wait in a pool or an overflow list count as its other members do, and start with those of their
team that start again. -/
def Dev.punctualRecs (d : Dev) (tree lv dom : Nat) (again : List Group) : Dev :=
  let one (r : Rec) : Rec := if again.any fun g => r.team4 && r.sameTeam g.recd then { r with mates := d.matesOf again r } else r
  let tidy (rs : List Rec) : List Rec := rs.map fun r => one (r.punctual tree lv dom)
  { d with pools := d.pools.map fun (k, rs) => (k, tidy rs), overflow := d.overflow.map fun (k, rs) => (k, tidy rs) }

/-- A rollback of a superstep (R366). -/
def Dev.rollSuperstep (d : Dev) (clk : Clock) (tree dom : Nat) (l : Launch) : Dev :=
  let gs := d.domGroups tree l dom
  let again := gs.filter (·.snap.isNone)
  let mates (g : Group) : Nat := d.matesOf again g.recd
  let d := (d.setLaunch tree (l.clearBars dom)).punctualRecs tree l.ceiling dom again
  let d := gs.foldl (fun d g => d.breakConsort g) d
  let d := gs.foldl (fun d g => d.rollbackMember clk (mates g) ((d.groups.find g.gid).getD g)) d
  let d := { d with ms := d.ms.dropBad }
  let d := d.modDom tree dom fun dm =>
    { dm with log := [], charge := 0, rollback := none, rerun := true, phase := .compute, view := dm.view.map MemSys.dropBad }
  match d.launches.find tree with
  | none => d
  | some l => d.setLaunch tree { l with rollb := l.rollb + 1 }

/-- Exchange jobs run once more from the first slot (R368). -/
def Dev.rerunExchange (d : Dev) (now tree dom : Nat) (l : Launch) : Dev :=
  let gs := d.domGroups tree l dom
  let d := { d with ms := d.ms.dropBad }
  let d := d.modDom tree dom fun dm => { dm with rollback := none, exchAgain := true, view := dm.view.map MemSys.dropBad }
  gs.foldl (fun d g =>
    let a := { g.arch with copyIn := [], copyJob := none, indPending := 0 }
    let d := (d.setGroup { g with arch := a }).dropIndirect g.gid (clusterOfCell g.recd.home)
    d.startExchange now g.gid) d

/-- A poisoned block of a snapshot that a rollback of these groups would restore: the group and the block's address in its
slot (R367). -/
def Dev.restoreFails (d : Dev) (gs : List Group) : Option (Group × Word) :=
  gs.findSome? fun g => match g.snap, d.snapBad g, d.latchedOf g with
    | some _, some line, some (_, lt) => some (g, BitVec.ofNat 64 (slotVa lt g.slot + 256 * line))
    | _, _, _ => none

/-- ROLLBACK (R366 to R368): a second consumption in the re-run, or one during the restore, ends the context. -/
def Dev.rollback (d : Dev) (clk : Clock) (tree dom : Nat) : Option Dev :=
  match d.launches.find tree with
  | none => none
  | some l =>
    let dm := l.doms.getD dom (Dom.reset none)
    match dm.rollback with
    | none => none
    | some (gid, va) =>
      let who := (d.groups.find gid).getD default
      if dm.phase = .exchange then
        some (if dm.exchAgain then d.damageCtx l.part l.ctx who va cPOISON else d.rerunExchange clk.fclk tree dom l)
      else if dm.rerun then some (d.damageCtx l.part l.ctx who va cPOISON)
      else
        match d.restoreFails (d.domGroups tree l dom) with
        | some (g, a) => some (d.damageCtx l.part l.ctx g a cPOISON)
        | none => some (d.rollSuperstep clk tree dom l)

def execRollback (launch dom : Nat) (s : State) := s.event fun clk d => d.rollback clk launch dom

/-! Interleave rounds (R74). -/

/-- A step of an agent would make a granted access of a group now: it is enabled with the grant and spends it. -/
def Dev.wouldSpend (d : Dev) (clk : Clock) (tree gid : Nat) (f : State → Host.Outcome State Fault Refusal) : Bool :=
  match d.launches.find tree with
  | none => false
  | some l =>
    match f ⟨clk, [], 0, d.setLaunch tree { l with grants := [gid] }⟩ with
    | .next s => (s.dev.launches.find tree).any (·.grants.isEmpty)
    | _ => false

/-- The group has a global access waiting. -/
def Dev.accessWaits (d : Dev) (clk : Clock) (g : Group) : Bool :=
  let cl := clusterOfCell g.recd.home
  g.arch.gops.any (fun o => !o.kind.isFlag && !(o.xl.typ == 2 && d.ctrlHeld o.xl.pa o.size)) ||
  (g.status == .fetching && g.fetchPos < (piecesOf g.recd.regions).length) ||
  (!g.arch.copyIn.isEmpty || g.arch.copyJob.isSome || !g.arch.mu.queue.isEmpty || g.arch.indPending ≠ 0) &&
    [execCopyChunk g.gid, execGatherChunk cl, execScatterChunk cl, execScaAddMergePass cl, execScaAddApplyPass cl, execChainGather cl,
     execChsReadPass cl, execChsApplyPass cl, execMmaCommand g.gid, execMmasCommand g.gid, execDrainCommand g.gid, execLoadCommand g.gid].any
      (d.wouldSpend clk g.recd.launch g.gid)

/-- The order of tickets. -/
def insertGroup (g : Group) : List Group → List Group
  | [] => [g]
  | h :: hs => if g.recd.ticket.toNat < h.recd.ticket.toNat then g :: h :: hs else h :: insertGroup g hs

def byTicket : List Group → List Group
  | [] => []
  | g :: gs => insertGroup g (byTicket gs)

/-- Grants whose group has no access left to make are passed over. -/
def Dev.liveGrants (d : Dev) (clk : Clock) (l : Launch) : List Nat :=
  l.grants.dropWhile fun gid => match d.groups.find gid with
    | none => true
    | some g => !d.accessWaits clk g

/-- ILV_ROUND_START (R74): every access granted before has completed; one is granted to each waiting group in ascending
ticket order. -/
def Dev.startRound (d : Dev) (clk : Clock) (tree : Nat) : Option Dev :=
  match d.launches.find tree with
  | none => none
  | some l =>
    if l.mode = .ilv ∧ (d.liveGrants clk l).isEmpty then
      let ws := (d.groups.map (·.2)).filter fun g => g.recd.launch == tree && d.accessWaits clk g
      if ws.isEmpty then none else some (d.setLaunch tree { l with grants := (byTicket ws).map (·.gid) })
    else none

def execIlvRoundStart (launch : Nat) (s : State) := s.event fun clk d => d.startRound clk launch

end Sys2Proof.Machine
end

