-- ==== Sys2Proof/Machine/Outside.lean ====
section
/-!
DEFINITION. The device's outside (21_outside R374 to R390) and the errors of its parts (20 R362 to R372): host accesses
over CXL, evictions, lines written out and refilled (17 R341, R344), links and gangs, start-up and attestation, health,
power, soft errors, cell retirement.
-/

namespace Sys2Proof.Machine

/-! Host accesses (R376, R377). -/

/-- An access of the host lies in the HDM range. -/
def inHdm (addr n : Nat) : Bool := addr + n ≤ 0x7FFF000000

/-- Bytes from a physical address, each at its home. -/
def Dev.physBytes (d : Dev) (pa : Nat) : Nat → List Byte
  | 0 => []
  | n + 1 => d.ms.byteAt (d.physPlace pa) pa :: Dev.physBytes d (pa + 1) n

/-- One of the bytes is poisoned. -/
def Dev.physBad (d : Dev) (pa n : Nat) : Bool := (List.range n).any fun i => d.ms.poisonAt (d.physPlace (pa + i)) (pa + i)

/-- Runnable-list entries whose VALID bit lies among written bytes: partition and entry. -/
def Dev.entriesIn (d : Dev) (pa n : Nat) : List (Nat × Nat) :=
  (List.range 16).flatMap fun p =>
    ((List.range 64).filter fun c => pa ≤ d.entryPa p c + 49 && d.entryPa p c + 49 < pa + n).map fun c => (p, c)

/-- The VALID bits of entries before a write, and what the write makes of each (R61, R62). -/
def Dev.watchValid (d : Dev) (was : List (Nat × Nat × Bool)) : Dev :=
  was.foldl (fun d e =>
    let now := nbit (d.runEntry e.1 e.2.1) 399
    let x := d.ctx e.1 e.2.1
    if !e.2.2 ∧ now then d.validWrite e.1 e.2.1
    else if e.2.2 ∧ !now ∧ x.latched.isSome ∧ !x.retiring then d.retireCtx e.1 e.2.1
    else d) d

/-- The host may keep the 64-byte lines that it has read in its caches (R376). -/
def Dev.hostCaches (d : Dev) (addr n : Nat) : Dev :=
  { d with hostLines := addBlocks d.hostLines (if n = 0 then [] else (List.range ((addr + n - 1) / 64 - addr / 64 + 1)).map (addr / 64 + ·)) }

/-- HOST_CXL_MEM_READ (R376): outside the range, zero data with the error indication; poison is indicated as an error. -/
def execHostCxlMemRead (addr count : Nat) (s : State) := s.event fun _ d =>
  if inHdm addr count then some (((d.foundPhys addr count).hostCaches addr count).send (.hostData (d.physBytes addr count) (d.physBad addr count)))
  else some (d.send (.hostData (List.replicate count 0) true))

/-- The host keeps its cached lines over a write of its own. -/
def Dev.keepHost (d was : Dev) : Dev := { d with hostLines := was.hostLines }

/-- HOST_CXL_MEM_WRITE (R376). -/
def execHostCxlMemWrite (addr : Nat) (data : List Byte) (s : State) := s.event fun _ d =>
  if inHdm addr data.length then
    let was := (d.entriesIn addr data.length).map fun e => (e.1, e.2, nbit (d.runEntry e.1 e.2) 399)
    some (({ d with hostLines := [] }.physStore addr data (data.length + 1) |>.keepHost d).watchValid was)
  else some (d.send (.hostData [] true))

/-- HOST_ATOMIC (R376): an error response that writes nothing. -/
def execHostAtomic (_ : Nat) (s : State) := s.event fun _ d => some (d.send (.hostData [] true))

/-! Evictions (R188, R364). -/

/-- The context that holds an address space. -/
def Dev.ctxOfAsid (d : Dev) (asid : BitVec 12) : Option (Nat × Nat) :=
  (d.ctxs.find? (fun kx => match kx.2.latched with
    | some l => l.asid == asid
    | none => false)).map fun kx => (kx.1 / 64, kx.1 % 64)

/-- A dirty sector written behind the caches. -/
def MemSys.writeBack (ms : MemSys) (base : Nat) (l : L2Line) (s : Nat) : MemSys :=
  if !nbit l.dirty.toNat s then ms
  else if nbit l.poison.toNat s then { ms with poison := if ms.poison.contains (base / 32 + s) then ms.poison else (base / 32 + s) :: ms.poison }
  else { ms with mem := ms.mem.writeN (base + 32 * s) (nbits l.data.toNat (256 * s) 256) 32, poison := ms.poison.filter (· ≠ base / 32 + s) }

/-- An orphan-poison event (R364, R389): the frame is quarantined and queued for the host. -/
def Dev.orphan (d : Dev) (frame : Nat) : Dev :=
  { d with quarantine := if d.quarantine.contains frame then d.quarantine else frame :: d.quarantine,
           orphans := if d.orphans.length < 64 then d.orphans ++ [frame] else d.orphans, hunc := satInc64 d.hunc }

/-- A change of every read state that deterministic launches read (R97, R358, R372): they hold copies of the same storage. -/
def Dev.onViews (d : Dev) (f : MemSys → MemSys) : Dev :=
  let still (dm : Dom) : Dom := { dm with view := dm.view.map f }
  let own (r : Rec) : Rec := { r with ownView := r.ownView.map f }
  let all (l : Launch) : Launch :=
    { l with doms := l.doms.map fun (j, dm) => (j, still dm), lastView := l.lastView.map f, posViews := l.posViews.map fun (i, v) => (i, f v) }
  { d with launches := d.launches.map fun (k, l) => (k, all l), groups := d.groups.map fun (k, g) => (k, { g with recd := own g.recd }),
           pools := d.pools.map fun (k, rs) => (k, rs.map own), overflow := d.overflow.map fun (k, rs) => (k, rs.map own) }

/-- The dirty sectors of a line written to its memory, which keeps its stored length: compressed where its page says so and it lies
in HBM, else whole (R188). -/
def MemSys.storeLine (ms : MemSys) (line : Nat) (l : L2Line) : MemSys :=
  let ms := (List.range 8).foldl (fun ms s => ms.writeBack (256 * line) l s) ms
  if l.dirty = 0 then ms
  else { ms with hbmField := if l.cmp ∧ !isCxl (256 * line) then ms.hbmField.put line (Config.compressed l.data % 8) else ms.hbmField.del line }

/-- A line leaves its slice (R364). -/
def Dev.evictLine (d : Dev) (core line : Nat) : Dev :=
  let k := core * 2 ^ 44 + line
  match d.ms.l2.find k with
  | none => d
  | some l =>
    let base := 256 * line
    let gone : MemSys := { d.ms with l2 := d.ms.l2.del k }
    if l.dirty = 0 then { d with ms := gone }
    else if l.badTag then
      { d with ms := { gone with poison := addBlocks gone.poison ((List.range 8).map (base / 32 + ·)) } }.orphan (base / 2 ^ 16)
    else if !d.reachable base then { d with ms := gone, hunc := satInc64 d.hunc }
    else
      let d := { d with ms := gone.storeLine line l }
      if l.dirty &&& l.poison = 0 then d
      else
        match d.ctxOfAsid l.asid with
        | none => d
        | some (p, c) => (d.faultEntry p c (BitVec.ofNat 64 base) 0 0 0 2 cPOISON core).1

/-- L2_DIRTY_EVICT (R364); a clean line is only dropped. -/
def execL2DirtyEvict (slice line : Nat) (s : State) := s.event fun clk d =>
  if (d.ms.l2.find (slice * 2 ^ 44 + line)).isSome then some ((d.evictLine slice line).tellHealth (d.hstat clk) clk) else none

/-! Capacity (R2, R183, R304). -/

/-- Lines of an L2 slice, of 128 KiB; granules of a bank of a die's sync SRAM, of 512 KiB. -/
def l2Lines : Nat := 512
def bankGranules : Nat := 8192

/-- The bank of a die's sync SRAM that holds a granule (R304). -/
def bankOf (gran : Nat) : Nat := (gran ^^^ (gran / 64)) % 64

/-- Lines of a slice beyond its capacity are evicted; which ones is the device's choice (no rule names them: log 5). -/
def Dev.trimSlice (d : Dev) (core : Nat) : Nat → Dev
  | 0 => d
  | fuel + 1 =>
    let mine := (d.ms.l2.map (·.1)).filter fun k => k / 2 ^ 44 == core
    if mine.length ≤ l2Lines then d
    else
      let k := mine.getD (Config.victim d.nfree % mine.length) 0
      Dev.trimSlice ({ d with nfree := d.nfree + 1 }.evictLine core (k % 2 ^ 44)) core fuel

/-- A granule written back, if dirty, and dropped (R304), its line then stored whole (R188); `up` says whether a write to an
address reaches its memory (R381). -/
def MemSys.dropGranule (ms : MemSys) (up : Nat → Bool) (key : Nat) : MemSys :=
  match ms.sram.find key with
  | none => ms
  | some g =>
    let pa := key % 2 ^ 46 * 64
    let sec := [pa / 32, pa / 32 + 1]
    let ms := { ms with sram := ms.sram.del key }
    if !g.dirty || !up pa then ms
    else if g.poison then { ms with poison := addBlocks ms.poison sec }
    else { ms with mem := ms.mem.writeN pa g.data.toNat 64, poison := ms.poison.filter fun s => !sec.contains s,
                   hbmField := ms.hbmField.del (pa / 256) }

/-- A granule leaves a die's engine: a dirty one whose memory cannot be reached is lost and counted (R381, R389). -/
def Dev.dropGranule (d : Dev) (key : Nat) : Dev :=
  let lost := (d.ms.sram.find key).any (·.dirty) && !d.reachable (key % 2 ^ 46 * 64)
  let d := if lost then d.dropWrite else d
  { d with ms := d.ms.dropGranule d.reachable key }

/-- Granules of a bank of a die's engine beyond its room are evicted to their backing, by the device's choice (log 5). -/
def Dev.trimBank (d : Dev) (die bank : Nat) : Nat → Dev
  | 0 => d
  | fuel + 1 =>
    let mine := (d.ms.sram.map (·.1)).filter fun k => k / 2 ^ 46 == die && bankOf (k % 2 ^ 46) == bank
    if mine.length ≤ bankGranules then d
    else
      let k := mine.getD (Config.victim d.nfree % mine.length) 0
      Dev.trimBank ({ d with nfree := d.nfree + 1 }.dropGranule k) die bank fuel

/-- The caches at the homes keep to their capacity; a bank that holds more than its room is among more granules than that. -/
def Dev.trimCaches (d : Dev) : Dev :=
  let d := (distinct (d.ms.l2.map fun kl => kl.1 / 2 ^ 44)).foldl (fun d c => d.trimSlice c d.ms.l2.length) d
  if d.ms.sram.length ≤ bankGranules then d
  else [0, 1].foldl (fun d die => (List.range 64).foldl (fun d b => d.trimBank die b d.ms.sram.length) d) d

/-- QUARANTINE_RELEASE (R364). -/
def execQuarantineRelease (frame : Nat) (s : State) := s.event fun _ d =>
  if d.quarantine.contains frame then some { d with quarantine := d.quarantine.filter (· ≠ frame) } else none

/-- A line of host memory that the host has taken from the device holds from then on what the host writes there: free bytes
(R379 gives the row no data; DESIGN CHOICE, log 6). -/
def Dev.hostWrites (d : Dev) (pa : Nat) : Dev :=
  let v := (List.range 64).foldl (fun n i => n + (Config.hostByte d.nfree i).toNat * 2 ^ (8 * i)) 0
  { d with nfree := d.nfree + 1, ms := { d.ms with mem := d.ms.mem.writeN pa v 64, poison := d.ms.poison.filter fun s => s / 2 ≠ pa / 64 } }

/-- HOST_SNOOP (R379): a 64-byte line of host memory is served at its home slice; dirty data go to the host, with the poison
of their sectors; after an invalidating snoop the host may write the line. -/
def execHostSnoop (addr : Nat) (invalidate : Bool) (s : State) := s.event fun _ d =>
  let pa := 0x800000000000 + addr / 64 * 64
  let m : BitVec 8 := BitVec.ofNat 8 (3 * 2 ^ (pa / 32 % 8))
  let hits := d.ms.l2.filter fun kl => kl.1 % 2 ^ 44 == pa / 256 && kl.2.valid &&& m != 0
  let ms := hits.foldl (fun ms kl => (List.range 8).foldl (fun ms s => if nbit m.toNat s then ms.writeBack (pa / 256 * 256) kl.2 s else ms) ms) d.ms
  let clean (l : L2Line) : L2Line :=
    { l with dirty := l.dirty &&& ~~~ m, valid := if invalidate then l.valid &&& ~~~ m else l.valid }
  let ms := hits.foldl (fun (ms : MemSys) kl => { ms with l2 := ms.l2.put kl.1 (clean kl.2) }) ms
  let bad := ms.poison.contains (pa / 32) || ms.poison.contains (pa / 32 + 1)
  let d := { d with ms := ms }.send (.snoopData (if hits.isEmpty then [] else toBytes (ms.mem.readN pa 64) 64) (!hits.isEmpty && bad))
  some (if invalidate then d.hostWrites pa else d)

/-! Lines of groups (R341, R344, R179, R180). -/

/-- The group on the core whose arrays hold the lines of a group off its core stalls on this line (R341). -/
def Dev.lineMissed (d : Dev) (g : Group) (line : Nat) : Bool :=
  match g.linesOn with
  | none => false
  | some c =>
    match (d.core c).group with
    | none => false
    | some k => match d.groups.find k with
      | none => false
      | some h => h.stall == .refill line

/-- LINE_WRITE_OUT (R341, R344): the line of a group that is off its core goes to its slot when the newcomer misses on it. -/
def execLineWriteOut (gid line : Nat) (s : State) := s.event fun clk d =>
  match d.groups.find gid with
  | none => none
  | some g =>
    if g.core.isNone ∧ line < 2048 ∧ !g.linesOut.contains line ∧ d.lineMissed g line then some (d.lineOut clk g line) else none

/-- LINE_REFILL (R179, R180). -/
def execLineRefill (gid line : Nat) (s : State) := s.event fun _ d =>
  match d.groups.find gid with
  | none => none
  | some g => if g.core.isSome ∧ line < 2048 ∧ g.linesOut.contains line then d.lineIn g line else none

/-! Soft errors and repairs (R362, R369). -/

/-- A unit becomes uncorrectable where its data are stored; a cached sector or granule that is not there is no stored unit. The
read states of deterministic launches stand for the same storage, and their readers meet its poison (R362, R363). -/
def Dev.spoil (d : Dev) (u : UpsetUnit) : Dev :=
  match u with
  | .mem s => { d with ms := { d.ms with poison := addBlocks d.ms.poison [s] } }
  | .l2 core line s =>
    if (d.ms.l2.find (core * 2 ^ 44 + line)).any fun l => nbit l.valid.toNat (s % 8) then
      { d with ms := d.ms.markBad (.slice core) (256 * line + 32 * (s % 8)) }
    else d
  | .l2Tag core line =>
    match d.ms.l2.find (core * 2 ^ 44 + line) with
    | none => d
    | some l => { d with ms := { d.ms with l2 := d.ms.l2.put (core * 2 ^ 44 + line) { l with badTag := true } } }
  | .sram die g => if (d.ms.sram.find (die * 2 ^ 46 + g)).isSome then { d with ms := d.ms.markBad (.engine die) (64 * g) } else d
  | .ls gid w => d.modArch gid fun a => { a with lsPoison := addBlocks a.lsPoison [w] }
  | .acc gid w => d.modArch gid fun a => { a with accPoison := addBlocks a.accPoison [w] }
  | .win gid w => d.modArch gid fun a => { a with winPoison := addBlocks a.winPoison [w] }
  | .reg gid file n => d.modArch gid fun a =>
      let r := regOf file (n % 256)
      if r.fixed ∨ r.words ≤ n / 256 then a else { a with regPoison := (r, n / 256) :: a.regPoison }
  | .capo gid w =>
    match d.groups.find gid with
    | none => d
    | some g => if w / 32 < g.blocks then d.setGroup { g with capoBad := addBlocks g.capoBad [w] } else d

/-- SOFT_ERROR (R362, R369): a correctable upset waits for the read that finds it; an uncorrectable one is poison. -/
def execSoftError (t : UpsetTarget) (s : State) := s.event fun _ d =>
  if t.correctable then some { d with upsets := d.upsets ++ [t] }
  else some ((({ d with hunc := satInc64 d.hunc }.countCell t.unit true)).spoil t.unit)

/-- CORRECTABLE_ERROR_REPAIR (R369): the word is corrected and counted; the reader of a register issues again at least 4
aclk later. -/
def execCorrectableErrorRepair (upset : Nat) (s : State) := s.event fun clk d =>
  match d.upsets[upset]? with
  | none => none
  | some t =>
    let d := d.repairAll (· == t)
    match t.unit with
    | .reg gid _ _ =>
      match d.groups.find gid with
      | none => some d
      | some g => some (d.setGroup { g with notBefore := max g.notBefore (clk.aclk + 4) })
    | _ => some d

/-- The die whose last tuning pass is the older. -/
def Dev.auditDie (d : Dev) : Nat := if d.lastAudit.toList.getD 1 0 < d.lastAudit.toList.getD 0 0 then 1 else 0

/-- TUNING_PASS of a die (R370): every 10 ms, the die whose last pass is the older first; it also closes the audit interval
of its cells' correction counts (R389). -/
def execTuningPass (s : State) := s.event fun clk d =>
  let die := d.auditDie
  let last := d.lastAudit.toList.getD die 0
  if last + 12000000 ≤ clk.fclk then
    let n := d.hpermit.toNat + Config.permits (2 * last + die)
    some { d with lastAudit := d.lastAudit.setIfInBounds die clk.fclk, cellCorr := d.cellCorr.filter (fun c => dieOfCell c.1 != die),
                  hpermit := BitVec.ofNat 64 (min n (2 ^ 64 - 1)) }
  else none

/-! Cell retirement (R372). -/

/-- A cell's counts have reached their thresholds. -/
def Dev.worn (d : Dev) (cell : Nat) : Bool :=
  !d.retired.contains cell && cell < 1024 &&
  ((d.cellUnc.getD cell 0 ≠ 0 && d.uncTh.toNat ≤ d.cellUnc.getD cell 0) || (d.corTh ≠ 0 && d.corTh.toNat ≤ d.cellCorr.getD cell 0))

/-- Where the records and groups of a retired cell go: the next unretired cell of its cluster, then of the list; they stay
where they are when the list has none left (R372 names none then; DESIGN CHOICE, log 48). -/
def Dev.newHome (d : Dev) (part cell : Nat) : Nat :=
  match nextCell d.retired ((List.range 16).map (16 * clusterOfCell cell + ·)) cell with
  | some c => c
  | none => (nextCell d.retired (d.cellList part) cell).getD cell

/-- What the children of an object give it: how many have members, and the KINDs of those complete. -/
def Launch.fromKids (l : Launch) (lv key : Nat) : Nat × List Nat :=
  let kids := (l.bars.filter fun (ko : Nat × BarObj) => ko.1 / 4096 + 1 == lv && domKey lv (firstCell ko.1) == key).map (·.2)
  ((kids.filter (·.expect ≠ 0)).length, (kids.filter fun o => o.kind ≠ 0 && o.expect ≠ 0 && o.need ≤ o.count).map (·.kind))

/-- An object of a level above the cell after its children have changed: EXPECT and COUNT change with theirs, and keep what
other packages have added (R315, R316). -/
def Launch.parentObj (l was : Launch) (lv key : Nat) : BarObj :=
  let a := was.fromKids lv key
  let b := l.fromKids lv key
  let o := l.bar key
  let count := o.count + b.2.length - a.2.length
  { o with expect := o.expect + b.1 - a.1, count := count, kind := if count = 0 then 0 else if o.kind ≠ 0 then o.kind else b.2.headD 0 }

/-- The members and arrivals of a cell's object move to another cell's, and the objects above are recomputed. -/
def Launch.moveCell (l : Launch) (old new : Nat) : Launch :=
  let was := l
  let a := l.bar (domKey 1 old)
  let b := l.bar (domKey 1 new)
  let both : BarObj :=
    { b with expect := a.expect + b.expect, count := a.count + b.count, kind := if b.kind = 0 then a.kind else b.kind, late := a.late + b.late,
             lateUp := b.lateUp || a.lateUp, parent := if l.ceiling = 1 then 0 else domKey 2 new }
  let l := (l.setBar (domKey 1 old) { a with expect := 0, count := 0, kind := 0, late := 0, lateUp := false }).setBar (domKey 1 new) both
  (List.range (l.ceiling - 1)).foldl (fun l i =>
    let lv := i + 2
    let l' := l.setBar (domKey lv old) (l.parentObj was lv (domKey lv old))
    if domKey lv old = domKey lv new then l' else l'.setBar (domKey lv new) (l.parentObj was lv (domKey lv new))) l

/-- Groups of a domain join another (R372): their logged operations go with them, and those not yet produced keep the read state
of the old domain; with the last member goes its charge. `whole`: no member stays in the old domain (log 48). -/
def Launch.moveDom (l : Launch) (old new cell : Nat) (moved : List Nat) (whole : Bool) : Launch :=
  if old = new then l
  else
    let a := l.doms.getD old (Dom.reset none)
    let goes (e : LogOp) : Bool := whole || moved.contains e.gid
    let charge := if whole then a.charge else 0
    let kept : Dom := { a with log := a.log.filter fun e => !goes e, charge := a.charge - charge }
    let joined (dm : Dom) : Dom :=
      { dm with log := dm.log ++ a.log.filter goes, charge := dm.charge + charge, rerun := dm.rerun || a.rerun }
    let here := (List.range l.cells.length).filter fun i => (l.cells.getD i (0, 0)).1 == cell && (l.posViews.find i).isNone
    let view (t : Tab MemSys) (i : Nat) : Tab MemSys := match a.view with
      | some v => t.put i v
      | none => t
    { l with doms := (l.doms.put old kept).modify new (Dom.reset a.view) joined, posViews := here.foldl view l.posViews }

/-- A memory system with every line of the slices and every granule of the engines written behind the caches (R185). -/
def MemSys.flushAll (up : Nat → Bool) (ms : MemSys) : MemSys :=
  let back (ms : MemSys) (kl : Nat × L2Line) : MemSys :=
    if up (kl.1 % 2 ^ 44 * 256) then ms.storeLine (kl.1 % 2 ^ 44) kl.2 else ms
  ms.sram.foldl (fun ms kg => ms.dropGranule up kg.1) { ms.l2.foldl back ms with l2 := [] }

/-- Everything that was translated before a cell retired finds its home of now (R185, R372). -/
def Dev.rehomeAll (d : Dev) : Dev :=
  let op (o : GOp) : GOp := if o.kind.isFlag then o else { o with xl := d.rehomeX o.xl }
  let rc (r : Rec) : Rec := { r with addr := r.addr.map fun a => (a.1, d.rehomeX a.2) }
  let gr (g : Group) : Group :=
    let a := { g.arch with gops := g.arch.gops.map op, buffer := g.arch.buffer.map op }
    { g with recd := rc g.recd, arch := a }
  let dom (dm : Dom) : Dom := { dm with log := dm.log.map fun e => { e with op := op e.op } }
  let la (l : Launch) : Launch :=
    { l with doms := l.doms.map fun (k, dm) => (k, dom dm), armed := l.armed.map fun a => (a.1, d.rehomeX a.2), doneX := l.doneX.map d.rehomeX }
  let held (h : Held) : Held := { h with done := h.done.map d.rehomeX, pred := h.pred.map (·.map d.rehomeX) }
  let job (j : IndJob) : IndJob := { j with ups := j.ups.map fun u => (u.1, d.rehomeX u.2.1, u.2.2) }
  let ind (e : Indirect) : Indirect := { e with job := e.job.map job, aside := e.aside.map fun a => (a.1, a.2.1.map job, a.2.2) }
  { d with groups := d.groups.map fun (k, g) => (k, gr g), launches := d.launches.map fun (k, l) => (k, la l),
           pools := d.pools.map fun (k, rs) => (k, rs.map rc), overflow := d.overflow.map fun (k, rs) => (k, rs.map rc),
           queues := d.queues.map fun (k, q) => (k, { q with held := q.held.map held }),
           indirect := d.indirect.map fun (k, e) => (k, ind e) }

/-- Phases that the moves of a retirement have completed (R372, R316): an object whose members that stay have all arrived. -/
def Dev.completeMoved (d : Dev) (tree : Nat) (cells : List Nat) : Dev :=
  (List.range 5).foldl (fun d i => cells.foldl (fun (d : Dev) c => match d.launches.find tree with
    | none => d
    | some l =>
      let o := l.bar (domKey (i + 1) c)
      if i < l.ceiling ∧ o.sent ∧ o.expect ≠ 0 ∧ l.kindLevel o.kind ≤ i + 1 then d.completePhase tree l c (i + 1) else d) d) d

/-- The fret domains between which a retirement moves groups of a launch are in their compute phases: no commit, exchange or
rollback is under way in them (a retirement waits for that: DESIGN CHOICE, log 48). -/
def Dev.mayMove (d : Dev) (cell : Nat) (l : Launch) : Bool :=
  let calm (k : Nat) : Bool := let dm := l.doms.getD k (Dom.reset none); dm.phase == .compute && dm.rollback.isNone
  let old := l.domOf cell
  let new := l.domOf ({ d with retired := cell :: d.retired }.newHome l.part cell)
  l.mode != .det || l.aborted || old == new || (calm old && calm new)

/-- A record or group of a retired cell has a new home (R372); in another fret domain it keeps the read state that it had, until a
commit of that domain (log 48). -/
def Launch.moveRec (l : Launch) (cell new : Nat) (r : Rec) : Rec :=
  if l.mode = .det ∧ l.domOf cell ≠ l.domOf new then
    { r with home := new, ownView := r.ownView.orElse fun _ => (l.doms.getD (l.domOf cell) (Dom.reset none)).view }
  else { r with home := new }

/-- CELL_RETIRE (R372). -/
def Dev.retireCell (d : Dev) (clk : Clock) (cell : Nat) : Dev :=
  let here := (d.groups.map (·.2)).filter fun g => g.recd.home == cell && g.core.isSome
  let d := here.foldl (fun d g =>
    if g.status = .fetching then d.abandonStart g
    else if g.status = .provisional then d.leaveRetired (g.core.getD 0)
    else
      let d := d.leaveCore ((d.groups.find g.gid).getD g) .away
      match d.groups.find g.gid with
      | none => d
      | some h => d.setGroup { h with readyAt := some clk.fclk }) d
  let d := d.ms.l2.foldl (fun d kl => d.evictLine (kl.1 / 2 ^ 44) (kl.1 % 2 ^ 44)) d
  let d := d.ms.sram.foldl (fun d kg => d.dropGranule kg.1) d
  let d := { d with retired := cell :: d.retired, replace := true,
                    retireList := d.siteOf.getD cell cell :: d.retireList }
  let home (tree : Nat) : Nat := match d.launches.find tree with
    | none => cell
    | some l => d.newHome l.part cell
  let d := d.onViews (MemSys.flushAll d.reachable)
  let was := d
  let move (r : Rec) : Rec :=
    if r.home ≠ cell then r
    else match was.launches.find r.launch with
      | none => r
      | some l => l.moveRec cell (home r.launch) r
  let moveR (g : Group) : Group := { g with recd := move g.recd }
  let moveL (k : Nat) (l : Launch) : Launch :=
    let n := home k
    let l' := l.moveCell cell n
    let gs := was.domGroups k l (l.domOf cell)
    let moved := (gs.filter (·.recd.home == cell)).map (·.gid)
    let whole := (l'.bar (l.domOf cell)).expect == 0 && gs.all (·.recd.home == cell)
    { l'.moveDom (l.domOf cell) (l.domOf n) cell moved whole with
      cells := l.cells.map fun cs => if cs.1 = cell then (n, cs.2) else cs }
  let d := { d with launches := d.launches.map fun (k, l) => (k, moveL k l) }
  let d := { d with groups := d.groups.map fun (k, g) => (k, moveR g) }
  let pools := d.pools.flatMap (·.2)
  let spill := d.overflow.flatMap (·.2)
  let put (t : Tab (List Rec)) (r : Rec) : Tab (List Rec) := t.modify (clusterOfCell r.home) [] (· ++ [r])
  let d := { d with pools := (pools.map move).foldl put [], overflow := (spill.map move).foldl put [] }
  let d := (List.range 64).foldl (fun d k => if (d.overflow.getD k []).isEmpty then d else d.moveIn k 960) d
  d.launches.foldl (fun d kl => d.completeMoved kl.1 [cell, home kl.1]) d.rehomeAll

def execCellRetire (cell : Nat) (s : State) := s.event fun clk d =>
  if d.worn cell ∧ d.launches.all (fun kl => d.mayMove cell kl.2) then some ((d.retireCell clk cell).tellHealth (d.hstat clk) clk) else none

/-! Power and heat (R390). -/

/-- Package power has been above 2,600 W for 1 ms. -/
def Dev.overPower (d : Dev) (fclk : Nat) : Bool :=
  match d.overSince with
  | none => false
  | some t => t + 1200000 ≤ fclk

def Dev.tooHot (d : Dev) : Bool := 95 < d.temp.toNat

/-- A change of the clock, with the health interrupt that THROTTLE may raise. -/
def State.setMhz (s : State) (mhz : Nat) : State :=
  let clk := { s.clk with mhz := mhz }
  { s with clk := clk, dev := s.dev.tellHealth (s.dev.hstat s.clk) clk }

/-- THROTTLE_DOWN. -/
def execThrottleDown (s : State) : Host.Outcome State Fault Refusal :=
  if (s.dev.overPower s.clk.fclk || s.dev.tooHot) && 300 < s.clk.mhz then .next (s.setMhz (max 300 (s.clk.mhz - 25)))
  else .refused .notEnabled

/-- THROTTLE_UP. -/
def execThrottleUp (s : State) : Host.Outcome State Fault Refusal :=
  if !s.dev.overPower s.clk.fclk && !s.dev.tooHot && s.clk.mhz < 600 then .next (s.setMhz (min 600 (s.clk.mhz + 25)))
  else .refused .notEnabled

/-- Every queue of every context is torn down (R79). -/
def Dev.tearAll (d : Dev) : Dev :=
  d.ctxs.foldl (fun d kx => (List.range 8).foldl (fun d q => d.tearQueue (kx.1 / 64) (kx.1 % 64) q) d) d

/-- OVERHEAT_STOP. -/
def execOverheatStop (s : State) := s.event fun clk d =>
  if 105 < d.temp.toNat ∧ d.hstate ≠ 4 then
    let d' := d.tearAll
    some ({ d' with hstate := 4 }.tellHealth (d.hstat clk) clk)
  else none

/-- WATCHDOG_EXPIRY: R373 names the watchdog and gives its expiry no effect. -/
def execWatchdogExpiry (s : State) := s.onDev fun _ _ => .fault .watchdogEffectNotGiven

/-! Start-up and attestation (R387, R388). -/

/-- The sites of a cluster, and one site's use: an enabled or spare site that passes self-test and that no valid
retirement entry names. -/
def sitesOf (cl : Nat) : List Nat := (List.range 18).map (18 * cl + ·)

def siteGood (b : BootInput) (listed : List Nat) (s : Nat) : Bool := !b.bistFail.contains s && !listed.contains s

/-- The logical cells of a cluster placed on its sites: pairs of cell and site, and the cells left retired. -/
def placeCells (b : BootInput) (harvest listed : List Nat) (cl : Nat) : Tab Nat × List Nat :=
  let en := (sitesOf cl).filter fun s => harvest.getD s 2 == 0
  let spares := (sitesOf cl).filter fun s => harvest.getD s 2 == 1 && siteGood b listed s
  let step (acc : Tab Nat × List Nat × List Nat × Nat) (s : Nat) : Tab Nat × List Nat × List Nat × Nat :=
    let cell := 16 * cl + acc.2.2.2
    if siteGood b listed s then (acc.1.put cell s, acc.2.1, acc.2.2.1, acc.2.2.2 + 1)
    else
      match acc.2.1 with
      | sp :: rest => (acc.1.put cell sp, rest, acc.2.2.1, acc.2.2.2 + 1)
      | [] => (acc.1, [], cell :: acc.2.2.1, acc.2.2.2 + 1)
  let r := (en.take 16).foldl step ([], spares, [], 0)
  (r.1, r.2.2.1)

/-- Steps 3 to 7 with the copy that verified; the error code where a step fails. -/
def bootWith (b : BootInput) (c : BootCopy) (flash : List Nat) (oldReplace : Bool) (oldRecord : List Byte) : Dev :=
  let d := { Dev.reset with retireList := flash, config := c.record, firmware := c.firmware, harvest := c.harvest,
                            replace := oldReplace && oldRecord == c.record }
  if !c.keysMatch then { d with bootErr := 2, hstate := 4 }
  else if c.security < c.minimum then { d with bootErr := 3, hstate := 4 }
  else
    let listed := flash.filter fun s => !b.spoiled.contains s
    let placed := (List.range 64).map (placeCells b c.harvest listed)
    let retired := placed.flatMap (·.2)
    let portUp (i : Nat) : Port := { Port.reset with up := !b.failed.contains i }
    let cap (i : Nat) : Nat := match b.cxl.find? (fun x => x.1 == i) with
      | some x => min x.2 0x40000000000
      | none => 0
    { d with siteOf := placed.flatMap (·.1), retired := retired, bootWarn := BitVec.ofNat 8 (min 255 (flash.length - listed.length)),
             replace := d.replace || !retired.isEmpty, linkdn := !b.failed.isEmpty, hstate := 3,
             ports := (Vector.range 6).map portUp, routes := (List.range 64).map fun i => (i, b.routes.getD i 0),
             cxlUp := (Vector.range 4).map fun i => cap i != 0 && !b.failed.contains (6 + i), cxlCap := (Vector.range 4).map cap }

/-- POWER_UP (R387): every volatile part is at reset, aclk at 600 MHz; copy A, else copy B. -/
def execPowerUp (b : BootInput) (s : State) : Host.Outcome State Fault Refusal :=
  let clk : Clock := { s.clk with mhz := 600 }
  let d := s.dev
  let d' := if b.a.signed then bootWith b b.a d.retireList d.replace d.config
    else if b.b.signed then bootWith b b.b d.retireList d.replace d.config
    else { Dev.reset with retireList := d.retireList, replace := d.replace, config := d.config, bootErr := 1, hstate := 4 }
  .next { s with clk := clk, dev := d'.tellHealth 0 clk }

/-- ATTESTATION_REQUEST (R388): the firmware version, the record's digest, the harvest map and the retirement list, with
the request's nonce, under the device's signatures. -/
def execAttestationRequest (nonce : List Byte) (s : State) := s.event fun _ d =>
  let body := nonce ++ toBytes d.firmware 8 ++ toBytes (Config.digest (ofBytes d.config)) 8 ++
    d.harvest.map (BitVec.ofNat 8) ++ d.retireList.flatMap fun r => toBytes r 2
  some (d.send (.report body (Config.signature body)))

/-! Links (R382, R383). -/

def Dev.port (d : Dev) (i : Nat) : Port := d.ports.toList.getD i Port.reset
def Dev.setPort (d : Dev) (i : Nat) (p : Port) : Dev := { d with ports := d.ports.setIfInBounds i p }

/-- Fields of a flit's header. -/
def flitHead (f : List Byte) : Nat := ofBytes (f.take 8)
def flitDst (f : List Byte) : Nat := nbits (flitHead f) 58 6
def flitSrc (f : List Byte) : Nat := nbits (flitHead f) 52 6
def flitVc (f : List Byte) : Nat := nbits (flitHead f) 50 2
def flitSeq (f : List Byte) : Nat := nbits (flitHead f) 38 12

def flitSound (f : List Byte) : Bool := f.length == 256 && ofBytes (f.drop 248) == Config.crc64 (f.take 248) % 2 ^ 64

/-- A flit sent on a port: numbered, sealed, kept among the last 512 for retry; none goes through a port that is down (R383). -/
def Dev.sendFlit (d : Dev) (i : Nat) (f : List Byte) : Dev :=
  let p := d.port i
  if !p.up then d else
  let body := toBytes (putBits (flitHead f) 38 12 p.sendSeq) 8 ++ (f.drop 8).take 240
  let flit := body ++ toBytes (Config.crc64 body) 8
  let kept := p.retry ++ [(p.sendSeq, flit)]
  (d.setPort i { p with sendSeq := (p.sendSeq + 1) % 4096, retry := kept.drop (kept.length - 512) }).send (.flit i flit)

/-- Destination and virtual channel of a message to another package: requests, responses, the sync VC, the log VC (R382, R385,
R386). -/
def OutMsg.route : OutMsg → Option (Nat × Nat)
  | .remoteStore k _ _ _ _ | .remoteOp k _ | .remoteLoad k _ _ => some (k, 0)
  | .answer k _ _ => some (k, 1)
  | .grant k _ _ _ _ _ _ | .mismatch k _ _ _ _ | .ready k _ _ | .gang k _ _ => some (k, 2)
  | .logged k _ | .marker k _ _ => some (k, 3)
  | _ => none

/-- The flit that carries a message: its header, and a payload of which R382 gives neither kind nor layout (log 60). -/
def Dev.flitFor (d : Dev) (dst vc : Nat) : List Byte :=
  toBytes (dst % 64 * 2 ^ 58 + d.pkg * 2 ^ 52 + vc * 2 ^ 50) 8 ++ toBytes (Config.flitBody d.nfree) 240

/-- The messages of a move that go to other packages leave as flits on the port that the routing table names, in their order
(R382). A package has as many credits on each VC as it needs (R382 gives no number: log 60), so that none waits for
another. -/
def Dev.flitsFrom (d was : Dev) : Dev :=
  (d.out.drop was.out.length).foldl (fun d m => match m.route with
    | some (k, vc) => { d.sendFlit (d.routes.getD k 0) (d.flitFor k vc) with nfree := d.nfree + 1 }
    | none => d) d

/-- FLIT_RECEIVE (R382, R383): a CRC failure is answered by a NAK; a sound flit in order is acknowledged and, for another
package, sent on by the routing table; a flit already received is acknowledged again. What a flit for this package carries has
a row of its own (log 60). -/
def execFlitReceive (port : Nat) (flit : List Byte) (s : State) := s.event fun _ d =>
  let p := d.port port
  if 6 ≤ port ∨ !p.up ∨ p.retraining.isSome then none
  else if !flitSound flit then some (d.send (.nak port p.recvSeq))
  else if flitSeq flit ≠ p.recvSeq then some (d.send (.ack port ((p.recvSeq + 4095) % 4096)))
  else
    let d := (d.setPort port { p with recvSeq := (p.recvSeq + 1) % 4096 }).send (.ack port p.recvSeq)
    some (if flitDst flit = d.pkg then d else d.sendFlit (d.routes.getD (flitDst flit) 0) flit)

/-- Kept flits from a SEQ on. -/
def fromSeq (seq : Nat) : List (Nat × List Byte) → List (Nat × List Byte)
  | [] => []
  | f :: fs => if f.1 = seq then f :: fs else fromSeq seq fs

/-- One more replay of each of some kept flits. -/
def replayed (t : Tab Nat) (fs : List (Nat × List Byte)) : Tab Nat := fs.foldl (fun t f => t.modify f.1 0 (· + 1)) t

/-- NAK_RECEIVE (R383): resent in order; a flit replayed 16 times running makes the port retrain. -/
def execNakReceive (port seq : Nat) (s : State) := s.event fun clk d =>
  let p := d.port port
  if 6 ≤ port ∨ !p.up ∨ p.retraining.isSome then none
  else
    let again := fromSeq seq p.retry
    let n := replayed p.replays again
    let d := d.setPort port { p with replays := n, retraining := if again.any (fun f => 16 ≤ n.getD f.1 0) then some clk.fclk else none }
    some (again.foldl (fun d f => d.send (.flit port f.2)) d)

/-- Kept flits after an acknowledged SEQ. -/
def afterSeq (seq : Nat) (all : List (Nat × List Byte)) : List (Nat × List Byte) :=
  match fromSeq seq all with
  | [] => all
  | _ :: fs => fs

/-- ACK_RECEIVE (R383): the flits acknowledged are kept no longer, and their replays count no more. -/
def execAckReceive (port seq : Nat) (s : State) := s.event fun _ d =>
  let p := d.port port
  let left := afterSeq seq p.retry
  if 6 ≤ port ∨ !p.up then none
  else some (d.setPort port { p with retry := left, replays := p.replays.filter fun r => left.any (·.1 == r.1) })

/-- PORT_RETRAIN_COMPLETE (R383): within 100 µs. -/
def execPortRetrainComplete (port : Nat) (s : State) := s.event fun clk d =>
  let p := d.port port
  match p.retraining with
  | none => none
  | some t => if clk.fclk ≤ t + 120000 then some (d.setPort port { p with retraining := none, replays := [] }) else none

/-- Gang launches end with a port (R383): a commit whose readies are in is applied first. -/
def Dev.endGang (d : Dev) (clk : Clock) : Dev :=
  let gangs := d.launches.filter fun kl => kl.2.scope == 5
  let d := d.mergeRound clk (d.readyCommits.filter fun c => gangs.any fun kl => kl.1 == c.tree)
  gangs.foldl (fun d kl => d.tearLaunch kl.1) d

/-- PORT_DOWN (R383). -/
def execPortDown (port : Nat) (s : State) := s.event fun clk d =>
  let p := d.port port
  match p.retraining with
  | none => none
  | some t =>
    if p.up ∧ t + 120000 ≤ clk.fclk then
      let d' := { (d.endGang clk).setPort port { p with up := false, retraining := none } with linkdn := true }
      some (d'.tellHealth (d.hstat clk) clk)
    else none

/-- CXL_DEVICE_FAILED (R381). -/
def execCxlDeviceFailed (port : Nat) (s : State) := s.event fun clk d =>
  if port < 4 ∧ d.cxlUp.toList.getD port false then
    some ({ d with cxlUp := d.cxlUp.setIfInBounds port false, linkdn := true }.tellHealth (d.hstat clk) clk)
  else none

/-! Gangs (R385, R386) and remote requests (R303, R377). -/

/-- LAUNCH_GRANT_RECEIVE (R385): the grant waits for the record in its position. -/
def execLaunchGrantReceive (p c q pos field digest : Nat) (s : State) := s.event fun _ d =>
  if d.inGang ∧ d.pkg ≠ 0 ∧ queueNamed p c q then some { d with grants := d.grants ++ [(p, c, q, pos, field, digest)] } else none

/-- A gang-scope deterministic launch's domain. -/
def Dev.gangDom (d : Dev) (launch dom pkg : Nat) : Option Dom :=
  match d.launches.find launch with
  | none => none
  | some l => if l.scope = 5 ∧ l.mode = .det ∧ d.otherPkgs.contains pkg then l.doms.find dom else none

/-- LOG_END_MARKER_RECEIVE (R386): with the last marker the package sends its ready to every other. -/
def execLogEndMarkerReceive (launch dom pkg : Nat) (s : State) := s.event fun _ d =>
  match d.gangDom launch dom pkg with
  | none => none
  | some dm =>
    if dm.markers.contains pkg then none
    else
      let ms := pkg :: dm.markers
      let full := ms.length = d.gangSize - 1
      let d' := d.modDom launch dom fun dm => { dm with markers := ms, sentReady := full }
      some (if full then { d' with out := d'.out ++ d.otherPkgs.map fun k => OutMsg.ready k launch dom } else d')

/-- READY_RECEIVE (R386). -/
def execReadyReceive (launch dom pkg : Nat) (s : State) := s.event fun _ d =>
  match d.gangDom launch dom pkg with
  | none => none
  | some dm =>
    if dm.readies.contains pkg then none
    else some (d.modDom launch dom fun dm => { dm with readies := pkg :: dm.readies })

/-- The place of an access through this package's window: the home by the host attribute table, the type by the
issuing leaf (R377). -/
def Dev.windowPlace (d : Dev) (pa : Nat) (sync : Bool) : Place := placeAt sync (d.attrHome pa)

/-- An operation of another package as one of a group's. -/
def Dev.remoteOp (d : Dev) (op : RemoteOp) (sync : Bool) : GOp :=
  let mk (kind : GOpKind) (pa n : Nat) : GOp :=
    opOf kind (BitVec.ofNat 64 pa) n ⟨pa, d.windowPlace pa sync, if sync then 1 else 0, false, none, 0⟩ none 0 false 0
  match op with
  | .store pa bs => mk (.store (ofBytes bs) (BitVec.ofNat 128 (2 ^ bs.length - 1))) pa bs.length
  | .amo pa n op ty rd st b c => mk (.amo op ty rd st b c []) pa n
  | .spawn pa child => mk (.spawn child []) pa 64
  | .join pa => mk (.join []) pa 64
  | .red pa n ty rd st isFma a b => mk (.red ty rd st isFma a b) pa n

/-- An address that another package may reach here. -/
def remoteHere : RemoteOp → Bool
  | .store a bs => inHdm a bs.length && bs.length ≤ 128
  | .amo a n _ _ _ _ _ _ => inHdm a n && n ≤ 16
  | .spawn a _ => inHdm a 64
  | .join a => inHdm a 64
  | .red a n _ _ _ _ _ _ => inHdm a n && n ≤ 8

/-- What the gang's barrier object on this package takes from a message (R316): arrivals and members of other packages on
package 0, flips from it elsewhere; the abort line (R149); and the end of a launch that a package has rejected (R385). -/
def Dev.gangHear (d : Dev) (clk : Clock) (tree : Nat) (m : GangMsg) : Option Dev :=
  match d.launches.find tree with
  | none => none
  | some l =>
    if l.scope ≠ 5 ∨ !d.inGang then none
    else
      let key := domKey 5 0
      let o := l.bar key
      let came (r : Launch × Arrival) (kind : Nat) : Dev := match r with
        | (l', .completes level) => (d.setLaunch tree l').completePhase tree l' 0 level
        | (_, .mismatch found) =>
          (d.raiseAbort clk.fclk tree 0 |>.faultEntry l.part l.ctx (BitVec.ofNat 64 tree) 0 0 (mismatchAux kind found) 4 0 0).1
        | (l', .waits) => d.setLaunch tree l'
      match m with
      | .arrive kind | .flip kind => some (came (l.arrive 0 kind 1 5) kind)
      | .joins => some (d.setLaunch tree (l.setBar key { o with expect := o.expect + 1, late := if o.kind = 0 then o.late else o.late + 1 }))
      | .leaves was =>
        let r := l.leave 0 false was 1 5
        some ((came r 0).sendFinal tree key)
      | .last =>
        let l' := l.setBar key { o with expect := o.expect - 1 }
        some ((d.setLaunch tree l').sendFinal tree key)
      | .mismatch => some (d.tearLaunch tree)
      | .abort => if l.raisedAt.isSome then none else some (d.raiseAbort clk.fclk tree (clusterOfCell (l.cells.headD (0, 0)).1))

/-- What a move tells the other packages of a gang about a launch's barriers and its abort line (R316, R149). -/
def Dev.gangNews (d : Dev) (tree : Nat) (a b : Launch) : List OutMsg :=
  let o := a.bar (domKey 5 0)
  let n := b.bar (domKey 5 0)
  let all (m : GangMsg) : List OutMsg := d.otherPkgs.map fun p => .gang p tree m
  let fretNow := (b.doms.getD (domKey 5 0) (Dom.reset none)).phase != .compute
  (if a.raisedAt.isNone && b.raisedAt.isSome then all .abort else []) ++
  if d.pkg = 0 then
    (if o.phase != n.phase then all (.flip (if o.kind ≠ 0 then o.kind else if fretNow then 7 else 5)) else []) ++
    (if o.expect ≠ 0 ∧ n.expect = 0 then all .last else [])
  else if o.expect < n.expect then [.gang 0 tree .joins]
  else if n.expect < o.expect then (if n.expect = 0 then [] else [.gang 0 tree (.leaves (decide (n.count < o.count)))])
  else if o.phase == n.phase && o.count < n.count then [.gang 0 tree (.arrive n.kind)] else []

/-- The messages of the barriers of gang launches after a move. -/
def Dev.tellGangFrom (d was : Dev) : Dev :=
  if !d.inGang then d
  else { d with out := d.out ++ d.launches.flatMap fun kl => match was.launches.find kl.1 with
    | some a => if kl.2.scope = 5 then d.gangNews kl.1 a kl.2 else []
    | none => [] }

/-- REMOTE_REQUEST (R303, R377, R386): what is asked is done at this package's home, and the answer goes to the package that
asked, which is named in a logged operation by its group (R382). -/
def execRemoteRequest (req : RemoteReq) (s : State) := s.event fun clk d =>
  match req with
  | .load src pa n sync =>
    if inHdm pa n then
      let x : Xlat := ⟨pa, d.windowPlace pa sync, if sync then 1 else 0, false, none, 0⟩
      let r := d.readIn d.ms x n
      some ((d.asked x n).send (.answer src (toBytes r.1 n) r.2.isSome))
    else none
  | .perform src launch op sync =>
    if remoteHere op then
      match d.applyOp clk launch 0 (d.remoteOp op sync) with
      | .done d v => some (d.send (.answer src (toBytes v 16) false))
      | .poisoned => some (d.send (.answer src [] true))
    else none
  | .log src launch dom ticket seq sub op sync =>
    if remoteHere op ∧ ((d.launches.find launch).any fun l => l.doms.any fun kd => kd.1 == dom) then
      some (d.modDom launch dom fun dm =>
        { dm with log := dm.log ++ [⟨ticket, { d.remoteOp op sync with seq := seq, sub := sub }, remoteGid + src⟩] })
    else none
  | .gang launch m => d.gangHear clk launch m

end Sys2Proof.Machine
end

