-- ==== Sys2Proof/Machine/Issue.lean ====
section
/-!
DEFINITION. How a core comes by its next instruction (05_fetching R100 to R106, R118 to R123): the instruction cache,
the line, the head and its tail, the faults of fetch and decode, the stream of a consort. Also what lies around an
instruction: the schedule, the steps that are due before time passes, the passing of time, and the placing of an
instruction where the next step fetches it.
-/

namespace Sys2Proof.Machine

/-! Lines (R100 to R104). -/

/-- Head i of a line (R100). -/
def headAt (line i : Nat) : Nat := nbits line (16 + 16 * i) 16

/-- Tail i of a line: bytes 64 - S_(i+1) to 63 - S_i (R103). -/
def tailAt (line i : Nat) : Nat :=
  nbits line (8 * (64 - tailSum line (i + 1) 0)) (8 * tlBytes (nbits (headAt line i) 4 3))

def lineVa (pc : Word) : Nat := pc.toNat / 64 * 64
def slotOf (pc : Word) : Nat := (pc.toNat % 64 - 2) / 2

/-- Lines that the instruction cache holds (R120): 32 KiB. -/
def icacheLines : Nat := 512

/-- A fetched line enters the instruction cache; a full cache gives up a line of its choice (log 5). -/
def Dev.cacheLine (d : Dev) (core va line : Nat) : Dev :=
  let k := d.core core
  if k.icache.length < icacheLines then d.setCore core { k with icache := k.icache.put (va / 64) (BitVec.ofNat 512 line) }
  else
    let left : Tab (BitVec 512) := k.icache.eraseIdx (Config.evicted d.nfree % k.icache.length)
    { d with nfree := d.nfree + 1 }.setCore core { k with icache := left.put (va / 64) (BitVec.ofNat 512 line) }

/-- The line that holds the pc: from the instruction cache, or read through a translation for fetching; or what its
absence does (R106 stage 2, R119): a miss of the TLB, a page fault, poison. -/
def Dev.codeLine (d : Dev) (clk : Clock) (g : Group) (core : Nat) : Except Dev (Dev × Nat) :=
  let va := lineVa g.arch.pc
  match (d.core core).icache.find (va / 64) with
  | some l => .ok (d, l.toNat)
  | none =>
    match d.translate g (BitVec.ofNat 64 va) .fetch with
    | .miss => .error (d.missTlb clk g va)
    | .fault c => .error (d.takeTrap clk g c (BitVec.ofNat 64 va) g.arch.pc false false)
    | .ok x =>
      let d := d.asked x 64
      match d.readIn (d.viewOf g) x 64 with
      | (_, some _) =>
        if d.modeOf g = .det then .error ((d.setGroup { g with notBefore := clk.aclk + 1 }).askRollback g (BitVec.ofNat 64 va))
        else .error (d.takeTrap clk g cPOISON (BitVec.ofNat 64 va) g.arch.pc false false)
      | (line, none) => .ok (d.cacheLine core va line, line)

/-- The trap of a decode fault (R118, R119): its cause and kval. -/
def faultOf (pc : Word) (head : Nat) : DecodeFault → Nat × Word
  | .opcode => (cILLEGAL_OPCODE, BitVec.ofNat 64 head)
  | .format => (cILLEGAL_FORMAT, BitVec.ofNat 64 head)
  | .field bit => (cILLEGAL_FIELD, BitVec.ofNat 64 (head + bit * 2 ^ 16))
  | .target disp slot => (cILLEGAL_TARGET, jTarget pc disp slot)

/-- What a line holds at a pc: an instruction with the pc that follows it (R105), or the trap of the check that fails
(R106 stage 2, R118). -/
def instrAt (line : Nat) (pc : Word) : Except (Nat × Word) (Instr × Word) :=
  match lineHeads line with
  | none => .error (cILLEGAL_LINE, BitVec.ofNat 64 (lineVa pc))
  | some n =>
    if n ≤ slotOf pc then .error (cILLEGAL_TARGET, pc)
    else
      match decode (headAt line (slotOf pc)) (tailAt line (slotOf pc)) with
      | .error f => .error (faultOf pc (headAt line (slotOf pc)) f)
      | .ok i => .ok (i, if slotOf pc + 1 = n then BitVec.ofNat 64 (lineVa pc + 66) else pc + 2)

/-! The turn of a core. -/

/-- What a core's turn comes to: nothing, something that executes no instruction, or an instruction to execute. -/
inductive Turn where
  | idle
  | ended (d : Dev)
  | run (d : Dev) (g : Group) (i : Instr)
  deriving DecidableEq, Repr

/-- Entries of a follower's queue (R121). -/
def forwardRoom : Nat := 16

/-- A follower's queue is full. -/
def Dev.queueFull (d : Dev) (g : Group) : Bool :=
  match g.consort with
  | .leader ms => ms.any fun m => match d.groups.find m with
    | some h => (match h.consort with
      | .follower _ _ q => forwardRoom ≤ q.length
      | _ => false)
    | none => false
  | _ => false

/-- The group with its instruction's link, on the core that issues. -/
def Dev.ready (d : Dev) (core : Nat) (g : Group) (link : Word) (i : Instr) : Turn :=
  let g := { g with link := link }
  .run { d.setGroup g with cur := core } g i

/-- An instruction that posts a job to the cluster's indirect engine. -/
def Instr.postsIndirect : Instr → Bool
  | .gat _ _ | .sca _ _ | .chg _ _ | .chs _ _ => true
  | _ => false

/-- A follower of lower rank still has a forwarded instruction before it. -/
def Dev.lowerHolds (d : Dev) (lead rank : Nat) (f : Forward) : Bool :=
  d.groups.any fun kg => match kg.2.consort with
    | .follower l r q => l == lead && r < rank && q.contains f
    | _ => false

/-- A follower takes the next forwarded instruction, no earlier than its rank allows (R121); a job for the indirect engine
after the members of lower core numbers have posted theirs (R241). -/
def Dev.followTurn (d : Dev) (clk : Clock) (core : Nat) (g : Group) (lead rank : Nat) : List Forward → Turn
  | [] => .idle
  | f :: _ =>
    if f.at_ + rank ≤ clk.aclk ∧ !(Instr.postsIndirect f.instr && d.lowerHolds lead rank f) then d.ready core g f.link f.instr else .idle

/-- A leader, or a group alone, fetches and decodes (R106, R118). -/
def Dev.fetchTurn (d : Dev) (clk : Clock) (core : Nat) (g : Group) : Turn :=
  match d.codeLine clk g core with
  | .error d => .ended d
  | .ok (d, line) =>
    match instrAt line g.arch.pc with
    | .error (c, v) => .ended (d.takeTrap clk g c v g.arch.pc false false)
    | .ok (i, link) => d.ready core g link i

/-- The superstep of the group's domain is to be rolled back: nothing issues (R366). -/
def Dev.rollsBack (d : Dev) (g : Group) : Bool :=
  match d.launchOf g with
  | none => false
  | some l => (l.doms.getD (l.domOf g.recd.home) (Dom.reset none)).rollback.isSome

/-- A line that everything a core issues may need is not on it: that of the predicates and loop counters, which guards, the end
check of R143 and trap entry read, or that of the trap registers (R179). -/
def Dev.coreLine (d : Dev) (g : Group) : Option Nat := [2, controlLine 0].find? (missesLine (d.othersOn g.core) g)

/-- The turn of a core (R124, R333): a stall for such a line, a deferred trap, a stall for a full queue, or the next
instruction. -/
def Dev.turn (d : Dev) (clk : Clock) (core : Nat) : Turn :=
  match { d with cur := core }.current with
  | none => .idle
  | some g =>
    if clk.aclk < g.notBefore ∨ d.rollsBack g then .idle
    else if let some l := d.coreLine g then .ended (d.setGroup { g with stall := .refill l, notBefore := clk.aclk + 1 })
    else if g.trapDue then .ended (d.takeDeferred clk g)
    else if d.queueFull g then .ended (d.setGroup { g with stall := .fifo, notBefore := clk.aclk + 1 })
    else
      match g.consort with
      | .follower lead rank q => d.followTurn clk core g lead rank q
      | _ => d.fetchTurn clk core g

/-! The stream of a consort (R121, R122). -/

/-- The leader's instruction goes to its followers once: when it has issued, or when it begins to wait for members that the
followers may be, in a `gang` or, having arrived, in a barrier or by commit wait. `g` is the leader before it, `h` after it. -/
def forwards (g h : Group) (i : Instr) : Bool :=
  g.consort == h.consort &&
    (match i with
      | .gang _ => !g.ganged && (h.ganged || h.stall == .none)
      | .bar _ _ | .fret _ _ | .wait _ _ | .done _ => g.arrived.isNone && g.released.isNone && (h.arrived.isSome || h.stall == .none)
      | _ => h.stall == .none)

/-- The next PC of a leader whose instruction waits: where it goes on by falling through. -/
def Dev.fallPc (d : Dev) (clk : Clock) (h : Group) : Word :=
  match (retire .fall : GM Unit) (d.env clk h) h with
  | .ok (_, k) => k.arch.pc
  | .error _ => h.link

def Dev.forward (d : Dev) (now : Nat) (g : Group) (i : Instr) (next : Word) (ms : List Nat) : Dev :=
  ms.foldl (fun d m =>
    match d.groups.find m with
    | none => d
    | some h =>
      match h.consort with
      | .follower l r q => d.setGroup { h with consort := .follower l r (q ++ [⟨g.arch.pc, i, next, g.link, now⟩]) }
      | _ => d) d

/-- A follower has issued the head of its queue: the entry goes, and with another next PC than the leader's the
follower leaves and issues 8 aclk later at the earliest (R122). -/
def Dev.followed (d : Dev) (now : Nat) (g h : Group) : Dev :=
  match h.consort, g.consort with
  | .follower l r (f :: q), .follower _ _ (f' :: _) =>
    if h.stall ≠ .none ∨ f ≠ f' then d
    else if h.arch.pc = f.next then d.setGroup { h with consort := .follower l r q }
    else d.quitConsort { h with notBefore := max h.notBefore (now + 8) }
  | _, _ => d

/-- What the consort does after a member's instruction; nothing for a group alone. `g` is the member before it. -/
def Dev.afterIssue (d : Dev) (clk : Clock) (g : Group) (i : Instr) : Dev :=
  match g.consort with
  | .none => d
  | .leader ms =>
    match d.groups.find g.gid with
    | none => d
    | some h => if forwards g h i then d.forward clk.aclk g i (if h.stall = .none then h.arch.pc else d.fallPc clk h) ms else d
  | .follower _ _ _ =>
    match d.groups.find g.gid with
    | none => d
    | some h => d.followed clk.aclk g h

/-! The machine around an instruction. -/

/-- The next move: from the agenda, else chosen by the schedule (log 3). -/
def State.pop (s : State) : Choice × State :=
  match s.agenda with
  | c :: cs => (c, { s with agenda := cs })
  | [] => (Config.choice s.nchoice, { s with nchoice := s.nchoice + 1 })

/-- Grants of an interleave round whose group has no access left are passed over (R74). -/
def Dev.pruneGrants (d : Dev) (clk : Clock) : Dev :=
  { d with launches := d.launches.map fun (k, l) =>
      (k, if l.mode = .ilv ∧ !l.grants.isEmpty then { l with grants := d.liveGrants clk l } else l) }

/-- A write of a group, an engine or another package that has changed VALID of a runnable-list entry from 1 to 0 retires its
context as one of the host does; VALID := 1 while it retires is ignored and sets PSTAT.ERR to 4 (R62). -/
def Dev.watchEntries (d was : Dev) : Dev :=
  if d.ms = was.ms then d
  else (d.ctxs.filter fun kx => kx.2.latched.isSome).foldl (fun d kx =>
    let p := kx.1 / 64
    let c := kx.1 % 64
    let valid (d : Dev) : Bool := nbit (d.physRead (d.entryPa p c + 49) 1) 7
    if (d.ctx p c).retiring then (if valid d then (d.setValid p c false).setErr p 4 else d)
    else if valid was && !valid d then d.retireCtx p c else d) d

/-- A suspended group whose entry has lost its place in the fault queue is ended (R337). -/
def Dev.endDisplaced (d : Dev) (now : Nat) : Dev :=
  d.displaced.foldl (fun d e =>
    let v := e.2.2
    match d.suspendedAt e.1 e.2.1 (BitVec.ofNat 64 (nbits v 64 64)) with
    | some g => if nbits v 24 8 = 1 then d.endGroup now g (nbits v 16 8) (BitVec.ofNat 64 (nbits v 192 64)) (BitVec.ofNat 64 (nbits v 128 64)) else d
    | none => d) { d with displaced := [] }

/-- What follows a move at once, from the device before it: lines of groups and blocks of snapshots reach their slots
(R341, R365), entries of the runnable lists and of the fault queues are looked at, the home caches keep to their capacity, the
gang hears of its barriers, messages to other packages leave as flits, ready times and grants are noted. -/
def State.settled (was : Dev) (s : State) : State :=
  let d := (was.pushLines s.dev s.clk).spillCapo s.clk
  let d := ((d.watchEntries was).endDisplaced s.clk.fclk).arriveParked s.clk
  let d := ((d.trimCaches.tellHealth (d.hstat s.clk) s.clk).tellGangFrom was).flitsFrom was
  let d := if d.inGang then { d with nfree := d.nfree + 1 }.redraw else d
  { s with dev := (d.settle s.clk.fclk).pruneGrants s.clk }

/-- The end of a move: what it leaves, settled; a step that is not enabled lets its moment pass. -/
def State.after (s : State) (o : Host.Outcome State Fault Refusal) (f : State → State := id) : Host.Outcome State Fault Refusal :=
  match o with
  | .next t => .next ((f t).settled s.dev)
  | .fault r => .fault r
  | .refused .notEnabled => .next s
  | .refused r => .refused r

/-- The instruction of a member is complete: the stream of its consort follows. -/
def State.issued (g : Group) (i : Instr) (s : State) : State := { s with dev := s.dev.afterIssue s.clk g i }

/-! Steps that are due. -/

abbrev DueStep := State → Host.Outcome State Fault Refusal

/-- Token entries whose exact completion time has come (R138, R157, R240, R267). -/
def dueEntries (now : Nat) (g : Group) : List DueStep :=
  (g.arch.toks.toList.flatMap id).filterMap fun e =>
    if e.done || !dueBy e.due now then none
    else match e.row with
      | .divide => some (execDivideComplete g.gid e.id)
      | .vector => some (execVectorLongComplete g.gid e.id)
      | .port => some (execFixedEntryComplete g.gid e.id)
      | _ => none

/-- Flag writes that are performed 4 aclk after issue at the latest (R148). -/
def dueFlags (now : Nat) (g : Group) : List DueStep :=
  g.arch.gops.filterMap fun o => if o.kind.isFlag && o.issued + 4 ≤ now then some (execFlagWritePerformed g.gid o.id) else none

/-- Steps of a matrix unit at a boundary (R254, R258). -/
def dueMatrix (g : Group) : List DueStep :=
  if g.arch.mu.queue.isEmpty then []
  else [execMatrixCommandRetire g.gid, execMmaCommand g.gid, execMmasCommand g.gid, execZeroCommand g.gid, execRedCommand g.gid]

/-- The bridge evaluates in every fclk, when the events of that fclk are over (R235). -/
def dueBridge (d : Dev) (now : Nat) (g : Group) : List DueStep := if d.bridgeDue now g then [execBridgeEvaluate g.gid] else []

/-- Clusters with groups of a launch: those of its cell list, with groups started or not, and those of its children. -/
def Dev.clustersOf (d : Dev) (tree : Nat) (l : Launch) : List Nat :=
  distinct ((l.cells.map (·.1) ++ (d.groups.filterMap fun kg => if kg.2.recd.launch = tree then some kg.2.recd.home else none) ++
    ((d.pools ++ d.overflow).flatMap (·.2)).filterMap fun r => if r.launch = tree then some r.home else none).map clusterOfCell)

/-- An abort line reaches the clusters with groups of its launch within 2 µs, 2400 fclk (R149); records there that have not
been dispatched are discarded from then on (R357). -/
def dueAbort (d : Dev) (now tree : Nat) (l : Launch) : List DueStep :=
  match l.raisedAt with
  | none => []
  | some t =>
    if t + 2400 ≤ now then ((d.clustersOf tree l).filter fun cl => !l.raised.contains cl).map fun cl => execAbortLineArrive tree cl else []

/-- Slices and exhausted slots of a partition (R63, R340). -/
def duePart (d : Dev) (now : Nat) (p : Nat) (pt : Part) : List DueStep :=
  (match d.firstCut now p with
    | some c => [execEntryDue p c]
    | none => []) ++ [execSliceEnd p] ++
  (match pt.running with
    | some c => [execSlotsExhausted p c]
    | none => [])

/-- A broadcast `tlbinv` completes within 2 µs, 2400 fclk; the walks begun before it finish first (R349). -/
def dueInval (d : Dev) (now : Nat) (i : Inval) : List DueStep :=
  if i.at_ + 2400 ≤ now ∧ 1 < i.cores.length then
    (d.walks.filterMap fun kw => if kw.2.any fun w => w.drop && i.cores.contains w.core then some (execPageWalk kw.1) else none) ++
      [execTlbinvComplete i.gid i.id]
  else []

/-- A port that has not retrained within 100 µs is down (R383). -/
def duePorts (now : Nat) (ps : List Port) : List DueStep :=
  (List.range ps.length).filterMap fun i => match (ps.getD i Port.reset).retraining with
    | some t => if t + 120000 ≤ now then some (execPortDown i) else none
    | none => none

/-- Steps that are due at this moment of an fclk: with its other moves; once those are over, the bridges, and the commits
in one merge round (R235, R310). -/
def State.dueSteps (s : State) : List DueStep :=
  let now := s.clk.aclk
  if s.clk.closing then
    (s.dev.groups.flatMap fun kg => dueBridge s.dev s.clk.fclk kg.2) ++ (s.dev.readyCommits.map fun c => execCommitPhaseStart c.tree c.dom)
  else
    [execGovernorWindow] ++ (s.dev.groups.flatMap fun kg =>
      dueEntries now kg.2 ++ dueFlags now kg.2 ++ dueMatrix kg.2) ++
    (s.dev.launches.flatMap fun kl => dueAbort s.dev s.clk.fclk kl.1 kl.2) ++
    (s.dev.parts.flatMap fun kp => duePart s.dev s.clk.fclk kp.1 kp.2) ++ s.dev.invals.flatMap (dueInval s.dev s.clk.fclk) ++
      duePorts s.clk.fclk s.dev.ports.toList ++ [execTuningPass, execTuningPass]

/-- The first of the steps that is enabled. -/
def firstEnabled (s : State) : List DueStep → Option State
  | [] => none
  | f :: fs => match f s with
    | .next t => some t
    | _ => firstEnabled s fs

/-- The sensors of an fclk (R389): their readings are free values of the time. -/
def Dev.sense (d : Dev) (fclk : Nat) : Dev :=
  let p := Config.power fclk
  { d with temp := Config.temperature fclk, power := p, overSince := if 2600 < p.toNat then some (d.overSince.getD fclk) else none }

/-- One fclk passes (R2): the sensors are read, aclk advances when its fraction is full, and with it the matrix units that run. -/
def State.tick (s : State) : State :=
  let c := { s.clk with closing := false }
  let p := c.phase + c.mhz
  let d := { s.dev.sense (c.fclk + 1) with fqNow := [] }
  if p < 1200 then { s with clk := { c with fclk := c.fclk + 1, phase := p }, dev := d }
  else
    let d := { d with groups := d.groups.map fun (k, g) => (k, if d.matrixCounts g then g.matrixTick else g) }
    { s with clk := { c with fclk := c.fclk + 1, aclk := c.aclk + 1, phase := p - 1200 }, dev := d }

/-- Time passes; a step that is due happens before it, and at the end of an fclk those that follow its other moves. -/
def State.passTime (s : State) : State :=
  match firstEnabled s s.dueSteps with
  | some t => t.settled s.dev
  | none => if s.clk.closing then s.tick.settled s.dev else { s with clk := { s.clk with closing := true } }

/-- A ring update of the core waits for the matrix unit's of the same aclk (R238). -/
def State.ringWaits (s : State) (g : Group) (i : Instr) : Bool :=
  match i with
  | .rpush _ _ | .rpop _ _ => (firstEnabled s (dueMatrix g)).isSome
  | _ => false

/-! Placing an instruction. -/

/-- A line whose slot k holds a head with its tail; `nop` stands in the slots before it (R100, R103). -/
def lineWith (k head tail : Nat) : Nat :=
  let len := tlBytes (nbits head 4 3)
  let nops := (List.range k).foldl (fun n i => n + 0x2680 * 2 ^ (16 + 16 * i)) 0
  (k + 1) + nops + head * 2 ^ (16 + 16 * k) + tail % 2 ^ (8 * len) * 2 ^ (8 * (64 - len))

/-- A group that issues at its next turn as it stands. -/
def Dev.placeable (d : Dev) (g : Group) : Bool :=
  g.core == some 0 && (d.launchOf g).isSome && !d.rollsBack g && !g.trapDue && g.consort == .none && g.arch.mu.queue.isEmpty

/-- A launch with nothing but one group, as acceptance and start would leave it (log 7). -/
def freshLaunch : Launch :=
  { part := 0, ctx := 0, queue := 0, firstpc := 2, foot := none, abortpc := 0, doneVa := 0, logq := 0, groups := 1, irq := false,
    team4 := false, scope := 0, mode := .free, seed := 0, dit := false, field := 0, accepted := 0, cells := [(0, 1)], quota := 0,
    raised := [], raisedAt := none, torn := false, doms := [], bars := [], armed := [], live := 1, groupsDone := 0, childDone := 0,
    discard := 0, strand := 0, rollb := 0, frets := 0, commits := 0, abortGroup := .notStarted, grants := [], digest := 0, doneX := none,
    lastView := none, posViews := [], finalDone := false }

/-- A program is loaded: its launch, its context on the running partition 0, its one group on core 0 (log 7). -/
def Dev.placeGroup (d : Dev) (now : Nat) : Dev × Group :=
  let tree := d.nextTree
  let l := freshLaunch.addMember 0
  let r : Rec := launchRec tree l 0 0
  let g := { newGroup d.nextGid r 0 0 false with status := .running, link := 4 }
  let p := d.part 0
  let x := d.ctx 0 0
  let d := d.setPart 0 { p with running := some 0, pclus := p.pclus ||| 1, sliceEnd := now + 1200 }
  let d := d.setCtx 0 0 { x with latched := x.latched.orElse fun _ => some ⟨0, 0, 0, 0, 0, 1⟩ }
  let d := (d.setLaunch tree l).setGroup g
  ({ d with nextGid := d.nextGid + 1, nextTree := tree + 1 }.takeCore 0 g.gid, g)

/-- The instruction of these bits where the next step fetches it (log 7): the next move is core 0's turn, and the line of
its group's pc holds the head in the pc's slot. -/
def State.place (s : State) (nbits_ w : Nat) : State :=
  let v := w % 2 ^ nbits_
  let head := v % 2 ^ 16
  let tail := v / 2 ^ 16
  let (d, g) : Dev × Group := match { s.dev with cur := 0 }.current with
    | none => s.dev.placeGroup s.clk.fclk
    | some g => if s.dev.placeable g then (s.dev, g) else s.dev.placeGroup s.clk.fclk
  let k := slotOf g.arch.pc
  let k := if 4 + 2 * k + tlBytes (nbits head 4 3) ≤ 64 then k else 0
  let va := lineVa g.arch.pc
  let a := g.arch
  let g := { g with arch := { a with pc := BitVec.ofNat 64 (va + 2 + 2 * k) }, notBefore := s.clk.aclk }
  let c := d.core 0
  let d := (d.setGroup g).setCore 0 { c with icache := c.icache.put (va / 64) (BitVec.ofNat 512 (lineWith k head tail)) }
  { s with clk := { s.clk with closing := false }, agenda := [.issue 0], dev := d }

end Sys2Proof.Machine
end

