-- ==== Sys2Proof/Machine/Vector.lean ====
section
/-!
DEFINITION. The vector and mask instructions (07_vector_instructions R151 to R177), local gather and scatter (08 R201,
R202): one meaning for each opcode over the lane-wise forms.
-/

namespace Sys2Proof.Machine

def TailV.type (t : TailV) : Ty := Ty.ofCode t.ty.toNat
def TailV.rnd (t : TailV) : Rnd := Rnd.ofCode t.rd.toNat
def TailV.sat (t : TailV) : Bool := t.st == 1

/-- Lane-wise results, lane 0 first. -/
def lanesOf (n : Nat) (f : Nat → Nat) : List Nat := (List.range n).map f

/-- A lane-wise instruction of up to three v sources (R154). -/
def vlanes (g : Guard) (t : TailV) (lat : Nat) (f : Nat → Nat → Nat → Nat) (useB useC : Bool) : GM Unit :=
  guarded g none do
    let ty := TailV.type t
    let w := ty.width
    let a ← readV t.a
    let b ← if useB then readV t.b else pure 0
    let c ← if useC then readV t.c else pure 0
    writeV t.d t.wm (ofLanes w (lanesOf ty.lanes fun i => f (lane w a i) (lane w b i) (lane w c i))) lat
    return .fall

/-- 2 for INT, 4 for FLT (R156). -/
def arithLat (t : TailV) : Nat := if (TailV.type t).isInt then 2 else 4

def fmaLat (t : TailV) : Nat := if (TailV.type t).isInt then 2 else if TailV.type t = .f64 then 6 else 5

def execVadd (g : Guard) (t : TailV) (s : State) :=
  s.onCur (vlanes g t (arithLat t) (fun a b _ => tyAdd (TailV.type t) (TailV.rnd t) (TailV.sat t) a b) true false)
def execVsub (g : Guard) (t : TailV) (s : State) :=
  s.onCur (vlanes g t (arithLat t) (fun a b _ => tySub (TailV.type t) (TailV.rnd t) (TailV.sat t) a b) true false)
def execVmul (g : Guard) (t : TailV) (s : State) :=
  s.onCur (vlanes g t (arithLat t) (fun a b _ => tyMul (TailV.type t) (TailV.rnd t) (TailV.sat t) a b) true false)

/-- Bits 2w-1:w of the product (R158). -/
def mulHigh (ty : Ty) (a b : Nat) : Nat := wrapInt ty.width (intVal ty a * intVal ty b / (2 ^ ty.width : Nat))

def execVmulh (g : Guard) (t : TailV) (s : State) :=
  s.onCur (vlanes g t 2 (fun a b _ => mulHigh (TailV.type t) a b) true false)
def execVfma (g : Guard) (t : TailV) (s : State) :=
  s.onCur (vlanes g t (fmaLat t) (tyFma (TailV.type t) (TailV.rnd t) (TailV.sat t) false false) true true)
def execVfms (g : Guard) (t : TailV) (s : State) :=
  s.onCur (vlanes g t (fmaLat t) (tyFma (TailV.type t) (TailV.rnd t) (TailV.sat t) false true) true true)
def execVfnma (g : Guard) (t : TailV) (s : State) :=
  s.onCur (vlanes g t (fmaLat t) (tyFma (TailV.type t) (TailV.rnd t) (TailV.sat t) true false) true true)
def execVmin (g : Guard) (t : TailV) (s : State) :=
  s.onCur (vlanes g t (arithLat t) (fun a b _ => tyMinMax (TailV.type t) false a b) true false)
def execVmax (g : Guard) (t : TailV) (s : State) :=
  s.onCur (vlanes g t (arithLat t) (fun a b _ => tyMinMax (TailV.type t) true a b) true false)

/-- |a| in an INT type, a with its sign bit cleared in an FLT type (R158). -/
def tyAbs (ty : Ty) (sat : Bool) (a : Nat) : Nat :=
  if ty.isInt then intResult ty sat (intVal ty a).natAbs else a % 2 ^ (ty.width - 1)

/-- 0 - a, or a with its sign bit inverted (R158). -/
def tyNeg (ty : Ty) (sat : Bool) (a : Nat) : Nat :=
  if ty.isInt then intResult ty sat (-(intVal ty a)) else a ^^^ 2 ^ (ty.width - 1)

def execVabs (g : Guard) (t : TailV) (s : State) :=
  s.onCur (vlanes g t (arithLat t) (fun a _ _ => tyAbs (TailV.type t) (TailV.sat t) a) false false)
def execVneg (g : Guard) (t : TailV) (s : State) :=
  s.onCur (vlanes g t (arithLat t) (fun a _ _ => tyNeg (TailV.type t) (TailV.sat t) a) false false)

/-- A long-latency vector instruction (R157): the whole result is known at issue and lands at its exact time. -/
def vlong (tok cycles : Nat) (ws : List (RegRef × Nat)) (mask : Mask := BitVec.allOnes 128) : GM Next := do
  let now := (← read).aclk
  let _ ← issueEntry tok .vector false false (some (now + cycles)) (ws.map (·.1)) ws mask
  return .fall

/-- The same with a result that lands in vD under WM (R154). -/
def vlongMasked (tok cycles : Nat) (d : BitVec 6) (wm : BitVec 3) (res : Nat) : GM Next := do
  vlong tok cycles [(.v d.toNat, res)] (BitVec.ofNat 128 (← readW wm.toNat))

def execVdiv (g : Guard) (t : TailV) (s : State) := s.onCur (guarded g (some (t.e.toNat % 32)) do
  let ty := TailV.type t
  let a ← readV t.a
  let b ← readV t.b
  vlongMasked (t.e.toNat % 32) 40 t.d t.wm (ofLanes ty.width (lanesOf ty.lanes fun i =>
    tyDiv ty (TailV.rnd t) (TailV.sat t) (lane ty.width a i) (lane ty.width b i))))

def execVsqrt (g : Guard) (t : TailV) (s : State) := s.onCur (guarded g (some (t.e.toNat % 32)) do
  let ty := TailV.type t
  let a ← readV t.a
  vlongMasked (t.e.toNat % 32) 40 t.d t.wm (ofLanes ty.width (lanesOf ty.lanes fun i =>
    roundF ty (TailV.rnd t) (TailV.sat t) (FVal.sqrt (decodeVal ty (lane ty.width a i))))))

def execVand (g : Guard) (t : TailV) (s : State) := s.onCur (vlanes g t 2 (fun a b _ => a &&& b) true false)
def execVor (g : Guard) (t : TailV) (s : State) := s.onCur (vlanes g t 2 (fun a b _ => a ||| b) true false)
def execVxor (g : Guard) (t : TailV) (s : State) := s.onCur (vlanes g t 2 (fun a b _ => a ^^^ b) true false)
def execVandn (g : Guard) (t : TailV) (s : State) :=
  s.onCur (vlanes g t 2 (fun a b _ => a &&& (2 ^ (TailV.type t).width - 1 - b)) true false)

/-- A shift with its count from the count lane or from E (R161). -/
def vshift (g : Guard) (t : TailV) (f : Nat → Nat → Nat) : GM Unit :=
  let w := (TailV.type t).width
  if t.e = 0 then vlanes g t 2 (fun a b _ => f a (b % w)) true false
  else vlanes g t 2 (fun a _ _ => f a (t.e.toNat % 64)) false false

def execVshl (g : Guard) (t : TailV) (s : State) := s.onCur (vshift g t fun a n => a * 2 ^ n % 2 ^ (TailV.type t).width)
def execVshr (g : Guard) (t : TailV) (s : State) := s.onCur (vshift g t fun a n => a / 2 ^ n)
def execVsha (g : Guard) (t : TailV) (s : State) :=
  s.onCur (vshift g t fun a n => wrapInt (TailV.type t).width (sInt (TailV.type t).width a / (2 ^ n : Nat)))

/-- ((a*2^w + b) >> n)[w-1:0] (R161). -/
def vfunnel (w a b n : Nat) : Nat := (a * 2 ^ w + b) / 2 ^ n % 2 ^ w

def execVfsh (g : Guard) (t : TailV) (s : State) :=
  let w := (TailV.type t).width
  s.onCur (if t.e = 0 then vlanes g t 2 (fun a b c => vfunnel w a b (c % w)) true true
    else vlanes g t 2 (fun a b _ => vfunnel w a b (t.e.toNat % 64)) true false)
def execVclz (g : Guard) (t : TailV) (s : State) :=
  s.onCur (vlanes g t 2 (fun a _ _ => leadZeros (TailV.type t).width a) false false)
def execVpopc (g : Guard) (t : TailV) (s : State) :=
  s.onCur (vlanes g t 2 (fun a _ _ => popCount a (TailV.type t).width) false false)

/-- Byte-mask bits of lanes for which f holds (R162, R174). -/
def maskOfLanes (bytes : Nat) (f : Nat → Bool) : Nat → Nat
  | 0 => 0
  | n + 1 => maskOfLanes bytes f n + (if f n then (2 ^ bytes - 1) * 2 ^ (bytes * n) else 0)

/-- `vcmp` (R162): the mask is written under WM. -/
def execVcmp (g : Guard) (t : TailV) (s : State) := s.onCur (guarded g none do
  let ty := TailV.type t
  let a ← readV t.a
  let b ← readV t.b
  let m ← readW t.wm.toNat
  let old := (← arch).reg (.w t.d.toNat)
  let res := maskOfLanes (ty.width / 8) (fun i => vcond ty (t.e.toNat % 8) (lane ty.width a i) (lane ty.width b i)) ty.lanes
  writeReg (.w t.d.toNat) ((old &&& (2 ^ 128 - 1 - m)) ||| (res &&& m)) (arithLat t) fun k => nbits m (32 * k) 32 == 2 ^ 32 - 1
  return .fall)

def execVsel (g : Guard) (t : TailV) (s : State) := s.onCur (guarded g none do
  let a ← readV t.a
  let b ← readV t.b
  let c ← readW t.c.toNat
  writeV t.d t.wm (underMask b a c) 2
  return .fall)

/-- `vcvt` (R164): only the computed lanes are written, under WM. -/
def execVcvt (g : Guard) (t : TailV) (s : State) := s.onCur (guarded g none do
  let td := TailV.type t
  let ts := Ty.ofCode t.ty2.toNat
  let p := t.e.toNat % 16
  let n := min ts.lanes td.lanes
  let a ← readV t.a
  let cv (i : Nat) : Nat := convert td ts (TailV.rnd t) (TailV.sat t) (lane ts.width a i)
  let first := if ts.lanes < td.lanes then p * n else 0
  let src := if ts.lanes < td.lanes then 0 else p * n
  let res := ofLanes td.width (lanesOf n fun i => cv (src + i)) * 2 ^ (first * td.width)
  writeV t.d t.wm res 4 ((2 ^ (n * td.width / 8) - 1) * 2 ^ (first * td.width / 8))
  return .fall)

/-- The identity of a reduction (R165). -/
def redIdentity (ty : Ty) (op : Nat) : Nat :=
  match op with
  | 0 => if ty.isInt then 0 else signBit ty true
  | 1 => if ty.isInt then wrapInt ty.width (maxInt ty) else infPattern ty false
  | 2 => if ty.isInt then wrapInt ty.width (minInt ty) else infPattern ty true
  | 3 => 2 ^ ty.width - 1
  | _ => 0

/-- The operation of a reduction or scan (R166). -/
def redOp (ty : Ty) (r : Rnd) (sat : Bool) (op : Nat) (a b : Nat) : Nat :=
  match op with
  | 0 => if ty.isInt then tyAdd ty r false a b else tyAdd ty r sat a b
  | 1 => tyMinMax ty false a b
  | 2 => tyMinMax ty true a b
  | 3 => a &&& b
  | 4 => a ||| b
  | _ => a ^^^ b

/-- Neighbouring pairs combined: one level of the lane tree (R52). -/
def pairUp (f : Nat → Nat → Nat) : List Nat → List Nat
  | x :: y :: xs => f x y :: pairUp f xs
  | xs => xs

/-- The lane tree (R52): log2 of the number of lanes levels, lower lanes on the left. -/
def laneTree (f : Nat → Nat → Nat) : Nat → List Nat → Nat
  | 0, xs => xs.headD 0
  | n + 1, xs => laneTree f n (pairUp f xs)

/-- One step of the scan at distance d (R53). -/
def scanStep (f : Nat → Nat → Nat) (d : Nat) (xs : List Nat) : List Nat :=
  xs.take d ++ List.zipWith f xs (xs.drop d)

def scanAll (f : Nat → Nat → Nat) : Nat → Nat → List Nat → List Nat
  | 0, _, xs => xs
  | n + 1, d, xs => scanAll f n (2 * d) (scanStep f d xs)

/-- Active lanes of a register, identities elsewhere (R165). -/
def lanesOr (ty : Ty) (a m id : Nat) : List Nat :=
  lanesOf ty.lanes fun i => if active ty.width m i then lane ty.width a i else id

def execVred (g : Guard) (t : TailV) (s : State) := s.onCur (guarded g (some (t.e.toNat % 32)) do
  let ty := TailV.type t
  let op := t.e.toNat / 32
  let a ← readV t.a
  let m ← readW t.wm.toNat
  let r := laneTree (redOp ty (TailV.rnd t) (TailV.sat t) op) (Nat.log2 ty.lanes) (lanesOr ty a m (redIdentity ty op))
  vlong (t.e.toNat % 32) 12 [(.v t.d.toNat, r)])

def execVgmax (g : Guard) (t : TailV) (s : State) := s.onCur (guarded g (some (t.e.toNat % 32)) do
  let ty := TailV.type t
  let a ← readV t.a
  let m ← readW t.wm.toNat
  let r := laneTree (tyMinMax ty true) (Nat.log2 ty.lanes) (lanesOr ty a m (redIdentity ty 2))
  vlong (t.e.toNat % 32) 12 [(.v t.d.toNat, ofLanes ty.width (lanesOf ty.lanes fun _ => r))])

def execVscan (g : Guard) (t : TailV) (s : State) := s.onCur (guarded g (some (t.e.toNat % 32)) do
  let ty := TailV.type t
  let op := t.e.toNat / 32
  let a ← readV t.a
  let m ← readW t.wm.toNat
  let r := scanAll (redOp ty (TailV.rnd t) (TailV.sat t) op) (Nat.log2 ty.lanes) 1 (lanesOr ty a m (redIdentity ty op))
  vlong (t.e.toNat % 32) 12 [(.v t.d.toNat, ofLanes ty.width r)])

def execVsld (g : Guard) (t : TailV) (s : State) := s.onCur (guarded g none do
  let ty := TailV.type t
  let a ← readV t.a
  let b ← readV t.b
  let k := t.e.toNat
  writeV t.d t.wm (ofLanes ty.width (lanesOf ty.lanes fun i =>
    if i + k < ty.lanes then lane ty.width a (i + k) else lane ty.width b (i + k - ty.lanes))) 2
  return .fall)

def execVperm (g : Guard) (t : TailV) (s : State) := s.onCur (guarded g none do
  let ty := TailV.type t
  let a ← readV t.a
  let b ← readV t.b
  writeV t.d t.wm (ofLanes ty.width (lanesOf ty.lanes fun i =>
    let k := lane ty.width b i
    if k < ty.lanes then lane ty.width a k else 0)) 2
  return .fall)

def execVbcast (g : Guard) (t : TailV) (s : State) := s.onCur (guarded g none do
  let ty := TailV.type t
  let a ← readX t.a
  writeV t.d t.wm (ofLanes ty.width (lanesOf ty.lanes fun _ => a.toNat)) 2
  return .fall)

/-- The lane index of `vext` and `vins` (R170): xB + E modulo 2^64. -/
def laneIndex (t : TailV) : GM Nat := do
  let b ← readX t.b
  return (b + t.e.setWidth 64).toNat

def execVext (g : Guard) (t : TailV) (s : State) := s.onCur (guarded g none do
  let ty := TailV.type t
  let a ← readV t.a
  let k ← laneIndex t
  let v : Word := if k < ty.lanes then
      (if ty.isSigned then sext64 ty.width (lane ty.width a k) else BitVec.ofNat 64 (lane ty.width a k)) else 0
  writeX t.d v 2
  return .fall)

/-- `vins` (R170): one lane, under WM, and nothing where the register has no such lane; vD is also a source. -/
def execVins (g : Guard) (t : TailV) (s : State) := s.onCur (guarded g none do
  let ty := TailV.type t
  let a ← readX t.a
  let k ← laneIndex t
  let d ← readV t.d
  let m ← readW t.wm.toNat
  if k < ty.lanes then writeReg (.v t.d.toNat) (underMask d (putBits d (ty.width * k) ty.width a.toNat) m) 2
  return .fall)

def execVseq (g : Guard) (t : TailV) (s : State) := s.onCur (guarded g none do
  let ty := TailV.type t
  let a ← readX t.a
  writeV t.d t.wm (ofLanes ty.width (lanesOf ty.lanes fun i => wrapInt ty.width ((a.toNat : Int) + i * t.e.toInt))) 2
  return .fall)

/-- `mix64` of R173. -/
def mix64 (s : Word) (lane : Nat) (ctr : Word) : Word :=
  let z := s ^^^ (ctr * 0x8C3A5F21D97E0B4D + BitVec.ofNat 64 lane)
  let z := z * 0xC5B31E974D2A68F1
  let z := z ^^^ (z >>> 31)
  let z := z * 0xE2F47A0C3B95D167
  z ^^^ (z >>> 29)

/-- A lane of `vrand` (R173). -/
def randLane (ty : Ty) (z : Word) : Nat :=
  match ty with
  | .n64 => z.toNat
  | .n32 => z.toNat % 2 ^ 32
  | .f32 => roundF .f32 .rne false (.fin false (nbits z.toNat 40 24) (-24))
  | _ => roundF .f64 .rne false (.fin false (nbits z.toNat 11 53) (-53))

def execVrand (g : Guard) (t : TailV) (s : State) := s.onCur (guarded g (some (t.e.toNat % 32)) do
  let ty := TailV.type t
  let a ← readX t.a
  let sd := (← read).seed ^^^ (← get).recd.ticket
  vlongMasked (t.e.toNat % 32) 8 t.d t.wm (ofLanes ty.width (lanesOf ty.lanes fun i => randLane ty (mix64 sd i a))))

/-- The lanes `vsect` keeps (R174): first occurrences of a value of `a` that stand in `b`. -/
def intersect (b : List Nat) : List Nat → List Nat → List Nat
  | _, [] => []
  | seen, x :: xs => if b.contains x && !seen.contains x then x :: intersect b (x :: seen) xs else intersect b (x :: seen) xs

def execVsect (g : Guard) (t : TailV) (s : State) := s.onCur (guarded g (some (t.e.toNat % 32)) do
  let ty := TailV.type t
  let a ← readV t.a
  let b ← readV t.b
  let r := intersect (lanesOf ty.lanes (lane ty.width b)) [] (lanesOf ty.lanes (lane ty.width a))
  let m := 2 ^ (r.length * ty.width / 8) - 1
  vlong (t.e.toNat % 32) 8 [(.v t.d.toNat, ofLanes ty.width r), (.w t.c.toNat, m)])

def execVcompress (g : Guard) (t : TailV) (s : State) := s.onCur (guarded g none do
  let ty := TailV.type t
  let a ← readV t.a
  let c ← readW t.c.toNat
  let sel := (List.range ty.lanes).filter (active ty.width c)
  writeReg (.v t.d.toNat) (ofLanes ty.width (sel.map (lane ty.width a))) 2
  return .fall)

/-- Lane j of a register to the j-th selected lane (R172). -/
def expandLanes (w c a : Nat) : Nat → Nat → Nat → List Nat
  | 0, _, _ => []
  | n + 1, i, j => if active w c i then lane w a j :: expandLanes w c a n (i + 1) (j + 1) else 0 :: expandLanes w c a n (i + 1) j

def execVexpand (g : Guard) (t : TailV) (s : State) := s.onCur (guarded g none do
  let ty := TailV.type t
  let a ← readV t.a
  let c ← readW t.c.toNat
  writeReg (.v t.d.toNat) (ofLanes ty.width (expandLanes ty.width c a ty.lanes 0 0)) 2
  return .fall)

/-! Local gather and scatter (R201, R202). -/

/-- The local addresses of the active lanes: (lane, address). The sum does not wrap: one past 2^64 lies outside the local
store like any other (R201 states no modulus: DESIGN CHOICE, log 71). -/
def laneAddrs (ty : Ty) (base : Nat) (b m : Nat) : List (Nat × Nat) :=
  ((List.range ty.lanes).filter (active ty.width m)).map fun i => (i, base + lane ty.width b i * (ty.width / 8))

/-- The checks of R201: alignment of the base, and every address in the local store; poison of the index vector comes after
them (R195). -/
def checkLanes (ty : Ty) (base : Word) (ads : List (Nat × Nat)) : GM Unit := do
  let n := ty.width / 8
  aligned base n
  let bad := (ads.map (·.2)).filter fun a => lsSize < a + n
  match bad with
  | [] => pure ()
  | a :: rest => raise cACCESS (BitVec.ofNat 64 (rest.foldl min a))

/-- The bytes of the active lanes that a mask enables (R153, R154). -/
def activeBytes (width m : Nat) : Mask :=
  BitVec.ofNat 128 ((List.range 128).foldl (fun n j => if nbit m j && active width m (8 * j / width) then n + 2 ^ j else n) 0)

/-- The elements read at issue, in lane order (R181); of several poisoned ones the first is consumed (DESIGN CHOICE,
log 83). -/
def gatherLanes (n : Nat) : List (Nat × Nat) → GM (List (Nat × Nat))
  | [] => return []
  | (i, a) :: rest => do
    let v ← localRead a n
    let vs ← gatherLanes n rest
    return (i, v) :: vs

def execVgat (g : Guard) (t : TailV) (s : State) := s.onCur (guarded g (some (t.e.toNat % 32)) do
  let ty := TailV.type t
  let base ← readX t.a
  let b ← regValue (.v t.b.toNat)
  let m ← readW t.wm.toNat
  tokenRoom (t.e.toNat % 32)
  let ads := laneAddrs ty base.toNat b m
  checkLanes ty base ads
  regUsable (.v t.b.toNat)
  let vs ← gatherLanes (ty.width / 8) ads
  vlong (t.e.toNat % 32) 12 [(.v t.d.toNat, vs.foldl (fun r iv => r + iv.2 * 2 ^ (ty.width * iv.1)) 0)] (activeBytes ty.width m))

/-- The value a distinct address receives from its lanes in order (R202). -/
def mergeLanes (f : Nat → Nat → Nat) : List Nat → Nat
  | [] => 0
  | x :: xs => xs.foldl f x

/-- Distinct addresses in ascending order of first lane, each written once (R202). -/
def scatterLanes (n : Nat) (add : Option (Nat → Nat → Nat)) (c : Nat → Nat) : List (Nat × Nat) → List Nat → GM Unit
  | [], _ => pure ()
  | (i, a) :: rest, seen =>
    if seen.contains a then scatterLanes n add c rest seen
    else do
      let ls := i :: (rest.filter (fun p => p.2 = a)).map (·.1)
      match add with
      | none => localWrite a n (c (ls.getLastD i)) (2 ^ n - 1)
      | some f => do
        let old ← localRead a n
        localWrite a n (f old (mergeLanes f (ls.map c))) (2 ^ n - 1)
      scatterLanes n add c rest (a :: seen)

def execVsca (g : Guard) (t : TailV) (s : State) := s.onCur (guarded g none do
  let ty := TailV.type t
  let base ← readX t.a
  let b ← regValue (.v t.b.toNat)
  let m ← readW t.wm.toNat
  let ads := laneAddrs ty base.toNat b m
  checkLanes ty base ads
  regUsable (.v t.b.toNat)
  let c ← readV t.c
  let add := if t.e.toNat / 32 % 2 = 1 then some (tyAdd ty (TailV.rnd t) (TailV.sat t)) else none
  scatterLanes (ty.width / 8) add (lane ty.width c) ads []
  return .fall)

/-! Masks (R175, R176). -/

def mask2 (g : Guard) (t : TailA) (f : Nat → Nat → Nat) : GM Unit :=
  guarded g none do
    let a ← readW t.a.toNat
    let b ← readW t.b.toNat
    writeReg (.w t.d.toNat) (f a b) 1
    return .fall

def execWand (g : Guard) (t : TailA) (s : State) := s.onCur (mask2 g t (· &&& ·))
def execWor (g : Guard) (t : TailA) (s : State) := s.onCur (mask2 g t (· ||| ·))
def execWxor (g : Guard) (t : TailA) (s : State) := s.onCur (mask2 g t (· ^^^ ·))

def execWnot (g : Guard) (t : TailH) (s : State) := s.onCur (guarded g none do
  let a ← readW t.a.toNat
  writeReg (.w t.d.toNat) (2 ^ 128 - 1 - a) 1
  return .fall)

def execWpopc (g : Guard) (t : TailH) (s : State) := s.onCur (guarded g none do
  let a ← readW t.a.toNat
  writeX t.d (BitVec.ofNat 64 (popCount a 128)) 1
  return .fall)

def execWfirst (g : Guard) (t : TailH) (s : State) := s.onCur (guarded g none do
  let a ← readW t.a.toNat
  writeX t.d (BitVec.ofNat 64 (trailZeros a 128)) 1
  return .fall)

/-- Bits f to f + cnt - 1, those below 128 (R176). -/
def runOfBits (f cnt : Nat) : Nat := (2 ^ cnt - 1) * 2 ^ f % 2 ^ 128

def execWset (g : Guard) (t : TailI) (s : State) := s.onCur (guarded g none do
  let m := t.imm.toNat
  let cnt ← if nbit m 16 then do
      let a ← readX t.a
      pure (min a.toNat 128)
    else pure (nbits m 8 8)
  writeReg (.w t.d.toNat) (runOfBits (m % 128) cnt) 1
  return .fall)

end Sys2Proof.Machine
end

