-- ==== Sys2Proof/Machine/Dispatch.lean ====
section
/-!
DEFINITION. The one dispatch of the machine: each constructor of `Instr` calls its meaning.
-/

namespace Sys2Proof.Machine

def exec (i : Instr) (s : State) : Host.Outcome State Fault Refusal :=
  match i with
  | .add g t => Sys2Proof.Machine.execAdd g t s
  | .sub g t => Sys2Proof.Machine.execSub g t s
  | .addi g t => Sys2Proof.Machine.execAddi g t s
  | .mul g t => Sys2Proof.Machine.execMul g t s
  | .mulh g t => Sys2Proof.Machine.execMulh g t s
  | .mulhn g t => Sys2Proof.Machine.execMulhn g t s
  | .div g t => Sys2Proof.Machine.execDiv g t s
  | .divn g t => Sys2Proof.Machine.execDivn g t s
  | .rem g t => Sys2Proof.Machine.execRem g t s
  | .remn g t => Sys2Proof.Machine.execRemn g t s
  | .and g t => Sys2Proof.Machine.execAnd g t s
  | .or g t => Sys2Proof.Machine.execOr g t s
  | .xor g t => Sys2Proof.Machine.execXor g t s
  | .andn g t => Sys2Proof.Machine.execAndn g t s
  | .orn g t => Sys2Proof.Machine.execOrn g t s
  | .shl g t => Sys2Proof.Machine.execShl g t s
  | .shr g t => Sys2Proof.Machine.execShr g t s
  | .sha g t => Sys2Proof.Machine.execSha g t s
  | .rol g t => Sys2Proof.Machine.execRol g t s
  | .shli g t => Sys2Proof.Machine.execShli g t s
  | .shri g t => Sys2Proof.Machine.execShri g t s
  | .shai g t => Sys2Proof.Machine.execShai g t s
  | .roli g t => Sys2Proof.Machine.execRoli g t s
  | .clz g t => Sys2Proof.Machine.execClz g t s
  | .ctz g t => Sys2Proof.Machine.execCtz g t s
  | .popc g t => Sys2Proof.Machine.execPopc g t s
  | .bfx g t => Sys2Proof.Machine.execBfx g t s
  | .bfi g t => Sys2Proof.Machine.execBfi g t s
  | .fsh g t => Sys2Proof.Machine.execFsh g t s
  | .min g t => Sys2Proof.Machine.execMin g t s
  | .max g t => Sys2Proof.Machine.execMax g t s
  | .minn g t => Sys2Proof.Machine.execMinn g t s
  | .maxn g t => Sys2Proof.Machine.execMaxn g t s
  | .sext g t => Sys2Proof.Machine.execSext g t s
  | .slt g t => Sys2Proof.Machine.execSlt g t s
  | .sltn g t => Sys2Proof.Machine.execSltn g t s
  | .seq g t => Sys2Proof.Machine.execSeq g t s
  | .sne g t => Sys2Proof.Machine.execSne g t s
  | .csel g t => Sys2Proof.Machine.execCsel g t s
  | .li g t => Sys2Proof.Machine.execLi g t s
  | .lea g t => Sys2Proof.Machine.execLea g t s
  | .mov g t => Sys2Proof.Machine.execMov g t s
  | .beq g t => Sys2Proof.Machine.execBeq g t s
  | .bne g t => Sys2Proof.Machine.execBne g t s
  | .blt g t => Sys2Proof.Machine.execBlt g t s
  | .bge g t => Sys2Proof.Machine.execBge g t s
  | .bltn g t => Sys2Proof.Machine.execBltn g t s
  | .bgen g t => Sys2Proof.Machine.execBgen g t s
  | .bz g t => Sys2Proof.Machine.execBz g t s
  | .bnz g t => Sys2Proof.Machine.execBnz g t s
  | .j g t => Sys2Proof.Machine.execJ g t s
  | .jl g t => Sys2Proof.Machine.execJl g t s
  | .jr g t => Sys2Proof.Machine.execJr g t s
  | .loop g t => Sys2Proof.Machine.execLoop g t s
  | .dly g t => Sys2Proof.Machine.execDly g t s
  | .nop g => Sys2Proof.Machine.execNop g s
  | .done g => Sys2Proof.Machine.execDone g s
  | .qset g t => Sys2Proof.Machine.execQset g t s
  | .qop g t => Sys2Proof.Machine.execQop g t s
  | .wait g t => Sys2Proof.Machine.execWait g t s
  | .fset g t => Sys2Proof.Machine.execFset g t s
  | .fclr g t => Sys2Proof.Machine.execFclr g t s
  | .ftst g t => Sys2Proof.Machine.execFtst g t s
  | .fwait g t => Sys2Proof.Machine.execFwait g t s
  | .abort g => Sys2Proof.Machine.execAbort g s
  | .abchk g t => Sys2Proof.Machine.execAbchk g t s
  | .ldl g t => Sys2Proof.Machine.execLdl g t s
  | .ldg g t => Sys2Proof.Machine.execLdg g t s
  | .stl g t => Sys2Proof.Machine.execStl g t s
  | .stg g t => Sys2Proof.Machine.execStg g t s
  | .fence g t => Sys2Proof.Machine.execFence g t s
  | .acq g t => Sys2Proof.Machine.execAcq g t s
  | .rel g t => Sys2Proof.Machine.execRel g t s
  | .vadd g t => Sys2Proof.Machine.execVadd g t s
  | .vsub g t => Sys2Proof.Machine.execVsub g t s
  | .vmul g t => Sys2Proof.Machine.execVmul g t s
  | .vmulh g t => Sys2Proof.Machine.execVmulh g t s
  | .vfma g t => Sys2Proof.Machine.execVfma g t s
  | .vfms g t => Sys2Proof.Machine.execVfms g t s
  | .vfnma g t => Sys2Proof.Machine.execVfnma g t s
  | .vdiv g t => Sys2Proof.Machine.execVdiv g t s
  | .vsqrt g t => Sys2Proof.Machine.execVsqrt g t s
  | .vmin g t => Sys2Proof.Machine.execVmin g t s
  | .vmax g t => Sys2Proof.Machine.execVmax g t s
  | .vabs g t => Sys2Proof.Machine.execVabs g t s
  | .vneg g t => Sys2Proof.Machine.execVneg g t s
  | .vand g t => Sys2Proof.Machine.execVand g t s
  | .vor g t => Sys2Proof.Machine.execVor g t s
  | .vxor g t => Sys2Proof.Machine.execVxor g t s
  | .vandn g t => Sys2Proof.Machine.execVandn g t s
  | .vshl g t => Sys2Proof.Machine.execVshl g t s
  | .vshr g t => Sys2Proof.Machine.execVshr g t s
  | .vsha g t => Sys2Proof.Machine.execVsha g t s
  | .vfsh g t => Sys2Proof.Machine.execVfsh g t s
  | .vclz g t => Sys2Proof.Machine.execVclz g t s
  | .vpopc g t => Sys2Proof.Machine.execVpopc g t s
  | .vcmp g t => Sys2Proof.Machine.execVcmp g t s
  | .vsel g t => Sys2Proof.Machine.execVsel g t s
  | .vcvt g t => Sys2Proof.Machine.execVcvt g t s
  | .vred g t => Sys2Proof.Machine.execVred g t s
  | .vgmax g t => Sys2Proof.Machine.execVgmax g t s
  | .vscan g t => Sys2Proof.Machine.execVscan g t s
  | .vsld g t => Sys2Proof.Machine.execVsld g t s
  | .vperm g t => Sys2Proof.Machine.execVperm g t s
  | .vbcast g t => Sys2Proof.Machine.execVbcast g t s
  | .vext g t => Sys2Proof.Machine.execVext g t s
  | .vins g t => Sys2Proof.Machine.execVins g t s
  | .vseq g t => Sys2Proof.Machine.execVseq g t s
  | .vrand g t => Sys2Proof.Machine.execVrand g t s
  | .vsect g t => Sys2Proof.Machine.execVsect g t s
  | .vcompress g t => Sys2Proof.Machine.execVcompress g t s
  | .vexpand g t => Sys2Proof.Machine.execVexpand g t s
  | .vldl g t => Sys2Proof.Machine.execVldl g t s
  | .vldg g t => Sys2Proof.Machine.execVldg g t s
  | .vstl g t => Sys2Proof.Machine.execVstl g t s
  | .vstg g t => Sys2Proof.Machine.execVstg g t s
  | .vldu g t => Sys2Proof.Machine.execVldu g t s
  | .vstu g t => Sys2Proof.Machine.execVstu g t s
  | .vgat g t => Sys2Proof.Machine.execVgat g t s
  | .vsca g t => Sys2Proof.Machine.execVsca g t s
  | .wand g t => Sys2Proof.Machine.execWand g t s
  | .wor g t => Sys2Proof.Machine.execWor g t s
  | .wxor g t => Sys2Proof.Machine.execWxor g t s
  | .wnot g t => Sys2Proof.Machine.execWnot g t s
  | .wpopc g t => Sys2Proof.Machine.execWpopc g t s
  | .wfirst g t => Sys2Proof.Machine.execWfirst g t s
  | .wset g t => Sys2Proof.Machine.execWset g t s
  | .amo g t => Sys2Proof.Machine.execAmo g t s
  | .bar g t => Sys2Proof.Machine.execBar g t s
  | .fret g t => Sys2Proof.Machine.execFret g t s
  | .spawn g t => Sys2Proof.Machine.execSpawn g t s
  | .join g t => Sys2Proof.Machine.execJoin g t s
  | .gang g => Sys2Proof.Machine.execGang g s
  | .solo g => Sys2Proof.Machine.execSolo g s
  | .cpy g t => Sys2Proof.Machine.execCpy g t s
  | .epop g t => Sys2Proof.Machine.execEpop g t s
  | .gat g t => Sys2Proof.Machine.execGat g t s
  | .sca g t => Sys2Proof.Machine.execSca g t s
  | .chg g t => Sys2Proof.Machine.execChg g t s
  | .chs g t => Sys2Proof.Machine.execChs g t s
  | .evw g t => Sys2Proof.Machine.execEvw g t s
  | .xbar g t => Sys2Proof.Machine.execXbar g t s
  | .rset g t => Sys2Proof.Machine.execRset g t s
  | .rpush g t => Sys2Proof.Machine.execRpush g t s
  | .rpop g t => Sys2Proof.Machine.execRpop g t s
  | .mma g t => Sys2Proof.Machine.execMma g t s
  | .mmas g t => Sys2Proof.Machine.execMmas g t s
  | .mzero g t => Sys2Proof.Machine.execMzero g t s
  | .mdrain g t => Sys2Proof.Machine.execMdrain g t s
  | .mload g t => Sys2Proof.Machine.execMload g t s
  | .mred g t => Sys2Proof.Machine.execMred g t s
  | .mq g t => Sys2Proof.Machine.execMq g t s
  | .mstat g t => Sys2Proof.Machine.execMstat g t s
  | .cget g t => Sys2Proof.Machine.execCget g t s
  | .cset g t => Sys2Proof.Machine.execCset g t s
  | .trap g t => Sys2Proof.Machine.execTrap g t s
  | .svc g t => Sys2Proof.Machine.execSvc g t s
  | .kret g => Sys2Proof.Machine.execKret g s
  | .tlbinv g t => Sys2Proof.Machine.execTlbinv g t s
  | .halt g => Sys2Proof.Machine.execHalt g s
  | .plbaseWrite p v => Sys2Proof.Machine.execPlbaseWrite p v s
  | .pclusWrite p v => Sys2Proof.Machine.execPclusWrite p v s
  | .pstatWrite p v => Sys2Proof.Machine.execPstatWrite p v s
  | .entryValidate p c => Sys2Proof.Machine.execEntryValidate p c s
  | .contextRetire p c => Sys2Proof.Machine.execContextRetire p c s
  | .contextRetirementEnd p c => Sys2Proof.Machine.execContextRetirementEnd p c s
  | .lqtailWrite p c q v => Sys2Proof.Machine.execLqtailWrite p c q v s
  | .lqctlEn p c q => Sys2Proof.Machine.execLqctlEn p c q s
  | .lqctlTear p c q => Sys2Proof.Machine.execLqctlTear p c q s
  | .teardownEnd p c q => Sys2Proof.Machine.execTeardownEnd p c q s
  | .lqerrWrite p c q => Sys2Proof.Machine.execLqerrWrite p c q s
  | .fqtailWrite p c => Sys2Proof.Machine.execFqtailWrite p c s
  | .fqReplyRetry p c => Sys2Proof.Machine.execFqReplyRetry p c s
  | .fqReplyResume p c => Sys2Proof.Machine.execFqReplyResume p c s
  | .fqReplyAbort p c => Sys2Proof.Machine.execFqReplyAbort p c s
  | .pdmgctxWrite p => Sys2Proof.Machine.execPdmgctxWrite p s
  | .hstatWrite v => Sys2Proof.Machine.execHstatWrite v s
  | .horphRead => Sys2Proof.Machine.execHorphRead s
  | .hcorrWrite => Sys2Proof.Machine.execHcorrWrite s
  | .huncWrite => Sys2Proof.Machine.execHuncWrite s
  | .hpermitWrite => Sys2Proof.Machine.execHpermitWrite s
  | .hgangWrite v => Sys2Proof.Machine.execHgangWrite v s
  | .attestationRequest nonce => Sys2Proof.Machine.execAttestationRequest nonce s
  | .controlRegisterWrite offset v => Sys2Proof.Machine.execControlRegisterWrite offset v s
  | .queueWindowStage core word v => Sys2Proof.Machine.execQueueWindowStage core word v s
  | .queueWindowPush core v => Sys2Proof.Machine.execQueueWindowPush core v s
  | .hostCxlMemRead addr count => Sys2Proof.Machine.execHostCxlMemRead addr count s
  | .hostCxlMemWrite addr data => Sys2Proof.Machine.execHostCxlMemWrite addr data s
  | .hostAtomic addr => Sys2Proof.Machine.execHostAtomic addr s
  | .hostSnoop addr invalidate => Sys2Proof.Machine.execHostSnoop addr invalidate s
  | .acceptanceRound p => Sys2Proof.Machine.execAcceptanceRound p s
  | .sliceEnd p => Sys2Proof.Machine.execSliceEnd p s
  | .entryDue p c => Sys2Proof.Machine.execEntryDue p c s
  | .recordProduce cluster => Sys2Proof.Machine.execRecordProduce cluster s
  | .groupStart cell core => Sys2Proof.Machine.execGroupStart cell core s
  | .footprintFetchComplete gid => Sys2Proof.Machine.execFootprintFetchComplete gid s
  | .groupResume gid core => Sys2Proof.Machine.execGroupResume gid core s
  | .slotsExhausted p c => Sys2Proof.Machine.execSlotsExhausted p c s
  | .commitBufferDrain gid => Sys2Proof.Machine.execCommitBufferDrain gid s
  | .commitPhaseStart launch dom => Sys2Proof.Machine.execCommitPhaseStart launch dom s
  | .exchangePhaseStart launch dom => Sys2Proof.Machine.execExchangePhaseStart launch dom s
  | .fretComplete launch dom => Sys2Proof.Machine.execFretComplete launch dom s
  | .ilvRoundStart launch => Sys2Proof.Machine.execIlvRoundStart launch s
  | .globalLoadPerformed gid entry => Sys2Proof.Machine.execGlobalLoadPerformed gid entry s
  | .storePerformed gid id => Sys2Proof.Machine.execStorePerformed gid id s
  | .amoPerformed gid entry => Sys2Proof.Machine.execAmoPerformed gid entry s
  | .flagWritePerformed gid id => Sys2Proof.Machine.execFlagWritePerformed gid id s
  | .divideComplete gid entry => Sys2Proof.Machine.execDivideComplete gid entry s
  | .vectorLongComplete gid entry => Sys2Proof.Machine.execVectorLongComplete gid entry s
  | .pageWalk cluster => Sys2Proof.Machine.execPageWalk cluster s
  | .tlbinvComplete gid entry => Sys2Proof.Machine.execTlbinvComplete gid entry s
  | .lineRefill gid line => Sys2Proof.Machine.execLineRefill gid line s
  | .lineWriteOut gid line => Sys2Proof.Machine.execLineWriteOut gid line s
  | .l2DirtyEvict slice line => Sys2Proof.Machine.execL2DirtyEvict slice line s
  | .scaleCacheFill core tensor block => Sys2Proof.Machine.execScaleCacheFill core tensor block s
  | .copyJobStart gid => Sys2Proof.Machine.execCopyJobStart gid s
  | .copyChunk gid => Sys2Proof.Machine.execCopyChunk gid s
  | .indirectJobStart cluster => Sys2Proof.Machine.execIndirectJobStart cluster s
  | .gatherChunk cluster => Sys2Proof.Machine.execGatherChunk cluster s
  | .scatterChunk cluster => Sys2Proof.Machine.execScatterChunk cluster s
  | .scaAddMergePass cluster => Sys2Proof.Machine.execScaAddMergePass cluster s
  | .scaAddApplyPass cluster => Sys2Proof.Machine.execScaAddApplyPass cluster s
  | .chainGather cluster => Sys2Proof.Machine.execChainGather cluster s
  | .chsReadPass cluster => Sys2Proof.Machine.execChsReadPass cluster s
  | .chsApplyPass cluster => Sys2Proof.Machine.execChsApplyPass cluster s
  | .bridgeEvaluate gid => Sys2Proof.Machine.execBridgeEvaluate gid s
  | .mmaCommand gid => Sys2Proof.Machine.execMmaCommand gid s
  | .mmasCommand gid => Sys2Proof.Machine.execMmasCommand gid s
  | .zeroCommand gid => Sys2Proof.Machine.execZeroCommand gid s
  | .drainCommand gid => Sys2Proof.Machine.execDrainCommand gid s
  | .loadCommand gid => Sys2Proof.Machine.execLoadCommand gid s
  | .redCommand gid => Sys2Proof.Machine.execRedCommand gid s
  | .matrixCommandRetire gid => Sys2Proof.Machine.execMatrixCommandRetire gid s
  | .governorWindow => Sys2Proof.Machine.execGovernorWindow s
  | .deferredTrap gid => Sys2Proof.Machine.execDeferredTrap gid s
  | .abortLineArrive launch cluster => Sys2Proof.Machine.execAbortLineArrive launch cluster s
  | .abortGroupStart launch => Sys2Proof.Machine.execAbortGroupStart launch s
  | .launchComplete launch => Sys2Proof.Machine.execLaunchComplete launch s
  | .rollback launch dom => Sys2Proof.Machine.execRollback launch dom s
  | .correctableErrorRepair upset => Sys2Proof.Machine.execCorrectableErrorRepair upset s
  | .tuningPass => Sys2Proof.Machine.execTuningPass s
  | .cellRetire cell => Sys2Proof.Machine.execCellRetire cell s
  | .throttleDown => Sys2Proof.Machine.execThrottleDown s
  | .throttleUp => Sys2Proof.Machine.execThrottleUp s
  | .overheatStop => Sys2Proof.Machine.execOverheatStop s
  | .powerUp boot => Sys2Proof.Machine.execPowerUp boot s
  | .flitReceive port flit => Sys2Proof.Machine.execFlitReceive port flit s
  | .nakReceive port seq => Sys2Proof.Machine.execNakReceive port seq s
  | .portDown port => Sys2Proof.Machine.execPortDown port s
  | .launchGrantReceive p c q pos field digest => Sys2Proof.Machine.execLaunchGrantReceive p c q pos field digest s
  | .logEndMarkerReceive launch dom pkg => Sys2Proof.Machine.execLogEndMarkerReceive launch dom pkg s
  | .readyReceive launch dom pkg => Sys2Proof.Machine.execReadyReceive launch dom pkg s
  | .remoteRequest req => Sys2Proof.Machine.execRemoteRequest req s
  | .ackReceive port seq => Sys2Proof.Machine.execAckReceive port seq s
  | .portRetrainComplete port => Sys2Proof.Machine.execPortRetrainComplete port s
  | .cxlDeviceFailed port => Sys2Proof.Machine.execCxlDeviceFailed port s
  | .softError target => Sys2Proof.Machine.execSoftError target s
  | .quarantineRelease frame => Sys2Proof.Machine.execQuarantineRelease frame s
  | .watchdogExpiry => Sys2Proof.Machine.execWatchdogExpiry s
  | .fixedEntryComplete gid entry => Sys2Proof.Machine.execFixedEntryComplete gid entry s

end Sys2Proof.Machine
end

