-- ==== Sys2Proof/WellFormed.lean ====
section
/-!
DEFINITION. Well-formed instructions: those whose every field check of R118 step 4 passes. The checks themselves are
`fieldChecks` of Sys2Proof/Decode.lean, so the decoder and this predicate cannot differ.
-/

namespace Sys2Proof

/-- Every field check of the instruction passes (R115 to R118). -/
def Instr.wf (i : Instr) : Bool := (fieldChecks i).all Check.ok

/-- An instruction of the opcode map, as against a step of another agent. -/
def Instr.isCore (i : Instr) : Bool := (parts i).isSome

end Sys2Proof
end

