-- ==== Sys2Proof/Machine/Step.lean ====
section
/-!
DEFINITION. One step of the machine: the next move of the schedule, which is an instruction of one core, one step of
another agent, or the passing of time (95_what_each_step_holds; log 3).
-/

namespace Sys2Proof.Machine

def step (s : State) : Host.Outcome State Fault Refusal :=
  if s.clk.closing then .next s.passTime else
  match s.pop with
  | (.tick, s) => .next s.passTime
  | (.event e, s) => if e.isCore then .next s else s.after (exec e s)
  | (.issue core, s) =>
    match s.dev.turn s.clk core with
    | .idle => .next s
    | .ended d => s.after (.next { s with dev := d })
    | .run d g i => if s.ringWaits g i then .next s else s.after (exec i { s with dev := d }) (State.issued g i)

/-- The instruction whose bits are w, placed where the next step fetches and executes it (log 7). -/
def State.withFetchWord (s : State) (nbits w : Nat) : State := s.place nbits w

end Sys2Proof.Machine
end

