-- ==== Sys2Proof/Safety.lean ====
section
/-!
DEFINITION. The terms the statements are written in: when an operand may be read and a destination written at issue, the
group that issues, its guard, and what an instruction leaves alone.
-/

namespace Sys2Proof.Machine

/-- A line of the group's image is on its core: it does not lie in the slot, and no group that has left the core still holds
its place (R179, R180, R341). -/
def Group.lineHere (g : Group) (e : Env) (line : Nat) : Prop := missesLine e.others g line = false

/-- The register takes one value from a write: its line is on the core and no earlier write of it is unfinished
(R126, R132, R133, R179). -/
def Group.writable (g : Group) (e : Env) (r : RegRef) : Prop :=
  r.fixed = true ∨ (g.lineHere e r.line ∧ g.arch.openAlts e.aclk r = [] ∧ g.arch.pending r = none)

/-- The register holds one value at issue: it is writable, and it holds neither poison (R362) nor a correctable error that is
still to be found (R369). -/
def Group.readable (g : Group) (e : Env) (r : RegRef) : Prop :=
  r.fixed = true ∨ (g.writable e r ∧ g.arch.regPoison.any (fun p => p.1 == r) = false ∧ e.upsets.contains r = false)

def State.writable (s : State) (g : Group) (r : RegRef) : Prop := g.writable (s.dev.env s.clk g) r
def State.readable (s : State) (g : Group) (r : RegRef) : Prop := g.readable (s.dev.env s.clk g) r

/-- Group g runs on the issuing core. -/
def State.issuing (s : State) (g : Group) : Prop := s.dev.current = some g

/-- The guard may be read and holds (R108). -/
def Group.guardOn (g : Group) (e : Env) (gd : Guard) : Prop := g.readable e (.q gd.q.toNat) ∧ g.arch.qr gd.q.toNat ≠ gd.sense

/-- The guard may be read and does not hold (R109). -/
def Group.guardOff (g : Group) (e : Env) (gd : Guard) : Prop := g.readable e (.q gd.q.toNat) ∧ g.arch.qr gd.q.toNat = gd.sense

def State.guardOn (s : State) (g : Group) (gd : Guard) : Prop := g.guardOn (s.dev.env s.clk g) gd
def State.guardOff (s : State) (g : Group) (gd : Guard) : Prop := g.guardOff (s.dev.env s.clk g) gd

/-- The machine with the issuing group changed. -/
def State.put (s : State) (h : Group) : State := { s with dev := s.dev.setGroup h }

/-- The group after a write of a writable register: its value, and until the latency has passed the old one as well
(R125, R126). Of the register's poisoned 32-bit words those written whole lose their mark, and the others keep mark and
contents (R362). -/
def Group.wrote (g : Group) (now : Nat) (r : RegRef) (v lat : Nat) (whole : Nat → Bool := fun _ => true) : Group :=
  if r.fixed then g else
  let left := g.arch.regPoison.filter fun p => !(p.1 == r && whole p.2)
  { g with arch := { g.arch.setReg r (keptWords left r (g.arch.reg r) v) with
      alts := g.arch.alts.filter (·.isOpen now) ++ (if lat ≤ 1 then [] else [⟨r, g.arch.reg r, .aclk (now + lat), lat⟩])
      regPoison := left } }

/-- The 32-bit words of a vector register whose four bytes all lie under the mask (R154, R362). -/
def wholeWords (m : Mask) (k : Nat) : Bool := nbits m.toNat (4 * k) 4 == 15

/-- The group after an instruction whose next PC is p: the loop end check, no stall, the next issue `slots` aclk on
(R105, R142, R143). -/
def Group.goesOn (g : Group) (now : Nat) (p : Word) (slots : Nat) : Group :=
  { g with arch := { (loopEnd g.arch p).1 with pc := (loopEnd g.arch p).2 }, stall := .none, notBefore := now + slots }

/-- The group after an instruction has left a new entry on a token: its destinations are pending, and the results known at
issue may be read early, in a vector register under their mask (R129, R132, R154). -/
def Group.entered (g : Group) (tok : Nat) (row : EntryRow) (remote : Bool) (due : Option Nat) (dests : List RegRef)
    (writes : List (RegRef × Nat)) (mask : Mask := BitVec.allOnes 128) : Group :=
  let ds := dests.filter (fun r => !r.fixed)
  let ws := writes.filter (fun w => !w.1.fixed)
  { g with arch := { g.arch with
      toks := vecMod g.arch.toks tok (· ++ [⟨g.arch.nextId, row, false, remote, due, ds, ws, [], mask⟩])
      alts := g.arch.alts ++ ws.map (fun w => ⟨w.1, landing w.1 (g.arch.reg w.1) w.2 mask, .entry tok g.arch.nextId, 0⟩)
      nextId := g.arch.nextId + 1 } }

/-- The group as a branch, `j` or plain `jr` to p leaves its loops (R143). -/
def Group.leavesLoops (g : Group) (p : Word) : Group :=
  { g with arch := { g.arch with loops := g.arch.loops.map (leaveLoop g.arch.pc p) } }

/-- The group with loop k in a given state. -/
def Group.withLoop (g : Group) (k : Nat) (l : Loop) : Group :=
  { g with arch := { g.arch with loops := g.arch.loops.setIfInBounds k l } }

/-- The group after it has issued global operations that are still to be performed (R199, R148), numbered in order. -/
def Group.issues (g : Group) (os : List GOp) : Group :=
  { g with arch := { g.arch with gops := g.arch.gops ++ os, nextId := g.arch.nextId + os.length } }

/-- The n local bytes from a are on the core (R180) and not poisoned (R362). -/
def Group.localReady (g : Group) (e : Env) (a n : Nat) : Prop :=
  ∀ i < n, g.lineHere e (256 + (a + i) / 256) ∧ e.upsetWords.contains ((a + i) / 8) = false ∧ g.arch.lsPoison.contains ((a + i) / 8) = false

def State.localReady (s : State) (g : Group) (a n : Nat) : Prop := g.localReady (s.dev.env s.clk g) a n

/-- The group after it has issued an operation that carries its own number. -/
def Group.queued (g : Group) (o : GOp) : Group := { g with arch := { g.arch with gops := g.arch.gops ++ [o] } }

/-- The group after a ticketed instruction has entered the commit buffer (R306, R307). -/
def Group.buffered (g : Group) (o : GOp) : Group :=
  { g with arch := { g.arch with buffer := g.arch.buffer ++ [o], seq := g.arch.seq + 1, nextId := g.arch.nextId + 1 } }

/-- Local store and the blocks copied aside, with their marks in the snapshot, alone differ (R181, R365). -/
def Group.onlyLocal (g h : Group) : Prop :=
  let marks (o : Option Arch) : Option Arch := o.map fun a => { a with lsPoison := [] }
  h = { g with arch := { g.arch with ls := h.arch.ls }, capo := h.capo, snap := h.snap } ∧ marks h.snap = marks g.snap

/-- The group after an instruction whose entry on a token completes at issue (R109, R129, R223): the entry counts until the
older ones are released. -/
def Group.passed (g : Group) (tok : Nat) : Group :=
  let toks := vecMod g.arch.toks tok (· ++ [⟨g.arch.nextId, .none, true, false, none, [], [], [], BitVec.allOnes 128⟩])
  { g with arch := ({ g.arch with toks := toks, nextId := g.arch.nextId + 1 } : Arch).release }

/-- The token that an instruction of the opcode map names, if it names one (R109, R129). -/
def namesToken : Instr → Option Nat
  | .div _ t | .divn _ t | .rem _ t | .remn _ t | .epop _ t | .rpush _ t | .rpop _ t | .mzero _ t | .mstat _ t | .tlbinv _ t =>
    some (t.e.toNat % 32)
  | .vdiv _ t | .vsqrt _ t | .vred _ t | .vgmax _ t | .vscan _ t | .vrand _ t | .vsect _ t | .vgat _ t => some (t.e.toNat % 32)
  | .ldg _ t | .vldg _ t | .spawn _ t | .join _ t | .mq _ t => some t.tk.toNat
  | .amo _ t => some t.tk.toNat
  | .cpy _ t | .gat _ t | .sca _ t | .chg _ t | .chs _ t | .mma _ t | .mmas _ t | .mdrain _ t | .mload _ t | .mred _ t => some t.tk.toNat
  | _ => none

/-- Parameter word k of format P: the immediate, or the low half of the register named in its place (R116). -/
def Group.par (g : Group) (t : TailP) (k : Nat) : BitVec 32 :=
  let s := [t.s0, t.s1, t.s2, t.s3].getD k 0
  if t.sm.getLsbD k then (g.arch.xr s.toNat).setWidth 32 else [t.par0, t.par1, t.par2, t.par3].getD k 0

/-- The registers that give parameter words may be read. -/
def State.parsReady (s : State) (g : Group) (t : TailP) : Prop :=
  ∀ k < 4, t.sm.getLsbD k = true → s.readable g (.x ([t.s0, t.s1, t.s2, t.s3].getD k 0).toNat)

/-- What a push does that leaves the group h, and on the device what `post` adds, and whose job writes `charge` bytes of the
log (R309): in a deterministic launch that drops nothing the domain is charged first, and a charge beyond the quota traps
`LOG_FULL`. -/
def State.pushes (s : State) (g : Group) (l : Launch) (i : Instr) (charge : Nat) (h : Group) (post : Dev → Dev) : Prop :=
  let key := l.domOf g.recd.home
  let dm := l.doms.getD key (Dom.reset none)
  let counts : Prop := l.mode = .det ∧ charge ≠ 0 ∧ (l.raisedAt = none ∨ g.isAbort = true)
  let charged := s.dev.setLaunch g.recd.launch { l with doms := l.doms.put key { dm with charge := dm.charge + charge } }
  (¬ counts → exec i s = .next { s with dev := post (s.dev.setGroup h) }) ∧
  (counts → dm.charge + charge ≤ l.logq * 1024 → exec i s = .next { s with dev := post (charged.setGroup h) }) ∧
  (counts → l.logq * 1024 < dm.charge + charge →
    exec i s = .next { s with dev := s.dev.takeTrap s.clk g cLOG_FULL (BitVec.ofNat 64 charge) g.arch.pc false false })

end Sys2Proof.Machine
end

