-- ==== Sys2Proof/Certificates/Slice0/Obligations.lean ====
section
/-!
DEFINITION. The statements for the provers, family by family of the opcode table. Each formalises what numbered rules of
the spec say an instruction or the machine does; a clause that rests on a choice of the model names its log entry.
-/

open Sys2Proof Sys2Proof.Machine

/-! ## Scalar instructions (06_issuing R136 to R141) -/

/-- R137: every register-to-register instruction, under a guard that holds and with operands that may be read, writes the
value the table gives to xD (a write of x0 is discarded) after the latency of R125, changes nothing else, and goes on.
R138, R35: the four divides leave a pending entry on token N that completes exactly 40 aclk after issue with the quotient
or remainder; a divisor of 0 gives all ones and the dividend. -/
def Obligations.ScalarArithmeticResults : Prop :=
  (
  ∀ (s : State) (g : Machine.Group) (gd : Guard) (t : TailA), s.issuing g → s.guardOn g gd →
    s.readable g (.x t.a.toNat) → s.readable g (.x t.b.toNat) → s.readable g (.x t.c.toNat) →
    s.writable g (.x t.d.toNat) →
    let a := g.arch.xr t.a.toNat
    let b := g.arch.xr t.b.toNat
    let c := g.arch.xr t.c.toNat
    let n := b.toNat % 64
    let gives (i : Instr) (lat : Nat) (v : Word) : Prop :=
      exec i s = .next (s.put ((g.wrote s.clk.aclk (.x t.d.toNat) v.toNat lat).goesOn s.clk.aclk g.link 1))
    gives (.add gd t) 1 (BitVec.ofNat 64 (a.toNat + b.toNat)) ∧
    gives (.sub gd t) 1 (BitVec.ofInt 64 ((a.toNat : Int) - b.toNat)) ∧
    gives (.mul gd t) 3 (BitVec.ofNat 64 (a.toNat * b.toNat)) ∧
    gives (.mulh gd t) 3 ((a.signExtend 128 * b.signExtend 128).extractLsb' 64 64) ∧
    gives (.mulhn gd t) 3 ((a.setWidth 128 * b.setWidth 128).extractLsb' 64 64) ∧
    gives (.and gd t) 1 (a &&& b) ∧
    gives (.or gd t) 1 (a ||| b) ∧
    gives (.xor gd t) 1 (a ^^^ b) ∧
    gives (.andn gd t) 1 (a &&& ~~~b) ∧
    gives (.orn gd t) 1 (a ||| ~~~b) ∧
    gives (.shl gd t) 1 (BitVec.ofNat 64 (a.toNat * 2 ^ n)) ∧
    gives (.shr gd t) 1 (BitVec.ofNat 64 (a.toNat / 2 ^ n)) ∧
    gives (.sha gd t) 1 (BitVec.ofInt 64 (a.toInt / 2 ^ n)) ∧
    gives (.rol gd t) 1 ((a <<< n) ||| (a >>> (64 - n))) ∧
    gives (.fsh gd t) 1 (((a ++ b) >>> (c.toNat % 64)).setWidth 64) ∧
    gives (.min gd t) 1 (BitVec.ofInt 64 (min a.toInt b.toInt)) ∧
    gives (.max gd t) 1 (BitVec.ofInt 64 (max a.toInt b.toInt)) ∧
    gives (.minn gd t) 1 (BitVec.ofNat 64 (min a.toNat b.toNat)) ∧
    gives (.maxn gd t) 1 (BitVec.ofNat 64 (max a.toNat b.toNat)) ∧
    gives (.slt gd t) 1 (if a.toInt < b.toInt then 1 else 0) ∧
    gives (.sltn gd t) 1 (if a.toNat < b.toNat then 1 else 0) ∧
    gives (.seq gd t) 1 (if a = b then 1 else 0) ∧
    gives (.sne gd t) 1 (if a = b then 0 else 1) ∧
    gives (.csel gd t) 1 (if c ≠ 0 then a else b)) ∧
  (
  ∀ (s : State) (g : Machine.Group) (gd : Guard) (t : TailA), s.issuing g → s.guardOn g gd →
    s.readable g (.x t.a.toNat) → s.readable g (.x t.b.toNat) → s.writable g (.x t.d.toNat) →
    g.arch.tokCount (t.e.toNat % 32) < 63 →
    let a := g.arch.xr t.a.toNat
    let b := g.arch.xr t.b.toNat
    let gives (i : Instr) (v : Nat) : Prop :=
      exec i s = .next (s.put ((g.entered (t.e.toNat % 32) .divide false (some (s.clk.aclk + 40)) [.x t.d.toNat]
        [(.x t.d.toNat, v)]).goesOn s.clk.aclk g.link 1))
    gives (.div gd t) (if b = 0 then (BitVec.allOnes 64).toNat else (BitVec.ofInt 64 (a.toInt.tdiv b.toInt)).toNat) ∧
    gives (.divn gd t) (if b = 0 then (BitVec.allOnes 64).toNat else a.toNat / b.toNat) ∧
    gives (.rem gd t) (if b = 0 then a.toNat else (BitVec.ofInt 64 (a.toInt.tmod b.toInt)).toNat) ∧
    gives (.remn gd t) (if b = 0 then a.toNat else a.toNat % b.toNat))

/-- R139: the immediate forms; shift counts, positions and lengths are those a field check admits. R140, R141: the unary
forms, the moves between the x and lc files, `li` and `lea`. -/
def Obligations.ScalarImmediateAndUnaryResults : Prop :=
  (
  ∀ (s : State) (g : Machine.Group) (gd : Guard) (t : TailI), s.issuing g → s.guardOn g gd →
    s.readable g (.x t.a.toNat) → s.writable g (.x t.d.toNat) →
    let a := g.arch.xr t.a.toNat
    let d := g.arch.xr t.d.toNat
    let n := t.imm.toNat
    let pos := n % 64
    let len := n / 64
    let gives (i : Instr) (v : Word) : Prop :=
      exec i s = .next (s.put ((g.wrote s.clk.aclk (.x t.d.toNat) v.toNat 1).goesOn s.clk.aclk g.link 1))
    gives (.addi gd t) (BitVec.ofInt 64 ((a.toNat : Int) + t.imm.toInt)) ∧
    (n < 64 →
      gives (.shli gd t) (BitVec.ofNat 64 (a.toNat * 2 ^ n)) ∧
      gives (.shri gd t) (BitVec.ofNat 64 (a.toNat / 2 ^ n)) ∧
      gives (.shai gd t) (BitVec.ofInt 64 (a.toInt / 2 ^ n)) ∧
      gives (.roli gd t) ((a <<< n) ||| (a >>> (64 - n)))) ∧
    (1 ≤ len → pos + len ≤ 64 →
      gives (.bfx gd t) (BitVec.ofNat 64 (a.toNat / 2 ^ pos % 2 ^ len)) ∧
      (s.readable g (.x t.d.toNat) →
        ∃ v : Word, (∀ i < 64, v.getLsbD i = if pos ≤ i ∧ i < pos + len then a.getLsbD (i - pos) else d.getLsbD i) ∧
          gives (.bfi gd t) v))) ∧
  (
  ∀ (s : State) (g : Machine.Group) (gd : Guard) (t : TailH) (l : TailL) (m : TailM), s.issuing g → s.guardOn g gd →
    let now := s.clk.aclk
    let a := g.arch.xr t.a.toNat
    let gives (i : Instr) (r : RegRef) (v : Nat) : Prop := exec i s = .next (s.put ((g.wrote now r v 1).goesOn now g.link 1))
    (s.readable g (.x t.a.toNat) → s.writable g (.x t.d.toNat) →
      (∃ n ≤ 64, a.toNat < 2 ^ (64 - n) ∧ (n < 64 → 2 ^ (63 - n) ≤ a.toNat) ∧ gives (.clz gd t) (.x t.d.toNat) n) ∧
      (∃ n ≤ 64, (∀ i < n, a.getLsbD i = false) ∧ (n < 64 → a.getLsbD n = true) ∧ gives (.ctz gd t) (.x t.d.toNat) n) ∧
      gives (.popc gd t) (.x t.d.toNat) ((List.range 64).filter a.getLsbD).length ∧
      (t.e = 0 → gives (.sext gd t) (.x t.d.toNat) ((a.setWidth 8).signExtend 64).toNat) ∧
      (t.e = 1 → gives (.sext gd t) (.x t.d.toNat) ((a.setWidth 16).signExtend 64).toNat) ∧
      (t.e = 2 → gives (.sext gd t) (.x t.d.toNat) ((a.setWidth 32).signExtend 64).toNat)) ∧
    (t.e.toNat % 4 < 2 → t.e.toNat / 4 < 2 →
      let src : RegRef := if t.e.toNat / 4 = 0 then .x t.a.toNat else .lc t.a.toNat
      let dst : RegRef := if t.e.toNat % 4 = 0 then .x t.d.toNat else .lc t.d.toNat
      s.readable g src → s.writable g dst →
      gives (.mov gd t) dst (if t.e.toNat % 4 = 0 then g.arch.reg src else g.arch.reg src % 2 ^ 32)) ∧
    (s.writable g (.x l.d.toNat) → gives (.li gd l) (.x l.d.toNat) l.imm.toNat) ∧
    (s.readable g (.x m.a.toNat) → s.readable g (.x m.b.toNat) → s.writable g (.x m.d.toNat) →
      gives (.lea gd m) (.x m.d.toNat)
        (BitVec.ofInt 64 ((g.arch.xr m.a.toNat).toNat + (g.arch.xr m.b.toNat).toNat * 2 ^ m.sc.toNat + m.off.toInt)).toNat))

/-! ## What an instruction leaves alone -/

/-- R125, R126, R142, R362: a written register holds the value (modulo its width) and no other register changes; once the latency
has passed the value is the only one that may be read; the poison marks that go are those of the words written whole; retiring changes the pc, the loops and their counters alone (and
those only where a loop is active); and nothing of the machine outside the issuing group changes, every byte of memory
included. The frame of every instruction whose result is stated as `put`, `wrote` and `goesOn`. -/
def Obligations.RegisterWriteFrame : Prop :=
  (∀ (g : Machine.Group) (now : Nat) (r : RegRef) (v lat : Nat),
    let h := g.wrote now r v lat
    (∀ r' : RegRef, r' ≠ r → h.arch.reg r' = g.arch.reg r') ∧
    (∀ n, r = .x n → n ≠ 0 → n < 64 → h.arch.reg r = v % 2 ^ 64) ∧
    (∀ n, r = .v n → n < 32 → h.arch.reg r = v % 2 ^ 1024) ∧
    (∀ n, r = .w n → n ≠ 0 → n < 8 → h.arch.reg r = v % 2 ^ 128) ∧
    (∀ n, r = .q n → n ≠ 0 → n < 8 → h.arch.reg r = v % 2) ∧
    (∀ n, r = .lc n → n < 2 → h.arch.reg r = v % 2 ^ 32) ∧
    (r.fixed = true → h = g) ∧
    (g.arch.openAlts now r = [] → ∀ u, now + lat ≤ u → h.arch.openAlts u r = []) ∧
    (∀ r' u, r' ≠ r → now ≤ u → h.arch.openAlts u r' = g.arch.openAlts u r') ∧
    (r.fixed = false → ∀ (whole : Nat → Bool) p,
      p ∈ (g.wrote now r v lat whole).arch.regPoison ↔ p ∈ g.arch.regPoison ∧ ¬ (p.1 = r ∧ whole p.2 = true)) ∧
    h = { g with arch := { g.arch with x := h.arch.x, v := h.arch.v, w := h.arch.w, q := h.arch.q, lc := h.arch.lc,
                                       alts := h.arch.alts, regPoison := h.arch.regPoison } }) ∧
  (∀ (g : Machine.Group) (now : Nat) (p : Word) (slots : Nat),
    let h := g.goesOn now p slots
    h = { g with arch := { g.arch with lc := h.arch.lc, loops := h.arch.loops, pc := h.arch.pc }, stall := .none, notBefore := now + slots } ∧
    (∀ k, k < 2 → (g.arch.loopAt k).active = false → h.arch.lcr k = g.arch.lcr k ∧ h.arch.loopAt k = g.arch.loopAt k) ∧
    ((∀ k, k < 2 → (g.arch.loopAt k).active = false) → h.arch.pc = p)) ∧
  (∀ (s : State) (h : Machine.Group),
    s.put h = { s with dev := { s.dev with groups := (s.put h).dev.groups } } ∧
    (s.put h).dev.groups.find h.gid = some h ∧
    (∀ gid, gid ≠ h.gid → (s.put h).dev.groups.find gid = s.dev.groups.find gid) ∧
    (∀ pl pa, (s.put h).dev.ms.byteAt pl pa = s.dev.ms.byteAt pl pa))

/-! ## Branches, jumps and loops (06_issuing R142, R143) -/

/-- R142, R107, R106 stage 1: a branch whose condition holds goes to its target, leaving the loops it jumps out of; one whose
condition does not hold falls through; a target that is not valid faults `ILLEGAL_TARGET` at the branch. R142, R143: `j`
and plain `jr` go to their target and leave the loops they jump out of; `jl` and linking `jr` write the link, and neither
end nor leave a loop; `jr` reads xA before it writes xD. A target that is not valid faults. -/
def Obligations.BranchAndJumpResults : Prop :=
  (
  ∀ (s : State) (g : Machine.Group) (gd : Guard) (t : TailJ), s.issuing g → s.guardOn g gd →
    s.readable g (.x t.a.toNat) → s.readable g (.x t.b.toNat) →
    let a := g.arch.xr t.a.toNat
    let b := g.arch.xr t.b.toNat
    let p : Word := BitVec.ofInt 64 ((g.arch.pc.toNat % 2 ^ 57 / 64 * 64 : Nat) + 64 * t.disp.toInt + 2 + 2 * t.slot.toNat)
    let branches (i : Instr) (c : Prop) : Prop :=
      (c → validTarget p = true → exec i s = .next (s.put ((g.leavesLoops p).goesOn s.clk.aclk p 2))) ∧
      (c → validTarget p = false →
        exec i s = .next { s with dev := s.dev.takeTrap s.clk g cILLEGAL_TARGET p g.arch.pc false false }) ∧
      (¬ c → exec i s = .next (s.put (g.goesOn s.clk.aclk g.link 1)))
    (p.toNat / 2 ^ 57 ≠ 0 → validTarget p = false) ∧ branches (.beq gd t) (a = b) ∧ branches (.bne gd t) (a ≠ b) ∧
    branches (.blt gd t) (a.toInt < b.toInt) ∧ branches (.bge gd t) (b.toInt ≤ a.toInt) ∧
    branches (.bltn gd t) (a.toNat < b.toNat) ∧ branches (.bgen gd t) (b.toNat ≤ a.toNat) ∧
    branches (.bz gd t) (a = 0) ∧ branches (.bnz gd t) (a ≠ 0)) ∧
  (
  ∀ (s : State) (g : Machine.Group) (gd : Guard) (t : TailJ) (u : TailH), s.issuing g → s.guardOn g gd →
    let now := s.clk.aclk
    let p : Word := BitVec.ofInt 64 ((g.arch.pc.toNat % 2 ^ 57 / 64 * 64 : Nat) + 64 * t.disp.toInt + 2 + 2 * t.slot.toNat)
    let called (h : Machine.Group) (q : Word) : Machine.Group :=
      { h with arch := { h.arch with pc := q }, stall := .none, notBefore := now + 2 }
    (validTarget p = true →
      exec (.j gd t) s = .next (s.put ((g.leavesLoops p).goesOn now p 2)) ∧
      (s.writable g (.x t.d.toNat) →
        exec (.jl gd t) s = .next (s.put (called (g.wrote now (.x t.d.toNat) g.link.toNat 1) p)))) ∧
    (validTarget p = false →
      exec (.j gd t) s = .next { s with dev := s.dev.takeTrap s.clk g cILLEGAL_TARGET p g.arch.pc false false } ∧
      exec (.jl gd t) s = .next { s with dev := s.dev.takeTrap s.clk g cILLEGAL_TARGET p g.arch.pc false false }) ∧
    (s.readable g (.x u.a.toNat) →
      let q := g.arch.xr u.a.toNat
      (validTarget q = true → u.d = 0 → exec (.jr gd u) s = .next (s.put ((g.leavesLoops q).goesOn now q 2))) ∧
      (validTarget q = true → u.d ≠ 0 → s.writable g (.x u.d.toNat) →
        exec (.jr gd u) s = .next (s.put (called (g.wrote now (.x u.d.toNat) g.link.toNat 1) q))) ∧
      (validTarget q = false →
        exec (.jr gd u) s = .next { s with dev := s.dev.takeTrap s.clk g cILLEGAL_TARGET q g.arch.pc false false })))

/-- R143: `loop` with a count other than 0 sets lcK, arms loop K with START the link and marks it the inner one; with count 0
it clears lcK, leaves the loop inactive and goes to END; an END at or before the link faults whatever the guard. R143: the
check at the end of a body. For the active loop whose END is the next PC, the inner one first: the count goes down by one
(0 stays 0), a count left sends control to START, otherwise the loop is inactive and the other one is checked. -/
def Obligations.LoopResults : Prop :=
  (
  ∀ (s : State) (g : Machine.Group) (gd : Guard) (t : TailJ), s.issuing g → t.d.toNat < 2 →
    let now := s.clk.aclk
    let k := t.d.toNat
    let e : Word := BitVec.ofInt 64 ((g.arch.pc.toNat % 2 ^ 57 / 64 * 64 : Nat) + 64 * t.disp.toInt + 2 + 2 * t.slot.toNat)
    let c := (g.arch.xr t.a.toNat).toNat % 2 ^ 32
    (e ≤ g.link → exec (.loop gd t) s = .next { s with dev := s.dev.takeTrap s.clk g cILLEGAL_TARGET e g.arch.pc false false }) ∧
    (g.link < e → s.guardOn g gd → s.readable g (.x t.a.toNat) → s.writable g (.lc k) →
      (c ≠ 0 →
        let h := g.wrote now (.lc k) c 1
        exec (.loop gd t) s = .next (s.put (((h.withLoop k ⟨true, g.link, e, true⟩).withLoop (1 - k)
          { g.arch.loopAt (1 - k) with inner := false }).goesOn now g.link 1))) ∧
      (c = 0 → validTarget e = true →
        let h := g.wrote now (.lc k) 0 1
        exec (.loop gd t) s = .next (s.put ((h.withLoop k { g.arch.loopAt k with active := false }).goesOn now e 2))))) ∧
  (
  ∀ (a : Arch) (p : Word) (i : Nat), i = (if (a.loopAt 1).active = true ∧ (a.loopAt 1).inner = true then 1 else 0) →
    let ends (b : Arch) (k : Nat) : Prop := (b.loopAt k).active = true ∧ (b.loopAt k).stop = p
    let counted (b : Arch) (k : Nat) : Arch := { b with lc := b.lc.setIfInBounds k (b.lcr k - 1) }
    let over_ (b : Arch) (k : Nat) : Arch :=
      { b with lc := b.lc.setIfInBounds k 0, loops := b.loops.setIfInBounds k { b.loopAt k with active := false } }
    let outer (b : Arch) (r : Arch × Word) : Prop :=
      (¬ ends b (1 - i) → r = (b, p)) ∧
      (ends b (1 - i) → 1 < (b.lcr (1 - i)).toNat → r = (counted b (1 - i), (b.loopAt (1 - i)).start)) ∧
      (ends b (1 - i) → (b.lcr (1 - i)).toNat ≤ 1 → r = (over_ b (1 - i), p))
    (¬ ends a i → outer a (loopEnd a p)) ∧
    (ends a i → 1 < (a.lcr i).toNat → loopEnd a p = (counted a i, (a.loopAt i).start)) ∧
    (ends a i → (a.lcr i).toNat ≤ 1 → outer (over_ a i) (loopEnd a p)))

/-! ## Predicates, delay, flags and abort (06_issuing R144 to R150) -/

/-- R144, R145: `qset` by its condition, `qop` by its truth table, `dly` of n slots, `nop`. R147, R148, R358: `fset` and
`fclr` leave a flag write to be performed; `ftst` reads the flag as the core sees it; `fwait` of a flag that is set, or
has been since the group stalled at it, gives 0, under a raised abort line 1 (as always in an abort group), and otherwise
the group stays at it. Both reads are acquires: the read cache and the scale cache of the core are dropped, and they wait
for the loads, atomics and acquires before them (R299), but those of uncached devices (R290). (The latency of an `ftst`
that names its own position is the model's choice, log 69.) R149, R150, R358: `abort` raises the line of the launch in the
cluster of the group, the group goes on, and a line once raised stays raised; `abchk` reads it with latency 2, and 1 in an
abort group. -/
def Obligations.PredicateFlagAndAbortResults : Prop :=
  (
  ∀ (s : State) (g : Machine.Group) (gd : Guard) (t : TailA) (u : TailH), s.issuing g → s.guardOn g gd →
    let now := s.clk.aclk
    let gives (i : Instr) (v : Bool) : Prop :=
      exec i s = .next (s.put ((g.wrote now (.q t.d.toNat) (if v then 1 else 0) 1).goesOn now g.link 1))
    (s.writable g (.q t.d.toNat) →
      (s.readable g (.x t.a.toNat) → s.readable g (.x t.b.toNat) →
        let a := g.arch.xr t.a.toNat
        let b := g.arch.xr t.b.toNat
        (t.e = 0 → gives (.qset gd t) (decide (a = b))) ∧
        (t.e = 1 → gives (.qset gd t) (decide (a ≠ b))) ∧
        (t.e = 2 → gives (.qset gd t) (decide (a.toInt < b.toInt))) ∧
        (t.e = 3 → gives (.qset gd t) (decide (b.toInt ≤ a.toInt))) ∧
        (t.e = 4 → gives (.qset gd t) (decide (a.toNat < b.toNat))) ∧
        (t.e = 5 → gives (.qset gd t) (decide (b.toNat ≤ a.toNat))) ∧
        (t.e = 6 → gives (.qset gd t) (decide (a &&& b ≠ 0))) ∧
        (t.e = 7 → gives (.qset gd t) (decide (a &&& b = 0)))) ∧
      (s.readable g (.q t.a.toNat) → s.readable g (.q t.b.toNat) → t.e.toNat < 16 →
        gives (.qop gd t) (t.e.getLsbD (2 * (g.arch.qr t.a.toNat).toNat + (g.arch.qr t.b.toNat).toNat)))) ∧
    exec (.dly gd u) s = .next (s.put (g.goesOn now g.link (u.d.toNat + 64 * u.a.toNat + 1))) ∧
    exec (.nop gd) s = .next (s.put (g.goesOn now g.link 1))) ∧
  (
  ∀ (s : State) (g : Machine.Group) (gd : Guard) (t : TailI) (core : Nat), s.issuing g → s.guardOn g gd → g.core = some core →
    let now := s.clk.aclk
    let f := t.imm.toNat % 1024
    let code := t.imm.toNat / 1024 % 8
    let target : Option Nat := if code = 0 ∨ code = 4 + core % 4 then none else some (code - 4)
    let seen := s.dev.testFlag g target f
    let write (v : Bool) : GOp :=
      { (default : GOp) with id := g.arch.nextId, kind := .flag target f v, va := core, rel := true, epoch := g.arch.epoch, issued := now, core := g.core }
    let queued (v : Bool) : Machine.Group := g.issues [write v]
    let early : Prop := ∃ o ∈ g.arch.gops, o.xl.typ ≠ 2 ∧ (o.acq = true ∨ o.kind.isLoad = true)
    (code = 0 ∨ 4 ≤ code →
      exec (.fset gd t) s = .next (s.put ((queued true).goesOn now g.link 1)) ∧
      exec (.fclr gd t) s = .next (s.put ((queued false).goesOn now g.link 1)) ∧
      (early →
        (∀ i ∈ [Instr.ftst gd t, .fwait gd t], exec i s = .next { s with dev := s.dev.onStop s.clk g (.stall .acq) })) ∧
      (s.writable g (.x t.d.toNat) → ¬ early →
        exec (.ftst gd t) s = .next { s with dev := (s.put ((g.wrote now (.x t.d.toNat) (if seen then 1 else 0)
          (if code = 0 then 4 else 8)).goesOn now g.link 1)).dev.acquire g } ∧
        (let over_ (st : Nat) : State :=
           { s with dev := (s.put ({ g.wrote now (.x t.d.toNat) st 1 with flagSeen := false }.goesOn now g.link 1)).dev.acquire g }
         let set_ : Prop := seen = true ∨ g.flagSeen = true
         (set_ → g.isAbort = false → exec (.fwait gd t) s = .next (over_ 0)) ∧
         (¬ set_ ∨ g.isAbort = true → (s.dev.env s.clk g).aborted = true → exec (.fwait gd t) s = .next (over_ 1)) ∧
         (¬ set_ → (s.dev.env s.clk g).aborted = false → exec (.fwait gd t) s =
           .next { s with dev := s.dev.onStop s.clk g (.stall (.fwait target f)) }))))) ∧
  (
  ∀ (s : State) (g : Machine.Group) (gd : Guard) (t : TailH) (l : Launch), s.issuing g → s.guardOn g gd →
    s.dev.launches.find g.recd.launch = some l →
    let now := s.clk.aclk
    let cl := g.recd.home / 16
    (s.writable g (.x t.d.toNat) →
      exec (.abchk gd t) s =
        .next (s.put ((g.wrote now (.x t.d.toNat) (if cl ∈ l.raised ∨ g.isAbort = true then 1 else 0) 2).goesOn now g.link 1))) ∧
    (∃ u l', exec (.abort gd) s = .next u ∧ (∃ h, u.dev.groups.find g.gid = some h ∧ h.arch.pc = (g.goesOn now g.link 1).arch.pc) ∧
      u.dev.launches.find g.recd.launch = some l' ∧ cl ∈ l'.raised ∧ (∀ c ∈ l.raised, c ∈ l'.raised) ∧
      u.dev.ms = s.dev.ms ∧ u.clk = s.clk))

/-! ## Memory instructions at issue (08_memory R195 to R203) -/

/-- R113, R195 steps 2 and 3, R180, R181, R197, R198: a local scalar access of 2^SZ bytes traps `ALIGN` off its alignment
and `ACCESS` outside the local store; otherwise a load zero-extends the bytes the local store holds at issue (a pair for
`.q`) with latency 4, and a store writes exactly its bytes at issue and leaves every other byte and every register alone. -/
def Obligations.LocalScalarAccess : Prop :=
  ∀ (s : State) (g : Machine.Group) (gd : Guard) (t : TailM), s.issuing g → s.guardOn g gd → t.sz.toNat ≤ 4 →
    s.readable g (.x t.a.toNat) → s.readable g (.x t.b.toNat) →
    let now := s.clk.aclk
    let n := 2 ^ t.sz.toNat
    let addr : Word := g.arch.xr t.a.toNat + BitVec.ofNat 64 ((g.arch.xr t.b.toNat).toNat * 2 ^ t.sc.toNat) + t.off.signExtend 64
    let a := addr.toNat
    let traps (i : Instr) (c : Nat) : Prop :=
      exec i s = .next { s with dev := s.dev.takeTrap s.clk g c addr g.arch.pc false false }
    (a % n ≠ 0 → traps (.ldl gd t) cALIGN ∧ traps (.stl gd t) cALIGN) ∧
    (a % n = 0 → 0x40000 ≤ a → traps (.ldl gd t) cACCESS ∧ traps (.stl gd t) cACCESS) ∧
    (a % n = 0 → a < 0x40000 → s.localReady g a n →
      let v := g.arch.ls.readN a n
      let lo := g.arch.reg (.x t.d.toNat)
      let hi := g.arch.reg (.x (t.d.toNat + 1))
      let data := if t.sz = 4 then lo + 2 ^ 64 * hi else lo
      (t.sz ≠ 4 → s.writable g (.x t.d.toNat) →
        exec (.ldl gd t) s = .next (s.put ((g.wrote now (.x t.d.toNat) v 4).goesOn now g.link 1))) ∧
      (t.sz = 4 → s.writable g (.x t.d.toNat) → s.writable g (.x (t.d.toNat + 1)) →
        exec (.ldl gd t) s = .next (s.put (((g.wrote now (.x t.d.toNat) (v % 2 ^ 64) 4).wrote now (.x (t.d.toNat + 1))
          (v / 2 ^ 64) 4).goesOn now g.link 1))) ∧
      (s.readable g (.x t.d.toNat) → (t.sz = 4 → s.readable g (.x (t.d.toNat + 1))) → g.arch.ls.wf = true →
        ∃ h, exec (.stl gd t) s = .next (s.put (h.goesOn now g.link 1)) ∧ g.onlyLocal h ∧ h.arch.ls.wf = true ∧
          (∀ i < n, h.arch.ls.read (a + i) = BitVec.ofNat 8 (data / 256 ^ i)) ∧
          (∀ b, b < a ∨ a + n ≤ b → h.arch.ls.read b = g.arch.ls.read b)))

/-- R199, R200, R154: the local vector accesses move the bytes whose bit of WM is set and leave the others alone. The
aligned forms trap `ALIGN` off a multiple of 128; the unaligned forms access and check enabled bytes only, and trap
`ACCESS` at the lowest enabled byte outside the local store. -/
def Obligations.LocalVectorAccess : Prop :=
  ∀ (s : State) (g : Machine.Group) (gd : Guard) (t : TailM), s.issuing g → s.guardOn g gd →
    s.readable g (.x t.a.toNat) → s.readable g (.x t.b.toNat) → s.readable g (.w t.wm.toNat) →
    let now := s.clk.aclk
    let addr : Word := g.arch.xr t.a.toNat + BitVec.ofNat 64 ((g.arch.xr t.b.toNat).toNat * 2 ^ t.sc.toNat) + t.off.signExtend 64
    let a := addr.toNat
    let m := (g.arch.wr t.wm.toNat).toNat
    let on (j : Nat) : Bool := nbit m j
    let old := (g.arch.vr t.d.toNat).toNat
    let traps (i : Instr) (c : Nat) (v : Word) : Prop :=
      exec i s = .next { s with dev := s.dev.takeTrap s.clk g c v g.arch.pc false false }
    let loads (i : Instr) : Prop :=
      ∃ v, exec i s = .next (s.put ((g.wrote now (.v t.d.toNat) v 4 fun w => nbits m (4 * w) 4 == 15).goesOn now g.link 1)) ∧
        ∀ j < 128, nbits v (8 * j) 8 = if on j then (g.arch.ls.read (a + j)).toNat else nbits old (8 * j) 8
    let stores (i : Instr) : Prop :=
      ∃ h, exec i s = .next (s.put (h.goesOn now g.link 1)) ∧ g.onlyLocal h ∧ h.arch.ls.wf = true ∧
        (∀ j < 128, h.arch.ls.read (a + j) = if on j then BitVec.ofNat 8 (old / 256 ^ j) else g.arch.ls.read (a + j)) ∧
        (∀ b, b < a ∨ a + 128 ≤ b → h.arch.ls.read b = g.arch.ls.read b)
    (a % 128 ≠ 0 → traps (.vldl gd t) cALIGN addr ∧ traps (.vstl gd t) cALIGN addr) ∧
    (a % 128 = 0 → 0x40000 ≤ a → traps (.vldl gd t) cACCESS addr ∧ traps (.vstl gd t) cACCESS addr) ∧
    (a % 128 = 0 → a < 0x40000 → s.localReady g a 128 →
      (s.writable g (.v t.d.toNat) → loads (.vldl gd t)) ∧
      (s.readable g (.v t.d.toNat) → g.arch.ls.wf = true → stores (.vstl gd t))) ∧
    (∀ k < 128, a + 128 ≤ 2 ^ 64 → on k = true → 0x40000 ≤ a + k → (∀ j < k, on j = true → a + j < 0x40000) →
      traps (.vldu gd t) cACCESS (BitVec.ofNat 64 (a + k)) ∧ traps (.vstu gd t) cACCESS (BitVec.ofNat 64 (a + k))) ∧
    (a + 128 ≤ 2 ^ 64 → (∀ j < 128, on j = true → a + j < 0x40000 ∧ s.localReady g (a + j) 1) →
      (s.writable g (.v t.d.toNat) → loads (.vldu gd t)) ∧
      (s.readable g (.v t.d.toNat) → g.arch.ls.wf = true → stores (.vstu gd t)))

/-- R195 steps 2 to 5, R198, R199: a global access off its alignment traps `ALIGN`, one whose translation is refused traps
with the cause and its address, one whose translation the core does not hold asks for a page walk and stays; otherwise a
load leaves an entry on TK with its registers pending and an operation to be performed (which
`PerformedLoads` states), and no register changes at issue. -/
def Obligations.GlobalLoadIssue : Prop :=
  ∀ (s : State) (g : Machine.Group) (gd : Guard) (t : TailM), s.issuing g → s.guardOn g gd → t.sz.toNat ≤ 4 →
    s.readable g (.x t.a.toNat) → s.readable g (.x t.b.toNat) → g.arch.tokCount t.tk.toNat < 63 →
    let now := s.clk.aclk
    let addr : Word := g.arch.xr t.a.toNat + BitVec.ofNat 64 ((g.arch.xr t.b.toNat).toNat * 2 ^ t.sc.toNat) + t.off.signExtend 64
    let n := 2 ^ t.sz.toNat
    let acc : Acc := if t.sz = 4 then .loadQ else .load
    let regs : List RegRef := if t.sz = 4 then [.x t.d.toNat, .x (t.d.toNat + 1)] else [.x t.d.toNat]
    let plain (x : Xlat) : Bool := t.ord == 0 && x.typ == 0 && (s.dev.env s.clk g).mode == .free
    let op (x : Xlat) (kind : GOpKind) (size : Nat) : GOp :=
      { id := g.arch.nextId, kind := kind, va := addr.toNat, size := size, xl := x, entry := some (t.tk.toNat, g.arch.nextId),
        acq := t.ord == 1 || t.ord == 3, rel := t.ord == 2 || t.ord == 3, epoch := g.arch.epoch, plain := plain x, seq := 0, sub := 0,
        issued := now, core := g.core }
    let traps (i : Instr) (c : Nat) : Prop :=
      exec i s = .next { s with dev := s.dev.takeTrap s.clk g c addr g.arch.pc false false }
    let misses (i : Instr) : Prop := exec i s = .next { s with dev := s.dev.missTlb s.clk g addr.toNat }
    (addr.toNat % n ≠ 0 → traps (.ldg gd t) cALIGN) ∧
    (addr.toNat % 128 ≠ 0 → traps (.vldg gd t) cALIGN) ∧
    (∀ c, addr.toNat % n = 0 → s.dev.translate g addr acc = .fault c → traps (.ldg gd t) c) ∧
    (∀ c, addr.toNat % 128 = 0 → s.dev.translate g addr .vload = .fault c → traps (.vldg gd t) c) ∧
    (addr.toNat % n = 0 → s.dev.translate g addr acc = .miss → misses (.ldg gd t)) ∧
    (addr.toNat % 128 = 0 → s.dev.translate g addr .vload = .miss → misses (.vldg gd t)) ∧
    (∀ x, addr.toNat % n = 0 → s.dev.translate g addr acc = .ok x → (∀ r ∈ regs, s.writable g r) →
      exec (.ldg gd t) s = .next (s.put (((g.entered t.tk.toNat .load true none regs []).queued
        (op x (.load regs false (BitVec.allOnes 128)) n)).goesOn now g.link 1))) ∧
    (∀ x, addr.toNat % 128 = 0 → s.dev.translate g addr .vload = .ok x → s.writable g (.v t.d.toNat) →
      s.readable g (.w t.wm.toNat) →
      exec (.vldg gd t) s = .next (s.put (((g.entered t.tk.toNat .load true none [.v t.d.toNat] []).queued
        (op x (.load [.v t.d.toNat] true (g.arch.wr t.wm.toNat)) 128)).goesOn now g.link 1)))

/-- R198, R199, R250, R306, R307, R309: a global store of a free or interleave launch, or to a queue window, leaves an operation
with its bytes to be performed; any other of a deterministic launch enters the commit buffer with the group's next SEQ and charges its fret domain
(32 bytes, 160 for a vector), traps `LOG_FULL` with the charge where the quota is spent, stays while the buffer holds 64, and
is dropped once the launch is aborted. No memory changes at issue. -/
def Obligations.GlobalStoreIssue : Prop :=
  ∀ (s : State) (g : Machine.Group) (gd : Guard) (t : TailM) (l : Launch) (x : Xlat) (vec : Bool), s.issuing g → s.guardOn g gd →
    t.sz.toNat ≤ 4 → s.readable g (.x t.a.toNat) → s.readable g (.x t.b.toNat) →
    s.dev.launches.find g.recd.launch = some l →
    let now := s.clk.aclk
    let addr : Word := g.arch.xr t.a.toNat + BitVec.ofNat 64 ((g.arch.xr t.b.toNat).toNat * 2 ^ t.sc.toNat) + t.off.signExtend 64
    let n := if vec then 128 else 2 ^ t.sz.toNat
    let acc : Acc := if vec then .vstore else if t.sz = 4 then .storeQ else .store
    let i : Instr := if vec then .vstg gd t else .stg gd t
    let charge := if vec then 160 else 32
    let data := if vec then (g.arch.vr t.d.toNat).toNat
      else if t.sz = 4 then g.arch.reg (.x t.d.toNat) + 2 ^ 64 * g.arch.reg (.x (t.d.toNat + 1))
      else g.arch.reg (.x t.d.toNat) % 2 ^ (8 * n)
    let mask : Mask := if vec then g.arch.wr t.wm.toNat else BitVec.ofNat 128 (2 ^ n - 1)
    let op : GOp :=
      { id := g.arch.nextId, kind := .store data mask, va := addr.toNat, size := n, xl := x, entry := none, acq := t.ord == 1 || t.ord == 3,
        rel := t.ord == 2 || t.ord == 3, epoch := g.arch.epoch, plain := false, seq := 0, sub := 0, issued := now, core := g.core }
    let key := l.domOf g.recd.home
    let dm := l.doms.getD key (Dom.reset none)
    (if vec then s.readable g (.v t.d.toNat) ∧ s.readable g (.w t.wm.toNat)
      else s.readable g (.x t.d.toNat) ∧ (t.sz = 4 → s.readable g (.x (t.d.toNat + 1)))) →
    addr.toNat % n = 0 → s.dev.translate g addr acc = .ok x →
    let window : Prop := x.typ = 2 ∧ 0xF00001000000 ≤ x.pa ∧ x.pa < 0xF00001040000
    (l.mode ≠ .det ∨ window → exec i s = .next (s.put ((g.issues [op]).goesOn now g.link 1))) ∧
    (l.mode = .det → ¬ window → (l.raisedAt.isNone = true ∨ g.isAbort = true) →
      (64 ≤ g.arch.buffer.length → exec i s = .next { s with dev := s.dev.onStop s.clk g (.stall .buffer) }) ∧
      (g.arch.buffer.length < 64 → l.logq * 1024 < dm.charge + charge →
        exec i s = .next { s with dev := s.dev.takeTrap s.clk g cLOG_FULL (BitVec.ofNat 64 charge) g.arch.pc false false }) ∧
      (g.arch.buffer.length < 64 → dm.charge + charge ≤ l.logq * 1024 →
        let charged := s.dev.setLaunch g.recd.launch { l with doms := l.doms.put key { dm with charge := dm.charge + charge } }
        exec i s = .next { s with dev := charged.setGroup ((g.buffered { op with seq := g.arch.seq }).goesOn now g.link 1) })) ∧
    (l.mode = .det → ¬ window → l.raisedAt.isSome = true → g.isAbort = false →
      exec i s = .next (s.put (g.goesOn now g.link 1)))

/-- R203, R182, R260: `acq` and `fence` stay while an earlier access they wait for is not performed; then they drop the read
cache and the scale cache. `rel` and `fence` separate what was issued before from what is issued after; nothing else
changes. Every scope is taken as the widest (log 4: R203 waits only for what is not performed at scope S). R131, R272,
R311, R318: `wait` goes on once its token has at most n pending entries: a commit wait that it was has ended, an arrival
in another phase stands, and it acquires the jobs and commands whose entries on the token are released: the lines that
they wrote leave the read cache, and every line the scale cache (R209, R260, R293). Until then the group stays at it (a
deterministic group whose own commit alone can release the entries arrives at the fret instead). R323, R121, R122, R123:
`gang` of a team of one, or under a raised line, goes on; a member whose team has not all come stays with its core. When
the last member of a team comes, every member goes past its `gang`: those whose next PC is that of the lowest unretired
member form a consort led by it, in ascending ranks; the others go on alone, as followers that have left, 8 aclk later at
the earliest; a consort of one is none. `solo` of a leader ends the consort, and elsewhere changes nothing but the pc. -/
def Obligations.WaitFenceAndGangResults : Prop :=
  (
  ∀ (s : State) (g : Machine.Group) (gd : Guard) (t : TailA), s.issuing g → s.guardOn g gd →
    let now := s.clk.aclk
    let next : Machine.Group := { g with arch := { g.arch with epoch := g.arch.epoch + 1 } }
    exec (.rel gd t) s = .next (s.put (next.goesOn now g.link 1)) ∧
    (g.arch.gops.any (fun o => o.kind.isLoad) = true → exec (.acq gd t) s = .next { s with dev := s.dev.onStop s.clk g (.stall .acq) }) ∧
    (g.arch.gops.any (fun o => o.kind.isLoad) = false →
      exec (.acq gd t) s = .next { s with dev := (s.put (g.goesOn now g.link 1)).dev.acquire g }) ∧
    (g.arch.gops ≠ [] → exec (.fence gd t) s = .next { s with dev := s.dev.onStop s.clk g (.stall .fence) }) ∧
    (g.arch.gops = [] → exec (.fence gd t) s = .next { s with dev := (s.put (next.goesOn now g.link 1)).dev.acquire g })) ∧
  (
  ∀ (s : State) (g : Machine.Group) (gd : Guard) (t : TailH), s.issuing g → s.guardOn g gd → t.a.toNat < 32 →
    let n := g.arch.tokCount t.a.toNat
    let h := (g.waited (s.dev.env s.clk g).aborted).goesOn s.clk.aclk g.link 1
    let pends (id : Nat) : Bool := (g.arch.toks.toList.getD t.a.toNat []).any fun e => e.id == id
    (n ≤ t.d.toNat → ∃ u, exec (.wait gd t) s = .next u ∧ u.clk = s.clk ∧ u.dev.ms = s.dev.ms ∧
      (g.released ≠ some 5 → h.released = g.released) ∧ (g.arrived ≠ some 6 → h.arrived = g.arrived) ∧
      u.dev.groups.find g.gid =
        some { h with arch := { h.arch with drains := g.arch.drains.filter fun x => !(x.1 == t.a.toNat && !pends x.2.1) } } ∧
      (∀ c, g.core ≠ some c → u.dev.core c = s.dev.core c) ∧
      (∀ c e, g.core = some c → (e ∈ (u.dev.core c).rcache ↔ e ∈ (s.dev.core c).rcache ∧
        ¬ ∃ x ∈ g.arch.drains, x.1 = t.a.toNat ∧ pends x.2.1 = false ∧ x.2.2 = e.1 % 2 ^ 47 / 8)) ∧
      (∀ c, g.core = some c → (u.dev.core c).scales =
        if g.arch.drains.any (fun x => x.1 == t.a.toNat && !pends x.2.1) then [] else (s.dev.core c).scales)) ∧
    (t.d.toNat < n → g.commitWaits (.wait t.a.toNat t.d.toNat) = false →
      exec (.wait gd t) s = .next { s with dev := s.dev.onStop s.clk g (.stall (.wait t.a.toNat t.d.toNat)) })) ∧
  (
  ∀ (s : State) (g : Machine.Group) (gd : Guard), s.issuing g → s.guardOn g gd →
    let now := s.clk.aclk
    (g.recd.team4 = false ∨ (s.dev.env s.clk g).aborted = true →
      exec (.gang gd) s = .next (s.put ({ g with ganged := false }.goesOn now g.link 1))) ∧
    (g.recd.team4 = true → (s.dev.env s.clk g).aborted = false → (∃ h ∈ s.dev.team g, h.gid ≠ g.gid ∧ h.ganged = false) →
      exec (.gang gd) s = .next (s.put { g with ganged := true, stall := .gang, notBefore := now + 1 })) ∧
    (g.recd.team4 = true → (s.dev.env s.clk g).aborted = false →
      (s.dev.groups.map (·.1)).Nodup → (∀ kg ∈ s.dev.groups, kg.2.gid = kg.1) → g.status ≠ .provisional →
      (∀ h ∈ s.dev.team g, h.consort = .none ∧ (h.gid ≠ g.gid → h.ganged = true)) →
      ∀ lead ∈ s.dev.team g, (∀ h ∈ s.dev.team g, h.gid ≠ lead.gid → teamPos lead < teamPos h) →
      let past (h : Machine.Group) : Machine.Group := { h with ganged := false }.goesOn now h.link 1
      let mate (h : Machine.Group) : Bool := h.gid != lead.gid && (past h).arch.pc == (past lead).arch.pc
      ∃ t, exec (.gang gd) s = .next t ∧ t.clk = s.clk ∧ t.dev.ms = s.dev.ms ∧
        (∀ h ∈ s.dev.team g, (past h).arch.pc ≠ (past lead).arch.pc →
          t.dev.groups.find h.gid = some { past h with notBefore := now + 8 }) ∧
        (∀ h ∈ s.dev.team g, mate h = true → t.dev.groups.find h.gid = some { past h with
          consort := .follower lead.gid (((s.dev.team g).filter fun k => mate k && teamPos k < teamPos h).length + 1) [] }) ∧
        ((s.dev.team g).any mate = false → t.dev.groups.find lead.gid = some (past lead)) ∧
        ((s.dev.team g).any mate = true →
          t.dev.groups.find lead.gid = some { past lead with consort := .leader (((s.dev.team g).filter mate).map (·.gid)) })) ∧
    ((∀ ms, g.consort ≠ .leader ms) → exec (.solo gd) s = .next (s.put (g.goesOn now g.link 1))) ∧
    (∀ ms, g.consort = .leader ms → ∃ t, exec (.solo gd) s = .next t ∧ t.dev.ms = s.dev.ms ∧
      (∃ h, t.dev.groups.find g.gid = some h ∧ h.consort = .none ∧ h.arch = (g.goesOn now g.link 1).arch) ∧
      ∀ gid h, t.dev.groups.find gid = some h → (∀ r q, h.consort ≠ .follower g.gid r q)))

/-! ## Vector and mask instructions (07_vector_instructions R151 to R177) -/

/-- R154, R156, R158, R159, R34: the element-wise and fused arithmetic of every INT and FLT type. A lane of the result is the
exact integer result reduced by R34, or the exact value rounded once (R44 to R46, as `roundF` forms it); only the bytes of
WM are written, after the latency of R156, and nothing else changes. -/
def Obligations.VectorArithmeticResults : Prop :=
  ∀ (s : State) (g : Machine.Group) (gd : Guard) (t : TailV), s.issuing g → s.guardOn g gd → t.ty.toNat < 12 →
    s.readable g (.v t.a.toNat) →
    s.readable g (.w t.wm.toNat) → s.writable g (.v t.d.toNat) →
    let bOk := s.readable g (.v t.b.toNat)
    let cOk := s.readable g (.v t.c.toNat)
    let ty := Ty.ofCode t.ty.toNat
    let w := ty.width
    let rd := Rnd.ofCode t.rd.toNat
    let sat : Bool := t.st == 1
    let pat (r : BitVec 6) (k : Nat) : Nat := lane w (g.arch.vr r.toNat).toNat k
    let signed := t.ty.toNat < 4
    let val (p : Nat) : Int := if signed ∧ 2 ^ (w - 1) ≤ p then (p : Int) - 2 ^ w else p
    let lo : Int := if signed then -2 ^ (w - 1) else 0
    let hi : Int := if signed then 2 ^ (w - 1) - 1 else 2 ^ w - 1
    let reduced (x : Int) : Nat := ((if sat then max lo (min hi x) else x) % 2 ^ w).toNat
    let gives (i : Instr) (lat : Nat) (f : Nat → Nat) : Prop :=
      ∃ res v : Nat, (∀ k < ty.lanes, lane w res k = f k % 2 ^ w) ∧
        (∀ j < 128, nbits v (8 * j) 8 = if (g.arch.wr t.wm.toNat).getLsbD j then nbits res (8 * j) 8
          else nbits (g.arch.vr t.d.toNat).toNat (8 * j) 8) ∧
        exec i s = .next (s.put ((g.wrote s.clk.aclk (.v t.d.toNat) v lat (wholeWords (g.arch.wr t.wm.toNat))).goesOn
          s.clk.aclk g.link 1))
    (t.ty.toNat < 8 →
      let A (k : Nat) : Int := val (pat t.a k)
      let B (k : Nat) : Int := val (pat t.b k)
      let C (k : Nat) : Int := val (pat t.c k)
      (bOk → gives (.vadd gd t) 2 (fun k => reduced (A k + B k))) ∧
      (bOk → gives (.vsub gd t) 2 (fun k => reduced (A k - B k))) ∧
      (bOk → gives (.vmul gd t) 2 (fun k => reduced (A k * B k))) ∧
      (bOk → gives (.vmulh gd t) 2 (fun k => (A k * B k / 2 ^ w % 2 ^ w).toNat)) ∧
      (bOk → cOk → gives (.vfma gd t) 2 (fun k => reduced (A k * B k + C k))) ∧
      (bOk → cOk → gives (.vfms gd t) 2 (fun k => reduced (A k * B k - C k))) ∧
      (bOk → cOk → gives (.vfnma gd t) 2 (fun k => reduced (C k - A k * B k))) ∧
      (bOk → gives (.vmin gd t) 2 (fun k => (min (A k) (B k) % 2 ^ w).toNat)) ∧
      (bOk → gives (.vmax gd t) 2 (fun k => (max (A k) (B k) % 2 ^ w).toNat)) ∧
      gives (.vabs gd t) 2 (fun k => reduced (A k).natAbs) ∧
      gives (.vneg gd t) 2 (fun k => reduced (0 - A k))) ∧
    (8 ≤ t.ty.toNat →
      let A (k : Nat) : FVal := decodeVal ty (pat t.a k)
      let B (k : Nat) : FVal := decodeVal ty (pat t.b k)
      let C (k : Nat) : FVal := decodeVal ty (pat t.c k)
      let fma := if t.ty = 11 then 6 else 5
      (bOk → gives (.vadd gd t) 4 (fun k => roundF ty rd sat (FVal.add rd (A k) (B k)))) ∧
      (bOk → gives (.vsub gd t) 4 (fun k => roundF ty rd sat (FVal.add rd (A k) (B k).neg))) ∧
      (bOk → gives (.vmul gd t) 4 (fun k => roundF ty rd sat (FVal.mul (A k) (B k)))) ∧
      (bOk → cOk → gives (.vfma gd t) fma (fun k => roundF ty rd sat (FVal.fma rd (A k) (B k) (C k)))) ∧
      (bOk → cOk → gives (.vfms gd t) fma (fun k => roundF ty rd sat (FVal.fma rd (A k) (B k) (C k).neg))) ∧
      (bOk → cOk → gives (.vfnma gd t) fma (fun k => roundF ty rd sat (FVal.fma rd (A k).neg (B k) (C k)))) ∧
      (bOk → gives (.vmin gd t) 4 (fun k => fMinMax ty false (pat t.a k) (pat t.b k))) ∧
      (bOk → gives (.vmax gd t) 4 (fun k => fMinMax ty true (pat t.a k) (pat t.b k))) ∧
      gives (.vabs gd t) 4 (fun k => pat t.a k % 2 ^ (w - 1)) ∧
      gives (.vneg gd t) 4 (fun k => if pat t.a k < 2 ^ (w - 1) then pat t.a k + 2 ^ (w - 1) else pat t.a k - 2 ^ (w - 1)))

/-- R161: the bitwise, shift and counting forms, with the count of a shift taken from the low bits of the count lane (E = 0)
or from E[5:0] (E[7] = 1). R175, R176: the mask instructions. -/
def Obligations.VectorBitAndMaskResults : Prop :=
  (
  ∀ (s : State) (g : Machine.Group) (gd : Guard) (t : TailV), s.issuing g → s.guardOn g gd → t.ty.toNat < 8 →
    s.readable g (.v t.a.toNat) →
    s.readable g (.w t.wm.toNat) → s.writable g (.v t.d.toNat) →
    let bOk := s.readable g (.v t.b.toNat)
    let cOk := s.readable g (.v t.c.toNat)
    let ty := Ty.ofCode t.ty.toNat
    let w := ty.width
    let A (k : Nat) : Nat := lane w (g.arch.vr t.a.toNat).toNat k
    let B (k : Nat) : Nat := lane w (g.arch.vr t.b.toNat).toNat k
    let C (k : Nat) : Nat := lane w (g.arch.vr t.c.toNat).toNat k
    let gives (i : Instr) (f : Nat → Nat → Prop) : Prop :=
      ∃ res v : Nat, (∀ k < ty.lanes, f k (lane w res k)) ∧
        (∀ j < 128, nbits v (8 * j) 8 = if (g.arch.wr t.wm.toNat).getLsbD j then nbits res (8 * j) 8
          else nbits (g.arch.vr t.d.toNat).toNat (8 * j) 8) ∧
        exec i s = .next (s.put ((g.wrote s.clk.aclk (.v t.d.toNat) v 2 (wholeWords (g.arch.wr t.wm.toNat))).goesOn
          s.clk.aclk g.link 1))
    (bOk →
      gives (.vand gd t) (fun k r => r = A k &&& B k) ∧
      gives (.vor gd t) (fun k r => r = A k ||| B k) ∧
      gives (.vxor gd t) (fun k r => r = A k ^^^ B k) ∧
      gives (.vandn gd t) (fun k r => ∀ i < w, r.testBit i = ((A k).testBit i && !(B k).testBit i))) ∧
    gives (.vclz gd t) (fun k r => r ≤ w ∧ A k < 2 ^ (w - r) ∧ (r < w → 2 ^ (w - r - 1) ≤ A k)) ∧
    gives (.vpopc gd t) (fun k r => r = ((List.range w).filter (A k).testBit).length) ∧
    (∀ n : Nat → Nat, (t.e = 0 ∧ bOk ∧ (∀ k, n k = B k % w)) ∨ (t.e.toNat = 128 + n 0 ∧ n 0 < w ∧ ∀ k, n k = n 0) →
      gives (.vshl gd t) (fun k r => r = A k * 2 ^ n k % 2 ^ w) ∧
      gives (.vshr gd t) (fun k r => r = A k / 2 ^ n k) ∧
      gives (.vsha gd t) (fun k r => ∀ i < w, r.testBit i = (A k).testBit (min (i + n k) (w - 1)))) ∧
    (bOk → ∀ n : Nat → Nat, (t.e = 0 ∧ cOk ∧ (∀ k, n k = C k % w)) ∨ (t.e.toNat = 128 + n 0 ∧ n 0 < w ∧ ∀ k, n k = n 0) →
      gives (.vfsh gd t) (fun k r => r = (A k * 2 ^ w + B k) / 2 ^ n k % 2 ^ w))) ∧
  (
  ∀ (s : State) (g : Machine.Group) (gd : Guard) (t : TailA) (u : TailH) (i : TailI), s.issuing g → s.guardOn g gd →
    let now := s.clk.aclk
    let wa := g.arch.wr t.a.toNat
    let wb := g.arch.wr t.b.toNat
    let ua := g.arch.wr u.a.toNat
    let gives (j : Instr) (r : RegRef) (v : Nat) : Prop := exec j s = .next (s.put ((g.wrote now r v 1).goesOn now g.link 1))
    (s.readable g (.w t.a.toNat) → s.readable g (.w t.b.toNat) → s.writable g (.w t.d.toNat) →
      gives (.wand gd t) (.w t.d.toNat) (wa &&& wb).toNat ∧
      gives (.wor gd t) (.w t.d.toNat) (wa ||| wb).toNat ∧
      gives (.wxor gd t) (.w t.d.toNat) (wa ^^^ wb).toNat) ∧
    (s.readable g (.w u.a.toNat) →
      (s.writable g (.w u.d.toNat) → gives (.wnot gd u) (.w u.d.toNat) (~~~ua).toNat) ∧
      (s.writable g (.x u.d.toNat) →
        gives (.wpopc gd u) (.x u.d.toNat) ((List.range 128).filter ua.getLsbD).length ∧
        ∃ n ≤ 128, (∀ j < n, ua.getLsbD j = false) ∧ (n < 128 → ua.getLsbD n = true) ∧ gives (.wfirst gd u) (.x u.d.toNat) n)) ∧
    (s.writable g (.w i.d.toNat) →
      let f := i.imm.toNat % 128
      (i.imm.toNat / 2 ^ 16 % 2 = 0 → ∃ m : Mask, (∀ j < 128, m.getLsbD j = decide (f ≤ j ∧ j < f + i.imm.toNat / 2 ^ 8 % 2 ^ 8)) ∧
        gives (.wset gd i) (.w i.d.toNat) m.toNat) ∧
      (i.imm.toNat / 2 ^ 16 % 2 = 1 → s.readable g (.x i.a.toNat) →
        ∃ m : Mask, (∀ j < 128, m.getLsbD j = decide (f ≤ j ∧ j < f + min (g.arch.xr i.a.toNat).toNat 128)) ∧
          gives (.wset gd i) (.w i.d.toNat) m.toNat)))

/-- R162, R163, R164, R56: `vcmp` sets the bits of WM of wD by its condition on the lane that holds each byte, `vsel` takes
each byte from vA or vB, and `vcvt` converts the lanes of its part and leaves the other lanes alone. -/
def Obligations.VectorCompareSelectConvert : Prop :=
  ∀ (s : State) (g : Machine.Group) (gd : Guard) (t : TailV), s.issuing g → s.guardOn g gd →
    s.readable g (.v t.a.toNat) → s.readable g (.w t.wm.toNat) →
    let now := s.clk.aclk
    let ty := Ty.ofCode t.ty.toNat
    let w := ty.width
    let a := (g.arch.vr t.a.toNat).toNat
    let b := (g.arch.vr t.b.toNat).toNat
    let on (j : Nat) : Bool := (g.arch.wr t.wm.toNat).getLsbD j
    (t.ty.toNat < 12 → t.e.toNat < (if t.ty.toNat < 8 then 8 else 6) → s.readable g (.v t.b.toNat) → s.writable g (.w t.d.toNat) →
      let holds (k : Nat) : Prop :=
        let p := lane w a k
        let q := lane w b k
        let val (p : Nat) : Int := if t.ty.toNat < 4 ∧ 2 ^ (w - 1) ≤ p then (p : Int) - 2 ^ w else p
        if t.ty.toNat < 8 then
          match t.e.toNat with
          | 0 => val p = val q
          | 1 => val p ≠ val q
          | 2 => val p < val q
          | 3 => val q ≤ val p
          | 4 => val p ≤ val q
          | 5 => val q < val p
          | 6 => p &&& q ≠ 0
          | _ => p &&& q = 0
        else
          let x := decodeVal ty p
          let y := decodeVal ty q
          let ordered := x.isNan = false ∧ y.isNan = false
          match t.e.toNat with
          | 0 => ordered ∧ x.lt y = false ∧ y.lt x = false
          | 1 => ¬ (ordered ∧ x.lt y = false ∧ y.lt x = false)
          | 2 => ordered ∧ x.lt y = true
          | 3 => ordered ∧ x.lt y = false
          | 4 => ordered ∧ y.lt x = false
          | _ => ordered ∧ y.lt x = true
      ∃ m : Nat, (∀ j < 128, m.testBit j = true ↔ if on j then holds (8 * j / w) else (g.arch.wr t.d.toNat).getLsbD j = true) ∧
        exec (.vcmp gd t) s =
          .next (s.put ((g.wrote now (.w t.d.toNat) m (if t.ty.toNat < 8 then 2 else 4)
            (fun k => (List.range 32).all fun j => on (32 * k + j))).goesOn now g.link 1))) ∧
    (s.readable g (.v t.b.toNat) → s.readable g (.w t.c.toNat) → s.writable g (.v t.d.toNat) →
      ∃ v : Nat, (∀ j < 128, nbits v (8 * j) 8 = if on j then
          (if (g.arch.wr t.c.toNat).getLsbD j then nbits a (8 * j) 8 else nbits b (8 * j) 8)
          else nbits (g.arch.vr t.d.toNat).toNat (8 * j) 8) ∧
        exec (.vsel gd t) s = .next (s.put ((g.wrote now (.v t.d.toNat) v 2 (wholeWords (g.arch.wr t.wm.toNat))).goesOn now g.link 1))) ∧
    (t.ty.toNat < 18 → t.ty2.toNat < 18 → s.writable g (.v t.d.toNat) →
      let ts := Ty.ofCode t.ty2.toNat
      let n := min ts.lanes ty.lanes
      let p := t.e.toNat
      p < max ts.lanes ty.lanes / n →
      let conv (i : Nat) : Nat := convert ty ts (Rnd.ofCode t.rd.toNat) (t.st == 1) (lane ts.width a i) % 2 ^ w
      let first := if ts.lanes < ty.lanes then p * n else 0
      let src := if ts.lanes < ty.lanes then 0 else p * n
      ∃ res v : Nat, (∀ k < n, lane w res (first + k) = conv (src + k)) ∧
        (∀ j < 128, nbits v (8 * j) 8 = if on j = true ∧ first * w ≤ 8 * j ∧ 8 * j < (first + n) * w then nbits res (8 * j) 8
          else nbits (g.arch.vr t.d.toNat).toNat (8 * j) 8) ∧
        exec (.vcvt gd t) s = .next (s.put ((g.wrote now (.v t.d.toNat) v 4
          (fun k => (List.range 4).all fun j => on (4 * k + j) && decide (first * w ≤ 8 * (4 * k + j)) && decide (8 * (4 * k + j) < (first + n) * w))).goesOn
          now g.link 1)))

/-- R168 to R172: sliding, permuting, broadcasting, extracting, inserting, sequences, compression and expansion. -/
def Obligations.VectorMovementResults : Prop :=
  ∀ (s : State) (g : Machine.Group) (gd : Guard) (t : TailV), s.issuing g → s.guardOn g gd →
    (t.ty.toNat < 14 ∨ t.ty = 17) → s.readable g (.w t.wm.toNat) →
    let now := s.clk.aclk
    let ty := Ty.ofCode t.ty.toNat
    let w := ty.width
    let L := ty.lanes
    let a := (g.arch.vr t.a.toNat).toNat
    let b := (g.arch.vr t.b.toNat).toNat
    let old := (g.arch.vr t.d.toNat).toNat
    let on (j : Nat) : Bool := (g.arch.wr t.wm.toNat).getLsbD j
    let writes (i : Instr) (whole : Bool) (f : Nat → Nat) : Prop :=
      ∃ res v : Nat, (∀ k < L, lane w res k = f k % 2 ^ w) ∧
        (∀ j < 128, nbits v (8 * j) 8 = if whole ∨ on j then nbits res (8 * j) 8 else nbits old (8 * j) 8) ∧
        exec i s = .next (s.put ((g.wrote now (.v t.d.toNat) v 2
          (fun k => whole || wholeWords (g.arch.wr t.wm.toNat) k)).goesOn now g.link 1))
    (s.readable g (.v t.a.toNat) → s.readable g (.v t.b.toNat) → s.writable g (.v t.d.toNat) →
      (t.e.toNat ≤ L → writes (.vsld gd t) false fun k =>
        if k + t.e.toNat < L then lane w a (k + t.e.toNat) else lane w b (k + t.e.toNat - L)) ∧
      writes (.vperm gd t) false fun k => if lane w b k < L then lane w a (lane w b k) else 0) ∧
    (s.readable g (.x t.a.toNat) → s.writable g (.v t.d.toNat) →
      let x := (g.arch.xr t.a.toNat).toNat
      (writes (.vbcast gd t) false fun _ => x % 2 ^ w) ∧
      (t.ty.toNat < 8 → writes (.vseq gd t) false fun k => (((x : Int) + k * t.e.toInt) % 2 ^ w).toNat) ∧
      (s.readable g (.x t.b.toNat) → s.readable g (.v t.d.toNat) →
        let k := (g.arch.xr t.b.toNat + t.e.setWidth 64).toNat
        (L ≤ k → exec (.vins gd t) s = .next (s.put (g.goesOn now g.link 1))) ∧
        (k < L → ∃ v : Nat, exec (.vins gd t) s = .next (s.put ((g.wrote now (.v t.d.toNat) v 2).goesOn now g.link 1)) ∧
          ∀ j < 128, nbits v (8 * j) 8 =
            if on j = true ∧ w * k ≤ 8 * j ∧ 8 * j < w * (k + 1) then nbits x (8 * j - w * k) 8 else nbits old (8 * j) 8))) ∧
    (s.readable g (.v t.a.toNat) → s.readable g (.x t.b.toNat) → s.writable g (.x t.d.toNat) →
      let k := (g.arch.xr t.b.toNat + t.e.setWidth 64).toNat
      let p := lane w a k
      let v : Int := if L ≤ k then 0 else if t.ty.toNat < 4 ∧ 2 ^ (w - 1) ≤ p then (p : Int) - 2 ^ w else p
      exec (.vext gd t) s = .next (s.put ((g.wrote now (.x t.d.toNat) (BitVec.ofInt 64 v).toNat 2).goesOn now g.link 1))) ∧
    (s.readable g (.v t.a.toNat) → s.readable g (.w t.c.toNat) → s.writable g (.v t.d.toNat) →
      let selected := (List.range L).filter fun i => (g.arch.wr t.c.toNat).getLsbD (w * i / 8)
      (writes (.vcompress gd t) true fun k => if h : k < selected.length then lane w a selected[k] else 0) ∧
      (writes (.vexpand gd t) true fun k => if k ∈ selected then lane w a (selected.idxOf k) else 0))

/-- R157, R160, R165 to R167, R173, R174, R52, R53: the long-latency vector instructions leave an entry on the token of
E[4:0] that completes after exactly 40, 12 or 8 aclk with the result of the sources as read at issue. -/
def Obligations.VectorLongLatencyResults : Prop :=
  ∀ (s : State) (g : Machine.Group) (gd : Guard) (t : TailV), s.issuing g → s.guardOn g gd → t.ty.toNat < 12 →
    s.readable g (.w t.wm.toNat) → s.writable g (.v t.d.toNat) → g.arch.tokCount (t.e.toNat % 32) < 63 →
    let now := s.clk.aclk
    let ty := Ty.ofCode t.ty.toNat
    let w := ty.width
    let L := ty.lanes
    let rd := Rnd.ofCode t.rd.toNat
    let sat : Bool := t.st == 1
    let a := (g.arch.vr t.a.toNat).toNat
    let b := (g.arch.vr t.b.toNat).toNat
    let m := g.arch.wr t.wm.toNat
    let op := t.e.toNat / 32
    let entry (cycles : Nat) (ws : List (RegRef × Nat)) (mask : Mask := BitVec.allOnes 128) : Host.Outcome State Fault Refusal :=
      .next (s.put ((g.entered (t.e.toNat % 32) .vector false (some (now + cycles)) (ws.map (·.1)) ws mask).goesOn now g.link 1))
    let masked (i : Instr) (cycles : Nat) (f : Nat → Nat) : Prop :=
      ∃ res : Nat, (∀ k < L, lane w res k = f k % 2 ^ w) ∧ exec i s = entry cycles [(.v t.d.toNat, res)] m
    let inputs (identity : Nat) : List Nat := (List.range L).map fun k => if m.getLsbD (w * k / 8) then lane w a k else identity
    (s.readable g (.v t.a.toNat) →
      (s.readable g (.v t.b.toNat) →
        (masked (.vdiv gd t) 40 fun k => if t.ty.toNat < 8 then divI ty (lane w a k) (lane w b k)
          else roundF ty rd sat (FVal.div (decodeVal ty (lane w a k)) (decodeVal ty (lane w b k)))) ∧
        (t.ty.toNat < 8 → s.writable g (.w t.c.toNat) →
          ∃ kept : List Nat,
            kept = ((List.range L).filter fun i => (∃ j < L, lane w b j = lane w a i) ∧ ∀ i' < i, lane w a i' ≠ lane w a i).map (lane w a) ∧
            exec (.vsect gd t) s = entry 8 [(.v t.d.toNat, ofLanes w kept), (.w t.c.toNat, 2 ^ (kept.length * w / 8) - 1)])) ∧
      (8 ≤ t.ty.toNat → masked (.vsqrt gd t) 40 fun k => roundF ty rd sat (FVal.sqrt (decodeVal ty (lane w a k)))) ∧
      (op < (if t.ty.toNat < 8 then 6 else 3) →
        exec (.vred gd t) s = entry 12 [(.v t.d.toNat, laneTree (redOp ty rd sat op) (Nat.log2 L) (inputs (redIdentity ty op)))] ∧
        exec (.vscan gd t) s =
          entry 12 [(.v t.d.toNat, ofLanes w (scanAll (redOp ty rd sat op) (Nat.log2 L) 1 (inputs (redIdentity ty op))))]) ∧
      exec (.vgmax gd t) s = entry 12 [(.v t.d.toNat, ofLanes w (List.replicate L
        (laneTree (tyMinMax ty true) (Nat.log2 L) (inputs (redIdentity ty 2)))))]) ∧
    (s.readable g (.x t.a.toNat) → (t.ty = 6 ∨ t.ty = 7 ∨ t.ty = 10 ∨ t.ty = 11) →
      masked (.vrand gd t) 8 fun k =>
        let s0 := (s.dev.env s.clk g).seed ^^^ g.recd.ticket
        let z0 := (s0 ^^^ (g.arch.xr t.a.toNat * 0x8C3A5F21D97E0B4D + BitVec.ofNat 64 k)) * 0xC5B31E974D2A68F1
        let z1 := (z0 ^^^ (z0 >>> 31)) * 0xE2F47A0C3B95D167
        let z := z1 ^^^ (z1 >>> 29)
        if t.ty = 7 then z.toNat
        else if t.ty = 6 then z.toNat % 2 ^ 32
        else if t.ty = 10 then roundF .f32 .rne false (.fin false (z.toNat / 2 ^ 40) (-24))
        else roundF .f64 .rne false (.fin false (z.toNat / 2 ^ 11) (-53)))

/-- R201, R202, R181: `vgat` reads the elements of its active lanes at issue into an entry of 12 aclk, `vsca` stores each
distinct address once (the highest active lane wins; `add` merges the lanes in order first); a base off the element size
traps `ALIGN`, an active lane outside the local store traps `ACCESS` at the lowest such address. A lane's address is formed
without wrap past 2^64, for which R201 states no modulus (log 71). -/
def Obligations.LocalGatherScatter : Prop :=
  ∀ (s : State) (g : Machine.Group) (gd : Guard) (t : TailV), s.issuing g → s.guardOn g gd → (t.ty.toNat < 14 ∨ t.ty = 17) →
    s.readable g (.x t.a.toNat) → s.writable g (.v t.b.toNat) → s.readable g (.w t.wm.toNat) →
    let now := s.clk.aclk
    let ty := Ty.ofCode t.ty.toNat
    let w := ty.width
    let n := w / 8
    let base := g.arch.xr t.a.toNat
    let m := g.arch.wr t.wm.toNat
    let lanes := (List.range ty.lanes).filter fun i => m.getLsbD (w * i / 8)
    let addr (i : Nat) : Nat := base.toNat + lane w (g.arch.vr t.b.toNat).toNat i * n
    let c (i : Nat) : Nat := lane w (g.arch.vr t.c.toNat).toNat i
    let room := g.arch.tokCount (t.e.toNat % 32) < 63
    let bOk := s.readable g (.v t.b.toNat)
    let cOk := s.readable g (.v t.c.toNat)
    let traps (i : Instr) (k : Nat) (v : Word) : Prop :=
      exec i s = .next { s with dev := s.dev.takeTrap s.clk g k v g.arch.pc false false }
    (base.toNat % n ≠ 0 → (room → traps (.vgat gd t) cALIGN base) ∧ traps (.vsca gd t) cALIGN base) ∧
    (∀ i ∈ lanes, base.toNat % n = 0 → 0x40000 < addr i + n → (∀ j ∈ lanes, 0x40000 < addr j + n → addr i ≤ addr j) →
      (room → traps (.vgat gd t) cACCESS (BitVec.ofNat 64 (addr i))) ∧
        traps (.vsca gd t) cACCESS (BitVec.ofNat 64 (addr i))) ∧
    (base.toNat % n = 0 → bOk → (∀ i ∈ lanes, addr i + n ≤ 0x40000 ∧ s.localReady g (addr i) n) →
      (s.writable g (.v t.d.toNat) → room →
        ∃ res : Nat, (∀ i ∈ lanes, lane w res i = g.arch.ls.readN (addr i) n) ∧
          exec (.vgat gd t) s = .next (s.put ((g.entered (t.e.toNat % 32) .vector false (some (now + 12)) [.v t.d.toNat]
            [(.v t.d.toNat, res)] m).goesOn now g.link 1))) ∧
      (g.arch.ls.wf = true → cOk → (t.e.toNat / 32 % 2 = 1 → t.ty.toNat < 12) →
        ∃ h, exec (.vsca gd t) s = .next (s.put (h.goesOn now g.link 1)) ∧ g.onlyLocal h ∧ h.arch.ls.wf = true ∧
          (∀ i ∈ lanes, h.arch.ls.readN (addr i) n =
            let hits := (lanes.filter fun j => addr j = addr i).map c
            if t.e.toNat / 32 % 2 = 1 then
              tyAdd ty (Rnd.ofCode t.rd.toNat) (t.st == 1) (g.arch.ls.readN (addr i) n)
                (hits.tail.foldl (tyAdd ty (Rnd.ofCode t.rd.toNat) (t.st == 1)) (hits.headD 0))
            else hits.getLastD 0) ∧
          (∀ b, (∀ i ∈ lanes, b < addr i ∨ addr i + n ≤ b) → h.arch.ls.read b = g.arch.ls.read b)))

/-! ## Atomics, waiting, barriers and retirement (15_synchronising; 06 R131, R146; 20 R356) -/

/-- R313, R320 to R322, R306 to R309, R321: `amo`, `spawn` and `join` at an address that translates. In a free or interleave
launch each leaves an entry on its token and an operation to be performed at the home engine; in a deterministic launch
it leaves a ticketed entry and enters the commit buffer, charged 32 bytes, or once the launch is aborted is dropped, its entry
complete. `spawn` takes the next ordinal of its level for the child's ticket, and traps `SPAWN_DEPTH` with its own ticket
where there is none; in an abort group it arms nothing and gives 0 (R357, R358). -/
def Obligations.AtomicIssue : Prop :=
  ∀ (s : State) (g : Machine.Group) (gd : Guard) (t : TailW) (m : TailM) (l : Launch) (x : Xlat), s.issuing g → s.guardOn g gd →
    s.dev.launches.find g.recd.launch = some l →
    let now := s.clk.aclk
    let key := l.domOf g.recd.home
    let dm := l.doms.getD key (Dom.reset none)
    let op (kind : GOpKind) (va : Word) (n ord tok : Nat) : GOp :=
      { id := g.arch.nextId, kind := kind, va := va.toNat, size := n, xl := x, entry := some (tok, g.arch.nextId),
        acq := ord == 1 || ord == 3, rel := ord == 2 || ord == 3, epoch := g.arch.epoch, plain := false, seq := 0, sub := 0, issued := now, core := g.core }
    let issues (i : Instr) (b : Machine.Group) (dests : List RegRef) (tok : Nat) (o : GOp) : Prop :=
      (l.mode ≠ .det → exec i s = .next (s.put (((b.entered tok .amo true none dests []).queued o).goesOn now g.link 1))) ∧
      (l.mode = .det → l.raisedAt.isSome = true → g.isAbort = false →
        exec i s = .next (s.put ((b.passed tok).goesOn now g.link 1))) ∧
      (l.mode = .det → l.raisedAt = none ∨ g.isAbort = true → g.arch.buffer.length < 64 → dm.charge + 32 ≤ l.logq * 1024 →
        let charged := s.dev.setLaunch g.recd.launch { l with doms := l.doms.put key { dm with charge := dm.charge + 32 } }
        let h := (b.entered tok .ticketed true none dests []).buffered { o with id := g.arch.nextId + 1, seq := g.arch.seq }
        exec i s = .next { s with dev := charged.setGroup (h.goesOn now g.link 1) })
    (t.sz.toNat ≤ 4 → s.readable g (.x t.a.toNat) →
      let addr := g.arch.xr t.a.toNat + t.off.signExtend 64
      let n := 2 ^ t.sz.toNat
      let operand (r : BitVec 6) : Nat :=
        if t.sz = 4 then g.arch.reg (.x r.toNat) + 2 ^ 64 * g.arch.reg (.x (r.toNat + 1)) else g.arch.reg (.x r.toNat) % 2 ^ (8 * n)
      let ready (r : BitVec 6) : Prop := s.readable g (.x r.toNat) ∧ (t.sz = 4 → s.readable g (.x (r.toNat + 1)))
      let dests : List RegRef := if t.d = 0 then [] else if t.sz = 4 then [.x t.d.toNat, .x (t.d.toNat + 1)] else [.x t.d.toNat]
      ready t.b → (t.op = 10 → ready t.c) → addr.toNat % n = 0 → s.dev.translate g addr .amo = .ok x →
      g.arch.tokCount t.tk.toNat < 63 → (∀ r ∈ dests, s.writable g r) →
      issues (.amo gd t) g dests t.tk.toNat
        (op (.amo t.op.toNat (t.e.toNat % 32) (t.e.toNat / 32 % 4) (t.e.getLsbD 7) (operand t.b) (if t.op = 10 then operand t.c else 0) dests)
          addr n t.ord.toNat t.tk.toNat)) ∧
    (s.readable g (.x m.a.toNat) → s.readable g (.x m.b.toNat) → s.writable g (.x m.d.toNat) →
      let addr : Word := g.arch.xr m.a.toNat + BitVec.ofNat 64 ((g.arch.xr m.b.toNat).toNat * 2 ^ m.sc.toNat) + m.off.signExtend 64
      addr.toNat % 64 = 0 → s.dev.translate g addr .rmw = .ok x → g.arch.tokCount m.tk.toNat < 63 →
      issues (.join gd m) g [.x m.d.toNat] m.tk.toNat (op (.join [.x m.d.toNat]) addr 64 2 m.tk.toNat) ∧
      (g.isAbort = true → ∃ h : Machine.Group, exec (.spawn gd m) s = .next (s.put (h.goesOn now g.link 1)) ∧ h.arch.reg (.x m.d.toNat) = 0 ∧
        (∀ r : RegRef, r ≠ .x m.d.toNat → h.arch.reg r = g.arch.reg r) ∧ h.arch.gops = g.arch.gops ∧ h.arch.buffer = g.arch.buffer ∧
        h.arch.ls = g.arch.ls) ∧
      (g.isAbort = false →
        let T := g.recd.ticket
        let c1 := T.toNat / 2 ^ 12 % 2 ^ 12
        let c2 := T.toNat % 2 ^ 12
        let o1 := g.arch.o1
        let o2 := g.arch.o2
        let spawns (child : Word) (p q : BitVec 12) : Prop :=
          issues (.spawn gd m) { g with arch := { g.arch with o1 := p, o2 := q } } [.x m.d.toNat] m.tk.toNat
            (op (.spawn child [.x m.d.toNat]) addr 64 2 m.tk.toNat)
        (c1 = 0 → o1 ≠ 4095 → spawns (T + BitVec.ofNat 64 ((o1.toNat + 1) * 2 ^ 12)) (o1 + 1) o2) ∧
        (c1 ≠ 0 → c2 = 0 → o2 ≠ 4095 → spawns (T + BitVec.ofNat 64 (o2.toNat + 1)) o1 (o2 + 1)) ∧
        ((c1 = 0 ∧ o1 = 4095) ∨ (c1 ≠ 0 ∧ (c2 ≠ 0 ∨ o2 = 4095)) →
          exec (.spawn gd m) s = .next { s with dev := s.dev.takeTrap s.clk g cSPAWN_DEPTH T g.arch.pc false false })))

/-- R318, R316, R99, R97, R358: `bar` of level 0 gives 0 at once (1 in an abort group) and leaves an arrival in another phase as it
is; a level above the launch's ceiling faults `ILLEGAL_FIELD`; a group
whose phase has completed gets its status, one under a raised line gets 1, and the instruction acquires (a `fret` drops
every cache of its core). A group that has to wait arrives in its cell's object, which counts it once; neither `bar` nor `fret`
waits for an uncached access, which only `fence` orders (R290). -/
def Obligations.BarrierResults : Prop :=
  ∀ (s : State) (g : Machine.Group) (gd : Guard) (t : TailA) (l : Launch), s.issuing g → s.guardOn g gd →
    s.dev.launches.find g.recd.launch = some l → s.writable g (.x t.d.toNat) → t.e.toNat < 6 →
    let now := s.clk.aclk
    let level := t.e.toNat
    let top := if l.scope = 0 then 4 else l.scope
    let kval : Word := BitVec.ofNat 64 (0xA0A0 + (if gd.sense then 8 else 0) + gd.q.toNat + 24 * 2 ^ 16)
    let ended (st : Nat) : Machine.Group :=
      ({ g with arrived := none, released := none, arch := { g.arch with joinedIn := false } }.wrote now (.x t.d.toNat) st 1).goesOn now g.link 1
    let status : Option Nat := if g.released.isSome then g.released else if (s.dev.env s.clk g).aborted then some 1 else none
    (level = 0 →
      let alone := (g.wrote now (.x t.d.toNat) (if g.isAbort then 1 else 0) 1).goesOn now g.link 1
      exec (.bar gd t) s = .next { s with dev := (s.put alone).dev.acquire alone }) ∧
    (level ≠ 0 → top < level → exec (.bar gd t) s = .next { s with dev := s.dev.takeTrap s.clk g cILLEGAL_FIELD kval g.arch.pc false false }) ∧
    (∀ st, status = some st → st < 2 ^ 64 →
      (level ≠ 0 → level ≤ top → exec (.bar gd t) s = .next { s with dev := (s.put (ended st)).dev.acquire (ended st) }) ∧
      exec (.fret gd t) s = .next { s with dev := (s.put (ended st)).dev.dropCaches g.core }) ∧
    (status = none → g.arrived = none → g.recd.late = false →
      (level ≠ 0 → level ≤ top → (∀ o ∈ g.arch.gops, o.xl.typ = 2) →
        exec (.bar gd t) s = .next { s with dev := s.dev.arriveAt s.clk g level level (.bar level) }) ∧
      ((∀ o ∈ g.arch.gops, o.xl.typ = 2) → g.arch.buffer = [] → g.busy = false → exec (.fret gd t) s = .next { s with dev := s.dev.arriveAt s.clk g 7 7 .fret })) ∧
    (∀ kind, l.ceiling ≠ 0 → (l.bar (4096 + g.recd.home)).kind = 0 ∨ (l.bar (4096 + g.recd.home)).kind = kind → kind ≠ 0 →
      let o := l.bar (4096 + g.recd.home)
      o.count + 1 < o.expect - o.late →
        l.arrive g.recd.home kind 5 1 = (l.setBar (4096 + g.recd.home) { o with kind := kind, count := o.count + 1 }, .waits))

/-- R146, R356, R360: `done` stays while an entry is pending or work of the group is unfinished; then the launch counts the group;
in a free or interleave launch the group is gone with its core, in a deterministic one it stays, with core and slot,
provisional until the commit. -/
def Obligations.RetirementResults : Prop :=
  ∀ (s : State) (g : Machine.Group) (gd : Guard) (l : Launch) (core : Nat), s.issuing g → s.guardOn g gd →
    s.dev.launches.find g.recd.launch = some l → g.core = some core → g.consort = .none → g.isAbort = false →
    (g.arch.toks.toList.all (·.isEmpty) = false → g.commitWaits .done = false →
      exec (.done gd) s = .next { s with dev := s.dev.onStop s.clk g (.stall .done) }) ∧
    (g.arch.toks.toList.all (·.isEmpty) = true → g.quiet = true →
      ∃ t l', exec (.done gd) s = .next t ∧ t.clk = s.clk ∧
        t.dev.launches.find g.recd.launch = some l' ∧ l'.live = l.live - 1 ∧
        l'.groupsDone = (if g.recd.addr = none then l.groupsDone + 1 else l.groupsDone) ∧
        l'.childDone = (if g.recd.addr = none then l.childDone else l.childDone + 1) ∧
        (l.mode = .det → ∃ h, t.dev.groups.find g.gid = some h ∧ h.status = .provisional ∧ h.core = some core ∧ h.slot = g.slot) ∧
        (l.mode ≠ .det → (t.dev.core core).group = none ∧ t.dev.groups.find g.gid = none) ∧
        ((∀ ko ∈ l.bars, ko.2.kind = 0) → t.dev.ms = s.dev.ms))

/-! ## The engines at issue (10_engines R206 to R240) -/

/-- R223, R225, R207, R116, R309: `cpy` checks its parameter words in order, then reads its shape record and its bases at
issue. ARM 0 leaves an entry on TK and the command at the end of the group's FIFO (which holds 8; a full one stalls),
charged where it writes global memory; ARM 1 and 2 arm a slot and ARM 3 clears one, and their entry completes at issue. -/
def Obligations.CopyPush : Prop :=
  ∀ (s : State) (g : Machine.Group) (gd : Guard) (t : TailP) (l : Launch), s.issuing g → s.guardOn g gd →
    s.dev.launches.find g.recd.launch = some l → g.arch.tokCount t.tk.toNat < 63 → s.parsReady g t →
    let now := s.clk.aclk
    let e := t.e
    let tok := t.tk.toNat
    let w (k : Nat) : BitVec 32 := g.par t k
    let arm := (e.extractLsb' 16 2).toNat
    let slot := (e.extractLsb' 18 2).toNat
    let traps (c : Nat) (k : Nat) : Prop :=
      exec (.cpy gd t) s = .next { s with dev := s.dev.takeTrap s.clk g c ((w k).setWidth 64) g.arch.pc false false }
    let arms (v : Armed CopyCmd) : Prop :=
      let h : Machine.Group := { g with arch := { g.arch with copySlots := g.arch.copySlots.setIfInBounds slot v } }
      exec (.cpy gd t) s = .next (s.put ((h.passed tok).goesOn now g.link 1))
    (arm = 3 → (∀ k < 4, w k ≠ 0 → (∀ j < k, w j = 0) → traps cACCESS k) ∧ ((∀ k < 4, w k = 0) → arms .empty)) ∧
    (arm ≠ 3 →
      let flagOk : Prop := if e.getLsbD 20 then (w 3).toNat < 1024 else w 3 = 0
      ((w 2).toNat % 128 ≠ 0 → traps cALIGN 2) ∧
      ((w 2).toNat % 128 = 0 → 0x40000 ≤ (w 2).toNat → traps cACCESS 2) ∧
      ((w 2).toNat % 128 = 0 → (w 2).toNat < 0x40000 → ¬ flagOk → traps cACCESS 3) ∧
      ((w 2).toNat % 128 = 0 → (w 2).toNat < 0x40000 → flagOk → s.localReady g (w 2).toNat 128 →
        s.readable g (.x (e.extractLsb' 0 6).toNat) → s.readable g (.x (e.extractLsb' 6 6).toNat) →
        let c : CopyCmd :=
          { ds := (e.extractLsb' 12 2).toNat, ss := (e.extractLsb' 14 2).toNat
            dbase := g.arch.xr (e.extractLsb' 0 6).toNat + (w 0).signExtend 64
            sbase := g.arch.xr (e.extractLsb' 6 6).toNat + (w 1).signExtend 64
            shape := parseShape (g.arch.ls.readN (w 2).toNat 128), re := e.getLsbD 24, ring := (e.extractLsb' 21 3).toNat
            flag := if e.getLsbD 20 then some (w 3).toNat else none, entry := none, seq := 0, after := 0, exch := false }
        (arm = 1 → arms (.bridge c)) ∧ (arm = 2 → arms (.exchange c)) ∧
        (arm = 0 → 8 ≤ g.arch.copyIn.length → exec (.cpy gd t) s = .next { s with dev := s.dev.onStop s.clk g (.stall .fifo) }) ∧
        (arm = 0 → g.arch.copyIn.length < 8 →
          let job : CopyCmd := { c with entry := some (tok, g.arch.nextId), seq := g.arch.seq, after := g.arch.nextId }
          let h : Machine.Group := { g with arch := { g.arch with seq := g.arch.seq + 1, copyIn := g.arch.copyIn ++ [job] } }
          s.pushes g l (.cpy gd t) (copyCharge c) ((h.entered tok .job false none [] []).goesOn now g.link 1) id)))

/-- R227, R225, R232, R206, R309: `gat`, `sca` (with `add` or without), `chg` and `chs` check their parameter words in order and
then read the table base or the chain descriptor at issue; ARM 0 leaves an entry on TK and posts the command to the queue of the home
cluster's engine (a group has at most 4 there, and stalls beyond), charged for the log it writes; ARM 1 and 2 arm a slot and
ARM 3 clears one. -/
def Obligations.IndirectPush : Prop :=
  ∀ (s : State) (g : Machine.Group) (gd : Guard) (t : TailP) (l : Launch) (op : IndOp), s.issuing g → s.guardOn g gd →
    s.dev.launches.find g.recd.launch = some l → g.arch.tokCount t.tk.toNat < 63 → s.parsReady g t →
    (op = .sca → t.e.getLsbD 24 = false) → (op = .scaAdd → t.e.getLsbD 24 = true) →
    let i : Instr := match op with
      | .gat => .gat gd t
      | .sca => .sca gd t
      | .scaAdd => .sca gd t
      | .chg => .chg gd t
      | .chs => .chs gd t
    let now := s.clk.aclk
    let e := t.e
    let tok := t.tk.toNat
    let w (k : Nat) : Nat := (g.par t k).toNat
    let arm := (e.extractLsb' 25 2).toNat
    let slot := (e.extractLsb' 27 2).toNat
    let chain : Prop := op = .chg ∨ op = .chs
    let desc := 64 * (e.extractLsb' 0 12).toNat
    let n := w 2 % 65536 + 1
    let limit := if l.mode = .det then 0x10000 else 0x400000
    let within : Prop := w 0 % 4 = 0 ∧ w 0 + 4 * n ≤ 0x40000 ∧ w 1 % 8 = 0 ∧ w 1 < limit ∧
      (¬ chain → w 2 < 2 ^ 28) ∧ (chain → w 2 < 2 ^ 16) ∧ (op = .chg → w 3 = 0)
    let arms (v : Armed IndCmd) : Prop :=
      let h : Machine.Group := { g with arch := { g.arch with indSlots := g.arch.indSlots.setIfInBounds slot v } }
      exec i s = .next (s.put ((h.passed tok).goesOn now g.link 1))
    let traps (c : Nat) (k : Nat) : Prop :=
      exec i s = .next { s with dev := s.dev.takeTrap s.clk g c ((g.par t k).setWidth 64) g.arch.pc false false }
    (arm = 3 → (∀ k < 4, w k ≠ 0 → (∀ j < k, w j = 0) → traps cACCESS k) ∧ ((∀ k < 4, w k = 0) → arms .empty)) ∧
    (arm ≠ 3 →
      let ok0 : Prop := w 0 % 4 = 0 ∧ w 0 + 4 * n ≤ 0x40000
      let ok1 : Prop := w 1 % 8 = 0 ∧ w 1 < limit
      let ok2 : Prop := (¬ chain → w 2 < 2 ^ 28) ∧ (chain → w 2 < 2 ^ 16)
      (w 0 % 4 ≠ 0 → traps cALIGN 0) ∧ (w 0 % 4 = 0 → 0x40000 < w 0 + 4 * n → traps cACCESS 0) ∧
      (ok0 → w 1 % 8 ≠ 0 → traps cALIGN 1) ∧ (ok0 → w 1 % 8 = 0 → limit ≤ w 1 → traps cACCESS 1) ∧
      (ok0 → ok1 → ¬ ok2 → traps cACCESS 2) ∧ (ok0 → ok1 → ok2 → op = .chg → w 3 ≠ 0 → traps cACCESS 3)) ∧
    (arm ≠ 3 → within → chain → 0x40000 < desc + 144 →
      exec i s = .next { s with dev := s.dev.takeTrap s.clk g cACCESS (BitVec.ofNat 64 desc) g.arch.pc false false }) ∧
    (arm ≠ 3 → within → (chain → desc + 144 ≤ 0x40000 ∧ s.localReady g desc 144) → (¬ chain → s.readable g (.x (e.extractLsb' 0 6).toNat)) →
      ∃ c : IndCmd, c.op = op ∧ c.list = w 0 ∧ c.clu = w 1 ∧ c.n = n ∧ c.entry = none ∧ c.exch = false ∧ c.gid = g.gid ∧
        (¬ chain → c.row = 8 * (w 2 / 65536 + 1) ∧ c.stride = 8 * w 3 ∧ c.base = g.arch.xr (e.extractLsb' 0 6).toNat) ∧
        (chain → c.desc = parseChain (g.arch.ls.readN desc 144)) ∧ (op = .chs → c.eta = w 3) ∧
        c.ev = (e.extractLsb' 12 4).toNat ∧
        (op = .scaAdd → c.ty = (e.extractLsb' 16 5).toNat ∧ c.rd = (e.extractLsb' 21 2).toNat ∧ c.st = e.getLsbD 23) ∧
        (arm = 1 → arms (.bridge c)) ∧ (arm = 2 → arms (.exchange c)) ∧
        (arm = 0 → 4 ≤ g.arch.indPending → exec i s = .next { s with dev := s.dev.onStop s.clk g (.stall .fifo) }) ∧
        (arm = 0 → g.arch.indPending < 4 →
          let job : IndCmd := { c with entry := some (tok, g.arch.nextId), seq := g.arch.seq, after := g.arch.nextId }
          let h : Machine.Group := { g with arch := { g.arch with seq := g.arch.seq + 1, indPending := g.arch.indPending + 1 } }
          s.pushes g l i (indCharge c) ((h.entered tok .job false none [] []).goesOn now g.link 1) fun d => d.postInd s.clk.fclk g job))

/-- R226, R210, R209, R222, R231, R220, R358: `epop` writes the four words of the oldest element of its FIFO, with LOST set
once after elements were discarded, removes it, and acquires: the core's read cache drops the lines its job wrote, its
scale cache every line; an empty FIFO gives an element of status EMPTY, or keeps the group waiting while a job is pending;
a copy element of status BOUND traps with NEXT after its registers are written. `evw` takes its latch, a set one also
under a raised abort line (DEDUCED, log 90), gives 1 under a raised abort line (in an abort group always), and otherwise
waits. R236, R238 to R240: `xbar` configures the bridge from the fclk after its issue. `rset` sets base, size and tile and
makes the ring empty, and waits while a queued command or a copy job names the ring; its words are checked in order, BASE
with the limit of BASE + SIZE first (R225). `rpush` and `rpop` move the tail or head by the smaller of xB[31:0] and the
room or occupancy, and their entry, due 4 aclk later, writes the tiles moved and the occupancy after the update. -/
def Obligations.EngineReturnsAndRings : Prop :=
  (
  ∀ (s : State) (g : Machine.Group) (gd : Guard) (t : TailA) (u : TailH), s.issuing g → s.guardOn g gd →
    let now := s.clk.aclk
    let ind := t.e.getLsbD 5
    let tok := t.e.toNat % 32
    let d := t.d.toNat
    let fifo := if ind then g.arch.indOut else g.arch.copyOut
    let lost := if ind then g.arch.indLost else g.arch.copyLost
    let lines := if ind then g.arch.indLines else g.arch.copyLines
    let pending : Prop := if ind then g.arch.indPending ≠ 0 else g.arch.copyIn ≠ [] ∨ g.arch.copyJob ≠ none
    let pops (v : BitVec 256) (rest : List (BitVec 256)) (lost' : Bool) : Prop :=
      ∃ h : Machine.Group, h.link = g.link ∧
        (∀ k < 4, h.arch.reg (.x (d + k)) = nbits v.toNat (64 * k) 64) ∧
        (∀ r : RegRef, (∀ k < 4, r ≠ .x (d + k)) → h.arch.reg r = g.arch.reg r) ∧
        (g.arch.tokCount tok = 0 → h.arch.tokCount tok = 0) ∧
        (if ind then h.arch.indOut else h.arch.copyOut) = rest ∧ (if ind then h.arch.indLost else h.arch.copyLost) = lost' ∧
        (if ind then h.arch.indLines else h.arch.copyLines) = lines.drop 1 ∧
        (if ind then h.arch.copyOut else h.arch.indOut) = (if ind then g.arch.copyOut else g.arch.indOut) ∧
        h.arch.ls = g.arch.ls ∧ h.arch.flags = g.arch.flags ∧ h.arch.pc = g.arch.pc ∧ h.arch.k = g.arch.k ∧
        (let k := h.goesOn now g.link 1
         let next := BitVec.ofNat 64 (nbits v.toNat 40 24)
         let dev := (s.put k).dev.dropLines g.core (lines.headD [])
         let trapped := dev.takeTrap s.clk k cBOUND next k.arch.pc true false
         exec (.epop gd t) s = .next { s with dev := if ind = false ∧ nbits v.toNat 64 5 = 7 then trapped else dev })
    (g.arch.tokCount tok < 63 → 0 < d → d ≤ 60 → (∀ k < 4, s.writable g (.x (d + k))) →
      (∀ e rest, fifo = e :: rest → pops (if lost then e ||| BitVec.ofNat 256 (2 ^ 70) else e) rest false) ∧
      (fifo = [] → ¬ pending → pops (BitVec.ofNat 256 (31 * 2 ^ 64)) [] lost) ∧
      (fifo = [] → pending → exec (.epop gd t) s = .next { s with dev := s.dev.onStop s.clk g (.stall .epop) })) ∧
    (u.e.toNat < 16 → s.writable g (.x u.d.toNat) →
      let cleared : Machine.Group := { g with arch := { g.arch with latches := g.arch.latches &&& ~~~ BitVec.ofNat 16 (2 ^ u.e.toNat) } }
      (g.arch.latches.getLsbD u.e.toNat = true → g.isAbort = false →
        exec (.evw gd u) s = .next (s.put ((cleared.wrote now (.x u.d.toNat) 0 1).goesOn now g.link 1))) ∧
      (g.arch.latches.getLsbD u.e.toNat = false ∨ g.isAbort = true → (s.dev.env s.clk g).aborted = true →
        exec (.evw gd u) s = .next (s.put ((g.wrote now (.x u.d.toNat) 1 1).goesOn now g.link 1))) ∧
      (g.arch.latches.getLsbD u.e.toNat = false ∨ g.isAbort = true → (s.dev.env s.clk g).aborted = false →
        exec (.evw gd u) s = .next { s with dev := s.dev.onStop s.clk g (.stall (.evw u.e.toNat)) }))) ∧
  (
  ∀ (s : State) (g : Machine.Group) (gd : Guard) (t : TailA) (p : TailP) (u : TailW), s.issuing g → s.guardOn g gd →
    let now := s.clk.aclk
    (exec (.xbar gd u) s =
      let b := { g.arch.bridge with config := g.arch.bridge.config ++ [(s.clk.fclk, u.e, u.ext)] }
      .next (s.put ({ g with arch := { g.arch with bridge := b } }.goesOn now g.link 1))) ∧
    (s.parsReady g p →
      let k := p.e.toNat % 8
      let base := (g.par p 0).toNat
      let size := (g.par p 1).toNat
      let tile := (g.par p 2).toNat
      let traps (c i : Nat) : Prop :=
        exec (.rset gd p) s = .next { s with dev := s.dev.takeTrap s.clk g c ((g.par p i).setWidth 64) g.arch.pc false false }
      let baseOk : Prop := base % 256 = 0 ∧ base + size ≤ 0x40000
      let sizeOk : Prop := tile ≠ 0 → size % tile = 0 ∧ 1 ≤ size / tile ∧ size / tile ≤ 4096
      let tileOk : Prop := tile % 64 = 0 ∧ 64 ≤ tile ∧ tile ≤ 65536
      (base % 256 ≠ 0 → traps cALIGN 0) ∧ (base % 256 = 0 → 0x40000 < base + size → traps cACCESS 0) ∧
      (baseOk → tile ≠ 0 → size % tile ≠ 0 → traps cALIGN 1) ∧
      (baseOk → (tile ≠ 0 → size % tile = 0) → ¬ sizeOk → traps cACCESS 1) ∧
      (baseOk → sizeOk → tile % 64 ≠ 0 → traps cALIGN 2) ∧ (baseOk → sizeOk → tile % 64 = 0 → ¬ tileOk → traps cACCESS 2) ∧
      (baseOk → sizeOk → tileOk → g.par p 3 ≠ 0 → traps cACCESS 3) ∧
      (baseOk → sizeOk → tileOk → g.par p 3 = 0 →
        (ringBusy g.arch k mcmdUsesRing = true → exec (.rset gd p) s = .next { s with dev := s.dev.onStop s.clk g (.stall .ring) }) ∧
        (ringBusy g.arch k mcmdUsesRing = false →
          exec (.rset gd p) s = .next (s.put ({ g with arch := g.arch.setRing k ⟨base, size, tile, 0, 0⟩ }.goesOn now g.link 1))))) ∧
    (s.readable g (.x t.b.toNat) → s.writable g (.x t.d.toNat) → g.arch.tokCount (t.e.toNat % 32) < 63 →
      let k := t.a.toNat % 8
      let r := g.arch.ring k
      let n := (g.arch.xr t.b.toNat).toNat % 2 ^ 32
      let cap := if r.tile = 0 then 0 else r.size / r.tile
      let occ := (r.tail - r.head).toNat
      let moves (i : Instr) (m : Nat) (r' : Ring) : Prop :=
        exec i s = .next (s.put (({ g with arch := g.arch.setRing k r', ringAt := now + 1 }.entered (t.e.toNat % 32) .port false (some (now + 4))
          [.x t.d.toNat] [(.x t.d.toNat, m + 2 ^ 32 * (r'.tail - r'.head).toNat)]).goesOn now g.link 1))
      moves (.rpush gd t) (min n (cap - occ)) { r with tail := r.tail + BitVec.ofNat 32 (min n (cap - occ)) } ∧
      moves (.rpop gd t) (min n occ) { r with head := r.head + BitVec.ofNat 32 (min n occ) }))

/-! ## The matrix unit at issue (12_matrix_unit R244 to R267; 13_sparse_tiles R279) -/

/-- R249, R253, R261 to R266, R279, R248, R116, R309: each matrix instruction builds its command from its fields, its
parameter words and the matrix registers as they stand at issue (`mq` copies 64 local bytes). A command that fails its check
faults `ILLEGAL_FIELD` with the head, the code and the lowest offending bit (`ALIGN` and `ACCESS` name the value or address);
a full queue stalls, and so does a unit in which a step of a group that has left the core goes on to its boundary (R343); otherwise
the command enters the queue with an entry on the token, charged where it drains to global memory. The parameter words that no field
of the command holds must be zero (that these give check code 1 and bit 0: DESIGN CHOICE, log 91). -/
def Obligations.MatrixPush : Prop :=
  ∀ (s : State) (g : Machine.Group) (gd : Guard) (t : TailP) (u : TailA) (q : TailM) (l : Launch), s.issuing g → s.guardOn g gd →
    s.dev.launches.find g.recd.launch = some l →
    let now := s.clk.aclk
    let e := t.e
    let f (lo n : Nat) : Nat := (e.extractLsb' lo n).toNat
    let w (k : Nat) : Nat := (g.par t k).toNat
    let m := g.arch.m
    let held : Prop := g.core.isSome = true ∧ ∃ kh ∈ s.dev.groups, kh.2.gid ≠ g.gid ∧ kh.2.core = none ∧ kh.2.linesOn = g.core ∧
      kh.2.arch.mu.run.begun = true
    let pushes (i : Instr) (tok head n : Nat) (pars : List (Nat × Nat)) : Prop :=
      let c : MCmd := { words := toWords n 8, entry := none, seq := 0, after := 0 }
      let fail := c.fail g.recd.team4 (fun k => (g.arch.ring k).tile) pars
      let traps (cause : Nat) (v : Word) : Prop := exec i s = .next { s with dev := s.dev.takeTrap s.clk g cause v g.arch.pc false false }
      g.arch.tokCount tok < 63 →
        (∀ k b, fail = some (.code k b) → traps cILLEGAL_FIELD (BitVec.ofNat 64 (head + gd.toNat + 0xFE * 2 ^ 16 + k * 2 ^ 24 + b * 2 ^ 32))) ∧
        (∀ v, fail = some (.align v) → traps cALIGN (BitVec.ofNat 64 v)) ∧
        (∀ a, fail = some (.access a) → traps cACCESS (BitVec.ofNat 64 a)) ∧
        (fail = none → 16 ≤ g.arch.mu.queue.length ∨ held → exec i s = .next { s with dev := s.dev.onStop s.clk g (.stall .fifo) }) ∧
        (fail = none → g.arch.mu.queue.length < 16 → ¬ held →
          let c : MCmd := { words := toWords n 8, entry := some (tok, g.arch.nextId), seq := g.arch.seq, after := g.arch.nextId }
          let mu : Matrix := { g.arch.mu with queue := g.arch.mu.queue ++ [c] }
          let h : Machine.Group := { g with arch := { g.arch with seq := g.arch.seq + 1, mu := mu } }
          s.pushes g l i (mCharge c) ((h.entered tok .matrix (c.op == 6) none [] []).goesOn now g.link 1) id)
    (s.parsReady g t →
      let ty := m.fa.toNat % 32
      let multiply (op at64 : Nat) : Nat :=
        (op + at64 * 2 ^ 11 + f 7 2 * 2 ^ 12 + f 9 3 * 2 ^ 14 + f 0 5 * 2 ^ 17 + ty * 2 ^ 22 + (m.fb.toNat % 32) * 2 ^ 27 +
          (m.fa.toNat / 32) * 2 ^ 32 + (m.fb.toNat / 32) * 2 ^ 33 + m.tida.toNat * 2 ^ 40 + m.tidb.toNat * 2 ^ 48) +
        2 ^ 64 * (w 0 % 2 ^ 13 + f 12 3 * 2 ^ 15 + f 15 3 * 2 ^ 18 + f 18 3 * 2 ^ 21) +
        2 ^ 128 * (w 1 + 2 ^ 32 * w 2) + 2 ^ 192 * m.sa.toNat + 2 ^ 256 * m.sb.toNat
      let pars := (if w 0 < 2 ^ 13 then [] else [(3, 64)]) ++ (if w 3 = 0 then [] else [(1, 0)])
      pushes (.mma gd t) t.tk.toNat 0xC070 (multiply 1 (if ty = 11 then 1 else 0)) pars ∧
      pushes (.mmas gd t) t.tk.toNat 0xC0F0 (multiply 2 0) pars ∧
      pushes (.mred gd t) t.tk.toNat 0xC2F0
        (6 + f 6 1 * 2 ^ 11 + f 7 2 * 2 ^ 12 + f 9 3 * 2 ^ 14 + f 0 5 * 2 ^ 17 + 2 ^ 64 * f 12 3)
        (if w 0 = 0 ∧ w 1 = 0 ∧ w 2 = 0 ∧ w 3 = 0 then [] else [(1, 0)]) ∧
      (s.readable g (.x (f 5 6)) →
        let tile (op : Nat) : Nat := op + f 26 1 * 2 ^ 11 + w 2 / 2 ^ 24 % 4 * 2 ^ 12 + w 2 / 2 ^ 26 % 8 * 2 ^ 14 + f 0 5 * 2 ^ 17
        let ea : Word := g.arch.xr (f 5 6) + (g.par t 0).signExtend 64
        pushes (.mload gd t) t.tk.toNat 0xC270
          (tile 5 + 2 ^ 64 * (w 2 % 2 ^ 24 + f 17 5 * 2 ^ 24 + f 23 1 * 2 ^ 30) + 2 ^ 128 * ea.toNat)
          (if w 2 < 2 ^ 29 ∧ w 1 = 0 ∧ w 3 = 0 then [] else [(1, 0)]) ∧
        (s.readable g (.x (f 11 6)) →
          let sa : Word := g.arch.xr (f 11 6) + (g.par t 1).signExtend 64
          pushes (.mdrain gd t) t.tk.toNat 0xC1F0
            (tile 4 + 2 ^ 64 * (w 2 % 2 ^ 24 + f 17 5 * 2 ^ 24 + f 22 1 * 2 ^ 29 + f 23 1 * 2 ^ 30 + f 24 1 * 2 ^ 31 + f 25 1 * 2 ^ 32 +
              w 3 / 2 ^ 8 % 2 * 2 ^ 33 + w 3 % 2 ^ 8 * 2 ^ 34) + 2 ^ 128 * ea.toNat + 2 ^ 192 * sa.toNat)
            (if w 2 < 2 ^ 29 ∧ w 3 < 2 ^ 9 ∧ (w 1 = 0 ∨ (12 ≤ f 17 5 ∧ f 17 5 ≤ 16)) then [] else [(1, 0)])))) ∧
    pushes (.mzero gd u) (u.e.toNat % 32) 0xC120 (3 + u.d.toNat % 32 * 2 ^ 17 + 2 ^ 64 * (u.a.toNat % 32 + 1)) [] ∧
    (s.readable g (.x q.a.toNat) → s.readable g (.x q.b.toNat) →
      let addr : Word := g.arch.xr q.a.toNat + BitVec.ofNat 64 ((g.arch.xr q.b.toNat).toNat * 2 ^ q.sc.toNat) + q.off.signExtend 64
      let traps (c : Nat) : Prop := exec (.mq gd q) s = .next { s with dev := s.dev.takeTrap s.clk g c addr g.arch.pc false false }
      (g.arch.tokCount q.tk.toNat < 63 → addr.toNat % 64 ≠ 0 → traps cALIGN) ∧
      (g.arch.tokCount q.tk.toNat < 63 → addr.toNat % 64 = 0 → 0x40000 ≤ addr.toNat → traps cACCESS) ∧
      (addr.toNat % 64 = 0 → addr.toNat < 0x40000 → s.localReady g addr.toNat 64 →
        pushes (.mq gd q) q.tk.toNat 0xC340 (g.arch.ls.readN addr.toNat 64) []))

/-- R253 as its table reads: which commands the check lets pass, of each operation. Tile sizes and alignments are those of
R251 and R244; TILE is the ring's. -/
def Obligations.MatrixCommandChecks : Prop :=
  ∀ (c : MCmd) (team : Bool) (tile : Nat → Nat), c.words.length = 8 →
    let passes := c.fail team tile [] = none
    let zeros (fs : List (Nat × Nat)) : Prop := ofWords c.words &&& bitsMask fs = ofWords c.words
    let geo : List (Nat × Nat) := [(0, 4), (11, 11)]
    let bits (code : Nat) : Nat := (Ty.ofCode code).width
    let okTy (code : Nat) : Prop := 8 ≤ code ∧ code ≤ 16
    let narrow (code : Nat) : Prop := 12 ≤ code ∧ code ≤ 16
    let row (code : Nat) : Nat := (c.n * bits code + 7) / 8
    let fits := c.slot + c.m / 32 * (c.n / c.bw) ≤ 32
    let placed (code : Nat) (a : Nat) (glb : Bool) : Prop :=
      (8 ≤ bits code → a % (bits code / 8) = 0 ∧ c.rstr % (bits code / 8) = 0) ∧
      (glb = false → a + (c.m - 1) * c.rstr + row code ≤ 0x40000)
    (c.op = 1 →
      (passes ↔ zeros (geo ++ [(22, 12), (40, 16), (64, 13), (79, 9), (128, 64), (192, 64), (256, 64)]) ∧
        okTy c.fa ∧ okTy c.fb ∧ (c.mxa = true → narrow c.fa) ∧ (c.mxb = true → narrow c.fb) ∧ (c.fa = 11 ↔ c.fb = 11) ∧
        (c.at64 = true ↔ c.fa = 11) ∧ c.k % 32 = 0 ∧ 32 ≤ c.k ∧ c.k ≤ 4096 ∧ fits ∧ c.ra ≠ c.rb ∧
        c.m * c.k * bits c.fa / 8 ≤ tile c.ra ∧ c.n * c.k * bits c.fb / 8 ≤ tile c.rb)) ∧
    (c.op = 2 →
      (passes ↔ zeros (geo ++ [(22, 12), (40, 16), (64, 13), (79, 9), (128, 64), (192, 64), (256, 64)]) ∧
        okTy c.fa ∧ okTy c.fb ∧ c.fa ≠ 11 ∧ c.fb ≠ 11 ∧ (c.mxa = true → narrow c.fa) ∧ (c.mxb = true → narrow c.fb) ∧ c.at64 = false ∧
        c.k % 32 = 0 ∧ 32 ≤ c.k ∧ c.k ≤ 4096 ∧ fits ∧ c.ra ≠ c.rb ∧ 16 + c.m * c.k / 8 ≤ tile c.ra ∧ 16 + c.k * c.n / 8 ≤ tile c.rb)) ∧
    (c.op = 3 → (passes ↔ zeros [(0, 4), (17, 5), (64, 6)] ∧ c.count ≠ 0 ∧ c.slot + c.count ≤ 32)) ∧
    (c.op = 4 →
      (passes ↔ zeros (geo ++ [(64, 42), (128, 64), (192, 64)]) ∧ fits ∧
        (if c.at64 then c.ot = 10 ∨ c.ot = 11 else c.ot = 9 ∨ c.ot = 10 ∨ narrow c.ot) ∧
        (c.st = true → if c.at64 then c.ot = 10 else c.ot = 9) ∧ (c.cs = true → narrow c.ot) ∧ row c.ot ≤ c.rstr ∧
        placed c.ot c.addr.toNat c.ds ∧ (narrow c.ot → c.cs = false → c.saddr.toNat + c.m * (c.n / 32) ≤ 0x40000))) ∧
    (c.op = 5 →
      (passes ↔ zeros (geo ++ [(64, 24), (88, 5), (94, 1), (128, 64)]) ∧ fits ∧
        (if c.at64 then c.ot = 11 else c.ot = 9 ∨ c.ot = 10) ∧ row c.ot ≤ c.rstr ∧ placed c.ot c.addr.toNat c.ds)) ∧
    (c.op = 6 → (passes ↔ zeros (geo ++ [(64, 3)]) ∧ fits ∧ c.dst ≤ 4 ∧ team = true)) ∧
    (c.op = 0 ∨ 7 ≤ c.op → c.fail team tile [] = some (.code 1 0))

/-- R267, R250: `mstat` reads the unit at issue and its entry, due 4 aclk later, writes the value; selector 0 clears WERR.
The queue window stages words 0 to 6 of a core; word 7 pushes the staged command with no token, or leaves its check code in
WERR. A drain to global memory is charged as that of `mdrain`; one beyond the quota is refused with a deferred `LOG_FULL` (R309).
That a push which fails by alignment or access has no code, that a core without a group takes none, and that the `LOG_FULL` of a
push is deferred is log 42. -/
def Obligations.MatrixStatusAndWindow : Prop :=
  (∀ (s : State) (g : Machine.Group) (gd : Guard) (t : TailA), s.issuing g → s.guardOn g gd →
    s.writable g (.x t.d.toNat) → g.arch.tokCount (t.e.toNat % 32) < 63 →
    let now := s.clk.aclk
    let mu := g.arch.mu
    let gives (h : Machine.Group) (v : Nat) : Prop :=
      exec (.mstat gd t) s = .next (s.put ((h.entered (t.e.toNat % 32) .port false (some (now + 4)) [.x t.d.toNat] [(.x t.d.toNat, v)]).goesOn
        now g.link 1))
    (t.e.toNat / 32 = 0 →
      let mu' : Matrix := { mu with werr := 0 }
      gives { g with arch := { g.arch with mu := mu' } }
        ((match mu.queue with
          | [] => 0
          | c :: _ => c.op) + mu.queue.length * 2 ^ 16 + mu.werr.toNat * 2 ^ 32)) ∧
    (t.e.toNat / 32 = 1 → gives g (mu.lastOp + mu.lastSteps % 2 ^ 26 * 2 ^ 28 + mu.lastCode * 2 ^ 54 + (if mu.lastBf then 2 ^ 63 else 0))) ∧
    (2 ≤ t.e.toNat / 32 → gives g mu.lastCounts.toNat)) ∧
  (∀ (s : State) (core word : Nat) (v : Word), core < 4096 → word < 7 →
    ∃ t, exec (.queueWindowStage core word v) s = .next t ∧ (t.dev.core core).staging = (s.dev.core core).staging.setIfInBounds word v ∧
      t.dev.groups = s.dev.groups ∧ t.dev.ms = s.dev.ms ∧ ∀ c, c ≠ core → t.dev.core c = s.dev.core c) ∧
  (∀ (s : State) (core : Nat) (v : Word) (g : Machine.Group), core < 4096 → s.dev.windowGroup core = some g →
    16 ≤ g.arch.mu.queue.length ∨ s.dev.unitHeld g = true → exec (.queueWindowPush core v) s = .refused .notEnabled) ∧
  (∀ (s : State) (core : Nat) (v : Word), core < 4096 → s.dev.windowGroup core = none → exec (.queueWindowPush core v) s = .next s) ∧
  (∀ (s : State) (core : Nat) (v : Word) (g : Machine.Group), core < 4096 → s.dev.windowGroup core = some g →
    g.arch.mu.queue.length < 16 → s.dev.unitHeld g = false →
    let c : MCmd := { words := (s.dev.core core).staging.toList ++ [v], entry := none, seq := g.arch.seq, after := g.arch.nextId }
    let fail := c.fail g.recd.team4 (fun k => (g.arch.ring k).tile) []
    (fail = none →
      let mu : Matrix := { g.arch.mu with queue := g.arch.mu.queue ++ [c] }
      let kept : Machine.Group := { g with arch := { g.arch with mu := mu, seq := g.arch.seq + 1 } }
      let counts (l : Launch) : Prop := l.mode = .det ∧ mCharge c ≠ 0 ∧ (l.raisedAt = none ∨ g.isAbort = true)
      (∀ l, s.dev.launches.find g.recd.launch = some l → ¬ counts l → exec (.queueWindowPush core v) s = .next (s.put kept)) ∧
      (∀ l, s.dev.launches.find g.recd.launch = some l → counts l →
        let key := l.domOf g.recd.home
        let dm := l.doms.getD key (Dom.reset none)
        let charged := s.dev.setLaunch g.recd.launch { l with doms := l.doms.put key { dm with charge := dm.charge + mCharge c } }
        (dm.charge + mCharge c ≤ l.logq * 1024 → exec (.queueWindowPush core v) s = .next { s with dev := charged.setGroup kept }) ∧
        (l.logq * 1024 < dm.charge + mCharge c →
          exec (.queueWindowPush core v) s = .next (s.put (g.defer cLOG_FULL (mCharge c)))))) ∧
    ((∃ a, fail = some (.align a) ∨ fail = some (.access a)) → exec (.queueWindowPush core v) s = .next s) ∧
    (∀ k b, fail = some (.code k b) →
      let mu : Matrix := { g.arch.mu with werr := BitVec.ofNat 8 k }
      exec (.queueWindowPush core v) s = .next (s.put { g with arch := { g.arch with mu := mu } })))

/-! ## Guards, control registers and exceptions (06 R108, R109; 17_interruption R328 to R350) -/

/-- R108, R109, R129: under a false guard an instruction has no effect: it only goes on, and where it names a token an entry
of that token completes at issue. (`loop` checks its END all the same, R118.) -/
def Obligations.FalseGuardHasNoEffect : Prop :=
  ∀ (s : State) (g : Machine.Group) (i : Instr) (opc tail : Nat) (gd : Guard), s.issuing g →
    parts i = some (opc, gd, tail) → s.guardOff g gd →
    (∀ gd' t, i = .loop gd' t → g.link < jTarget g.arch.pc t.disp t.slot) →
    (namesToken i = none → exec i s = .next (s.put (g.goesOn s.clk.aclk g.link 1))) ∧
    (∀ tok, namesToken i = some tok →
      (g.arch.tokCount tok < 63 → exec i s = .next (s.put ((g.passed tok).goesOn s.clk.aclk g.link 1))) ∧
      (63 ≤ g.arch.tokCount tok → exec i s = .next { s with dev := s.dev.onStop s.clk g (.stall .token) }))

/-- R330 to R332, R80, R128, R247, R257, R259, R268, R270, R345: what `cget` writes for every control register, with latency
2, laid out as the spec's tables lay it out; a register whose line of the image lies in the slot stalls issue until it is
refilled (R179, R339). R345, R331, R332, R128, R247, R259, R260, R268, R270: `cset` writes the writable bits of its
register and nothing else of the group, once the line of the image that holds it is on the core (R179); a read-only
register and a BUDGET above 64 are ignored; a write of `msa`, `msb` or `mtid` drops the core's scale cache. -/
def Obligations.ControlRegisters : Prop :=
  (
  ∀ (s : State) (g : Machine.Group) (gd : Guard) (t : TailI) (l : Launch) (core : Nat), s.issuing g → s.guardOn g gd →
    s.writable g (.x t.d.toNat) → s.dev.launches.find g.recd.launch = some l → g.core = some core →
    let k := g.arch.k
    let m := g.arch.m
    let bit (b : Bool) (n : Nat) : Nat := if b then 2 ^ n else 0
    let here (n : Nat) : Prop := g.lineHere (s.dev.env s.clk g) (4 + n / 32)
    let reads (n v : Nat) : Prop := t.imm.toNat = n → here n →
      exec (.cget gd t) s = .next (s.put ((g.wrote s.clk.aclk (.x t.d.toNat) v 2).goesOn s.clk.aclk g.link 1))
    let home := g.recd.home
    (∀ n, t.imm.toNat = n → n < 4096 → ¬ here n →
      exec (.cget gd t) s = .next { s with dev := s.dev.onStop s.clk g (.stall (.refill (4 + n / 32))) }) ∧
    reads 0x000 (k.qsave.toNat * 2 ^ 25 + 2 ^ 24 + k.lsave.toNat * 2 ^ 20 + bit k.deferBit 8 + bit k.cmpl 7 + bit k.inTrap 6) ∧
    reads 0x001 k.cause.toNat ∧ reads 0x002 k.val.toNat ∧ reads 0x003 k.pc.toNat ∧ reads 0x004 k.vec.toNat ∧
    reads 0x005 k.scratch.toNat ∧ reads 0x006 l.seed.toNat ∧ reads 0x007 g.recd.ticket.toNat ∧
    reads 0x008 (g.recd.ticket.toNat / 2 ^ 24 % 2 ^ 24) ∧
    (core < 4096 → reads 0x009 core ∧ reads 0x00A (core / 4)) ∧
    (home < 1024 → l.scope < 8 → g.recd.launch < 2 ^ 32 → s.dev.pkg < 64 →
      reads 0x00B (s.dev.pkg * 2 ^ 58 + home / 512 * 2 ^ 57 + home / 16 * 2 ^ 51 + home * 2 ^ 41 + core % 4 * 2 ^ 39 + l.scope * 2 ^ 36 +
        g.recd.launch)) ∧
    reads 0x00C ((match l.mode with
      | .det => 0
      | .free => 1
      | .ilv => 2) * 4 + bit l.dit 1 + bit k.strict 0) ∧
    reads 0x010 m.fa.toNat ∧ reads 0x011 m.fb.toNat ∧ reads 0x012 m.sa.toNat ∧ reads 0x013 m.sb.toNat ∧
    reads 0x014 (m.tidb.toNat * 2 ^ 8 + m.tida.toNat) ∧
    reads 0x015 (if g.arch.mu.queue = [] then 0 else g.arch.mu.run.steps % 2 ^ 32) ∧
    reads 0x016 m.gov.toNat ∧ reads 0x017 m.stall.toNat ∧ reads 0x018 m.th.toNat ∧
    (∀ i < 16, ∀ b, m.bnd.toList[i]? = some b →
      reads (0x020 + i) (b.hi.toNat * 2 ^ 48 + b.lo.toNat * 2 ^ 32 + b.tid.toNat * 2 ^ 8 + bit b.v 7 + bit b.nan 6 + b.act.toNat * 2 ^ 4))) ∧
  (
  ∀ (s : State) (g : Machine.Group) (gd : Guard) (t : TailI) (core : Nat), s.issuing g → s.guardOn g gd →
    s.readable g (.x t.a.toNat) → g.core = some core →
    let k := g.arch.k
    let m := g.arch.m
    let v := g.arch.xr t.a.toNat
    let here : Prop := g.lineHere (s.dev.env s.clk g) (4 + t.imm.toNat / 32)
    let goes (k' : TrapRegs) (m' : MatrixRegs) : State := s.put ({ g with arch := { g.arch with k := k', m := m' } }.goesOn s.clk.aclk g.link 1)
    let sets (n : Nat) (k' : TrapRegs) : Prop := t.imm.toNat = n → here → exec (.cset gd t) s = .next (goes k' m)
    let setsM (n : Nat) (m' : MatrixRegs) : Prop := t.imm.toNat = n → here → exec (.cset gd t) s = .next (goes k m')
    let setsS (n : Nat) (m' : MatrixRegs) : Prop := t.imm.toNat = n → here →
      exec (.cset gd t) s = .next { s with dev := (goes k m').dev.setCore core { s.dev.core core with scales := [] } }
    (t.imm.toNat < 4096 → ¬ here →
      exec (.cset gd t) s = .next { s with dev := s.dev.onStop s.clk g (.stall (.refill (4 + t.imm.toNat / 32))) }) ∧
    sets 0x000 { k with qsave := v.extractLsb' 25 7 } ∧ sets 0x001 { k with cause := v.extractLsb' 0 8 } ∧ sets 0x002 { k with val := v } ∧
    sets 0x003 { k with pc := v } ∧ sets 0x004 { k with vec := v } ∧ sets 0x005 { k with scratch := v } ∧
    (∀ n, 0x006 ≤ n → n ≤ 0x00B → sets n k) ∧ sets 0x00C { k with strict := v.getLsbD 0 } ∧
    setsM 0x010 { m with fa := v.extractLsb' 0 6 } ∧ setsM 0x011 { m with fb := v.extractLsb' 0 6 } ∧
    setsS 0x012 { m with sa := v.extractLsb' 0 57 } ∧ setsS 0x013 { m with sb := v.extractLsb' 0 57 } ∧
    setsS 0x014 { m with tida := v.extractLsb' 0 8, tidb := v.extractLsb' 8 8 } ∧ setsM 0x015 m ∧
    setsM 0x016 (if v.toNat % 128 ≤ 64 then { m with gov := v.extractLsb' 0 7 } else m) ∧ setsM 0x017 { m with stall := v } ∧
    setsM 0x018 { m with th := v.extractLsb' 0 48 } ∧
    (∀ i < 16,
      let b : Bound := ⟨v.extractLsb' 48 16, v.extractLsb' 32 16, v.extractLsb' 8 8, v.getLsbD 7, v.getLsbD 6, v.extractLsb' 4 2⟩
      setsM (0x020 + i) { m with bnd := m.bnd.setIfInBounds i b }))

/-- R333: a trap taken outside a handler at a valid `kvec` saves the boundary, the cause and the value, the predicates and the
loop bits, sets CMPL and DEFER as given and IN, ends the loops' activity but keeps their ends and counters, and the loops as they were for `kret` (R348), drops the caches
of the core, and goes to the handler; a status that a completed phase has left for the interrupted barrier waits for its reissue
(R318); nothing else of the group changes, and no byte of memory. -/
def Obligations.TrapEntry : Prop :=
  ∀ (d : Dev) (clk : Clock) (g : Machine.Group) (cause : Nat) (val pc : Word) (cmpl deferred : Bool),
    d.groups.find g.gid = some g → g.consort = .none → g.arch.k.inTrap = false → g.arch.k.vec ≠ 0 → d.vecFails g g.arch.k.vec pc = none →
    cause < 256 →
    let t := d.takeTrap clk g cause val pc cmpl deferred
    let a := g.arch
    ∃ h, t.groups.find g.gid = some h ∧ h.arch.pc = a.k.vec ∧ h.arch.k.pc = pc ∧ h.arch.k.cause.toNat = cause ∧ h.arch.k.val = val ∧
      (∀ i < 7, h.arch.k.qsave.getLsbD i = a.qr (i + 1)) ∧
      h.arch.k.lsave.getLsbD 3 = (a.loopAt 1).active ∧ h.arch.k.lsave.getLsbD 2 = (a.loopAt 0).active ∧
      h.arch.k.lsave.getLsbD 1 = (a.loopAt 1).inner ∧ h.arch.k.lsave.getLsbD 0 = (a.loopAt 0).inner ∧
      h.arch.k.cmpl = cmpl ∧ h.arch.k.deferBit = deferred ∧ h.arch.k.inTrap = true ∧ h.arch.k.vec = a.k.vec ∧
      h.arch.k.scratch = a.k.scratch ∧ h.arch.k.strict = a.k.strict ∧
      (∀ i < 2, h.arch.loopAt i = { a.loopAt i with active := false }) ∧
      h.arch = { a with
        k := h.arch.k, loops := h.arch.loops, keptLoops := a.loops, pc := h.arch.pc, arrivedIn := false, joinedIn := false
        relOuter := if g.released = some 5 then none else g.released } ∧
      h = { g with
        arch := h.arch, stall := .none, ganged := false, flagSeen := false
        released := none, notBefore := clk.aclk + 1 } ∧
      (∀ gid, gid ≠ g.gid → t.groups.find gid = d.groups.find gid) ∧
      t = { d with groups := t.groups, cores := t.cores } ∧
      (∀ c, g.core = some c → t.core c = { d.core c with icache := [], rcache := [], scales := [] }) ∧
      (∀ c, g.core ≠ some c → t.core c = d.core c)

/-- R333 to R335, R106, R119: a trap within a handler, one of a group without a handler (but for `PAGE` and `ACCESS`), and one
whose handler's address fails (as a target at the interrupted pc, in its line at the handler's) end the group; `PAGE` and
`ACCESS` without a handler suspend it. (That the handler's line is looked at as trap entry is taken: DEDUCED, log 43.)
R334, R79, R149, R341: a group that is ended is gone with its core given up, counts in its launch's DISCARD, leaves LIVE,
and its launch's abort line is raised in its cluster. R335, R339, R341, R347, R350: `svc` and `halt` suspend the group at
their own PC, with cause 21, xA and the code, or cause 22; `svc` gives xD to the reply, with what it must know of other
producers of xD then (R126, R133), and under STRICT traps at issue where xD is pending, naming the lowest token that it is
pending under, before a fixed window that is open too (which is named: DESIGN CHOICE, log 77), or where such a window ends
later than its own latency of 1. A suspension whose fault-queue entry is written leaves the group off its core with its
cause kept for the reply, its register lines in its slot, a merge or read pass of its job set back to its start (R229,
R342) and the values of a matrix step that has not begun to be read anew (R281); one whose entry finds no room ends the
group, and one that a line of the image cannot be saved for damages the context (R344). -/
def Obligations.TrapsThatEndOrSuspendResults : Prop :=
  (
  ∀ (d : Dev) (clk : Clock) (g : Machine.Group) (cause : Nat) (val pc : Word) (cmpl deferred : Bool),
    let t := d.takeTrap clk g cause val pc cmpl deferred
    (g.arch.k.inTrap = true → t = d.endGroup clk.fclk g cause val pc) ∧
    (g.arch.k.inTrap = false → g.arch.k.vec = 0 → cause ≠ 7 → cause ≠ 8 → t = d.endGroup clk.fclk g cause val pc) ∧
    (g.arch.k.inTrap = false → g.arch.k.vec = 0 → cause = 7 ∨ cause = 8 → t = d.suspend clk g cause val pc 0 0 pc) ∧
    (g.arch.k.inTrap = false → g.arch.k.vec ≠ 0 → validTarget g.arch.k.vec = false → t = d.endGroup clk.fclk g 5 g.arch.k.vec pc) ∧
    (g.arch.k.inTrap = false → g.arch.k.vec ≠ 0 → validTarget g.arch.k.vec = true →
      ∀ line, d.peekLine g g.arch.k.vec.toNat = some line →
        (lineHeads line = none →
          t = d.endGroup clk.fclk g cILLEGAL_LINE (BitVec.ofNat 64 (g.arch.k.vec.toNat / 64 * 64)) g.arch.k.vec) ∧
        (∀ n, lineHeads line = some n → n ≤ (g.arch.k.vec.toNat % 64 - 2) / 2 →
          t = d.endGroup clk.fclk g 5 g.arch.k.vec g.arch.k.vec))) ∧
  (
  ∀ (d : Dev) (now : Nat) (g : Machine.Group) (cause : Nat) (val pc : Word) (l : Launch), d.groups.find g.gid = some g →
    d.launches.find g.recd.launch = some l → g.status = .running → g.consort = .none → g.isAbort = false →
    let t := d.endGroup now g cause val pc
    t.groups.find g.gid = none ∧ (∀ c, g.core = some c → (t.core c).group = none) ∧
    ∃ m, t.launches.find g.recd.launch = some m ∧ m.discard = l.discard + 1 ∧ m.live = l.live - 1 ∧
      clusterOfCell g.recd.home ∈ m.raised ∧ m.raisedAt.isSome = true) ∧
  (
  ∀ (s : State) (g : Machine.Group) (gd : Guard) (t : TailI), s.issuing g → s.guardOn g gd →
    (s.readable g (.x t.a.toNat) →
      let inWindow : Prop := ∃ x ∈ g.arch.openAlts s.clk.aclk (.x t.d.toNat), ∃ u, x.till = .aclk u ∧ s.clk.aclk + 1 < u
      let clash := g.arch.second s.clk.aclk 1 (.x t.d.toNat)
      (t.d = 0 ∨ g.arch.k.strict = false ∨ (g.arch.pending (.x t.d.toNat) = none ∧ ¬ inWindow) →
        exec (.svc gd t) s = .next { s with dev := s.dev.suspend s.clk g 21 (g.arch.xr t.a.toNat) g.arch.pc t.imm.toNat t.d.toNat g.link clash }) ∧
      (t.d ≠ 0 → g.arch.k.strict = true → g.arch.pending (.x t.d.toNat) = none → inWindow →
        let val : Word := BitVec.ofNat 64 (2 ^ 17 + 2 ^ 11 + t.d.toNat)
        exec (.svc gd t) s = .next { s with dev := s.dev.takeTrap s.clk g cTOKEN_UNDERWAIT val g.arch.pc false false }) ∧
      (∀ tok, t.d ≠ 0 → g.arch.k.strict = true → g.arch.pending (.x t.d.toNat) = some tok →
        let val : Word := BitVec.ofNat 64 (tok * 2 ^ 12 + 2 ^ 11 + t.d.toNat)
        exec (.svc gd t) s = .next { s with dev := s.dev.takeTrap s.clk g cTOKEN_UNDERWAIT val g.arch.pc false false })) ∧
    exec (.halt gd) s = .next { s with dev := s.dev.suspend s.clk g 22 0 g.arch.pc 0 0 g.link } ∧
    (∀ (cause : Nat) (val pc : Word) (aux dest : Nat) (link : Word) (clash : Bool) (l : Launch) (lt : Latched), g.consort = .none →
      s.dev.launches.find g.recd.launch = some l → (s.dev.ctx l.part l.ctx).latched = some lt →
      let g1 : Machine.Group := { g with arch := { g.arch with pc := pc }, suspended := some ⟨cause, dest, link, clash⟩ }
      let image := (s.dev.setGroup g1).writeImage ((s.dev.setGroup g1).env s.clk g1) l.part l.ctx lt g1 32 0
      let entry := image.1.groupEntry g1 val pc aux 1 cause
      let u := s.dev.suspend s.clk g cause val pc aux dest link clash
      (image.2 = false → u = image.1) ∧
      (image.2 = true → entry.2 = true →
        let mu : Matrix := { g.arch.mu with run := { g.arch.mu.run with vals := if g.arch.mu.run.begun then g.arch.mu.run.vals else none } }
        u.groups.find g.gid = some { g1 with
          arch := { g1.arch with mu := mu }
          core := none, status := .suspended, stall := .none, ganged := false, pinned := [], flagSeen := false
          linesOut := List.range 32 ++ g1.linesOut.filter (32 ≤ ·) } ∧
        (∀ c, g.core = some c → (u.core c).group = none) ∧
        ∀ k x j, entry.1.indirect.find k = some x → x.job = some j → j.cmd.gid = g.gid → j.merged = false →
          j.cmd.op = .scaAdd ∨ j.cmd.op = .chs →
          ∃ y, u.indirect.find k = some y ∧ y.job = some { j with next := 0, oorc := 0, ups := [], bad := none }) ∧
      (image.2 = true → entry.2 = false → u = entry.1.endGroup s.clk.fclk g1 cause val pc)) ∧
    (∀ (d : Dev) (p c : Nat) (e : Env) (lt : Latched) (h : Machine.Group) (n line : Nat),
      let va := slotVa lt h.slot + 256 * line
      let v := imageValue e h (256 * line) 32
      let bad (k : Nat) : Bool := (List.range 4).any fun i => imageBad h.arch (256 * line + 32 * k + 8 * i)
      (d.spillLine h.engCore p lt va v bad = none → d.writeImage e p c lt h (n + 1) line = (d.saveFailed p c lt.asid h va v, false)) ∧
      (∀ d', d.spillLine h.engCore p lt va v bad = some d' →
        d.writeImage e p c lt h (n + 1) line = d'.writeImage e p c lt h n (line + 1))))

/-- R346, R348, R120, R182, R260, R271: `trap` completes with cause 20, its immediate and the link as the boundary. `kret` in a
handler restores q1 to q7 and the loops as trap entry kept them with the ACTIVE and INNER of kstat (R348), clears IN, drops the core's caches, lets a halted matrix
queue go on unless a trap of the unit is still to be taken, and goes to `kpc`; outside a
handler it faults `ILLEGAL_OPCODE` with its head; while the line of the trap registers or that of the predicates lies in the slot it stalls (R179); at a `kpc` that is no valid target the group ends. -/
def Obligations.TrapAndReturn : Prop :=
  ∀ (s : State) (g : Machine.Group) (gd : Guard) (t : TailI) (core : Nat), s.issuing g → s.guardOn g gd → g.core = some core →
    exec (.trap gd t) s = .next { s with dev := s.dev.takeTrap s.clk g 20 (t.imm.setWidth 64) g.link true false } ∧
    (g.arch.k.inTrap = true →
      exec (.trap gd t) s = .next { s with dev := s.dev.endGroup s.clk.fclk g 20 (t.imm.setWidth 64) g.link }) ∧
    (t.d ≠ 0 ∨ t.a ≠ 0 → (Instr.trap gd t).wf = false) ∧
    (t.d = 0 → t.a = 0 → t.z = 0 → ∃ tail, encode (.trap ⟨false, 0⟩ t) = some (0xE140, tail)) ∧
    decode 0xE140 0x0000005500000000 = .ok (.trap ⟨false, 0⟩ ⟨0, 0, 0, 0x55⟩) ∧
    let here : Prop := g.lineHere (s.dev.env s.clk g) 4 ∧ g.lineHere (s.dev.env s.clk g) 2
    (¬ g.lineHere (s.dev.env s.clk g) 4 → exec (.kret gd) s = .next { s with dev := s.dev.onStop s.clk g (.stall (.refill 4)) }) ∧
    (g.lineHere (s.dev.env s.clk g) 4 → ¬ g.lineHere (s.dev.env s.clk g) 2 →
      exec (.kret gd) s = .next { s with dev := s.dev.onStop s.clk g (.stall (.refill 2)) }) ∧
    (here → g.arch.k.inTrap = false →
      exec (.kret gd) s = .next { s with dev := s.dev.takeTrap s.clk g 2 0xE200 g.arch.pc false false }) ∧
    (here → g.arch.k.inTrap = true → validTarget g.arch.k.pc = false →
      exec (.kret gd) s = .next { s with dev := s.dev.endGroup s.clk.fclk g 5 g.arch.k.pc g.arch.pc }) ∧
    (here → g.arch.k.inTrap = true → validTarget g.arch.k.pc = true →
      ∃ h : Machine.Group, exec (.kret gd) s = .next { s with dev := (s.dev.dropCaches g.core).setGroup h } ∧
        (∀ i < 7, h.arch.qr (i + 1) = g.arch.k.qsave.getLsbD i) ∧
        h.arch.loopAt 0 = { g.arch.keptLoops[0] with active := g.arch.k.lsave.getLsbD 2, inner := g.arch.k.lsave.getLsbD 0 } ∧
        h.arch.loopAt 1 = { g.arch.keptLoops[1] with active := g.arch.k.lsave.getLsbD 3, inner := g.arch.k.lsave.getLsbD 1 } ∧
        h.arch.k = { g.arch.k with inTrap := false } ∧ h.arch.pc = g.arch.k.pc ∧
        (let mu : Matrix := { g.arch.mu with halted := g.arch.mu.halted && g.arch.deferred.any (·.matrix) }
         h.arch = { g.arch with
           q := h.arch.q, loops := h.arch.loops, k := h.arch.k, pc := h.arch.pc, mu := mu, relOuter := none, arrivedIn := false, joinedIn := false }) ∧
        h = { g with arch := h.arch, released := g.arch.relOuter, stall := .none, notBefore := s.clk.aclk + 1 })

/-- R349, R193: `tlbinv` leaves an entry on its token and an invalidation of the page of xA, or of all pages of the address
space, in the issuing core or in every core of the partition; walks begun earlier for those cores are marked. Its completion
waits for the marked walks to be gone, drops every translation concerned and keeps the others. (Whether a translation is
dropped already at issue is a free choice, log 5.) -/
def Obligations.TlbInvalidation : Prop :=
  (∀ (s : State) (g : Machine.Group) (gd : Guard) (t : TailA) (part : Nat) (lt : Latched), s.issuing g → s.guardOn g gd →
    s.readable g (.x t.a.toNat) → g.arch.tokCount (t.e.toNat % 32) < 63 → s.dev.latchedOf g = some (part, lt) →
    ∃ u, exec (.tlbinv gd t) s = .next u ∧ u.clk = s.clk ∧
      (let page := if t.e.getLsbD 5 then none else some (g.arch.xr t.a.toNat).toNat
       let cores := if t.e.getLsbD 6 then s.dev.partCores part else g.core.toList
       let i : Inval := ⟨g.gid, t.e.toNat % 32, g.arch.nextId, cores, lt.asid, page, s.clk.fclk⟩
       u.dev.invals = s.dev.invals ++ [i] ∧
       (∀ cl w, w ∈ s.dev.walks.getD cl [] →
         (if cores.contains w.core then { w with drop := true } else w) ∈ u.dev.walks.getD cl []) ∧
       (∀ c, (u.dev.core c).tlb = (s.dev.core c).tlb ∨ (u.dev.core c).tlb = (s.dev.core c).tlb.filter fun x => !i.removes x) ∧
       u.dev.groups.find g.gid =
         some ({ g with nfree := g.nfree + 1 }.entered (t.e.toNat % 32) .tlbinv false none [] [] |>.goesOn s.clk.aclk g.link 1) ∧
       u.dev.ms = s.dev.ms)) ∧
  (∀ (s : State) (gid entry : Nat) (g : Machine.Group) (i : Inval), s.dev.groups.find gid = some g →
    s.dev.invals.find? (fun j => j.gid = gid ∧ j.id = entry) = some i →
    s.dev.walks.any (fun kw => kw.2.any fun w => w.drop && i.cores.contains w.core) = false →
    ∃ u, exec (.tlbinvComplete gid entry) s = .next u ∧ u.dev.groups.find g.gid = some (completeEntry g i.tok entry []) ∧
      (∀ c ∈ i.cores, ∀ x ∈ (u.dev.core c).tlb, i.removes x = false) ∧
      (∀ c, c ∉ i.cores → u.dev.core c = s.dev.core c) ∧
      (∀ c, ∀ x ∈ (s.dev.core c).tlb, i.removes x = false → x ∈ (u.dev.core c).tlb) ∧ u.dev.ms = s.dev.ms)

/-! ## Decoding, fetching, stepping, reset -/

/-- R102, R110 to R118: words written out from the spec's encoding tables decode to the instructions they stand for (the tails
of R345 to R349 are the spec's own examples). -/
def Obligations.DecodeSanity : Prop :=
  let q0 : Guard := ⟨false, 0⟩
  decode 0xE040 0x0000000300000005 = .ok (.cget q0 ⟨5, 0, 0, 3⟩) ∧
  decode 0xE140 0x0000005500000000 = .ok (.trap q0 ⟨0, 0, 0, 0x55⟩) ∧
  decode 0xE1C0 0x0000000700000284 = .ok (.svc q0 ⟨4, 10, 0, 7⟩) ∧
  decode 0xE2A0 0x42000240 = .ok (.tlbinv q0 ⟨0, 9, 0, 0, 0x42⟩) ∧
  decode 0xE200 0 = .ok (.kret q0) ∧
  decode 0x0020 0x00003081 = .ok (.add q0 ⟨1, 2, 3, 0, 0⟩) ∧
  decode 0xFF80 0 = .error .opcode ∧ decode 0x0030 0x00003081 = .error .format ∧
  decode 0x0020 0x01003081 = .error (.field 24)

/-- R117, R118: every well-formed instruction of the opcode map is what the decoder reads from its encoding, whatever its
operands, and every head and tail that decode are the encoding of what they decode to: no two words mean the same. -/
def Obligations.DecodeEncodeRoundTrip : Prop :=
  (∀ i : Instr, i.isCore = true → i.wf = true → ∃ head tail, encode i = some (head, tail) ∧ head < 2 ^ 16 ∧
    tail < 2 ^ (8 * tlBytes (head / 2 ^ 4 % 2 ^ 3)) ∧ decode head tail = .ok i) ∧
  (∀ (head tail : Nat) (i : Instr), head < 2 ^ 16 → tail < 2 ^ (8 * tlBytes (head / 2 ^ 4 % 2 ^ 3)) → decode head tail = .ok i →
    i.isCore = true ∧ i.wf = true ∧ encode i = some (head, tail))

/-- R101, R103, R105, and of R104, R106 and R118 what concerns a line: what a line gives at a PC. A header that is broken faults `ILLEGAL_LINE`
with the line's address; a slot beyond N faults `ILLEGAL_TARGET` with the PC; a head that is no opcode or has another length
faults with the head, a failing field with the head and its lowest bit; otherwise the instruction, followed by the next slot or
the first slot of the next line. -/
def Obligations.LineChecks : Prop :=
  ∀ (line : Nat) (pc : Word),
    let n := line % 32
    let head (i : Nat) : Nat := line / 2 ^ (16 + 16 * i) % 2 ^ 16
    let len (i : Nat) : Nat := tlBytes (head i / 2 ^ 4 % 2 ^ 3)
    let total : Nat → Nat := Nat.rec 0 (fun i t => t + len i)
    let sound : Prop := line / 32 % 2 ^ 11 = 0 ∧ n ≠ 0 ∧ n ≠ 31 ∧ 2 + 2 * n + total n ≤ 64
    let slot := (pc.toNat % 64 - 2) / 2
    let at_ := pc.toNat / 64 * 64
    let tail := line / 2 ^ (8 * (64 - total (slot + 1))) % 2 ^ (8 * len slot)
    (validTarget pc = true ↔ pc.toNat / 2 ^ 57 = 0 ∧ pc.toNat % 2 = 0 ∧ pc.toNat % 64 ≠ 0 ∧ pc.toNat % 64 ≠ 62) ∧
    (validTarget pc = true → slot ≤ 29 ∧ pc.toNat = at_ + 2 + 2 * slot) ∧
    (¬ sound → instrAt line pc = .error (cILLEGAL_LINE, BitVec.ofNat 64 at_)) ∧
    (sound → n ≤ slot → instrAt line pc = .error (cILLEGAL_TARGET, pc)) ∧
    (sound → slot < n →
      (decode (head slot) tail = .error .opcode → instrAt line pc = .error (cILLEGAL_OPCODE, BitVec.ofNat 64 (head slot))) ∧
      (decode (head slot) tail = .error .format → instrAt line pc = .error (cILLEGAL_FORMAT, BitVec.ofNat 64 (head slot))) ∧
      (∀ b, decode (head slot) tail = .error (.field b) →
        instrAt line pc = .error (cILLEGAL_FIELD, BitVec.ofNat 64 (head slot + b * 2 ^ 16))) ∧
      (∀ i, decode (head slot) tail = .ok i →
        instrAt line pc = .ok (i, if slot + 1 = n then BitVec.ofNat 64 (at_ + 66) else pc + 2)))

/-- R100 to R106, R118, R120, R124, R238: at a core's turn, when the line at the PC of the group that runs there (in the instruction
cache, or read through a translation that allows fetching) decodes to an instruction, the step is `exec` of that instruction
in the state in which the group knows its link, and what every agent sees at once after it; where the line gives a fault
instead, the step takes that trap. While the line of the predicates and loop counters or that of the trap registers lies in the slot
the group stalls for its refill (R179: DEDUCED, log 92). A ring instruction lets the matrix unit's updates of the same aclk go first; at the end of an
fclk the step is the passing of time. (That the turn comes is the schedule's choice, log 3.) -/
def Obligations.StepRunsDecodedInstruction : Prop :=
  (∀ s : State, s.clk.closing = true → step s = .next s.passTime) ∧
  ∀ (s u : State) (g : Machine.Group) (core line : Nat) (d' : Dev), s.clk.closing = false → s.pop = (.issue core, u) →
    { u.dev with cur := core }.current = some g → g.notBefore ≤ u.clk.aclk → u.dev.rollsBack g = false →
    (∀ n, u.dev.coreLine g = some n →
      step s = .next ({ u with dev := u.dev.setGroup { g with stall := .refill n, notBefore := u.clk.aclk + 1 } }.settled u.dev)) ∧
    (u.dev.coreLine g = none ↔ g.lineHere (u.dev.env u.clk g) 2 ∧ g.lineHere (u.dev.env u.clk g) 4) ∧
    (u.dev.coreLine g = none → g.trapDue = false → g.consort = .none →
    u.dev.codeLine u.clk g core = .ok (d', line) →
    (∀ i link t, instrAt line g.arch.pc = .ok (i, link) →
      let h : Machine.Group := { g with link := link }
      (u.ringWaits h i = true → step s = .next u) ∧
      (u.ringWaits h i = false → exec i { u with dev := { d'.setGroup h with cur := core } } = .next t →
        step s = .next (t.settled u.dev))) ∧
    (∀ c v, instrAt line g.arch.pc = .error (c, v) →
      step s = .next ({ u with dev := d'.takeTrap u.clk g c v g.arch.pc false false }.settled u.dev)) ∧
    (∀ i h, (∀ gd t, i ≠ .rpush gd t ∧ i ≠ .rpop gd t) → u.ringWaits h i = false) ∧
    (∀ l, (u.dev.core core).icache.find (g.arch.pc.toNat / 64) = some l → d' = u.dev ∧ line = l.toNat))

/-- What reset leaves (R58, R64, R337, R389, R89): no group, launch or queue entry, memory with nothing listed, the health
window at its reset values, and the device not yet started: HSTAT.STATE 0, thresholds 2 and 64, aclk at 600 MHz; the MSI-X
entries are masked (log 14). Values without a rule are the model's (log 2). The premises of `StepKeepsClock` hold at
reset. -/
def Obligations.ResetState : Prop :=
  (
  let d := State.reset.dev
  State.reset.clk.mhz = 600 ∧ State.reset.clk.closing = false ∧ d.groups = [] ∧ d.launches = [] ∧ d.ms.mem = [] ∧ Memory.wf d.ms.mem = true ∧ d.ms.l2 = [] ∧ d.ms.sram = [] ∧
  (∀ c, d.core c = Core.reset) ∧ (∀ p, d.part p = Part.reset ∧ Part.reset.plbase = 0 ∧ Part.reset.pclus = 0 ∧ Part.reset.err = 0) ∧
  LQueue.reset.head = 0 ∧ LQueue.reset.tail = 0 ∧ LQueue.reset.state = 0 ∧ LQueue.reset.errCode = 0 ∧ LQueue.reset.log2n = 4 ∧
  (∀ p c, d.ctx p c = Ctx.reset) ∧ Ctx.reset.latched = none ∧ Ctx.reset.fqHead = 0 ∧ Ctx.reset.fqTail = 0 ∧ Ctx.reset.fqLost = 0 ∧
  d.hstate = 0 ∧ d.bootErr = 0 ∧ d.uncTh = 2 ∧ d.corTh = 64 ∧ d.hcorr = 0 ∧ d.hunc = 0 ∧ d.hgang = 0 ∧
  (∀ k, d.msixWord (2 * k + 1) = BitVec.ofNat 64 (2 ^ 32)) ∧
  (∀ pc x3 strict,
    let a := Arch.reset pc x3 strict
    a.pc = pc ∧ a.xr 3 = x3 ∧ (∀ n, n ≠ 3 → a.xr n = 0) ∧ (∀ n, a.vr n = 0) ∧ a.wr 0 = BitVec.allOnes 128 ∧ (∀ n, 0 < n → a.wr n = 0) ∧
    (∀ n, a.qr n = true) ∧ (∀ n, a.lcr n = 0) ∧ a.k.strict = strict ∧ a.k.inTrap = false ∧ a.k.vec = 0 ∧ a.m.fa = 10 ∧ a.m.fb = 10 ∧
    a.ls = [] ∧ a.acc = [] ∧ (∀ n, a.flag n = false))) ∧
  (
  State.reset.clk.phase < 1200 ∧ 300 ≤ State.reset.clk.mhz ∧ State.reset.clk.mhz ≤ 600 ∧ State.reset.clk.mhz % 25 = 0)

/-- The clock never leaves the range of R390 (300 to 600 MHz in steps of 25) nor the fraction its bound, and neither count
runs backwards, whatever the step. Only THROTTLE_DOWN and THROTTLE_UP change a clock, and POWER_UP, which puts aclk back
at 600 MHz (R387, R390); no instruction and no other step of an agent does, and none changes the schedule (log 3). -/
def Obligations.StepKeepsClock : Prop :=
  (
  ∀ (s t : State), s.clk.phase < 1200 → 300 ≤ s.clk.mhz → s.clk.mhz ≤ 600 → s.clk.mhz % 25 = 0 → step s = .next t →
    t.clk.phase < 1200 ∧ 300 ≤ t.clk.mhz ∧ t.clk.mhz ≤ 600 ∧ t.clk.mhz % 25 = 0 ∧
    s.clk.fclk ≤ t.clk.fclk ∧ t.clk.fclk ≤ s.clk.fclk + 1 ∧ s.clk.aclk ≤ t.clk.aclk ∧ t.clk.aclk ≤ s.clk.aclk + 1) ∧
  (
  ∀ (i : Instr) (s t : State), exec i s = .next t →
    t.agenda = s.agenda ∧ t.nchoice = s.nchoice ∧ t.clk.fclk = s.clk.fclk ∧ t.clk.aclk = s.clk.aclk ∧ t.clk.phase = s.clk.phase ∧
    t.clk.closing = s.clk.closing ∧
    (i ≠ .throttleDown → i ≠ .throttleUp → (∀ b, i ≠ .powerUp b) → t.clk = s.clk) ∧
    (∀ b, i = .powerUp b → t.clk = { s.clk with mhz := 600 }))

/-! ## Memory (08_memory R183, R304; 20 R362) -/

/-- R183, R198, R304, R362: a store of n bytes under a mask at a place, where no unit concerned is poisoned, is seen by every
later read of that place byte for byte, and leaves every other byte of that place as it was; a store to a slice or an
engine leaves what every other place reads alone; memory behind the caches stays in its canonical form. A store that
covers a poisoned unit only in part writes no byte at all. Reads and writes of a memory in canonical form: a write is read
back, leaves every other address alone and keeps the form, and two memories that read alike are equal. -/
def Obligations.MemoryReadsWhatWasStored : Prop :=
  (
  ∀ (ms : MemSys) (pl : Place) (cmp : Bool) (asid : BitVec 12) (pa n v mask : Nat), n ≤ 256 → pa + n ≤ 2 ^ 52 → ms.mem.wf = true →
    let t := ms.writeAt pl cmp asid pa n v mask
    t.mem.wf = true ∧
    ((∀ i < n, ms.poisonAt pl (pa + i) = false) →
      (∀ i < n, t.byteAt pl (pa + i) = if nbit mask i then BitVec.ofNat 8 (v / 256 ^ i) else ms.byteAt pl (pa + i)) ∧
      (∀ b, b < 2 ^ 52 → b < pa ∨ pa + n ≤ b → t.byteAt pl b = ms.byteAt pl b) ∧
      (∀ i < n, t.poisonAt pl (pa + i) = false)) ∧
    (∀ pl' b, b < 2 ^ 52 → pl' ≠ pl → pl ≠ .control → (∀ k, pl ≠ .remote k) → t.byteAt pl' b = ms.byteAt pl' b) ∧
    (ms.partPoison pl pa mask (n / 16 + 2) n = true → t = ms)) ∧
  (
  ∀ (m m' : Memory) (a : Nat) (b : Byte), m.wf = true → m'.wf = true →
    (m.write a b).wf = true ∧ (m.write a b).read a = b ∧ (∀ c, c ≠ a → (m.write a b).read c = m.read c) ∧
    ((∀ c, m.read c = m'.read c) → m = m'))

/-! ## The host's registers, contexts and replies (03_launching R58 to R66, R79; 17 R335, R337, R344; 21 R375 to R389) -/

/-- R58, R59, R64 to R66, R337, R344, R389: what a write of each launch-control and health register does, and when it is
ignored or rejected with its error code; `CONTROL_REGISTER_WRITE` at the register's offset (R375) is the same write, and that of
LQBASE and LQSIZE. (That "every entry has VALID = 0" is read of the list in memory when the register is written, an entry that is
latched still counting as valid: DEDUCED, log 24.) -/
def Obligations.HostRegisterWrites : Prop :=
  ∀ (s : State) (p c q core word : Nat) (v : Word), p < 16 → c < 64 → q < 8 → core < 4096 → word < 7 →
    let d := s.dev
    let does (i : Instr) (d' : Dev) : Prop := exec i s = .next { s with dev := d' }
    let same (o : Nat) (w : Word) (i : Instr) : Prop := exec (.controlRegisterWrite o w) s = exec i s
    let clear (p : Nat) : Prop := ∀ k < 64, (d.ctx p k).latched = none ∧ nbit (d.runEntry p k) 399 = false
    let empty : Prop := clear p
    let pt := d.part p
    let err (n : Nat) : Dev := d.setPart p { pt with err := BitVec.ofNat 8 n }
    let x := d.lqueue p c q
    let t : BitVec 32 := v.setWidth 32
    let room := 2 ^ x.log2n - (x.tail - x.head).toNat
    let qerr (n : Nat) : Dev := d.setQueue p c q { x with errCount := satInc16 x.errCount, errCode := BitVec.ofNat 8 n, errIndex := t }
    (v.toNat / 2 ^ 52 ≠ 0 ∨ v.toNat % 4096 ≠ 0 → does (.plbaseWrite p v) d) ∧
    (v.toNat / 2 ^ 52 = 0 → v.toNat % 4096 = 0 → (empty → does (.plbaseWrite p v) (d.setPart p { pt with plbase := v })) ∧
      (¬ empty → does (.plbaseWrite p v) (err 1))) ∧
    (let taken : Prop := ∃ k < 16, k ≠ p ∧ (d.part k).pclus &&& v ≠ 0
     (empty → ¬ taken → does (.pclusWrite p v) (d.setPart p { pt with pclus := v })) ∧
     (¬ empty ∨ taken → does (.pclusWrite p v) (err 1))) ∧
    does (.pstatWrite p v) (err 0) ∧ does (.pdmgctxWrite p) (d.setPart p { pt with dmgCtx := 0 }) ∧
    (v.toNat / 2 ^ 32 ≠ 0 → does (.lqtailWrite p c q v) d) ∧
    (v.toNat / 2 ^ 32 = 0 →
      (x.state ≠ 1 → does (.lqtailWrite p c q v) (qerr 6)) ∧
      (x.state = 1 → 2 ^ 31 < (t - x.tail).toNat → does (.lqtailWrite p c q v) (qerr 5)) ∧
      (x.state = 1 → (t - x.tail).toNat ≤ 2 ^ 31 → room < (t - x.tail).toNat → does (.lqtailWrite p c q v) (qerr 4)) ∧
      (x.state = 1 → (t - x.tail).toNat ≤ 2 ^ 31 → (t - x.tail).toNat ≤ room →
        does (.lqtailWrite p c q v) (d.setQueue p c q { x with tail := t }))) ∧
    (x.state = 0 ∨ x.state = 3 → does (.lqctlEn p c q)
      { d.setQueue p c q { x with state := 1, head := 0, tail := 0, held := none } with
        grants := d.grants.filter fun e => !(e.1 = p && e.2.1 = c && e.2.2.1 = q) }) ∧
    (x.state ≠ 0 → x.state ≠ 3 → does (.lqctlEn p c q) d) ∧ (x.state ≠ 1 → does (.lqctlTear p c q) d) ∧
    does (.lqerrWrite p c q) (d.setQueue p c q { x with errCount := 0, errCode := 0, errIndex := 0 }) ∧
    does (.fqtailWrite p c) (d.setCtx p c { d.ctx p c with fqLost := 0 }) ∧
    does (.hstatWrite v) (if v.getLsbD 4 then { d with linkdn := false } else d) ∧
    does .horphRead ({ d with orphans := d.orphans.drop 1 }.send (.hostData (toBytes d.horph.toNat 8) false)) ∧
    does .hcorrWrite { d with hcorr := 0 } ∧ does .huncWrite { d with hunc := 0 } ∧ does .hpermitWrite { d with hpermit := 0 } ∧
    ((∀ k < 16, clear k) →
      let kept := v.toNat / 2 ^ 32 * 2 ^ 32 + v.toNat / 2 ^ 16 % 2 ^ 6 * 2 ^ 16 + v.toNat % 2 ^ 6
      does (.hgangWrite v) { d with hgang := BitVec.ofNat 64 kept }) ∧
    ((∃ k < 16, ¬ clear k) → does (.hgangWrite v) d) ∧
    (let base := 0x40000 * p + 0x800 * c + 0x100 * q
     let shut : Prop := x.state = 0 ∨ x.state = 3
     let room : Prop := v.toNat / 2 ^ 52 = 0 ∧ v.toNat % 4096 = 0
     let size : Prop := 4 ≤ v.toNat ∧ v.toNat ≤ 16
     (shut → room → does (.controlRegisterWrite base v) (d.setQueue p c q { x with base := v })) ∧
     (¬ shut ∨ ¬ room → does (.controlRegisterWrite base v) d) ∧
     (shut → size → does (.controlRegisterWrite (base + 8) v) (d.setQueue p c q { x with log2n := v.toNat })) ∧
     (¬ shut ∨ ¬ size → does (.controlRegisterWrite (base + 8) v) d)) ∧
    same (0x40000 * p + 0x20000) v (.plbaseWrite p v) ∧ same (0x40000 * p + 0x20008) v (.pclusWrite p v) ∧
    same (0x40000 * p + 0x20010) v (.pstatWrite p v) ∧ same (0x40000 * p + 0x20020) v (.pdmgctxWrite p) ∧
    same (0x40000 * p + 0x800 * c + 0x100 * q + 0x18) v (.lqtailWrite p c q v) ∧
    same (0x40000 * p + 0x800 * c + 0x100 * q + 0x20) 1 (.lqctlEn p c q) ∧
    same (0x40000 * p + 0x800 * c + 0x100 * q + 0x20) 2 (.lqctlTear p c q) ∧
    same (0x40000 * p + 0x800 * c + 0x100 * q + 0x28) v (.lqerrWrite p c q) ∧
    same (0x40000 * p + 0x21000 + 0x40 * c + 0x08) v (.fqtailWrite p c) ∧
    same (0x40000 * p + 0x21000 + 0x40 * c + 0x20) 0 (.fqReplyRetry p c) ∧
    same (0x40000 * p + 0x21000 + 0x40 * c + 0x20) 1 (.fqReplyResume p c) ∧
    same (0x40000 * p + 0x21000 + 0x40 * c + 0x20) 2 (.fqReplyAbort p c) ∧
    same 0x2000000 v (.hstatWrite v) ∧ same 0x2000010 v .hcorrWrite ∧ same 0x2000018 v .huncWrite ∧ same 0x2000020 v .hpermitWrite ∧
    same 0x2000038 v (.hgangWrite v) ∧ same (0x1000000 + 64 * core + 8 * word) v (.queueWindowStage core word v) ∧
    does (.controlRegisterWrite 0x2000028 v) { d with uncTh := v.extractLsb' 16 16, corTh := v.extractLsb' 0 16 } ∧
    does (.controlRegisterWrite (0x40000 * p + 0x21000 + 0x40 * c + 0x10) v) (d.setCtx p c { d.ctx p c with fqTick := v }) ∧
    does (.controlRegisterWrite (0x40000 * p + 0x21000 + 0x40 * c + 0x18) v) (d.setCtx p c { d.ctx p c with fqVal := v })

/-- R61, R62, R79, R335: a write of VALID 0 to 1 is refused with error 4 while the context retires, clears VALID again with
error 2 where validation fails, and otherwise latches the entry; retirement and teardown begin at the register writes and end,
with their queues closed, once no launch is left; the replies resume a suspended group (RETRY at its PC; RESUME after an `svc`
with xD written, where an earlier producer's value may stand instead of the reply's word by word (R126), or after a `halt`; the
loop counters are those of its slot, R143, R335) as a parked group that is ready now, or end it, and a reply that names none does
nothing. What the reads of an entry and its tables take back from the host is R376. -/
def Obligations.ContextsAndReplies : Prop :=
  ∀ (s : State) (p c q : Nat), p < 16 → c < 64 → q < 8 →
    let d := s.dev
    let does (i : Instr) (d' : Dev) : Prop := exec i s = .next { s with dev := d' }
    let x := d.ctx p c
    (nbit (d.runEntry p c) 399 = false →
      (x.retiring = true → does (.entryValidate p c) ((d.setValid p c false).setErr p 4)) ∧
      (x.retiring = false →
        let d1 := (d.setValid p c true).askedPhys (d.entryPa p c) 64
        (d1.validate p c (d1.runEntry p c) = none → does (.entryValidate p c) ((d1.setValid p c false).setErr p 2)) ∧
        (∀ l, d1.validate p c (d1.runEntry p c) = some l →
          does (.entryValidate p c) ((((d1.askedHeader p l).askedPages l l.backing (0x10000 + l.nslot * 0x100000)).askedPages l l.pool (l.poolsz * 1024)).setCtx p c
            { d.ctx p c with latched := some l, damaged := false, readySince := none, lastQueue := 7 })))) ∧
    (∀ (e : Dev) a n l, (e.hostLines = [] → e.upsets = [] → e.askedPhys a n = e ∧ e.askedPages l a n = e) ∧
      ∀ f ∈ [e.askedPhys a n, e.askedPages l a n, e.askedHeader p l], f.groups = e.groups ∧ f.launches = e.launches ∧ f.cores = e.cores ∧
        f.ms = { e.ms with draw := f.ms.draw }) ∧
    (∀ e l, d.validate p c e = some l →
      l.ptroot = nbits e 0 64 ∧ l.backing = nbits e 64 64 ∧ l.asid.toNat = nbits e 384 12 ∧ l.pool = nbits e 192 64 ∧
      l.poolsz = nbits e 256 32 ∧ l.poolsz % 64 = 0 ∧ l.pool % 0x10000 = 0 ∧ l.backing % 0x10000 = 0 ∧ l.ptroot % 4096 = 0 ∧
      1 ≤ nbits e 352 32 ∧ nbits e 352 32 ≤ 1000000 ∧
      (nbits e 320 32 = 0 ∨ (20 ≤ nbits e 320 32 ∧ nbits e 320 32 ≤ 1000000)) ∧ nbits e 400 112 = 0 ∧
      4 * (d.cellList p).length ≤ l.nslot) ∧
    (x.latched.isSome = true → x.retiring = false → does (.contextRetire p c) (d.retireCtx p c)) ∧
    (∀ l, x.latched = some l → x.retiring = true → d.launchesOf p c = [] →
      ∃ t, exec (.contextRetirementEnd p c) s = .next t ∧ t.dev.ctx p c = { x with latched := none, retiring := false, poolUsed := 0,
                                                                                   damaged := false, readySince := none, lastQueue := 7 } ∧
        (t.dev.lqueue p c q).state = 3 ∧ (t.dev.part p).running = (if (d.part p).running = some c then none else (d.part p).running)) ∧
    (let y := d.lqueue p c q
     (y.state = 2 → x.retiring = false → (∀ kl ∈ d.launchesOf p c, kl.2.queue ≠ q) →
       does (.teardownEnd p c q) (d.setQueue p c q { y with state := 3 })) ∧
     (y.state = 1 → (∀ kl ∈ d.launchesOf p c, kl.2.queue ≠ q) →
       does (.lqctlTear p c q) (d.setQueue p c q { y with state := 2, head := y.tail, held := none }))) ∧
    (d.suspendedAt p c x.fqTick = none → does (.fqReplyRetry p c) d ∧ does (.fqReplyResume p c) d ∧ does (.fqReplyAbort p c) d) ∧
    (∀ g u, d.suspendedAt p c x.fqTick = some g → g.suspended = some u →
      let back (h : Machine.Group) : Dev :=
        d.setGroup { h with status := .parked, stall := .none, suspended := none, readyAt := some s.clk.fclk }
      does (.fqReplyRetry p c) (back g) ∧ does (.fqReplyAbort p c) (d.endGroup s.clk.fclk g 0 0 0 false) ∧
      (u.cause ≠ 21 → u.cause ≠ 22 → does (.fqReplyResume p c) (back g)) ∧
      let k := d.withCounters g
      let reads : Prop := (u.cause = 21 ∨ u.cause = 22) ∧ 2 ∈ g.linesOut ∧ ∃ i < 2, (g.arch.loopAt i).active = true
      let e := d.askedLines g (if g.readsCounters then [2] else [])
      let went (h : Machine.Group) : Dev := e.setGroup { h with status := .parked, stall := .none, suspended := none, readyAt := some s.clk.fclk }
      (e.launches = d.launches ∧ e.cores = d.cores ∧ e.groups = d.groups ∧ e.ms = { d.ms with draw := e.ms.draw }) ∧
      (¬ reads → k = g ∧ e = d) ∧
      (∀ v bad, reads → d.slotLine g 2 = some (v, bad) → k = { g with arch := refillArch g.arch 2 v bad }) ∧
      (u.cause = 22 → does (.fqReplyResume p c) (went ({ k with link := u.link }.goesOn s.clk.aclk u.link 1))) ∧
      (u.cause = 21 → u.dest = 0 → does (.fqReplyResume p c) (went ({ k with link := u.link }.goesOn s.clk.aclk u.link 1))) ∧
      (u.cause = 21 → u.dest ≠ 0 →
        ∃ v, (u.clash = false → v = x.fqVal.toNat) ∧
          (∀ i < 2, nbits v (32 * i) 32 = nbits x.fqVal.toNat (32 * i) 32 ∨ nbits v (32 * i) 32 = nbits (k.arch.reg (.x u.dest)) (32 * i) 32) ∧
          let a := k.arch.setReg (.x u.dest) v
          let wrote := { a with regPoison := k.arch.regPoison.filter (fun p => !(p.1 == .x u.dest))
                                toks := k.arch.toks.map (markClash (.x u.dest)) }
          let h : Machine.Group := { k with arch := wrote, link := u.link, nfree := if u.clash then k.nfree + 2 else k.nfree }
          does (.fqReplyResume p c) (went (h.goesOn s.clk.aclk u.link 1))))

/-! ## The device's outside (20 R362 to R373; 21_outside R374 to R390) -/

/-- R376, R379, R381, R388: the host's memory accesses. A read within the HDM range sends the bytes at their homes and an
error where one is poisoned, the correctable errors that it finds are corrected (R369), and the host may keep those lines,
outside it zeros with an error; a write within the range stores its bytes (and acts on VALID bits among them, which
`ContextsAndReplies` states) and takes no line back from the host, while a device's write takes the lines it touches back
first and is lost and counted where their memory cannot be reached; an atomic is refused with an error and writes nothing;
a snoop of a line that no slice holds sends no data, and after one that invalidates the line holds what the host writes
there (free bytes: log 6). An attestation report holds the nonce first and is signed. R382, R383, R385, R386, R303, R377:
what a port does with a flit (a broken one is answered by a NAK, one out of order by the last ACK (log 53), one in order
is acknowledged and, for another package, sent on, but not through a port that is down), with a NAK (16 replays of one
flit that no ACK of it ends make the port retrain), an ACK and the end of retraining, and when it goes down; the gang's
messages (their forms are logs 60 and 74; what a flit for this package carries arrives as such a message or request); and
the reads of other packages, answered to the package that asks (R303, R376, R382). -/
def Obligations.HostMemoryAndLinks : Prop :=
  (
  ∀ (s : State) (addr n : Nat) (bytes nonce : List Byte) (inv : Bool),
    let d := s.dev
    let does (i : Instr) (d' : Dev) : Prop := exec i s = .next { s with dev := d' }
    (addr + n ≤ 0x7FFF000000 →
      let e := d.foundPhys addr n
      (d.upsets = [] → e = d) ∧ e.ms = d.ms ∧ (∀ t ∈ e.upsets, t ∈ d.upsets) ∧
      ∃ bs, does (.hostCxlMemRead addr n)
        ({ e with hostLines := (d.hostCaches addr n).hostLines }.send (.hostData bs (d.physBad addr n))) ∧ bs.length = n ∧
        (∀ l, l ∈ (d.hostCaches addr n).hostLines ↔ l ∈ d.hostLines ∨ n ≠ 0 ∧ addr / 64 ≤ l ∧ l ≤ (addr + n - 1) / 64) ∧
        ∀ i < n, bs[i]? = some (d.ms.byteAt (d.physPlace (addr + i)) (addr + i))) ∧
    (0x7FFF000000 < addr + n → does (.hostCxlMemRead addr n) (d.send (.hostData (List.replicate n 0) true))) ∧
    (0x7FFF000000 < addr + bytes.length → does (.hostCxlMemWrite addr bytes) (d.send (.hostData [] true))) ∧
    (addr + bytes.length ≤ 0x7FFF000000 → d.entriesIn addr bytes.length = [] →
      let alone : Dev := { d with hostLines := [] }
      does (.hostCxlMemWrite addr bytes) { alone.physStore addr bytes (bytes.length + 1) with hostLines := d.hostLines } ∧
      (bytes ≠ [] → addr % 64 + bytes.length ≤ 64 →
        does (.hostCxlMemWrite addr bytes) (if d.reachable addr then
          { d with ms := d.ms.writeAt (d.physPlace addr) false 0 addr bytes.length (ofBytes bytes) (2 ^ bytes.length - 1) }
          else { d with hunc := satInc64 d.hunc }))) ∧
    (let hit (l : Nat) : Prop := addr / 64 ≤ l ∧ l ≤ (addr + (n - 1)) / 64
     let t := d.physWrite addr n (ofBytes bytes)
     (d.reachable addr = false → t = { d with hunc := satInc64 d.hunc }) ∧
     (d.reachable addr = true → (∀ l, l ∈ t.hostLines ↔ l ∈ d.hostLines ∧ ¬ hit l) ∧
       (∀ l ∈ d.hostLines, hit l → OutMsg.backInval l ∈ t.out) ∧
       t.ms = d.ms.writeAt (d.physPlace addr) false 0 addr n (ofBytes bytes) (2 ^ n - 1))) ∧
    does (.hostAtomic addr) (d.send (.hostData [] true)) ∧
    ((∀ kl ∈ d.ms.l2, kl.1 % 2 ^ 44 ≠ (0x800000000000 + addr / 64 * 64) / 256) →
      let d1 := d.send (.snoopData [] false)
      does (.hostSnoop addr inv) (if inv then d1.hostWrites (0x800000000000 + addr / 64 * 64) else d1)) ∧
    (∃ t, exec (.hostSnoop addr inv) s = .next t ∧ t.dev.groups = d.groups ∧ t.dev.launches = d.launches ∧ t.dev.cores = d.cores) ∧
    (∃ body, does (.attestationRequest nonce) (d.send (.report body (Config.signature body))) ∧ body.take nonce.length = nonce)) ∧
  (
  ∀ (s : State) (port seq : Nat) (flit : List Byte) (p c q pos field digest launch dom pkg pa n : Nat) (sync : Bool),
    let d := s.dev
    let does (i : Instr) (d' : Dev) : Prop := exec i s = .next { s with dev := d' }
    let x := d.port port
    (port < 6 → x.up = true → x.retraining = none →
      (flitSound flit = false → does (.flitReceive port flit) (d.send (.nak port x.recvSeq))) ∧
      (flitSound flit = true → flitSeq flit ≠ x.recvSeq →
        does (.flitReceive port flit) (d.send (.ack port ((x.recvSeq + 4095) % 4096)))) ∧
      (flitSound flit = true → flitSeq flit = x.recvSeq →
        let d1 := (d.setPort port { x with recvSeq := (x.recvSeq + 1) % 4096 }).send (.ack port x.recvSeq)
        (flitDst flit = d.pkg → does (.flitReceive port flit) d1) ∧
        (flitDst flit ≠ d.pkg → does (.flitReceive port flit) (d1.sendFlit (d.routes.getD (flitDst flit) 0) flit))) ∧
      (∃ t, exec (.nakReceive port seq) s = .next t ∧ t.dev.ms = d.ms ∧
        (let again := fromSeq seq x.retry
         let r := replayed x.replays again
         t.dev.ports = (d.setPort port { x with replays := r
                                                retraining := if again.any (fun f => 16 ≤ r.getD f.1 0) then some s.clk.fclk else none }).ports) ∧
        t.dev.out = d.out ++ (fromSeq seq x.retry).map fun f => .flit port f.2)) ∧
    (port < 6 → x.up = true → does (.ackReceive port seq) (d.setPort port
      { x with retry := afterSeq seq x.retry
               replays := x.replays.filter fun r => (afterSeq seq x.retry).any (·.1 == r.1) })) ∧
    (∀ f, x.up = false → d.sendFlit port f = d) ∧ (∀ (m : Tab Nat) (fs : List (Nat × List Byte)) (f : Nat × List Byte), f.1 ∉ fs.map (·.1) →
      (replayed m (f :: fs)).getD f.1 0 = m.getD f.1 0 + 1) ∧
    (∀ at_, x.retraining = some at_ →
      (s.clk.fclk ≤ at_ + 120000 → does (.portRetrainComplete port) (d.setPort port { x with retraining := none, replays := [] })) ∧
      (port < 6 → x.up = true → at_ + 120000 ≤ s.clk.fclk →
        ∃ t, exec (.portDown port) s = .next t ∧ (t.dev.port port).up = false ∧ t.dev.linkdn = true)) ∧
    (d.inGang = true → d.pkg ≠ 0 → p < 16 → c < 64 → q < 8 →
      does (.launchGrantReceive p c q pos field digest) { d with grants := d.grants ++ [(p, c, q, pos, field, digest)] }) ∧
    (∀ dm, d.gangDom launch dom pkg = some dm →
      (pkg ∉ dm.readies → does (.readyReceive launch dom pkg) (d.modDom launch dom fun y => { y with readies := pkg :: dm.readies })) ∧
      (pkg ∉ dm.markers → (pkg :: dm.markers).length < d.gangSize - 1 →
        does (.logEndMarkerReceive launch dom pkg) (d.modDom launch dom fun y => { y with markers := pkg :: dm.markers, sentReady := false })) ∧
      (pkg ∉ dm.markers → (pkg :: dm.markers).length = d.gangSize - 1 →
        let d1 := d.modDom launch dom fun y => { y with markers := pkg :: dm.markers, sentReady := true }
        does (.logEndMarkerReceive launch dom pkg) { d1 with out := d1.out ++ d.otherPkgs.map fun k => .ready k launch dom })) ∧
    (pa + n ≤ 0x7FFF000000 →
      let pl := d.windowPlace pa sync
      let x : Xlat := ⟨pa, pl, if sync then 1 else 0, false, none, 0⟩
      let e := (d.backInval pa n).foundAt x n
      d.reachable pa = true →
      ∃ bad : Bool, (bad = true ↔ ∃ i < n, d.ms.poisonAt pl (pa + i) = true) ∧
        does (.remoteRequest (.load pkg pa n sync)) (e.send (.answer pkg (toBytes (d.ms.readAt pl pa n) n) bad))))

/-- R362, R364, R369 to R373, R381, R387, R389, R390: errors are counted, mended and spread as the rules give; a worn cell is
retired and REPLACE is set, once each deterministic launch that it would move between fret domains computes in both (DESIGN CHOICE,
log 48); each die is tuned every 10 ms; the clock moves by 25 MHz within 300 and 600 while power or heat is beyond its limit, or is not
any more; overheating ends in STATE 4 and so does a start-up that fails, with its error code. The watchdog's expiry, which
no rule gives an effect, stops the model (log 8). That HUNC counts at the upset and HCORR at the repair is log 49. -/
def Obligations.HealthAndPower : Prop :=
  ∀ (s : State) (u : UpsetTarget) (k cell frame port : Nat) (b : BootInput),
    let d := s.dev
    let does (i : Instr) (d' : Dev) : Prop := exec i s = .next { s with dev := d' }
    (u.correctable = true → does (.softError u) { d with upsets := d.upsets ++ [u] }) ∧
    (u.correctable = false →
      ∃ t, exec (.softError u) s = .next t ∧ t.dev.hunc = satInc64 d.hunc ∧
        (∀ sec, u.unit = .mem sec → sec ∈ t.dev.ms.poison) ∧
        (∀ gid w g, u.unit = .ls gid w → d.groups.find gid = some g → g.gid = gid →
          ∃ h, t.dev.groups.find gid = some h ∧ w ∈ h.arch.lsPoison ∧ h.arch.ls = g.arch.ls)) ∧
    (∀ x, d.upsets[k]? = some x → (∀ gid file n, x.unit ≠ .reg gid file n) →
      ∃ t, exec (.correctableErrorRepair k) s = .next t ∧ t.dev.hcorr = Nat.repeat satInc64 (d.upsets.count x) d.hcorr ∧
        t.dev.upsets = d.upsets.filter (· ≠ x) ∧ t.dev.ms = d.ms ∧ t.dev.groups = d.groups) ∧
    (∀ x gid file n, d.upsets[k]? = some x → x.unit = .reg gid file n →
      ∃ t, exec (.correctableErrorRepair k) s = .next t ∧ t.dev.hcorr = Nat.repeat satInc64 (d.upsets.count x) d.hcorr ∧
        t.dev.upsets = d.upsets.filter (· ≠ x) ∧ t.dev.ms = d.ms ∧
        ∀ g, d.groups.find gid = some g → g.gid = gid →
          t.dev.groups.find gid = some { g with notBefore := max g.notBefore (s.clk.aclk + 4) }) ∧
    (∀ die < 2, ∀ last other, d.lastAudit.toList[die]? = some last → d.lastAudit.toList[1 - die]? = some other →
      last < other ∨ last = other ∧ die = 0 → last + 12000000 ≤ s.clk.fclk →
      ∃ t, exec .tuningPass s = .next t ∧ t.dev.lastAudit = d.lastAudit.setIfInBounds die s.clk.fclk ∧
        t.dev.cellCorr = d.cellCorr.filter (fun c => dieOfCell c.1 ≠ die) ∧ d.hpermit.toNat ≤ t.dev.hpermit.toNat) ∧
    (d.worn cell = true → (∃ kl ∈ d.launches, d.mayMove cell kl.2 = false) → exec (.cellRetire cell) s = .refused .notEnabled) ∧
    (d.worn cell = true → (∀ kl ∈ d.launches, d.mayMove cell kl.2 = true) →
      ∃ t, exec (.cellRetire cell) s = .next t ∧ cell ∈ t.dev.retired ∧ t.dev.replace = true ∧ d.siteOf.getD cell cell ∈ t.dev.retireList) ∧
    (d.overPower s.clk.fclk = true ∨ d.tooHot = true → 300 < s.clk.mhz →
      ∃ t, exec .throttleDown s = .next t ∧ t.clk = { s.clk with mhz := max 300 (s.clk.mhz - 25) }) ∧
    (d.overPower s.clk.fclk = false → d.tooHot = false → s.clk.mhz < 600 →
      ∃ t, exec .throttleUp s = .next t ∧ t.clk = { s.clk with mhz := min 600 (s.clk.mhz + 25) }) ∧
    (105 < d.temp.toNat → d.hstate ≠ 4 → ∃ t, exec .overheatStop s = .next t ∧ t.dev.hstate = 4) ∧
    (frame ∈ d.quarantine → does (.quarantineRelease frame) { d with quarantine := d.quarantine.filter (· ≠ frame) }) ∧
    (port < 4 → d.cxlUp.toList.getD port false = true →
      ∃ t, exec (.cxlDeviceFailed port) s = .next t ∧ t.dev.cxlUp = d.cxlUp.setIfInBounds port false ∧ t.dev.linkdn = true) ∧
    (∃ t, exec (.powerUp b) s = .next t ∧ t.clk = { s.clk with mhz := 600 } ∧ t.dev.groups = [] ∧ t.dev.launches = [] ∧ t.dev.ms = MemSys.reset ∧ t.dev.cores = [] ∧
      t.dev.retireList = d.retireList ∧
      (b.a.signed = false → b.b.signed = false → t.dev.bootErr = 1 ∧ t.dev.hstate = 4) ∧
      (∀ c : BootCopy, (b.a.signed = true ∧ c = b.a) ∨ (b.a.signed = false ∧ b.b.signed = true ∧ c = b.b) →
        t.dev.firmware = c.firmware ∧
        (c.keysMatch = false → t.dev.bootErr = 2 ∧ t.dev.hstate = 4) ∧
        (c.keysMatch = true → c.security < c.minimum → t.dev.bootErr = 3 ∧ t.dev.hstate = 4) ∧
        (c.keysMatch = true → c.minimum ≤ c.security → t.dev.bootErr = 0 ∧ t.dev.hstate = 3))) ∧
    exec .watchdogExpiry s = .fault .watchdogEffectNotGiven

/-! ## Launches, placing and retirement (03_launching R63 to R77; 04_placing R82 to R97; 20 R356 to R361) -/

/-- R69 to R72, R65, R393: what an acceptance round does with a queue head: a record is validated once; an invalid one is
rejected with status 2 and code 1 (code 3 and no record where its completion address does not translate); a predecessor
that failed gives status 1, one that runs makes it wait for that launch, one that no record resolves gives code 7; a quota
beyond the pool gives status 3 and code 2; otherwise the launch is accepted: its tree, its fields, its seed and timing
mode, the quota taken from the pool, and HEAD one further. What the reads bring about (host lines taken back, R376; errors
corrected, R369) changes none of what they read. (That a waiting record is kept as read is the model's choice, log 61.)
R359 to R361, R70, R71: a launch that can complete writes its completion record (status 1 where it was aborted, the
counts, the time from acceptance), tells its status to the heads that wait for it, gives its quota back and is gone. -/
def Obligations.AcceptanceAndCompletion : Prop :=
  (
  ∀ (s : State) (p c q : Nat) (lt : Latched), p < 16 →
    let d := s.dev
    let x := d.lqueue p c q
    let turn := d.tryHead s.clk p c q lt
    exec (.acceptanceRound p) s = .next { s with dev := d.acceptRound s.clk p } ∧
    (let r := d.headRecord x
     let e := (d.askedPhys (x.base.toNat + 128 * (x.head.toNat % 2 ^ x.log2n)) 128).askedRecord p lt r
     x.held = none → e.validRecord p lt r = none →
      (∀ y, e.doneTranslates p lt r = some y →
        turn = .passed (((e.queueErr p c q 1 x.head).advance p c q).writeCompletion p c y (lrIrq r) (Completion.ofStatus 2))) ∧
      (e.doneTranslates p lt r = none → turn = .passed ((e.queueErr p c q 3 x.head).advance p c q))) ∧
    (∀ r h, d.validRecord p lt r = some h →
      h.record = r ∧ h.awaits = none ∧ h.status = none ∧ d.doneAt p lt r = h.done ∧ h.done ≠ none ∧ d.footAt p lt r = some h.foot ∧
        (∃ q, d.predAt p lt r = some q ∧ h.pred = q.map some) ∧ nbits r 512 512 = 0 ∧ lrFirst r < 2 ^ 57 ∧ lrFirst r % 64 = 2 ∧ lrDone r < 2 ^ 57 ∧
        lrDone r % 64 = 0 ∧ 1 ≤ lrGroups r ∧ lrScope r ≤ 5 ∧ lrMode r ≤ 2 ∧ (lrMode r = 0 ↔ lrScope r ≠ 0) ∧
        (lrMode r ≠ 0 → lrLogq r = 0) ∧ (lrTeam4 r = true → lrGroups r % 4 = 0)) ∧
    (∀ h, (h.pred = none → d.resolvePred p c h = .final 0) ∧
      (∀ y, h.pred = some y →
        (∀ st, h.status = some st → d.resolvePred p c h = .final st) ∧
        (∀ tree, h.status = none → h.awaits = some tree → d.resolvePred p c h = .waits tree) ∧
        (h.status = none → h.awaits = none →
          (∀ tree l, ((d.launchesOf p c).filter fun kl => kl.2.doneVa = lrPred h.record).getLast? = some (tree, l) →
            d.resolvePred p c h = .waits tree) ∧
          (((d.launchesOf p c).filter fun kl => kl.2.doneVa = lrPred h.record) = [] →
            (∀ z, y = some z ∨ ((d.ctx p c).latched = some lt ∧ y = none ∧ d.addressAt p lt (lrPred h.record) .load [0, 1, 3] = some z) →
              let n := (d.readIn d.ms z 64).1
              d.resolvePred p c h = if nbit n 15 then .final (nbits n 0 8) else .unresolved) ∧
            ((d.ctx p c).latched = some lt → y = none → d.addressAt p lt (lrPred h.record) .load [0, 1, 3] = none → d.resolvePred p c h = .unresolved))))) ∧
    (∀ h,
      let read := (d.askedPhys (x.base.toNat + 128 * (x.head.toNat % 2 ^ x.log2n)) 128).askedRecord p lt (d.headRecord x)
      let e := if x.held = none then read else d
      x.held = some h ∨ (x.held = none ∧ e.validRecord p lt (d.headRecord x) = some h) →
      let r := h.record
      let d := (e.askedPred p c h).askedAgain p c (lrDone r) h.done
      let quota := lrLogq r * (d.domKeys p (lrScope r)).length
      let ends (st : Nat) (d' : Dev) : HeadTurn :=
        .passed (match d'.heldDone p c h with
          | some y => (d'.advance p c q).writeCompletion p c y (lrIrq r) (Completion.ofStatus st)
          | none => d'.advance p c q)
      let waits (h : Held) : HeadTurn := .waits (d.setQueue p c q { x with held := some h })
      let go : Held := { h with status := some 0 }
      (∀ tree, d.resolvePred p c h = .waits tree → turn = waits { h with awaits := some tree }) ∧
      (d.resolvePred p c h = .unresolved → turn = ends 1 (d.queueErr p c q 7 x.head)) ∧
      (∀ st, d.resolvePred p c h = .final st → st ≠ 0 → turn = ends 1 d) ∧
      (d.resolvePred p c h = .final 0 →
        ((∀ y, h.done = some y → d.heldDone p c h = some y) ∧
          (h.done = none → (d.ctx p c).latched = some lt → d.heldDone p c h = d.doneAt p lt r)) ∧
        (lt.poolsz < quota → turn = ends 3 (d.queueErr p c q 2 x.head)) ∧
        (quota ≤ lt.poolsz → lt.poolsz < (d.ctx p c).poolUsed + quota → turn = waits go) ∧
        (quota ≤ lt.poolsz → (d.ctx p c).poolUsed + quota ≤ lt.poolsz → d.ticketField p c (lrScope r) = none → turn = waits go) ∧
        (∀ f, quota ≤ lt.poolsz → (d.ctx p c).poolUsed + quota ≤ lt.poolsz → d.ticketField p c (lrScope r) = some f → d.inGang = false →
          let t := d.accept s.clk p c q go f quota
          turn = .passed { t with grants := t.grants.filter fun e =>
            !(e.1 = p && e.2.1 = c && e.2.2.1 = q && e.2.2.2.1 = x.head.toNat) }))) ∧
    (∀ a n r h va y, ∀ f ∈ [d.askedPhys a n, d.askedRecord p lt r, d.askedPred p c h, d.askedAgain p c va y],
      f.groups = d.groups ∧ f.launches = d.launches ∧ f.queues = d.queues ∧ f.ctxs = d.ctxs ∧ f.parts = d.parts ∧ f.cores = d.cores ∧
      f.ms = { d.ms with draw := f.ms.draw }) ∧
    (c < 64 → q < 8 → (∀ k, k ≠ c → (d.ctx p k).latched = none) → (d.ctx p c).latched = some lt → (d.ctx p c).retiring = false →
      (∀ k, k ≠ q → (d.lqueue p c k).state ≠ 1 ∨ (d.lqueue p c k).head = (d.lqueue p c k).tail) → x.state = 1 → x.head ≠ x.tail →
      d.acceptRound s.clk p = match turn with
        | .waits e => e
        | .passed e => e) ∧
    (∀ h f quota,
      (let r := h.record
       let t := d.accept s.clk p c q h f quota
       ∃ l, t.launches.find d.nextTree = some l ∧ t.nextTree = d.nextTree + 1 ∧ (t.lqueue p c q).head = x.head + 1 ∧
        (t.ctx p c).poolUsed = (d.ctx p c).poolUsed + quota ∧ l.part = p ∧ l.ctx = c ∧ l.queue = q ∧
        (l.firstpc.toNat = lrFirst r) ∧ l.abortpc.toNat = lrAbort r ∧ l.doneVa = lrDone r ∧ l.doneX = h.done ∧
        l.groups = lrGroups r ∧ l.scope = lrScope r ∧
        (l.mode = .det ↔ lrMode r = 0) ∧ (l.mode = .free ↔ lrMode r = 1) ∧ l.team4 = lrTeam4 r ∧
        l.seed.toNat = nbits (d.runEntry p c) 128 64 ^^^ lrSeed r ∧
        l.dit = (nbit (lrCtrl r) 14 || nbit (d.runEntry p c) 398) ∧ l.accepted = s.clk.fclk ∧ l.quota = quota ∧ l.raisedAt = none ∧
        l.groupsDone = 0 ∧ l.discard = 0 ∧ l.cells.map (·.1) = d.cellList p))) ∧
  (
  ∀ (s : State) (tree : Nat) (l : Launch), s.dev.launches.find tree = some l → s.dev.completable tree l = true →
    (∀ kg ∈ s.dev.groups, kg.2.recd.launch ≠ tree) → l.armed = [] →
    let d := s.dev
    let r : Completion :=
      { status := if l.torn ∨ l.raisedAt ≠ none then 1 else 0, abrt := l.abortGroup = .retired, groups := l.groupsDone
        field := l.field.toNat, discard := l.discard, child := l.childDone, rollb := l.rollb, strand := 0, frets := l.frets
        commits := if l.mode = .det then l.commits else 0, time := s.clk.fclk - l.accepted }
    let d0 := d.askedAgain l.part l.ctx l.doneVa l.doneX
    let d1 := (match d0.launchDone l with
      | some y => d0.writeCompletion l.part l.ctx y l.irq r
      | none => d0).tellHeads tree r.status
    let x := d1.ctx l.part l.ctx
    let d2 := d1.setCtx l.part l.ctx { x with poolUsed := x.poolUsed - l.quota }
    exec (.launchComplete tree) s = .next { s with dev := { d2 with launches := d2.launches.del tree } } ∧
    (∀ (e : Dev) y lt, (e.ctx l.part l.ctx).latched = some lt → y.typ ≠ 2 → l.irq = false →
      e.writeCompletion l.part l.ctx y l.irq r = (e.writeX { y with pa := y.pa + 8 } lt.asid 56 (r.word / 2 ^ 64) (2 ^ 56 - 1)).writeX
        y lt.asid 8 (r.word % 2 ^ 64) (2 ^ 8 - 1)) ∧
    (∀ y lt, (d.ctx l.part l.ctx).latched = some lt →
      (l.doneX = some y → d0 = d ∧ d.launchDone l = some y) ∧
      (l.doneX = none → d0.launchDone l = d.addressAt l.part lt l.doneVa .store [0, 1, 3])) ∧
    (∀ (e : Dev) p c q h, (e.lqueue p c q).held = some h →
      ((e.tellHeads tree r.status).lqueue p c q).held = some (if h.awaits = some tree then { h with status := some r.status } else h)) ∧
    nbits r.word 0 8 = r.status ∧ nbit r.word 15 = true ∧ (l.groupsDone < 2 ^ 24 → nbits r.word 16 24 = l.groupsDone) ∧
    nbits r.word 64 32 = min l.discard (2 ^ 32 - 1) ∧ nbits r.word 192 32 = min l.frets (2 ^ 32 - 1))

/-- R63, R86, R88, R82, R32: the walk of the runnable list (a context with ready work starts where none runs, and renews its slice
where no other has work; a due entry cuts the running slice short, but the slice of a due entry only where it became due after
that slice began: DEDUCED, log 80), and the production of a launch's next record, whose ticket
is the LAUNCH field and the group index, whose code is the first line and whose regions are stepped by the group index. -/
def Obligations.SlicesAndRecords : Prop :=
  ∀ (s : State) (p c cluster tree i home grp : Nat) (l : Launch), p < 16 →
    let d := s.dev
    let pt := d.part p
    let now := s.clk.fclk
    let does (j : Instr) (d' : Dev) : Prop := exec j s = .next { s with dev := d' }
    (pt.running = none → d.firstDue now p = none → d.nextEntry p = some c →
      does (.sliceEnd p) ((d.setPart p { pt with last := c }).enterSlice now p c false)) ∧
    (pt.running = some c → pt.sliceEnd ≤ now → d.firstDue now p = none → d.nextEntry p = some c →
      ((∀ k < 64, k ≠ c → d.runnable p k = false) →
        does (.sliceEnd p) ((d.askedPhys (d.entryPa p c) 64).setPart p
          { pt with last := c, dueRun := none, sliceEnd := now + 1200 * entrySlice (d.runEntry p c) })) ∧
      ((∃ k < 64, k ≠ c ∧ d.runnable p k = true) →
        let e := d.leaveSlice now p c
        does (.sliceEnd p) ((e.setPart p { e.part p with last := c }).enterSlice now p c false))) ∧
    (∀ c', pt.running = some c' → pt.sliceEnd ≤ now → d.firstDue now p = none → d.nextEntry p = some c → c ≠ c' →
      let e := d.leaveSlice now p c'
      does (.sliceEnd p) ((e.setPart p { e.part p with last := c }).enterSlice now p c false)) ∧
    (let cuts (k : Nat) : Prop := ∃ t, d.dueAt p k = some t ∧ t ≤ now ∧ ∀ b, pt.dueRun = some b → b < t
     let first : Prop := c < 64 ∧ pt.running ≠ some c ∧ cuts c ∧ ∀ k < c, pt.running ≠ some k → ¬ cuts k
     (∀ c', pt.running = some c' → first → does (.entryDue p c) ((d.leaveSlice now p c').enterSlice now p c true)) ∧
     (∀ c', pt.running = some c' → ¬ first → exec (.entryDue p c) s = .refused .notEnabled)) ∧
    (pt.running = none → d.firstDue now p = some c → does (.entryDue p c) (d.enterSlice now p c true)) ∧
    (∀ b, ((d.enterSlice now p c b).part p).running = some c ∧ ((d.enterSlice now p c b).part p).dueRun = (if b then some now else none) ∧
      ((d.enterSlice now p c b).part p).sliceEnd = now + 1200 * entrySlice (d.runEntry p c)) ∧
    (d.launches = [(tree, l)] → d.runs tree = true → l.torn = false → (d.pool cluster).length < 960 →
      nextPosition l cluster = some (i, home, grp) →
      let cells := l.cells.set i (home, nextGroup l d.gangSize grp)
      does (.recordProduce cluster) ((d.setLaunch tree { l with cells := cells }).enterPool
        { launchRec tree l home grp with ownView := l.posViews.find i } false)) ∧
    (grp < 2 ^ 24 →
      let r := launchRec tree l home grp
      r.ticket.toNat = l.field.toNat * 2 ^ 48 + grp * 2 ^ 24 ∧ r.code.toNat = l.firstpc.toNat / 64 % 2 ^ 51 ∧ r.home = home ∧ r.launch = tree ∧
      r.ready = l.accepted ∧ (l.foot = none → r.frame = 0 ∧ r.regions = []) ∧
      (∀ f, l.foot = some f → r.frame = f.frame ∧ r.prio = f.prio ∧
        r.regions = f.regions.map fun x => { x with addr := x.addr + grp * x.str * 256 }))

/-- R87, R89, R90, R94, R340, R357, R358: the first candidate in the order starts or resumes: a record takes a free core and a
free slot, with its registers as R89 sets them, a record of an aborted launch is discarded at dispatch; a group off its core
runs again from where it was; its footprint's next piece is copied and then the routine starts; with every slot held by parked or
suspended groups a launch is ended; and the abort group starts on the first cell with GROUP the group count. -/
def Obligations.StartingGroups : Prop :=
  ∀ (s : State) (cell core gid : Nat) (r : Rec) (g : Machine.Group) (l : Launch),
    let d := s.dev
    let does (i : Instr) (d' : Dev) : Prop := exec i s = .next { s with dev := d' }
    (core ∈ d.freeCores cell → d.bestCand cell (d.freeCores cell) = some (.record r) → r.team4 = false →
      d.launches.find r.launch = some l →
      (l.abortIn (clusterOfCell cell) = true → does (.groupStart cell core) ((d.takeRec r).discardRec s.clk.fclk r)) ∧
      (l.abortIn (clusterOfCell cell) = false → does (.groupStart cell core) (d.startRec r core))) ∧
    (∀ slot, d.launches.find r.launch = some l → d.chooseSlot l.part l.ctx = some slot →
      let t := d.startRec r core
      ∃ h, t.groups.find d.nextGid = some h ∧ h.core = some core ∧ h.slot = slot ∧ h.status = .fetching ∧ h.recd = r ∧
        h.arch = Arch.reset (BitVec.ofNat 64 (r.code.toNat * 64 + 2)) (BitVec.ofNat 64 (r.frame.toNat * 64)) (d.entryStrict l.part l.ctx) ∧
        (t.core core).group = some d.nextGid ∧ (t.core core).icache = [] ∧ (t.core core).rcache = []) ∧
    (core ∈ d.freeCores (cellOf core) → d.groups.find gid = some g → g.recd.home = cellOf core → g.recd.team4 = false →
      (∃ k, d.bestCand (cellOf core) (d.freeCores (cellOf core)) = some (.group gid k)) →
      does (.groupResume gid core) (d.resumeOn s.clk g core)) ∧
    (d.groups.find g.gid = some g → g.linesOn = some core → g.recd.regions = [] →
      let t := d.resumeOn s.clk g core
      ∃ h, t.groups.find g.gid = some h ∧ h.status = .running ∧ h.core = some core ∧ h.stall = .none ∧ h.readyAt = none ∧
        h.arch = g.arch ∧ h.linesOut = g.linesOut ∧ (t.core core).group = some g.gid) ∧
    (d.groups.find gid = some g → g.status = .fetching → d.launches.find g.recd.launch = some l →
      (g.recd.regions = [] → g.fetchPos = 0 → g.fetchFault = none → g.recd.addr = none →
        does (.footprintFetchComplete gid) (d.setGroup { g with status := .running, capo := [], notBefore := s.clk.aclk + 1 })) ∧
      (∀ va ls n lt, (piecesOf g.recd.regions)[g.fetchPos]? = some (va, ls, n) → (d.ctx l.part l.ctx).latched = some lt → l.mode ≠ .ilv →
        let e := d.pinLines s.clk gid (g.core.getD 0) (blocksOf lsBase ls n)
        ∀ h, e.groups.find gid = some h →
          let k := e.fetchPiece l.part lt h va ls (n / 256)
          does (.footprintFetchComplete gid)
            ((((e.setGroup { k with fetchPos := k.fetchPos + 1 }).spendGrant k.recd.launch gid).takeBack k.core l.part lt va
              (n / 256)).keepOn k.core lt (pagesOf [va, va + (n - 1)]))) ∧
      (∀ (e : Dev) k lt va n, let f := e.takeBack k l.part lt va n
        f.groups = e.groups ∧ f.launches = e.launches ∧ f.cores = e.cores ∧ f.ms = { e.ms with draw := f.ms.draw })) ∧
    (∀ p c, (d.part p).running = some c → d.freeSlotCount p c = 0 →
      (∀ kg ∈ d.groups, ∀ m, d.launchOf kg.2 = some m → m.part = p → m.ctx = c → kg.2.status = .parked ∨ kg.2.status = .suspended) →
      d.pools = [(clusterOfCell r.home, [r])] → d.runs r.launch = true → d.freeCores r.home ≠ [] →
      d.launches.find r.launch = some l → l.part = p → l.ctx = c →
      does (.slotsExhausted p c) ((d.faultEntry p c 0 0 r.ticket 0 6 0 0).1.tearLaunch r.launch)) ∧
    (∀ tree slot k, d.launches.find tree = some l → l.abortDue = true → d.runs tree = true →
      (∀ kg ∈ d.groups, kg.2.recd.launch ≠ tree) → (d.cellList l.part).head? = some k → (d.freeCores k).head? = some core →
      d.chooseSlot l.part l.ctx = some slot →
      ∃ t h, exec (.abortGroupStart tree) s = .next t ∧ t.dev.groups.find d.nextGid = some h ∧ h.isAbort = true ∧ h.core = some core ∧
        h.slot = slot ∧ tkGroup h.recd.ticket = l.groups % 2 ^ 24 ∧ h.arch.pc.toNat = l.abortpc.toNat / 64 % 2 ^ 51 * 64 + 2 ∧
        (∃ m, t.dev.launches.find tree = some m ∧ m.abortGroup = .running))

/-! ## Supersteps, rollback and rounds (04_placing R96 to R99; 15 R306 to R312, R319; 20 R357, R366 to R368; 03 R74) -/

/-- R306, R307, R310 to R312, R357: COMMIT_BUFFER_DRAIN moves the oldest buffered operation of a group to the log of its fret
domain, under its ticket, or drops it once the launch's abort line is raised. A log is applied in ascending key order
(TICKET, SEQ, SUB). Applying one logged operation writes exactly its store, or the result of its atomic on a location
without poison, which is kept with its entry; poison writes nothing and is noted for the group, the first address alone.
One whose home is on another package goes there: with the log of a gang's launch (R386), else as it is applied (R303; what
an atomic returns from there is a free value, log 6). R310, R97, R98, R356: at the end of an fclk, when arrival has ended,
every buffer of the domain has drained and its jobs have ended, no abort line is raised and no poison waits, the domain's
commit begins, in one merge round with every other commit that may begin then (the closing stage and its one merge round
are log 3): their logs are applied as one in key order. A commit removes the groups that retired in the superstep, and
makes what the round leaves the domain's read state, that of members too which a retired cell had left with another's
(R372, log 48); the log and its charge are empty and the launch counts the commit. -/
def Obligations.LogAndCommit : Prop :=
  (
  (∀ (s : State) (gid : Nat) (g : Machine.Group) (l : Launch) (o : GOp) (os : List GOp), s.dev.groups.find gid = some g →
    g.arch.buffer = o :: os → s.dev.launches.find g.recd.launch = some l →
    let key := l.domOf g.recd.home
    let dm := l.doms.getD key (Dom.reset none)
    let dm' := { dm with log := dm.log ++ [⟨g.recd.ticket, o, g.gid⟩] }
    let d := s.dev.setGroup { g with arch := { g.arch with buffer := os } }
    (l.raisedAt = none ∨ g.isAbort = true →
      exec (.commitBufferDrain gid) s = .next { s with dev := d.setLaunch g.recd.launch { l with doms := l.doms.put key dm' } }) ∧
    (l.raisedAt.isSome = true → g.isAbort = false → exec (.commitBufferDrain gid) s = .next { s with dev := d })) ∧
  (∀ log : List (Nat × LogOp), (sortLog log).Perm log ∧
    (sortLog log).Pairwise (fun a b => a.2.ticket.toNat < b.2.ticket.toNat ∨
      (a.2.ticket = b.2.ticket ∧ (a.2.op.seq < b.2.op.seq ∨ (a.2.op.seq = b.2.op.seq ∧ a.2.op.sub ≤ b.2.op.sub))))) ∧
  (∀ (d : Dev) (clk : Clock) (tree : Nat) (e : LogOp), d.reachable e.op.xl.pa = true →
    let x := e.op.xl
    let n := e.op.size
    let writes (v : Nat) (m : Mask) : MemSys := d.ms.writeAt x.place x.cmp (d.launchAsid tree) x.pa n v m.toNat
    let t := d.applyLogged clk tree e
    let all : Mask := BitVec.ofNat 128 (2 ^ n - 1)
    (∀ k, x.place = .remote k → t.ms = { d.ms with draw := t.ms.draw } ∧ (d.sentLog tree = true → t = d) ∧
      (d.sentLog tree = false →
        (∀ v m, e.op.kind = .store v m → x.typ ≠ 2 → OutMsg.remoteStore k x.pa n v m.toNat ∈ t.out) ∧
        (e.op.kind.isAtomic = true → OutMsg.remoteOp k e.op ∈ t.out))) ∧
    ((∀ k, x.place ≠ .remote k) →
    (∀ v m, e.op.kind = .store v m → x.typ ≠ 2 → t.ms = writes v m) ∧
    (∀ v m, e.op.kind = .store v m → x.typ = 2 → d.groups.find e.gid = none → t = d.ctrlStore clk x.pa n v) ∧
    (∀ op ty rd st b c ds, e.op.kind = .amo op ty rd st b c ds → n ≤ 16 →
      let old := d.ms.readAt x.place x.pa n
      (d.ms.firstPoison x.place x.pa n = none →
        t.ms = (match amoNew op ty rd st (8 * n) old b c with
          | none => d.ms
          | some w => writes w all) ∧
        (∀ g tok id r, d.groups.find e.gid = some g → g.gid = e.gid → e.op.entry = some (tok, id) → ds = [r] →
          ∃ h, t.groups.find e.gid = some h ∧ h.arch.reg r = g.arch.reg r ∧
            (tok < 32 → ∀ q, findEntry g.arch tok id = some q → findEntry h.arch tok id = some { q with writes := [(r, old)] }))) ∧
      (∀ a, d.ms.firstPoison x.place x.pa n = some a →
        t.ms = d.ms ∧ (∀ g, d.groups.find e.gid = some g → g.gid = e.gid →
          ∃ h, t.groups.find e.gid = some h ∧
            h.arch.commitPoison = (if g.arch.commitPoison.isSome then g.arch.commitPoison else some (BitVec.ofNat 64 e.op.va)))))))) ∧
  (
  ∀ (s : State) (tree dom : Nat) (l : Launch), s.dev.launches.find tree = some l → dom ∈ l.doms.map (·.1) →
    let d := s.dev
    let dm := l.doms.getD dom (Dom.reset none)
    let gs := d.domGroups tree l dom
    let retired := gs.filter (fun g => g.status == .provisional)
    let c : CommitOf :=
      { tree := tree, dom := dom, log := dm.log.map fun e => (tree, e), gone := retired, final := false, aborted := false
        empties := l.emptyDoms }
    let d1 := retired.foldl (fun d g => d.removeGroup g) d
    let d2 := (d1.modDom tree dom fun y => { y with phase := .applying }).applyLog s.clk (sortLog c.log)
    l.mode = .det → l.torn = false → l.raisedAt = none → dm.rollback = none → dm.phase = .commit → (l.scope = 5 → d.inGang = false ∨ d.gangSize = 1) →
    (∀ g ∈ gs, g.arch.buffer = [] ∧ g.busy = false) →
    d.commitOf tree dom = some c ∧
    (s.clk.closing = false → exec (.commitPhaseStart tree dom) s = .refused .notEnabled) ∧
    (s.clk.closing = true → (tree, l) ∈ d.launches → (dom, dm) ∈ l.doms →
      exec (.commitPhaseStart tree dom) s = .next { s with dev := d.mergeRound s.clk d.readyCommits } ∧
      ∃ cs ds, d.readyCommits = cs ++ c :: ds) ∧
    (∀ l', d2.launches.find tree = some l' → l'.raisedAt = none →
      ∃ m, d.mergeRound s.clk [c] = (d2.dropOwn l' tree dom).setLaunch tree m ∧ m.commits = l'.commits + 1 ∧
        (∀ gid g, d2.groups.find gid = some g → ∃ h, (d2.dropOwn l' tree dom).groups.find gid = some h ∧
          h = { g with recd := { g.recd with ownView := if g.recd.launch = tree ∧ l'.domOf g.recd.home = dom then none else g.recd.ownView } }) ∧
        (let dm' := m.doms.getD dom (Dom.reset none)
         (l'.doms.find dom).isSome = true → dm'.view = some d2.ms ∧ dm'.log = [] ∧ dm'.charge = 0 ∧ dm'.phase = .committed) ∧
        m.live = l'.live ∧ m.bars = l'.bars) ∧
    (∀ k g, (∀ kg ∈ d.groups, kg.2.gid = kg.1) → g ∈ retired → g.gid = k → d1.groups.find k = none))

/-- R237, R96, R319: EXCHANGE_PHASE_START starts the armed exchange slots of every member, copy slots first, each job at the
end of its engine's queue without a token and uncharged; FRET_COMPLETE, when no exchange job is left, drops the caches of
every member's core, ends its `fret` with status 0 (that of the interrupted instruction where the group came to it before
its handler, and with it that of a barrier of the handler which waits for the same phase, R318) and takes its snapshot,
and the launch counts the fret. R74, R149, R357, R363, R392: a round of an interleave launch grants one access to each
group that waits, in ascending ticket order, once every access granted before has completed; a raised abort line reaches
another cluster; a deferred trap is taken before the group's next instruction, with CMPL set: the poison of its commit
first (no rule orders the two: log 51), in a handler too, where it ends the group (R334), the others once no handler runs.
Which groups wait for a grant is log 47. -/
def Obligations.FretEndAndRounds : Prop :=
  (
  (∀ (s : State) (tree dom : Nat) (l : Launch), s.dev.launches.find tree = some l → l.raisedAt = none →
    let d := s.dev
    let gs := d.domGroups tree l dom
    let dm := l.doms.getD dom (Dom.reset none)
    (l.mode = .det → dm.phase = .committed →
      let d1 := d.modDom tree dom fun y => { y with phase := .exchange }
      exec (.exchangePhaseStart tree dom) s = .next { s with dev := gs.foldl (fun d g => d.startExchange s.clk.fclk g.gid) d1 }) ∧
    (dm.phase = .exchange → dm.rollback = none → gs.any d.exchanging = false →
      let d1 := gs.foldl (fun d g => d.dropCaches g.core) d
      let d2 := gs.foldl (fun d g => d.setGroup (endFret (l.mode == .det) g)) d1
      let d3 := d2.modDom tree dom fun y => { y with phase := .compute, rerun := false, exchAgain := false }
      ∃ l', d3.launches.find tree = some l' ∧
        exec (.fretComplete tree dom) s = .next { s with dev := d3.setLaunch tree { l' with frets := l'.frets + 1 } })) ∧
  (∀ (g : Machine.Group),
    (let h := endFret true g
     h.arrived = none ∧ h.snap = some h.arch ∧ h.arch.seq = 0 ∧ h.capo = [] ∧ h.capoBad = [] ∧
     h.arch.joinedIn = false ∧ h.linesOut = g.linesOut.filter (· < 2048) ∧ h.snapReleased = h.released ∧ h.gid = g.gid ∧
     (let outer : Prop := g.arch.k.inTrap = true ∧ g.arch.arrivedIn = false
      (g.arrived = some 7 → ¬ outer → h.released = some 0 ∧ h.arch.relOuter = g.arch.relOuter) ∧
      (g.arrived = some 7 → outer → h.arch.relOuter = some 0 ∧
        h.released = if g.arch.joinedIn then some 0 else none) ∧
      (∀ tok n, g.arrived = some 6 → ¬ outer → g.stall = .wait tok n → h.released = some 5) ∧
      (g.arrived = some 6 → outer → h.released = if g.arch.joinedIn then some 0 else none)) ∧
     (g.arrived = none → h.released = g.released)) ∧
    (g.arrived = some 7 → (g.arch.k.inTrap = true → g.arch.arrivedIn = true) →
      endFret false g = { g with arrived := none, released := some 0 }) ∧
    (g.arrived = some 7 → g.arch.k.inTrap = true → g.arch.arrivedIn = false →
      endFret false g = { g with arrived := none, released := if g.arch.joinedIn then some 0 else none
                                 arch := { g.arch with relOuter := some 0, joinedIn := false } }) ∧
    (g.arrived ≠ some 7 → endFret false g = g)) ∧
  (∀ (d : Dev) (now : Nat) (g : Machine.Group) (c : CopyCmd) (k : Nat), d.groups.find g.gid = some g → k < 4 →
    (∀ i < 4, g.arch.copySlots.toList[i]? = some (if i = k then .exchange c else .empty)) →
    (∀ i < 4, g.arch.indSlots.toList[i]? = some .empty) →
    let job : CopyCmd := { c with entry := none, seq := g.arch.seq, after := g.arch.nextId, exch := true }
    d.startExchange now g.gid = d.setGroup { g with arch := { g.arch with copyIn := g.arch.copyIn ++ [job], seq := g.arch.seq + 1 } })) ∧
  (
  ∀ (s : State) (tree cluster gid : Nat),
    let d := s.dev
    let does (i : Instr) (d' : Dev) : Prop := exec i s = .next { s with dev := d' }
    (∀ l, d.launches.find tree = some l → l.mode = .ilv → d.liveGrants s.clk l = [] →
      let waiting := (d.groups.map (·.2)).filter fun g => g.recd.launch == tree && d.accessWaits s.clk g
      waiting ≠ [] →
      ∃ order : List Machine.Group, order.Perm waiting ∧ order.Pairwise (fun a b => a.recd.ticket.toNat ≤ b.recd.ticket.toNat) ∧
        does (.ilvRoundStart tree) (d.setLaunch tree { l with grants := order.map (·.gid) })) ∧
    (∀ l, d.launches.find tree = some l → l.raisedAt.isSome = true → cluster < 64 → cluster ∉ l.raised →
      does (.abortLineArrive tree cluster) (d.setLaunch tree { l with raised := cluster :: l.raised })) ∧
    (∀ g, d.groups.find gid = some g → g.status = .running → g.core.isSome = true →
      (∀ va, g.arch.commitPoison = some va → g.arrived = none → g.released = none → g.arch.relOuter = none →
        let h : Machine.Group := { g with arch := { g.arch with commitPoison := none } }
        does (.deferredTrap gid) ((d.setGroup h).takeTrap s.clk h cATOMIC_POISON va g.arch.pc true false)) ∧
      (∀ t ts, (g.arch.commitPoison = none ∨ g.arrived ≠ none ∨ g.released ≠ none ∨ g.arch.relOuter ≠ none) →
        g.arch.k.inTrap = false → g.arch.deferred = t :: ts →
        let h : Machine.Group := { g with arch := { g.arch with deferred := ts } }
        does (.deferredTrap gid) ((d.setGroup h).takeTrap s.clk h t.cause t.val g.arch.pc true true))))

/-- R365 to R368: a rollback returns every member of the domain to its snapshot, discards the superstep's log and counts in
ROLLB; a second consumption in the re-run, or a snapshot that is itself poisoned, ends the context, and in the exchange phase the jobs alone run once more. A member returns
with the registers, memories and engine state of its snapshot, blocks of it that lie in its slot read back; the poison of blocks that were not copied aside stays. -/
def Obligations.RollbackResults : Prop :=
  (∀ (s : State) (tree dom gid : Nat) (l : Launch) (va : Word), s.dev.launches.find tree = some l →
    let d := s.dev
    let gs := d.domGroups tree l dom
    let who := (d.groups.find gid).getD default
    let dm := l.doms.getD dom (Dom.reset none)
    let does (d' : Dev) : Prop := exec (.rollback tree dom) s = .next { s with dev := d' }
    dm.rollback = some (gid, va) →
    (dm.phase ≠ .exchange → dm.rerun = false → d.restoreFails gs = none → does (d.rollSuperstep s.clk tree dom l)) ∧
    (∀ g a, dm.phase ≠ .exchange → dm.rerun = false → d.restoreFails gs = some (g, a) → does (d.damageCtx l.part l.ctx g a cPOISON)) ∧
    ((∀ g ∈ gs, d.snapBad g = none) → d.restoreFails gs = none) ∧
    (dm.phase ≠ .exchange → dm.rerun = true → does (d.damageCtx l.part l.ctx who va cPOISON)) ∧
    (dm.phase = .exchange → dm.exchAgain = false → does (d.rerunExchange s.clk.fclk tree dom l)) ∧
    (dm.phase = .exchange → dm.exchAgain = true → does (d.damageCtx l.part l.ctx who va cPOISON)) ∧
    (dm.phase ≠ .exchange →
      ∃ l', (d.rollSuperstep s.clk tree dom l).launches.find tree = some l' ∧ l'.rollb = l.rollb + 1 ∧
        (let y := l'.doms.getD dom (Dom.reset none)
         y.log = [] ∧ y.charge = 0 ∧ y.rollback = none ∧ y.rerun = true ∧ y.phase = .compute))) ∧
  (∀ (g : Machine.Group) (a : Arch),
    let h := restore g a
    h = { a with lsPoison := h.lsPoison, accPoison := h.accPoison, winPoison := h.winPoison } ∧
    (∀ w, w ∈ h.lsPoison ↔ w ∈ a.lsPoison ∨ (w ∈ g.arch.lsPoison ∧ 256 + w / 32 ∉ g.capo))) ∧
  (∀ (d : Dev) (clk : Clock) (mates : Nat) (g : Machine.Group) (a : Arch) (c : Nat), g.snap = some a → g.status = .running → g.core = some c →
    (∀ es ∈ a.toks.toList, ∀ e ∈ es, e.row ≠ .tlbinv) →
    let e := (d.dropCaches (some c)).dropIndirect g.gid (clusterOfCell g.recd.home)
    ∃ h, (d.rollbackMember clk mates g).groups.find g.gid = some h ∧ h.arch = (restore g (e.readSnap g a)).release ∧
      ((∀ l ∈ g.linesOut, l < 2048) → h.arch = (restore g a).release) ∧ h.capo = [] ∧ h.arrived = none ∧
      h.released = g.snapReleased ∧ h.stall = .none ∧ h.snap = some a ∧ h.core = some c)

/-! ## Performing what was issued (08_memory R182, R190 to R198; 14 R299; 15 R313, R314, R321, R322; 20 R362 to R364, R392) -/

/-- R198, R182, R299, R363, R392: GLOBAL_LOAD_PERFORMED performs an issued load once no older operation of its group must come
first (`GOp.before`; every scope is taken as the widest, log 4). Its entry completes with the bytes it reads: those of its domain's
read state in a deterministic launch, otherwise those at their homes, which the read brings into its slice or engine, or, for a plain
load, unit by unit (of 16 bytes for `ldg.q`, else of 8: R291), what the read cache of the core that issued it holds, while the group
is there (the device's choice, log 5); lines that the host keeps are taken back first (R376) and correctable errors found are corrected
(R369). What another package holds is asked for there and free, one value a byte within a read state (R301, R303, log 6). A
poisoned byte, under an inactive lane too (log 40), rolls a deterministic superstep back, and elsewhere ends the load (an
acquiring one with its acquire all the same: log 30) with no value and a deferred `POISON` trap at the lowest such byte. -/
def Obligations.PerformedLoads : Prop :=
  ∀ (s : State) (gid id : Nat) (g : Machine.Group) (o : GOp) (dests : List RegRef) (isVec : Bool) (mask : Mask),
    s.dev.readyFor gid id = some (g, o) → o.kind = .load dests isVec mask →
    let d := s.dev
    let x := o.xl
    let n := o.size
    let does (d' : Dev) : Prop := exec (.globalLoadPerformed gid id) s = .next { s with dev := d' }
    let acquired (d' : Dev) (k : Machine.Group) : Dev := if o.acq then (d'.acquireOn o.core).acquire k else d'
    let loaded (d' : Dev) (v : Nat) : Prop :=
      let h := g.finishOp o (loadWrites g.arch dests isVec mask.toNat v) (fun w => !isVec || nbits mask.toNat (4 * w) 4 == 15)
      does ((acquired d' h).opDone s.clk h o)
    let failed (d' : Dev) (i : Nat) : Prop :=
      does ((acquired d' g).opDone s.clk ((g.finishOp o []).defer cPOISON (o.va + i)) o)
    let bad (ms : MemSys) (b : Nat) : Prop := ms.poisonAt x.place b = true ∨ d.ms.poisonAt x.place b = true
    let clean (ms : MemSys) : Prop := d.reachable x.pa = true ∧ ∀ i < n, ¬ bad ms (x.pa + i)
    let firstBad (ms : MemSys) (i : Nat) : Prop := i < n ∧ (∀ j < i, ¬ bad ms (x.pa + j)) ∧ bad ms (x.pa + i)
    (∀ older younger, g.arch.gops = older ++ o :: younger → (∀ p ∈ older, p.id ≠ o.id) → o.id = id → ∀ p ∈ older, p.before o = false) ∧
    (x.typ = 2 → loaded (d.ctrlLoad s.clk x.pa n).1 (d.ctrlLoad s.clk x.pa n).2) ∧
    let d0 := d.asked x n
    let value (ms : MemSys) (v : Nat) : Prop :=
      (∀ k, x.place = .remote k → v < 2 ^ (8 * n) ∧ ∀ i < n, nbits v (8 * i) 8 = (Config.remoteByte k (x.pa + i) ms.draw).toNat) ∧
      ((∀ k, x.place ≠ .remote k) → v = ms.readAt x.place x.pa n)
    d0.groups = d.groups ∧ d0.launches = d.launches ∧ d0.ms = { d.ms with draw := d0.ms.draw } ∧ d0.cores = d.cores ∧
    ((∀ k, x.place ≠ .remote k) → d0 = (d.backInval x.pa n).foundAt x n) ∧
    (∀ k, x.place = .remote k → d.reachable x.pa = true → d0.ms.draw = d.ms.draw + 1 ∧ OutMsg.remoteLoad k x.pa n ∈ d0.out) ∧
    (x.typ ≠ 2 → o.plain = false → d.modeOf g = .det →
      let ms := d0.viewOf g
      (∀ v, clean ms → value ms v → loaded d0 v) ∧
      (∀ i, d.reachable x.pa = true → firstBad ms i → does (d0.askRollback g (BitVec.ofNat 64 (o.va + i))))) ∧
    (x.typ ≠ 2 → o.plain = false → d.modeOf g ≠ .det →
      let d1 := d0.fillFor x (d.asidOf g) n
      (∀ v, clean d.ms → value d0.ms v → loaded d1 v) ∧
      (∀ i, d.reachable x.pa = true → firstBad d.ms i → failed d1 i) ∧
      (0 < n → d.reachable x.pa = false → failed d1 0)) ∧
    (x.typ ≠ 2 → o.plain = true → (∀ b, x.pa / 32 * 32 ≤ b → b < (x.pa + n + 31) / 32 * 32 →
        d.reachable b = true ∧ d.ms.poisonAt x.place b = false) →
      ∃ v d1, loaded d1 v ∧ d1.groups = d.groups ∧ d1.launches = d.launches ∧ d1.ms.mem = d.ms.mem ∧
        ((∀ k, x.place ≠ .remote k) → ∀ unit,
          let here (i : Nat) : Prop := i < n ∧ (x.pa + i) / (if n = 16 then 16 else 8) = unit
          (∀ i, here i → nbits v (8 * i) 8 = (d.ms.byteAt x.place (x.pa + i)).toNat) ∨
          ∃ c, g.core = some c ∧ o.core = some c ∧ ∀ i, here i → ∃ w, (cacheKey x ((x.pa + i) / 32), w) ∈ (d.core c).rcache ∧
            nbits v (8 * i) 8 = nbits w.toNat (8 * ((x.pa + i) % 32)) 8))

/-- R198, R182, R362, R381, R250, R147, R148, R325: STORE_PERFORMED writes exactly the enabled bytes at their place; a store
that covers a poisoned unit only in part writes none, one that goes where no port is up is dropped and counted; the read
cache of the core that issued it, and of that where the group now is, takes its bytes; one to another package's window
goes there alone (R303). While jobs of the group may still write, it keeps where and in which place of its order it wrote
(R292). A store to control space writes the register. FLAG_WRITE_PERFORMED sets the flag of the core it names, and nothing
where no group of the context holds that core; of the writes of one fclk the last in the fixed order stands. R129, R132,
R138, R157, R240, R267: an entry whose results were known at issue completes at its due time or later: its destinations
take their values (a vector register the bytes under the entry's mask), no other register changes, and the entries of its
token are released from the oldest on as far as they have completed. -/
def Obligations.PerformedStoresFlagsEntries : Prop :=
  (
  ∀ (s : State) (gid id : Nat) (g : Machine.Group) (o : GOp), s.dev.readyFor gid id = some (g, o) →
    let d := s.dev
    let x := o.xl
    let n := o.size
    (∀ v mask, o.kind = .store v mask →
      (x.typ = 2 → d.ctrlHeld x.pa n = false →
        exec (.storePerformed gid id) s = .next { s with dev := (d.opDone s.clk g o).ctrlStore s.clk x.pa n v }) ∧
      (x.typ ≠ 2 →
        ∃ d1 : Dev, exec (.storePerformed gid id) s = .next { s with dev := d1.opDone s.clk ((d1.groups.find gid).getD g) o } ∧
          d1.groups = (d.notePos gid (o.id + 1) x.pa n mask.toNat).groups ∧
          d1.launches = d.launches ∧ (∀ c, g.core ≠ some c → o.core ≠ some c → d1.core c = d.core c) ∧
          d1.hunc = (if d.reachable x.pa = false then satInc64 d.hunc else d.hunc) ∧
          (d.reachable x.pa = false → d1.ms = d.ms ∧ d1.out = d.out) ∧
          (d.reachable x.pa = true →
            ((∀ k, x.place ≠ .remote k) → d1.ms = d.ms.writeAt x.place x.cmp (d.asidOf g) x.pa n v mask.toNat ∧
              d1.out = (d.backInval x.pa n).out) ∧
            (∀ k, x.place = .remote k → d1.ms = d.ms ∧ d1.out = d.out ++ [.remoteStore k x.pa n v mask.toNat])) ∧
          (∀ c, g.core = some c ∨ o.core = some c → ∀ kw ∈ (d1.core c).rcache, ∃ w, (kw.1, w) ∈ (d.core c).rcache ∧
            ∀ i < 32, nbits kw.2.toNat (8 * i) 8 =
              (let b := 32 * (kw.1 % 2 ^ 47) + i
               if d.reachable x.pa = true ∧ d.ms.partPoison x.place x.pa mask.toNat (n / 16 + 2) n = false ∧ x.pa ≤ b ∧ b < x.pa + n ∧
                  nbit mask.toNat (b - x.pa) = true then nbits v (8 * (b - x.pa)) 8
               else nbits w.toNat (8 * i) 8)))) ∧
    (∀ target f v, o.kind = .flag target f v →
      let done := d.setGroup (g.opDone s.clk.aclk o.id)
      let does (d' : Dev) : Prop := exec (.flagWritePerformed gid id) s = .next { s with dev := d' }
      (d.flagGroup g target = none → does done) ∧
      (∀ h k, d.flagGroup g target = some h → done.groups.find h.gid = some k →
        does (done.writeFlagAt s.clk.fclk (2 + o.va % 4) k f v))) ∧
    (∀ (e : Dev) (h : Machine.Group) (pos pa n mask : Nat), e.groups.find gid = some h → h.gid = gid →
      (e.notePos gid pos pa n mask).groups.find gid =
        some { h with arch := { h.arch with later := if h.arch.writing then (pos, pa, n, mask) :: h.arch.later else [] } }) ∧
    (∀ (e : Dev) (h : Machine.Group) (now rank f : Nat) (v : Bool), f < 1024 →
      let seen := if h.flagNow.1 = now then h.flagNow.2 else []
      ∃ k, (e.writeFlagAt now rank h f v).groups.find h.gid = some k ∧ (∀ i, i ≠ f → k.arch.flag i = h.arch.flag i) ∧
        k.arch.flag f = (if ∃ p ∈ seen, p.1 = f ∧ rank < p.2 then h.arch.flag f else v)) ∧
    ((∀ p ∈ g.arch.gops, p.kind.isFlag = false) → (g.arch.gops.map (·.id)).Nodup →
      (g.opDone s.clk.aclk id).arch = { g.arch with gops := g.arch.gops.filter (·.id ≠ id) })) ∧
  (
  (∀ (s : State) (gid id tok : Nat) (g : Machine.Group) (e : TokEntry), s.dev.groups.find gid = some g →
    tokOf id 0 g.arch.toks.toList = some tok → findEntry g.arch tok id = some e → e.done = false →
    (∀ u, e.due = some u → u ≤ s.clk.aclk) →
    let t : State := s.put (completeEntry g tok id e.writes)
    (e.row = .divide → exec (.divideComplete gid id) s = .next t) ∧
    (e.row = .vector → exec (.vectorLongComplete gid id) s = .next t) ∧
    (e.row = .port → exec (.fixedEntryComplete gid id) s = .next t)) ∧
  (∀ (g : Machine.Group) (tok id : Nat) (e : TokEntry), tok < 32 → findEntry g.arch tok id = some e → e.clash = [] →
    let marked := (g.arch.toks.toList.getD tok []).map fun q => if q.id = id then { q with done := true } else q
    (∀ r v, (∃ n, 0 < n ∧ n < 64 ∧ r = .x n ∧ v < 2 ^ 64) ∨ (∃ n, n < 32 ∧ r = .v n ∧ v < 2 ^ 1024) →
      let h := completeEntry g tok id [(r, v)]
      ((∃ n, r = .x n) ∨ e.mask = BitVec.allOnes 128 → h.arch.reg r = v ∧ ∀ p ∈ h.arch.regPoison, p.1 ≠ r) ∧
      (∀ n, r = .v n → (∀ p ∈ g.arch.regPoison, p.1 ≠ r) →
        ∀ j < 128, nbits (h.arch.reg r) (8 * j) 8 = if e.mask.getLsbD j then nbits v (8 * j) 8 else nbits (g.arch.reg r) (8 * j) 8) ∧
      (∀ q, q ≠ r → h.arch.reg q = g.arch.reg q) ∧
      ((∀ es ∈ g.arch.toks.toList, ∀ q ∈ es, r ∉ q.dests ∨ q.id = id) → h.arch.toks.toList.getD tok [] = dropDone marked) ∧
      h.arch.ls = g.arch.ls ∧ h.arch.acc = g.arch.acc ∧ h.arch.k = g.arch.k ∧ h.arch.m = g.arch.m ∧ h.arch.pc = g.arch.pc) ∧
    (completeEntry g tok id []).arch.toks.toList.getD tok [] = dropDone marked))

/-- R313, R314, R321, R322, R392: AMO_PERFORMED acts on a location at its home engine in one step: `amo` leaves the new
contents of its operation and returns the old ones; `spawn` arms a record that is neither armed, ready nor running with the
child's ticket and returns it, or returns 0, and a record with no join left becomes ready; `join` counts JOINS down and
returns 2, 1 or 0. Poison leaves the location alone and raises `ATOMIC_POISON` with the lowest poisoned byte, after the acquire
of an acquiring one (log 30). What an operation has written, none for a `cas` that finds another value, is noted for the group's own
jobs (R292). A location of another package is acted on there, and what it returns is a free value (R303,
log 6). -/
def Obligations.AtomicEffects : Prop :=
  (∀ (s : State) (gid id : Nat) (g : Machine.Group) (o : GOp), s.dev.readyFor gid id = some (g, o) → o.kind.isAtomic = true →
    let d := s.dev
    let x := o.xl
    let n := o.size
    let ends (d1 : Dev) (ds : List RegRef) (v : Nat) : Prop :=
      let d2 := d1.notePos gid (o.id + 1) x.pa n (o.written v)
      let k := (d2.groups.find gid).getD g
      let h := k.finishOp o (loadWrites k.arch ds false 0 v)
      exec (.amoPerformed gid id) s = .next { s with dev := (if o.acq then (d2.acquireOn o.core).acquire h else d2).opDone s.clk h o }
    (∀ op ty rd st b c ds v, o.kind = .amo op ty rd st b c ds →
      o.written v = if amoNew op ty rd st (8 * n) v b c = none then 0 else 2 ^ n - 1) ∧
    (∀ c ds v, o.kind = .spawn c ds → o.written v = if v = 0 then 0 else 2 ^ 12 + 2 ^ 8 - 1) ∧
    (∀ ds v, o.kind = .join ds → o.written v = if v = 2 then 0 else 2 ^ 12 - 2 ^ 8) ∧
    (∀ k, x.place = .remote k → d.reachable x.pa = true →
      let d := (d.send (.remoteOp k o)).redraw
      ends d o.kind.dests (d.remoteResult k o) ∧
      (∀ op ty rd st b c ds, o.kind = .amo op ty rd st b c ds → d.remoteResult k o < 2 ^ (8 * n)) ∧
      (∀ child ds, o.kind = .spawn child ds → d.remoteResult k o = child.toNat ∨ d.remoteResult k o = 0) ∧
      (∀ ds, o.kind = .join ds → d.remoteResult k o < 3)) ∧
    ((∀ k, x.place ≠ .remote k) →
    (∀ op ty rd st b c ds old, o.kind = .amo op ty rd st b c ds → d.readIn d.ms x n = (old, none) →
      let d := d.asked x n
      (amoNew op ty rd st (8 * n) old b c = none → ends d ds old) ∧
      (∀ w, amoNew op ty rd st (8 * n) old b c = some w →
        ends (d.writeX x (d.asidOf g) n w (2 ^ n - 1)) ds old)) ∧
    (∀ ds old, o.kind = .join ds → d.readIn d.ms x 64 = (old, none) →
      let d := d.asked x 64
      let j := nbits old 64 32
      (j = 0 → ends d ds 2) ∧ (1 < j → ends (d.writeRecord x 8 4 (j - 1)) ds 0)) ∧
    (∀ child ds old, o.kind = .spawn child ds → d.readIn d.ms x 64 = (old, none) →
      let d := d.asked x 64
      let busy : Bool := (d.shadow.find (x.pa / 64)).isSome
      (busy = true ∨ (nbit old 99 = true ∧ nbits old 64 32 ≠ 0) → ends d ds 0) ∧
      (∀ l, busy = false → nbit old 99 = false → nbits old 64 32 ≠ 0 → d.launches.find g.recd.launch = some l →
        let armed := (d.writeRecord x 0 8 child.toNat).setArmed x true
        ends (armed.setLaunch g.recd.launch { l with armed := l.armed ++ [(o.va, x)] }) ds child.toNat))) ∧
    (∀ a, (d.readIn d.ms x n).2 = some a → (∀ c ds, o.kind = .spawn c ds → n = 64) → (∀ ds, o.kind = .join ds → n = 64) →
      let h := (g.finishOp o []).defer cATOMIC_POISON (o.va + (a - x.pa))
      exec (.amoPerformed gid id) s = .next { s with dev := (if o.acq then (d.acquireOn o.core).acquire g else d).opDone s.clk h o })) ∧
  (∀ (d : Dev) (now tree va : Nat) (x : Xlat),
    nbits (d.recordImage x) 64 32 = 1 → nbit (d.recordImage x) 99 = true → d.shadow.find (x.pa / 64) = none →
    let d1 := d.writeRecord x 8 4 0
    d.applyJoin now tree va x = (d1.recordReady now (d1.ownerOf x tree) va x true, 1)) ∧
  (∀ (ty rd : Nat) (st : Bool) (k old b c : Nat), old < 2 ^ k → b < 2 ^ k →
    let new (op : Nat) : Option Nat := amoNew op ty rd st k old b c
    new 0 = some ((old + b) % 2 ^ k) ∧ new 1 = some (old &&& b) ∧ new 2 = some (old ||| b) ∧ new 3 = some (old ^^^ b) ∧
    (∃ w, new 4 = some w ∧ (w = old ∨ w = b) ∧ sInt k w ≤ sInt k old ∧ sInt k w ≤ sInt k b) ∧
    (∃ w, new 5 = some w ∧ (w = old ∨ w = b) ∧ sInt k old ≤ sInt k w ∧ sInt k b ≤ sInt k w) ∧
    (∃ w, new 6 = some w ∧ (w = old ∨ w = b) ∧ w ≤ old ∧ w ≤ b) ∧ (∃ w, new 7 = some w ∧ (w = old ∨ w = b) ∧ old ≤ w ∧ b ≤ w) ∧
    new 8 = some b ∧ new 9 = some (tyAdd (Ty.ofCode ty) (Rnd.ofCode rd) st old b) ∧ (old = b → new 10 = some c) ∧
    (old ≠ b → new 10 = none))

/-- R192, R193, R179, R180, R341, R344, R364, R188, R260: a page walk fills the core's TLB or its access faults `PAGE`; a line of an
evicted image goes to the group's slot and comes back from it with the bytes it held; a line leaves its slice with its dirty
sectors written to memory; a scale line that the head command reads enters the scale cache, as its first, and the last of 128
is given up (R260 names no replacement: log 41). A core keeps the translations it makes, those of its slots apart from those of pages
(DEDUCED, log 12); a walk's reads take the host's copies back (R376). -/
def Obligations.WalksAndLines : Prop :=
  ∀ (s : State),
    let d := s.dev
    let does (i : Instr) (d' : Dev) : Prop := exec i s = .next { s with dev := d' }
    (∀ cluster w ws, d.walks.getD cluster [] = w :: ws →
      let d1 : Dev := { d with walks := d.walks.put cluster ws }
      (d.groups.find w.gid = none ∨ w.drop = true → does (.pageWalk cluster) d1) ∧
      (∀ g p lt, d.groups.find w.gid = some g → w.drop = false → d.latchedOf g = some (p, lt) →
        let d2 := d1.takeBackWalk lt w.va false
        (d2.groups = d.groups ∧ d2.ms = d.ms ∧ d2.cores = d.cores ∧ (d.hostLines = [] → d.upsets = [] → d2 = d1)) ∧
        (∀ t, d2.walk lt w.va = some t →
          does (.pageWalk cluster) { d2 with cores := d2.cores.modify w.core Core.reset fun k => { k with tlb := t :: k.tlb } }) ∧
        (d2.walk lt w.va = none → g.stall = .tlb → g.status = .running →
          does (.pageWalk cluster) (d2.takeTrap s.clk g cPAGE (BitVec.ofNat 64 w.va) g.arch.pc false false)) ∧
        (d2.walk lt w.va = none → g.stall ≠ .tlb → does (.pageWalk cluster) d2))) ∧
    (∀ gid g line p lt x, d.groups.find gid = some g → d.latchedOf g = some (p, lt) → line < 2048 →
      let va := lt.backing + 0x10000 + 0x100000 * g.slot + 256 * line
      (g.core.isSome = true → line ∈ g.linesOut → d.slotXlat g.engCore p lt va .load = .ok x →
        ∃ h, does (.lineRefill gid line) ((d.keepLine g line).setGroup h) ∧ h.linesOut = g.linesOut.filter (· ≠ line) ∧ h.gid = g.gid ∧
          (256 ≤ line → line < 1280 → g.arch.ls.wf = true → d.reachable x.pa = true → (∀ k, x.place ≠ .remote k) →
            (∀ i < 256, h.arch.ls.read (256 * (line - 256) + i) = d.ms.byteAt x.place (x.pa + i)) ∧
            (∀ a, a < 256 * (line - 256) ∨ 256 * (line - 256) + 256 ≤ a → h.arch.ls.read a = g.arch.ls.read a) ∧
            h.arch = { g.arch with ls := h.arch.ls, lsPoison := h.arch.lsPoison })) ∧
      (g.core = none → line ∉ g.linesOut → d.lineMissed g line = true → d.slotXlat g.engCore p lt va .store = .ok x →
        (∀ i < 32, g.lineMark line i = false) →
        ∃ v, does (.lineWriteOut gid line) (((d.keepOne g.engCore lt true va).writeX x lt.asid 256 v (2 ^ 256 - 1)).setGroup { g with linesOut := line :: g.linesOut }) ∧
          (256 ≤ line → line < 1280 → ∀ i < 32, nbits v (64 * i) 64 = g.arch.ls.readN (256 * (line - 256) + 8 * i) 8) ∧
          (line < 2 → ∀ i < 32, nbits v (64 * i) 64 = (g.arch.xr (32 * line + i)).toNat))) ∧
    (∀ slice line l, d.ms.l2.find (slice * 2 ^ 44 + line) = some l →
      let t := d.evictLine slice line
      does (.l2DirtyEvict slice line) (t.tellHealth (d.hstat s.clk) s.clk) ∧
      (l.dirty = 0 → t.ms = { d.ms with l2 := d.ms.l2.del (slice * 2 ^ 44 + line) }) ∧
      (l.dirty ≠ 0 → l.badTag = true → t.ms.mem = d.ms.mem ∧ (∀ i < 8, 8 * line + i ∈ t.ms.poison) ∧ line / 256 ∈ t.quarantine) ∧
      (l.dirty ≠ 0 → l.badTag = false → d.reachable (256 * line) = true → l.dirty &&& l.poison = 0 → d.ms.mem.wf = true →
        ∀ i < 256, t.ms.mem.read (256 * line + i) =
          (if l.dirty.getLsbD (i / 32) then BitVec.ofNat 8 (nbits l.data.toNat (8 * i) 8) else d.ms.mem.read (256 * line + i)))) ∧
    (∀ (e : Dev) (c : Nat) (lt : Latched) (slot : Bool) (va : Nat), c < 4096 →
      let held : Prop := ∃ t ∈ (e.core c).tlb, t.slot = slot ∧ t.covers lt.asid va = true
      (held → e.keepOne (some c) lt slot va = e) ∧
      (∀ t, ¬ held → e.walkBy lt va slot = some t → e.keepOne (some c) lt slot va =
        let f := e.takeBackWalk lt va slot
        { f with cores := f.cores.modify c Core.reset fun k => { k with tlb := t :: k.tlb } })) ∧
    (∀ core g c tensor block r v ps, d.windowGroup core = some g → headCmd g = some c → d.modeOf g ≠ .ilv → d.matrixRuns g = true →
      (missingScales (d.scaleCache g) (c.nextRefs g)).find? (fun r => r.1 == tensor && r.2.2 / 32 == block / 32) = some r →
      d.scaleLine g r.2.1 (block / 32) (none, []) = .ok (v, none, ps) →
      r ∈ c.nextRefs g ∧
      does (.scaleCacheFill core tensor block)
        ((d.touch g ps).setScales g ((tensor, block / 32, BitVec.ofNat 256 v) :: (d.scaleCache g).take 127)))

/-! ## The engines at work (10_engines R206 to R222, R227 to R235) -/

/-- R206, R207, R209, R210, R217, R222, R240: COPY_JOB_START makes the oldest command the job once everything it released is
performed, and ends one whose record is broken (SHAPE) or whose bases are misaligned (ALIGN); COPY_CHUNK reads a whole chunk before
it writes, ends the job with ABORTED under a raised line, with the status of a failing address, or with POISON (in a
deterministic launch the superstep rolls back), and otherwise writes the chunk and goes on. A job that ends leaves its element
in the FIFO (whose oldest is lost where it is full, its lines joining the next one's), completes its entry, sets its flag and
advances its ring; what it wrote is kept with its entry for the `wait` that observes it (R209, R293). What its reads touch is
taken back from the host, mended and kept translated (`Dev.touch`: R376, R369, R193). NEXT = 0 of a broken record, NEXT modulo 2^24
and the order SHAPE, ALIGN, ACCESS are log 78, the bound entries as they stand at the chunk log 88, and an address status before
POISON or BOUND log 89 (each a DESIGN CHOICE). -/
def Obligations.CopyEngineSteps : Prop :=
  (∀ (s : State) (gid : Nat) (g : Machine.Group) (c : CopyCmd) (cs : List CopyCmd), s.dev.groups.find gid = some g → s.dev.engineRuns g = true →
    g.arch.copyJob = none → g.arch.copyIn = c :: cs → g.arch.released c.after = true →
    let does (d' : Dev) : Prop := exec (.copyJobStart gid) s = .next { s with dev := d' }
    let now := s.clk.fclk
    let job (sh : Shape) : CopyJob := { cmd := c, chunk := sh.ch0, fp := Finger.reset, bf := false, elems := 0, lines := [] }
    let d1 (j : CopyJob) : Dev := s.dev.setGroup { g with arch := { g.arch with copyIn := cs, copyJob := some j } }
    (c.shape = none → does ((d1 (job Shape.none)).copyDone now gid { job Shape.none with chunk := 0 } sSHAPE 0 0)) ∧
    (∀ sh, c.shape = some sh →
      let n := eszBits sh.esz / 8
      (1 ≤ n → c.dbase.toNat % n ≠ 0 ∨ c.sbase.toNat % n ≠ 0 → does ((d1 (job sh)).copyDone now gid (job sh) sALIGN sh.ch0 0)) ∧
      ((n = 0 ∨ (c.dbase.toNat % n = 0 ∧ c.sbase.toNat % n = 0)) →
        does (if c.exch = true ∧ c.ds = 2 then (d1 (job sh)).copyDone now gid (job sh) sACCESS sh.ch0 c.dbase.toNat
          else d1 (job sh))))) ∧
  (∀ (s : State) (gid : Nat) (g : Machine.Group) (j : CopyJob) (sh : Shape), s.dev.groups.find gid = some g → g.gid = gid →
    s.dev.engineRuns g = true → g.arch.copyJob = some j → j.cmd.shape = some sh →
    (j.cmd.re = false ∨ g.ringAt ≠ s.clk.aclk + 1) →
    let d := s.dev
    let now := s.clk.fclk
    let c := j.cmd
    let does (d' : Dev) : Prop := exec (.copyChunk gid) s = .next { s with dev := d' }
    (d.stopsJobs g = true → does (d.copyDone now gid j sABORTED (min j.chunk sh.chunks) 0)) ∧
    (d.stopsJobs g = false → sh.chunks ≤ j.chunk → does (d.copyDone now gid j sOK sh.chunks 0)) ∧
    (d.stopsJobs g = false → j.chunk < sh.chunks →
      let isGlobal : Bool := c.ss == 2 || c.ds == 2
      let w := eszBits sh.esz
      let k0 := j.chunk * chunkElems w
      let n := min (chunkElems w) (sh.total - k0)
      let d1 := d.spend g isGlobal
      let read := d.readChunk g c w sh.walk n k0
      d.granted g isGlobal = true →
      (∀ code a, read = .error (code, a) → does (d1.copyDone now gid j code j.chunk a)) ∧
      (∀ vs a, read = .ok (vs, some a) →
        does (if d.modeOf g = .det then d.askRollback g (BitVec.ofNat 64 a) else d1.copyDone now gid j sPOISON j.chunk a)) ∧
      (∀ vs ws fl pls, read = .ok (vs, none) → boundChunk g.arch.m.bnd.toList sh vs = some (ws, fl) →
        d.placeChunk g c w sh.walk (n / groupLen w) k0 ws = .ok pls →
        let reads := d.chunkReads g c w sh.walk n k0
        let d2 := (d1.engWrites gid c.after c.seq pls).touch g (reads ++ pls.map fun p => (p.1, 0))
        (∀ i < n, ∀ pl, (let b := elemBytes c.sbase w (elemAt sh.walk (k0 + i)).1
          d.engPlace g c.ss b.1 1 .load = .ok pl → (pl, b.2.1) ∈ reads)) ∧
        ∀ h, d2.groups.find gid = some h →
          let fp := if sh.fpe then ws.foldl (fun x v => x.add (Ty.ofCode sh.ty) v) j.fp else j.fp
          let j' : CopyJob := { j with chunk := j.chunk + 1, fp := fp, bf := j.bf || fl, elems := j.elems + n,
                                       lines := linesOf (d2.modeOf h) j.lines pls }
          does (d2.setGroup { h with arch := { h.arch with copyJob := some j' } })) ∧
      (∀ vs ws fl code a, read = .ok (vs, none) → boundChunk g.arch.m.bnd.toList sh vs = some (ws, fl) →
        d.placeChunk g c w sh.walk (n / groupLen w) k0 ws = .error (code, a) → does (d1.copyDone now gid j code j.chunk a)) ∧
      (∀ vs, read = .ok (vs, none) → boundChunk g.arch.m.bnd.toList sh vs = none →
        (∀ pls, d.placeChunk g c w sh.walk (n / groupLen w) k0 vs = .ok pls → does (d1.copyDone now gid j sBOUND j.chunk 0))))) ∧
  (∀ (d : Dev) (g : Machine.Group) (c : CopyCmd) (w : Nat) (ds : List (Nat × Int × Int)) (n k0 : Nat), c.ss = 0 →
    w = 8 ∨ w = 16 ∨ w = 32 ∨ w = 64 →
    let a (k : Nat) : Nat := (c.sbase + BitVec.ofInt 64 ((elemAt ds (k0 + k)).1 * (w / 8 : Nat))).toNat
    (∀ k < n, a k + w / 8 ≤ 0x40000 ∧ poisonIn g.arch.lsPoison (a k) (w / 8) = none) →
    d.readChunk g c w ds n k0 = .ok ((List.range n).map (fun k => g.arch.ls.readN (a k) (w / 8)), none)) ∧
  (∀ (d : Dev) (now : Nat) (g : Machine.Group) (j : CopyJob) (code next addr : Nat), d.groups.find g.gid = some g → code < 32 →
    code ≠ sPAGE → code ≠ sACCESS → code ≠ sPOISON → j.cmd.entry = none →
    let r := g.arch.ring j.cmd.ring
    let moves : Bool := code == sOK && j.cmd.re
    let d' := d.copyDone now g.gid j code next addr
    ∃ h e, d'.groups.find g.gid = some h ∧ h.gid = g.gid ∧ h.arch.copyJob = none ∧
      h.arch.copyOut = (if 16 ≤ g.arch.copyOut.length then g.arch.copyOut.drop 1 else g.arch.copyOut) ++ [e] ∧
      (g.arch.copyOut.length < 16 → h.arch.copyLines = g.arch.copyLines ++ [j.lines]) ∧
      (∀ a b ls, 16 ≤ g.arch.copyOut.length → g.arch.copyLines ++ [j.lines] = a :: b :: ls → h.arch.copyLines = (a ++ b) :: ls) ∧
      h.arch.copyLost = (g.arch.copyLost || decide (16 ≤ g.arch.copyOut.length)) ∧
      nbits e.toNat 64 5 = code ∧ nbits e.toNat 40 24 = next % 2 ^ 24 ∧ nbit e.toNat 71 = j.bf ∧
      nbit e.toNat 69 = (moves && decide (r.cap ≤ r.occ)) ∧
      (j.cmd.ring < 8 → h.arch.ring j.cmd.ring = if moves = true ∧ r.occ < r.cap then { r with tail := r.tail + 1 } else r) ∧
      (∀ f, j.cmd.flag = some f → f < 1024 → (g.flagNow.1 = now → ∀ p ∈ g.flagNow.2, p.1 = f → p.2 = 0) →
        h.arch.flag f = true ∧ h.arch.bridge.flagEvents = g.arch.bridge.flagEvents ++ [f]) ∧
      (∀ f, j.cmd.flag ≠ some f → h.arch.flag f = g.arch.flag f) ∧ (j.cmd.flag = none → d' = d.setGroup h) ∧
      h.arch.bridge.copyEvents = g.arch.bridge.copyEvents + 1 ∧ h.arch.ls = g.arch.ls ∧ h.arch.x = g.arch.x) ∧
  (∀ (d : Dev) (now : Nat) (g : Machine.Group) (j : CopyJob) (code next addr tok id : Nat), d.groups.find g.gid = some g →
    code ≠ sPAGE → code ≠ sACCESS → code ≠ sPOISON → j.cmd.entry = some (tok, id) → j.cmd.flag = none →
    ∃ h, (d.copyDone now g.gid j code next addr).groups.find g.gid = some h ∧
      ∀ l, l = 2 ^ 44 ∨ l ∈ j.lines → (tok, id, l) ∈ h.arch.drains)

/-- R206, R218, R222, R227 to R230, R232 to R234, R363: INDIRECT_JOB_START gives the engine of a cluster to the oldest command whose
group's engines run, and ends a misaligned or broken one; each pass or chunk of a job reads everything before it writes, ends the job with
ABORTED under a raised line, with the status of a failing address, or with POISON (a deterministic superstep rolls back),
and otherwise has its effect: rows moved, sums merged, updates applied, rows of a chain formed. A job whose group's engines
have stopped is set aside, its merge or read pass to restart, but not within its apply pass (R229). In an interleave launch
each 4 KiB of target elements that a pass reads or updates takes a grant of its own, also where its group has left its core, and the
sums take none (log 38). A job's
write leaves bytes alone that its group has written later in its order (R292). -/
def Obligations.IndirectEngineSteps : Prop :=
  (∀ (s : State) (cluster : Nat) (c : IndCmd) (cs : List IndCmd) (g : Machine.Group),
    let d := s.dev
    let e := d.indirect.getD cluster Indirect.reset
    e.job = none → (∀ a ∈ e.aside, a.1 < 1024) → e.queue = c :: cs → d.groups.find c.gid = some g → d.engineRuns g = true →
    g.arch.released c.after = true → c.at_ < s.clk.fclk →
    let j : IndJob := { cmd := c, next := 0, oorc := 0, merged := false, ups := [], bad := none, lines := [] }
    let d1 : Dev := { d with indirect := d.indirect.put cluster { e with job := some j, queue := cs } }
    exec (.indirectJobStart cluster) s =
      .next { s with dev := match indStartStatus c with
        | some st => d1.indDone cluster j st 0 0
        | none => d1 }) ∧
  (∀ (s : State) (cluster : Nat) (j : IndJob),
    let d := s.dev
    let e := d.indirect.getD cluster Indirect.reset
    e.job = some j → (∀ g, d.groups.find j.cmd.gid = some g → d.engineRuns g = false) → j.applying = false →
    exec (.indirectJobStart cluster) s = .next { s with dev :=
      { d with indirect := d.indirect.put cluster { e with job := none, aside := e.aside ++ [(groupKey j.cmd.gid, some j.restart, [])] } } } ∧
    j.restart.cmd = j.cmd ∧ (j.merged = true → j.restart = j) ∧ (j.cmd.op = .gat ∨ j.cmd.op = .sca ∨ j.cmd.op = .chg → j.restart = j) ∧
    (j.merged = false → j.cmd.op = .scaAdd ∨ j.cmd.op = .chs →
      j.restart = { j with next := 0, oorc := 0, ups := [], bad := none })) ∧
  (∀ c : IndCmd, c.op = .gat ∨ c.op = .sca ∨ c.op = .scaAdd → (indStartStatus c = none ↔ c.base.toNat % 8 = 0)) ∧
  (∀ (s : State) (cluster : Nat) (j : IndJob) (g : Machine.Group), s.dev.indRun cluster = some (j, g) →
    let d := s.dev
    let c := j.cmd
    let i : Instr := match c.op with
      | .gat => .gatherChunk cluster
      | .sca => .scatterChunk cluster
      | .chg => .chainGather cluster
      | .scaAdd => if j.merged then .scaAddApplyPass cluster else .scaAddMergePass cluster
      | .chs => if j.merged then .chsApplyPass cluster else .chsReadPass cluster
    let does (d' : Dev) : Prop := exec i s = .next { s with dev := d' }
    let global : Bool := match c.op with
      | .gat | .sca => true
      | .chg => d.anyInRange g c (d.chainEntries j g)
      | .scaAdd => (!j.merged && d.modeOf g != .ilv) || !j.ups.isEmpty
      | .chs => if j.merged then !j.ups.isEmpty else d.anyInRange g c (d.chainEntries j g)
    let d1 := d.spend g global
    let fails (e : Nat × Nat) : Prop := does (d1.indDone cluster j e.1 j.nextDone e.2)
    let poisons (a : Nat) : Prop :=
      does (if d.modeOf g = .det then d.askRollback g (BitVec.ofNat 64 a) else d1.indDone cluster j sPOISON j.nextDone a)
    (d.stopsJobs g = true → j.applying = false → does (d.indDone cluster j sABORTED j.nextDone 0)) ∧
    ((d.stopsJobs g = false ∨ j.applying = true) → d.granted g global = false → exec i s = .refused .notEnabled) ∧
    ((d.stopsJobs g = false ∨ j.applying = true) → d.granted g global = true →
      (c.op = .gat ∨ c.op = .sca →
        let ks := chunkOf c.row c.n j.next
        let m := d.moveRows g c (c.op == .gat) ks (none, [])
        (∀ e, m = .error e → fails e) ∧ (∀ ws a ps, m = .ok (ws, some a, ps) → poisons a) ∧
        (∀ ws ps, m = .ok (ws, none, ps) →
          let d2 := (d1.touch g ps).engWrites g.gid c.after c.seq ws
          does (d2.indNext cluster { j with next := j.next + ks.length, lines := linesOf (d2.modeOf g) j.lines ws }) ∧
          ws.map (fun w => w.2.2.2) = ks.flatMap (fun k => (List.range (c.row / 8)).map fun o => k * (c.row / 8) + o) ∧
          (c.op = .gat → ws.map (·.1) =
            ks.flatMap fun k => (List.range (c.row / 8)).map fun o => EPlace.clu ((c.clu + k * c.row + 8 * o) % 2 ^ 64)))) ∧
      (c.op = .chg →
        let m := d.chainChunk g j (none, [])
        (∀ e, m = .error e → fails e) ∧ (∀ r a ps, m = .ok (r, some a, ps) → poisons a) ∧
        (∀ ws bad ps, m = .ok ((ws, bad), none, ps) →
          does (((d1.touch g ps).engWrites g.gid c.after c.seq ws).indNext cluster
            { j with next := j.next + (chunkOf c.chain.rowBytes c.n j.next).length, oorc := j.oorc + bad }))) ∧
      (c.op = .scaAdd → j.merged = false →
        (j.ups = [] →
          let m := d.mergePass g c (none, [])
          (∀ e, m = .error e → fails e) ∧ (∀ u a ps, m = .ok (u, some a, ps) → poisons a) ∧
          (∀ ups ps, m = .ok (ups, none, ps) →
            does ((d1.touch g ps).setInd cluster
              { j with merged := decide (d.modeOf g ≠ .ilv), next := 0, ups := ups, bad := none }))) ∧
        (j.ups ≠ [] →
          let n := (Ty.ofCode c.ty).width / 8
          let us := (j.ups.drop j.next).take (4096 / n)
          let bad := us.foldl (fun b u => lowerOf b (if (d.readIn d.ms u.2.1 n).2.isSome then some u.1 else none)) j.bad
          let k := j.next + us.length
          let d2 := (d1.touch g []).foundBy g (updPlaces n us)
          (k < j.ups.length → does (d2.setInd cluster { j with next := k, bad := bad })) ∧
          (j.ups.length ≤ k → bad = none → does (d2.setInd cluster { j with merged := true, next := 0, bad := none })) ∧
          (∀ a, j.ups.length ≤ k → bad = some a → poisons a))) ∧
      (c.op = .chs → j.merged = false →
        let ks := d.chainEntries j g
        let m : Except (Nat × Nat) (List (List (Nat × Xlat × Nat) × Nat) × Option Nat × List (EPlace × Nat)) :=
          ks.mapM (fun k => d.chsEntry g c c.chain k) (none, [])
        (∀ e, m = .error e → fails e) ∧ (∀ u a ps, m = .ok (u, some a, ps) → poisons a) ∧
        (∀ rs ps, m = .ok (rs, none, ps) →
          let d2 := d1.touch g ps
          let k := j.next + (d2.chainEntries j g).length
          let bad := (rs.map (·.2)).foldl (· + ·) 0
          does (d2.setInd cluster { j with merged := decide (c.n ≤ k), next := if c.n ≤ k then 0 else k,
                                           ups := j.ups ++ (rs.map (·.1)).flatten, oorc := j.oorc + bad }))) ∧
      (c.op = .scaAdd → j.merged = true →
        let t := Ty.ofCode c.ty
        does ((d1.touch g []).applyPass cluster j g (t.width / 8) (fun v old => tyAdd t (Rnd.ofCode c.rd) c.st old v)
          fun v => .red c.ty c.rd c.st false v 0)) ∧
      (c.op = .chs → j.merged = true →
        let ch := c.chain
        does ((d1.touch g []).applyPass cluster j g ch.size (fmaEta ch.ty c.eta)
          fun v => .red (if ch.bf16 then 9 else 10) 0 false true c.eta v)))) ∧
  (∀ (d : Dev) (cl : Nat) (j : IndJob) (g : Machine.Group) (n : Nat) (f : Nat → Nat → Nat) (kind : Nat → GOpKind),
    (d.modeOf g = .det → d.applyPass cl j g n f kind = (d.logUps g j.cmd.seq n kind j.ups 0).indDone cl j sOK j.cmd.n 0) ∧
    (d.modeOf g ≠ .det →
      let m := if d.modeOf g = .ilv then max 1 (4096 / n) else j.ups.length
      let us := j.ups.take m
      let e := d.foundBy g (updPlaces n us)
      let bytes (pa : Nat) : Nat := e.jobBytes g j.cmd.after pa n
      let r := e.applyNow (e.asidOf g) n bytes f us j.bad
      let noted := us.foldl (fun (x : Dev) u => x.notePos g.gid j.cmd.after u.2.1.pa n (bytes u.2.1.pa)) r.1
      let j' : IndJob := { j with ups := j.ups.drop m, bad := r.2, next := j.next + 1,
                                  lines := addBlocks j.lines ((j.ups.take m).map fun u => u.2.1.pa / 256) }
      d.applyPass cl j g n f kind =
        if j.ups.length ≤ m then noted.indDone cl j' (if r.2.isSome then sPOISON else sOK) j.cmd.n (r.2.getD 0) else noted.setInd cl j')) ∧
  (∀ (d : Dev) (asid : BitVec 12) (n va v old : Nat) (x : Xlat) (bytes : Nat → Nat) (f : Nat → Nat → Nat) (p : Option Nat),
    d.readIn d.ms x n = (old, none) → d.applyNow asid n bytes f [(va, x, v)] p = (d.writeX x asid n (f v old) (bytes x.pa), p)) ∧
  (∀ (d : Dev) (asid : BitVec 12) (n va v old a : Nat) (x : Xlat) (bytes : Nat → Nat) (f : Nat → Nat → Nat),
    d.readIn d.ms x n = (old, some a) → d.applyNow asid n bytes f [(va, x, v)] none = (d, some va)) ∧
  (∀ (d : Dev) (g : Machine.Group) (pos pa n i : Nat), i < n →
    (nbit (d.jobBytes g pos pa n) i = true ↔ d.modeOf g ≠ .free ∨
      ¬ ∃ w ∈ g.arch.later, pos < w.1 ∧ w.2.1 ≤ pa + i ∧ pa + i < w.2.1 + w.2.2.1 ∧ nbit w.2.2.2 (pa + i - w.2.1) = true))

/-- R235, R236, R342: the bridge of a group on its core whose engines run is evaluated once in an fclk in which it has something to do, at its end, when
its events are counted (the closing stage of an fclk is the model's: log 3): the configuration issued before takes effect, each counter takes the events of its source (saturating at 65535), the triggers fire in
ascending number on the first true term and consume it, and their actions are done in order as far as there is room: an armed
copy or indirect command starts, or a flag is set. -/
def Obligations.BridgeEvaluation : Prop :=
  (∀ (s : State) (gid : Nat) (g : Machine.Group), s.dev.groups.find gid = some g → g.core = none →
    exec (.bridgeEvaluate gid) s = .refused .notEnabled) ∧
  (∀ (s : State) (gid : Nat) (g : Machine.Group), s.clk.closing = true → s.dev.groups.find gid = some g → s.dev.engineRuns g = true →
    g.core.isSome = true → g.arch.bridge.last < s.clk.fclk → g.arch.bridge.idle s.clk.fclk = false →
    let b := g.arch.bridge.eval s.clk.fclk
    let d1 := s.dev.setGroup { g with arch := { g.arch with bridge := b } }
    exec (.bridgeEvaluate gid) s = .next { s with dev := d1.bridgeActs s.clk.fclk gid b.waiting }) ∧
  (∀ (b : Bridge) (now : Nat), (∀ c ∈ b.config, now ≤ c.1) →
    let counted := b.ec.map fun c => { c with c := min 65535 (c.c + b.events c) }
    let t := b.eval now
    let r := fireAll b.term.toList ((List.range 8).zip b.trg.toList) counted
    t.ec = r.1 ∧ t.fired = r.2.1 ∧ t.waiting = b.waiting ++ r.2.2.filter (fun a => a.1 ≠ 0) ∧
    (b.term.toList.all (fun m => !termTrue counted m) = true → t.ec = counted ∧ t.fired = [] ∧ t.waiting = b.waiting) ∧
    t.last = now ∧ t.copyEvents = 0 ∧ t.indEvents = 0 ∧ t.flagEvents = [] ∧ t.term = b.term ∧ t.trg = b.trg ∧ t.config = b.config) ∧
  (∀ (b : Bridge) (now : Nat),
    let due := b.config.filter fun c => c.1 < now
    let b1 := due.foldl (fun x c => x.apply c.2.1.toNat c.2.2.toNat) b
    b.eval now = ({ b1 with config := b.config.filter fun c => ¬ c.1 < now } : Bridge).eval now) ∧
  (∀ (b : Bridge) (e ext : Nat),
    (e % 4 = 0 → b.apply e ext = { b with ec := b.ec.setIfInBounds (nbits e 2 4) ⟨nbits e 6 4, nbits e 10 10, ext % 2 ^ 16, 0⟩ }) ∧
    (e % 4 = 1 → b.apply e ext = { b with term := b.term.setIfInBounds (nbits e 2 3) (BitVec.ofNat 16 ext) }) ∧
    (e % 4 = 2 → b.apply e ext =
      { b with trg := b.trg.setIfInBounds (nbits e 2 3) ⟨BitVec.ofNat 8 ext, nbits e 5 2, nbits e 7 10⟩ }) ∧
    (e % 4 = 3 → (b.apply e ext).ec.toList = List.replicate 16 ⟨0, 0, 0, 0⟩ ∧ (b.apply e ext).term.toList = List.replicate 8 0 ∧
      (b.apply e ext).trg.toList = List.replicate 8 ⟨0, 0, 0⟩)) ∧
  (∀ (terms : List (BitVec 16)) (ec : Vector EvCount 16) (n : Nat) (g : Trig) (rest : List (Nat × Trig)),
    let isTrue (i : Nat) : Bool := g.mask.getLsbD i && termTrue ec (terms.getD i 0)
    fireAll terms [] ec = (ec, [], []) ∧
    ((∀ i < 8, isTrue i = false) → fireAll terms ((n, g) :: rest) ec = fireAll terms rest ec) ∧
    (∀ i < 8, isTrue i = true → (∀ k < i, isTrue k = false) →
      let r := fireAll terms rest (consumeTerm ec (terms.getD i 0))
      fireAll terms ((n, g) :: rest) ec = (r.1, n :: r.2.1, (g.act, g.arg) :: r.2.2))) ∧
  (∀ (ec : Vector EvCount 16) (m : BitVec 16),
    (termTrue ec m = true ↔ m ≠ 0 ∧ ∀ i < 16, m.getLsbD i = true → ∀ c, ec.toList[i]? = some c → c.th ≤ c.c) ∧
    ∀ i < 16, (consumeTerm ec m).toList[i]? = (ec.toList[i]?).map fun c => if m.getLsbD i then { c with c := c.c - c.th } else c) ∧
  (∀ (d : Dev) (now : Nat) (g : Machine.Group) (k : Nat), d.groups.find g.gid = some g →
    (∀ c, g.arch.copySlots.toList[k]? = some (.bridge c) →
      (8 ≤ g.arch.copyIn.length → d.bridgeAct now g (1, k) = none) ∧
      (g.arch.copyIn.length < 8 → d.modeOf g ≠ .det →
        let job : CopyCmd := { c with entry := none, seq := g.arch.seq, after := g.arch.nextId, exch := false }
        d.bridgeAct now g (1, k) =
          some (d.setGroup { g with arch := { g.arch with copyIn := g.arch.copyIn ++ [job], seq := g.arch.seq + 1 } }))) ∧
    (∀ c, g.arch.copySlots.toList[k]? = some (.bridge c) → g.arch.copyIn.length < 8 → d.modeOf g = .det →
      d.chargeJob g (copyCharge c) = none → d.bridgeAct now g (1, k) = some (d.setGroup (g.defer cLOG_FULL (copyCharge c)))) ∧
    (∀ c, g.arch.indSlots.toList[k]? = some (.bridge c) →
      (4 ≤ g.arch.indPending → d.bridgeAct now g (2, k) = none) ∧
      (g.arch.indPending < 4 →
        let cmd : IndCmd := { c with entry := none, seq := g.arch.seq, after := g.arch.nextId, exch := false }
        let h := { g with arch := { g.arch with indPending := g.arch.indPending + 1, seq := g.arch.seq + 1 } }
        d.bridgeAct now g (2, k) = match d.chargeJob g (indCharge c) with
          | none => some (d.setGroup (g.defer cLOG_FULL (indCharge c)))
          | some d1 => some ((d1.setGroup h).postInd now g cmd))) ∧
    d.bridgeAct now g (3, k) = some (d.writeFlagAt now 1 g k true))

/-! ## The matrix unit at work (12_matrix_unit R254 to R273; 13_sparse_tiles R280 to R287) -/

/-- R254, R256 to R260, R262 to R264, R273, R280: a command at the head of a queue is ended with the queue under a raised line; it
starts once what its push released is performed, its unit is not halted and its rings hold a tile, and works the aclk the
rules give to its first boundary; each step reads all it needs before it writes, and fails as a whole: its poison rolls a
deterministic superstep back. A step of ZERO clears a slot and nothing else; a product step writes the rows it computes and adds
its counts. A step works on its accumulator lines, and a scan on the lines of its tiles (R280), wherever they lie, those in the
group's slot as they stand there, the accumulator's once they can be refilled (R246). While a step of a group that has left the core
goes on, the unit takes no step of the next (R343). The scales read within a step and the order of the scale cache are log 41; when a step counts as begun and
when a stopped queue goes on are log 54. -/
def Obligations.MatrixCommandSteps : Prop :=
  (∀ (s : State) (gid : Nat) (g : Machine.Group) (c : MCmd) (cs : List MCmd), s.dev.groups.find gid = some g → g.gid = gid →
    g.arch.mu.queue = c :: cs → 1 ≤ c.op → c.op ≤ 5 → g.arch.mu.run.ending = none →
    let d := s.dev
    let d0 := d
    let run := g.arch.mu.run
    let i : Instr := match c.op with
      | 1 => .mmaCommand gid
      | 2 => .mmasCommand gid
      | 3 => .zeroCommand gid
      | 4 => .drainCommand gid
      | _ => .loadCommand gid
    let far : Bool := match c.op with
      | 1 => !(missingScales (d.scaleCache g) (c.denseRefs g)).isEmpty
      | 2 => !(missingScales (d.scaleCache g) (c.sparseRefs g)).isEmpty
      | 3 => false
      | 4 => c.ds || (c.cs && isNarrow c.ot)
      | _ => c.ds
    let does (d' : Dev) : Prop := exec i s = .next { s with dev := d' }
    let steps (d' : Dev) : Prop := does (d'.stepMade gid far)
    (d.abortsHead g = true → does (d.setGroup g.mAbort)) ∧
    (d.abortsHead g = false → d.matrixRuns g = true → run.left = 0 → run.started = false → g.arch.mu.halted = false →
      g.arch.released c.after = true →
      let starts (n : Nat) : Prop := does (d.setGroup (g.setRun fun r => { r with started := true, left := n }))
      (c.op = 1 → ringsReady g c = true → starts (c.m / 32 * c.nb * max (rateDense c.fa) (rateDense c.fb))) ∧
      (c.op = 2 → ringsReady g c = true → starts ((c.k + 7) / 8)) ∧ (c.op = 3 → starts 1) ∧ (c.op = 4 → starts 16) ∧ (c.op = 5 → starts 16)) ∧
    (d.abortsHead g = false → d.matrixRuns g = true → run.left = 0 → run.started = true → d.granted g far = true → d.refills g c = true →
      let d := (d.withAccs g c).1
      let g := (d0.withAccs g c).2
      (c.op = 1 →
        let m := d.mmaStep g c (none, [])
        (∀ e, m = .error e → steps (d.mFail g c e.1 e.2)) ∧ (∀ r a ps, m = .ok (r, some a, ps) → steps (d.mFail g c sPOISON a)) ∧
        (∀ rows sat nan sc ps, m = .ok ((rows, sat, nan, sc), none, ps) →
          steps ((((d.touch g ps).setScales g (sc.take 128)).writeAccs gid rows).mNext gid (c.k / 32) c.denseSteps
            fun y => { y with satc := y.satc + sat, sov := y.sov + nan }))) ∧
      (c.op = 2 → run.scan = none → steps (d.endScan g c)) ∧
      (c.op = 2 → ∀ sc, run.scan = some sc →
        let m := d.sparseStep g c sc (sc.ks.getD run.steps 0) (none, [])
        (∀ e, m = .error e → steps (d.mFail g c e.1 e.2)) ∧ (∀ r a ps, m = .ok (r, some a, ps) → steps (d.mFail g c sPOISON a)) ∧
        (∀ sums els sat nan cache ps, m = .ok ((sums, els, sat, nan, cache), none, ps) →
          let d1 := d.touch g ps
          steps ((((d1.setScales g (cache.take 128)).writeElems gid els).mNext gid sc.ks.length
            (sc.time c (d1.ditOf g) (sc.ks.getD (run.steps + 1) 0))
            fun y => { y with openSums := sums, satc := y.satc + sat, sov := y.sov + nan }).beginStep gid))) ∧
      (c.op = 3 → d.stopsJobs g = false → g.arch.acc.wf = true → g.arch.accPoison = [] →
        ∃ h, does (d.setGroup h) ∧
          (∀ a, h.arch.acc.read a = if 4096 * (c.slot + run.steps) ≤ a ∧ a < 4096 * (c.slot + run.steps + 1) then 0 else g.arch.acc.read a) ∧
          h.arch.mu.run = (let y := { run with steps := run.steps + 1, begun := false, vals := none }
            if c.count ≤ run.steps + 1 then { y with ending := some 0, left := 0 } else { y with left := 1 }) ∧
          h.arch.ls = g.arch.ls ∧ h.arch.x = g.arch.x ∧ h.arch.toks = g.arch.toks) ∧
      (c.op = 4 → steps (d.drainSlot g c)) ∧ (c.op = 5 → steps (d.loadSlot g c)))) ∧
  (∀ (d : Dev) (g : Machine.Group) (c : MCmd),
    let h := (d.withAccs g c).2
    (d.refills g c = true ↔ ∀ l ∈ c.accLines, l ∈ g.linesOut → (d.slotLine g l).isSome = true) ∧
    (∀ l, l ∈ c.accLines ↔ ∃ i < c.slots, 1280 + 16 * (c.slot + i) ≤ l ∧ l < 1280 + 16 * (c.slot + i) + 16) ∧
    (d.withAccs g c).1.groups = d.groups.put g.gid h ∧ (d.withAccs g c).1.ms = { d.ms with draw := (d.withAccs g c).1.ms.draw } ∧
    ((∀ l ∈ c.accLines ++ c.tileLines g, l ∉ g.linesOut) → h = g) ∧
    (c.op ≠ 2 → c.tileLines g = []) ∧
    (∀ l, c.op = 2 → (l ∈ c.tileLines g ↔ ∃ k, (k = c.ra ∨ k = c.rb) ∧
      let r := g.arch.ring k
      let a := r.base + r.tile * (r.head.toNat % r.cap)
      r.tile ≠ 0 ∧ 256 + a / 256 ≤ l ∧ l ≤ 256 + (a + r.tile - 1) / 256)) ∧
    ((∀ l ∈ c.tileLines g, l < 1280) → (∀ l v bad, l ∈ c.tileLines g → l ∈ g.linesOut → d.slotLine g l = some (v, bad) → g.arch.ls.wf = true →
      ∀ i < 256, h.arch.ls.read (256 * (l - 256) + i) = BitVec.ofNat 8 (nbits v (8 * i) 8) ∧
        (32 * (l - 256) + i / 8 ∈ h.arch.lsPoison ↔ bad (i / 32) = true))) ∧
    ((∀ l ∈ c.tileLines g, l < 1280) → c.slot + c.slots ≤ 32 → g.arch.acc.wf = true → ∀ l v bad, l ∈ c.accLines → l ∈ g.linesOut → d.slotLine g l = some (v, bad) →
      ∀ i < 256, h.arch.acc.read (256 * (l - 1280) + i) = BitVec.ofNat 8 (nbits v (8 * i) 8) ∧
        (32 * (l - 1280) + i / 8 ∈ h.arch.accPoison ↔ bad (i / 32) = true)) ∧
    ((∀ l ∈ c.tileLines g, l < 1280) → g.arch.acc.wf = true → ∀ a, (1280 + a / 256 ∉ c.accLines ∨ 1280 + a / 256 ∉ g.linesOut) → h.arch.acc.read a = g.arch.acc.read a)) ∧
  (∀ (d : Dev) (g : Machine.Group), (d.matrixRuns g = true ↔
      (d.runs g.recd.launch = true ∧ g.status = .running ∧ d.unitHeld g = false) ∨ g.arch.mu.run.begun = true) ∧
    (d.unitHeld g = true ↔ g.core.isSome = true ∧ ∃ kh ∈ d.groups, kh.2.gid ≠ g.gid ∧ kh.2.core = none ∧ kh.2.linesOn = g.core ∧
      kh.2.arch.mu.run.begun = true) ∧
    (d.abortsHead g = true ↔ d.stopsJobs g = true ∧ d.engineRuns g = true ∧ g.arch.mu.run.begun = false)) ∧
  (∀ (d : Dev) (g : Machine.Group) (c : MCmd) (code a : Nat), d.groups.find g.gid = some g →
    let ended (h : Machine.Group) (st : Nat) : Machine.Group :=
      h.setRun fun r => { r with ending := some st, endVal := BitVec.ofNat 64 a, left := 0, begun := false }
    (code ≠ sPOISON → d.mFail g c code a = d.setGroup (ended g code)) ∧
    (d.modeOf g = .det → d.mFail g c sPOISON a = d.askRollback g (BitVec.ofNat 64 a)) ∧
    (d.modeOf g ≠ .det → c.op ≠ 4 →
      d.mFail g c sPOISON a = (d.setGroup { g with arch := { g.arch with accPoison := markSlots g.arch.accPoison c.slotList } }).modGroup g.gid
        fun h => ended h sPOISON)) ∧
  (∀ (g : Machine.Group) (c : MCmd) (cs : List MCmd), g.arch.mu.queue = c :: cs → (∀ x ∈ c :: cs, x.entry = none) →
    let h := g.mAbort
    h.arch.mu.queue = [] ∧ h.arch.mu.lastOp = c.op ∧ h.arch.mu.lastCode = 8 ∧ h.arch.mu.run = MRun.reset ∧ h.arch.acc = g.arch.acc ∧
      h.arch.toks = g.arch.toks)

/-- R265, R254, R267, R259, R271, R270: RED works in one step with the REDs of its team's four members and ends every waiting one with
ORPHAN where they differ or a member is gone; MATRIX_COMMAND_RETIRE takes the head from its queue, completes its entry,
leaves its status in `mstat` (where it read rings, in an aclk in which the core moves none: R238), and raises the deferred trap of a failure, which halts the queue until `kret`; a new
governor window starts each 64 aclk with the budget last written. -/
def Obligations.MatrixRetireRedGovernor : Prop :=
  ∀ (s : State) (gid : Nat) (g : Machine.Group) (c : MCmd) (cs : List MCmd), s.dev.groups.find gid = some g → g.gid = gid →
    g.arch.mu.queue = c :: cs →
    let d := s.dev
    let run := g.arch.mu.run
    (c.op = 6 → run.ending = none →
      let gs := d.quad g
      let does (d' : Dev) : Prop := exec (.redCommand gid) s = .next { s with dev := d' }
      (d.abortsHead g = true → does (d.setGroup g.mAbort)) ∧
      (d.abortsHead g = false → run.left = 0 → g.arch.mu.halted = false → d.matrixRuns g = true →
        (gs.length < 4 → does (gs.foldl (fun d h => if redHead h then d.mEnd h.gid sORPHAN 0 else d) d)) ∧
        (gs.length = 4 →
          (∀ h ∈ gs, redHead h = true ∧ d.matrixRuns h = true ∧ h.arch.mu.run.left = 0 ∧
            (∃ x xs, h.arch.mu.queue = x :: xs ∧ h.arch.released x.after = true) ∧ d.refills h c = true) →
          ((∃ h ∈ gs, ∃ x xs, h.arch.mu.queue = x :: xs ∧ x.words.take 2 ≠ c.words.take 2) →
            does (gs.foldl (fun d h => d.mEnd h.gid sORPHAN 0) d)) ∧
          ((∀ h ∈ gs, ∀ x xs, h.arch.mu.queue = x :: xs → x.words.take 2 = c.words.take 2) →
            (run.started = false →
              does (gs.foldl (fun d h => d.modGroup h.gid fun h => h.setRun fun r => { r with started := true, left := 32 }) d)) ∧
            (run.started = true → does (gs.foldl (fun d h => d.stepMade h.gid false) (d.redStep g c gs))))))) ∧
    (∀ code, run.ending = some code → d.engineRuns g = true → 2 < c.op ∨ g.ringAt ≠ s.clk.aclk + 1 →
      exec (.matrixCommandRetire gid) s =
        .next { s with dev := d.mRetire { g with ringAt := if c.op ≤ 2 then s.clk.aclk + 1 else g.ringAt } c cs code } ∧
      (c.op = 3 → code = 0 → run.satc = 0 → run.nanr = 0 → run.sov = 0 → c.entry = none →
        ∃ h, d.mRetire g c cs code = d.setGroup h ∧ h.arch.mu.queue = cs ∧ h.arch.mu.run = MRun.reset ∧ h.arch.mu.lastOp = 3 ∧
          h.arch.mu.lastCode = 0 ∧ h.arch.mu.lastSteps = run.steps ∧ h.arch.mu.halted = g.arch.mu.halted ∧ h.arch.acc = g.arch.acc ∧
          h.arch.deferred = g.arch.deferred) ∧
      (2 < c.op → code = sBOUND → run.satc = 0 → run.nanr = 0 → run.sov = 0 → c.entry = none →
        ∃ h, d.mRetire g c cs code = d.setGroup h ∧ h.arch.mu.queue = cs ∧ h.arch.mu.lastCode = sBOUND ∧ h.arch.mu.halted = true ∧
          h.arch.deferred = g.arch.deferred ++ [⟨cBOUND, run.endVal, true⟩])) ∧
    (d.windowAt < s.clk.aclk / 64 * 64 →
      ∃ t, exec .governorWindow s = .next t ∧ t.dev.windowAt = s.clk.aclk / 64 * 64 ∧ t.dev.ms = d.ms ∧
        ∃ h, t.dev.groups.find gid = some h ∧ h.arch.m = { g.arch.m with govNow := g.arch.m.gov } ∧ h.arch.mu.windowSteps = 0 ∧
          h.arch.mu.queue = g.arch.mu.queue)

/-! ## Numbers (02_number_formats R36 to R45) -/

/-- R36 to R44: every format's values: rounding a value of a floating-point format into that format gives its pattern back,
whatever the rounding mode and saturation; a NaN keeps its sign and payload and comes out quiet (E4M3 has the one NaN of each
sign). Rounding to binary32 by `rne` of a number that is the sum of a normal value and less than half its last place
gives that value. -/
def Obligations.RoundingKeepsValues : Prop :=
  (∀ (t : Ty) (r : Rnd) (sat : Bool) (p : Nat), t.isInt = false → t ≠ .e8m0 → p < 2 ^ t.width →
    (((decodeVal t p).isNan = false ∧ (∀ b, decodeVal t p ≠ .inf b)) → roundF t r sat (decodeVal t p) = p) ∧
    (∀ b, decodeVal t p = .inf b → roundF t r false (decodeVal t p) = p) ∧
    ((decodeVal t p).isNan = true → t ≠ .e4m3 → roundF t r sat (decodeVal t p) = p ||| 2 ^ (t.sig - 1)) ∧
    ((decodeVal t p).isNan = true → t = .e4m3 → roundF t r sat (decodeVal t p) = p)) ∧
  (∀ (neg : Bool) (m k extra : Nat) (e : Int), 2 ^ 23 ≤ m → m < 2 ^ 24 → -149 ≤ e + k → e + k ≤ 104 → 2 * extra < 2 ^ k →
    roundF .f32 .rne false (.fin neg (m * 2 ^ k + extra) e) = roundF .f32 .rne false (.fin neg m (e + k)))

/-! ## Completion (06_issuing R144 to R150; 10_engines R226, R231, R236 to R239; 12_matrix_unit R250, R267; 03_launching R61, R62, R79) -/

/-- R144 to R150, R226, R231, R236, R238, R239, R250, R267, R61, R62: where the delay, predicate, flag, abort, element, event, bridge, ring
and matrix-status instructions complete: the state goes on, with memory, local store and clock as they are and the PC at the
next instruction (or a loop's start). The queue window takes a command while the queue has room and the unit works for no group before (R343), and none where no group holds the core (log 42); an entry is
validated, a context retires and its retirement and a queue's teardown end; a copy job starts once what it follows is
performed, and each of its chunks is handled or ends it. -/
def Obligations.FlowFlagEngineCompletion : Prop :=
  (∀ (s : State) (g : Machine.Group) (gd : Guard) (a : TailA) (h : TailH) (i : TailI) (p : TailP) (w : TailW) (core : Nat),
    s.issuing g → s.guardOn g gd → g.core = some core →
    let next := g.goesOn s.clk.aclk g.link 1
    let aborted := (s.dev.env s.clk g).aborted
    let completes (x : Instr) : Prop := ∃ t k, exec x s = .next t ∧ t.clk = s.clk ∧ t.dev.ms = s.dev.ms ∧
      t.dev.groups.find g.gid = some k ∧ k.arch.pc = next.arch.pc ∧ k.arch.ls = g.arch.ls
    let token := a.e.toNat % 32
    completes (.nop gd) ∧ completes (.dly gd h) ∧ completes (.xbar gd w) ∧
    (s.writable g (.q a.d.toNat) → s.readable g (.x a.a.toNat) → s.readable g (.x a.b.toNat) → a.e.toNat < 8 → completes (.qset gd a)) ∧
    (s.writable g (.q a.d.toNat) → s.readable g (.q a.a.toNat) → s.readable g (.q a.b.toNat) → a.e.toNat < 16 → completes (.qop gd a)) ∧
    (let code := i.imm.toNat / 1024 % 8
     let target : Option Nat := if code = 0 ∨ code = 4 + core % 4 then none else some (code - 4)
     code = 0 ∨ 4 ≤ code →
       completes (.fset gd i) ∧ completes (.fclr gd i) ∧
       (s.writable g (.x i.d.toNat) → (∀ o ∈ g.arch.gops, o.xl.typ ≠ 2 → o.acq = false ∧ o.kind.isLoad = false) → completes (.ftst gd i) ∧
         (s.dev.testFlag g target (i.imm.toNat % 1024) = true ∨ g.flagSeen = true → g.isAbort = false → completes (.fwait gd i)) ∧
         (aborted = true → completes (.fwait gd i)))) ∧
    (∀ l, s.dev.launches.find g.recd.launch = some l → completes (.abort gd) ∧ (s.writable g (.x h.d.toNat) → completes (.abchk gd h))) ∧
    (s.writable g (.x h.d.toNat) → h.e.toNat < 16 → (g.arch.latches.getLsbD h.e.toNat = true ∧ g.isAbort = false) ∨ aborted = true →
      completes (.evw gd h)) ∧
    (g.arch.tokCount token < 63 → a.d.toNat ≤ 60 → (∀ k < 4, s.writable g (.x (a.d.toNat + k))) →
      (a.e.getLsbD 5 = true → (g.arch.indOut ≠ [] ∨ g.arch.indPending = 0) → completes (.epop gd a)) ∧
      (a.e.getLsbD 5 = false → (∀ e rest, g.arch.copyOut = e :: rest → nbits e.toNat 64 5 ≠ 7) →
        (g.arch.copyOut ≠ [] ∨ (g.arch.copyIn = [] ∧ g.arch.copyJob = none)) → completes (.epop gd a))) ∧
    (g.arch.tokCount token < 63 → s.writable g (.x a.d.toNat) →
      completes (.mstat gd a) ∧ (s.readable g (.x a.b.toNat) → completes (.rpush gd a) ∧ completes (.rpop gd a))) ∧
    (s.parsReady g p →
      let base := (g.par p 0).toNat
      let size := (g.par p 1).toNat
      let tile := (g.par p 2).toNat
      base % 256 = 0 → base + size ≤ 0x40000 → tile % 64 = 0 → 64 ≤ tile → tile ≤ 65536 → size % tile = 0 → 1 ≤ size / tile →
      size / tile ≤ 4096 → g.par p 3 = 0 → ringBusy g.arch (p.e.toNat % 8) mcmdUsesRing = false → completes (.rset gd p))) ∧
  (∀ (s : State) (core : Nat) (v : Word), core < 4096 →
    (s.dev.windowGroup core = none → exec (.queueWindowPush core v) s = .next s) ∧
    (∀ g l, s.dev.windowGroup core = some g → s.dev.launches.find g.recd.launch = some l → g.arch.mu.queue.length < 16 →
      s.dev.unitHeld g = false → ∃ t, exec (.queueWindowPush core v) s = .next t ∧ t.clk = s.clk ∧ t.dev.ms = s.dev.ms)) ∧
  (∀ (s : State) (p c q : Nat), p < 16 → c < 64 → q < 8 →
    let d := s.dev
    let x := d.ctx p c
    (nbit (d.runEntry p c) 399 = false → ∃ t, exec (.entryValidate p c) s = .next t ∧ t.clk = s.clk ∧ t.dev.groups = d.groups) ∧
    (x.latched.isSome = true → x.retiring = false → ∃ t, exec (.contextRetire p c) s = .next t ∧ (t.dev.ctx p c).retiring = true) ∧
    (x.latched.isSome = true → x.retiring = true → d.launchesOf p c = [] →
      ∃ t, exec (.contextRetirementEnd p c) s = .next t ∧ (t.dev.ctx p c).latched = none ∧ (t.dev.ctx p c).retiring = false) ∧
    ((d.lqueue p c q).state = 2 → x.retiring = false → (∀ kl ∈ d.launchesOf p c, kl.2.queue ≠ q) →
      ∃ t, exec (.teardownEnd p c q) s = .next t ∧ (t.dev.lqueue p c q).state = 3 ∧ t.dev.groups = d.groups)) ∧
  (∀ (s : State) (gid : Nat) (g : Machine.Group), s.dev.groups.find gid = some g → g.gid = gid → s.dev.engineRuns g = true →
    (∀ c cs, g.arch.copyJob = none → g.arch.copyIn = c :: cs → g.arch.released c.after = true →
      ∃ t, exec (.copyJobStart gid) s = .next t ∧ t.clk = s.clk) ∧
    (∀ j sh, g.arch.copyJob = some j → j.cmd.shape = some sh → j.cmd.re = false ∨ g.ringAt ≠ s.clk.aclk + 1 →
      s.dev.stopsJobs g = true ∨ sh.chunks ≤ j.chunk ∨ s.dev.granted g true = true →
      ∃ t, exec (.copyChunk gid) s = .next t ∧ t.clk = s.clk))
end

