-- ==== Sys2Proof/Laws/Memory.lean ====
section
/-!
SUPPORT. Tables and memories: what a lookup finds after an update, that every memory operation keeps the canonical form,
and that equal contents are equal memories.
-/

namespace Sys2Proof.Machine

/-! Tables. -/

@[simp] theorem Tab.find_put_same {α : Type} (t : Tab α) (i : Nat) (v : α) : (t.put i v).find i = some v := by
  induction t with
  | nil => simp [Tab.put, Tab.find]
  | cons e t ih =>
    obtain ⟨k, w⟩ := e
    simp only [Tab.put]
    split
    · simp [Tab.find]
    · split
      · simp [Tab.find]
      · rename_i h1 h2
        simp [Tab.find, h1, h2, ih]

theorem Tab.find_put_ne {α : Type} (t : Tab α) {i j : Nat} (v : α) (h : i ≠ j) : (t.put i v).find j = t.find j := by
  induction t with
  | nil => simp [Tab.put, Tab.find, h]
  | cons e t ih =>
    obtain ⟨k, w⟩ := e
    simp only [Tab.put]
    split
    · subst_vars; simp [Tab.find, h]
    · split
      · rename_i h1 h2
        simp only [Tab.find, h, if_false]
        split
        · split
          · omega
          · split <;> first | rfl | omega
        · rfl
      · simp only [Tab.find, ih]

@[simp] theorem Tab.getD_put_same {α : Type} (t : Tab α) (i : Nat) (v d : α) : (t.put i v).getD i d = v := by
  simp [Tab.getD]

theorem Tab.getD_put_ne {α : Type} (t : Tab α) {i j : Nat} (v d : α) (h : i ≠ j) : (t.put i v).getD j d = t.getD j d := by
  simp [Tab.getD, Tab.find_put_ne t v h]

/-! Memories. -/

theorem memOrdered_weaken {lo lo' : Option Nat} {m : Memory} (h : memOrdered lo m = true)
    (hl : ∀ l, lo' = some l → ∃ k, lo = some k ∧ l ≤ k) : memOrdered lo' m = true := by
  cases m with
  | nil => rfl
  | cons e m =>
    obtain ⟨a, v⟩ := e
    simp only [memOrdered, Bool.and_eq_true] at h ⊢
    refine ⟨⟨?_, h.1.2⟩, h.2⟩
    cases lo' with
    | none => rfl
    | some l =>
      obtain ⟨k, rfl, hk⟩ := hl l rfl
      have := h.1.1
      simp only [decide_eq_true_eq] at this ⊢
      omega

theorem memOrdered_none {lo : Option Nat} {m : Memory} (h : memOrdered lo m = true) : memOrdered none m = true :=
  memOrdered_weaken h (by simp)

theorem memOrdered_write {lo : Option Nat} {m : Memory} {a : Nat} {v : Byte} (h : memOrdered lo m = true)
    (ha : ∀ l, lo = some l → l < a) : memOrdered lo (m.write a v) = true := by
  induction m generalizing lo with
  | nil =>
    simp only [Memory.write]
    split
    · rfl
    · rename_i hv
      cases lo with
      | none => simp [memOrdered, hv]
      | some l => simp [memOrdered, hv, ha l rfl]
  | cons e m ih =>
    obtain ⟨k, w⟩ := e
    simp only [memOrdered, Bool.and_eq_true] at h
    obtain ⟨⟨h1, h2⟩, h3⟩ := h
    simp only [Memory.write]
    split
    · subst_vars
      split
      · refine memOrdered_weaken h3 ?_
        intro l hl; exact ⟨k, rfl, Nat.le_of_lt (ha l hl)⟩
      · rename_i hv
        simp only [memOrdered, Bool.and_eq_true]
        exact ⟨⟨h1, by simpa using hv⟩, h3⟩
    · split
      · rename_i hk hlt
        split
        · simp only [memOrdered, Bool.and_eq_true]; exact ⟨⟨h1, h2⟩, h3⟩
        · rename_i hv
          simp only [memOrdered, Bool.and_eq_true, decide_eq_true_eq]
          refine ⟨⟨?_, by simpa using hv⟩, ⟨hlt, h2⟩, h3⟩
          cases lo with
          | none => rfl
          | some l => simp [ha l rfl]
      · rename_i hk hlt
        simp only [memOrdered, Bool.and_eq_true]
        refine ⟨⟨h1, h2⟩, ih h3 ?_⟩
        intro l hl
        cases hl
        omega

/-- Writing a byte keeps the canonical form. -/
theorem Memory.write_wf {m : Memory} {a : Nat} {v : Byte} (h : m.wf = true) : (m.write a v).wf = true :=
  memOrdered_write h (by simp)

theorem Memory.writeMasked_wf {m : Memory} {a v mask n : Nat} (h : m.wf = true) : (m.writeMasked a v mask n).wf = true := by
  induction n generalizing m a v mask with
  | zero => exact h
  | succ n ih =>
    simp only [Memory.writeMasked]
    split
    · exact ih (Memory.write_wf h)
    · exact ih h

theorem Memory.writeN_wf {m : Memory} {a v n : Nat} (h : m.wf = true) : (m.writeN a v n).wf = true :=
  Memory.writeMasked_wf h

theorem read_below {k : Nat} {m : Memory} (h : memOrdered (some k) m = true) {a : Nat} (ha : a ≤ k) : m.read a = unlistedByte := by
  cases m with
  | nil => rfl
  | cons e m =>
    obtain ⟨b, w⟩ := e
    simp only [memOrdered, Bool.and_eq_true, decide_eq_true_eq] at h
    simp only [Memory.read]
    rw [if_neg (by omega), if_pos (by omega)]

theorem read_write_same_of {lo : Option Nat} {m : Memory} (h : memOrdered lo m = true) (a : Nat) (v : Byte) : (m.write a v).read a = v := by
  induction m generalizing lo with
  | nil =>
    simp only [Memory.write]
    split
    · rename_i hv; exact hv.symm
    · simp [Memory.read]
  | cons e m ih =>
    obtain ⟨k, w⟩ := e
    simp only [memOrdered, Bool.and_eq_true] at h
    simp only [Memory.write]
    split
    · subst_vars
      split
      · rename_i hv; rw [read_below h.2 (Nat.le_refl k)]; exact hv.symm
      · simp [Memory.read]
    · rename_i hk
      split
      · rename_i hlt
        split
        · rename_i hv
          simp only [Memory.read]
          rw [if_neg hk, if_pos hlt]; exact hv.symm
        · simp [Memory.read]
      · rename_i hlt
        simp only [Memory.read]
        rw [if_neg hk, if_neg hlt]
        exact ih h.2

/-- A byte reads as it was written. -/
theorem Memory.read_write_same {m : Memory} (h : m.wf = true) (a : Nat) (v : Byte) : (m.write a v).read a = v :=
  read_write_same_of h a v

theorem read_write_ne_of {lo : Option Nat} {m : Memory} (h : memOrdered lo m = true) {a b : Nat} (v : Byte) (hab : a ≠ b) :
    (m.write a v).read b = m.read b := by
  induction m generalizing lo with
  | nil =>
    simp only [Memory.write]
    split
    · rfl
    · simp [Memory.read, hab]
  | cons e m ih =>
    obtain ⟨k, w⟩ := e
    simp only [memOrdered, Bool.and_eq_true] at h
    simp only [Memory.write]
    split
    · subst_vars
      split
      · simp only [Memory.read]
        rw [if_neg hab]
        split
        · exact read_below h.2 (by omega)
        · rfl
      · simp [Memory.read, hab]
    · rename_i hk
      split
      · rename_i hlt
        split
        · rfl
        · simp only [Memory.read, if_neg hab]
          split
          · rename_i hb
            rw [if_neg (by omega), if_pos (by omega)]
          · rfl
      · simp only [Memory.read, ih h.2]

/-- A write leaves every other byte alone. -/
theorem Memory.read_write_ne {m : Memory} (h : m.wf = true) {a b : Nat} (v : Byte) (hab : a ≠ b) : (m.write a v).read b = m.read b :=
  read_write_ne_of h v hab

/-- A masked store leaves every byte outside its range alone. -/
theorem Memory.read_writeMasked_out {m : Memory} (h : m.wf = true) {a v mask n b : Nat} (hb : b < a ∨ a + n ≤ b) :
    (m.writeMasked a v mask n).read b = m.read b := by
  induction n generalizing m a v mask with
  | zero => rfl
  | succ n ih =>
    simp only [Memory.writeMasked]
    split
    · rw [ih (Memory.write_wf h) (by omega), Memory.read_write_ne h _ (by omega)]
    · rw [ih h (by omega)]

/-- A masked store writes the bytes whose mask bit is set and leaves the others of its range alone. -/
theorem Memory.read_writeMasked_in {m : Memory} (h : m.wf = true) {a v mask n i : Nat} (hi : i < n) :
    (m.writeMasked a v mask n).read (a + i) = if nbit mask i then BitVec.ofNat 8 (v / 256 ^ i) else m.read (a + i) := by
  induction n generalizing m a v mask i with
  | zero => omega
  | succ n ih =>
    simp only [Memory.writeMasked]
    have hw : (if mask % 2 = 1 then m.write a (BitVec.ofNat 8 v) else m).wf = true := by
      split
      · exact Memory.write_wf h
      · exact h
    cases i with
    | zero =>
      rw [Memory.read_writeMasked_out hw (by omega)]
      simp only [Nat.add_zero, nbit, Nat.pow_zero, Nat.div_one, decide_eq_true_eq]
      split
      · exact Memory.read_write_same h _ _
      · rfl
    | succ i =>
      rw [show a + (i + 1) = a + 1 + i by omega, ih hw (by omega)]
      have e1 : nbit (mask / 2) i = nbit mask (i + 1) := by
        simp only [nbit, Nat.div_div_eq_div_mul, Nat.pow_succ, Nat.mul_comm]
      have e2 : v / 256 / 256 ^ i = v / 256 ^ (i + 1) := by
        rw [Nat.div_div_eq_div_mul, Nat.pow_succ, Nat.mul_comm]
      rw [e1, e2]
      split
      · rfl
      · split
        · exact Memory.read_write_ne h _ (by omega)
        · rfl

/-- Equal contents are equal memories: the canonical form is one for each content. -/
theorem Memory.ext_read {m n : Memory} (hm : m.wf = true) (hn : n.wf = true) (h : ∀ a, m.read a = n.read a) : m = n := by
  suffices H : ∀ (m n : Memory) (lo lo' : Option Nat), memOrdered lo m = true → memOrdered lo' n = true → (∀ a, m.read a = n.read a) → m = n from
    H m n none none hm hn h
  intro m
  induction m with
  | nil =>
    intro n lo lo' _ hn h
    cases n with
    | nil => rfl
    | cons e n =>
      obtain ⟨k, w⟩ := e
      simp only [memOrdered, Bool.and_eq_true] at hn
      have := h k
      simp only [Memory.read, if_true] at this
      have hw : (w != unlistedByte) = true := hn.1.2
      rw [← this] at hw
      simp at hw
  | cons e m ih =>
    obtain ⟨a, v⟩ := e
    intro n lo lo' hm hn h
    simp only [memOrdered, Bool.and_eq_true] at hm
    have hv : v ≠ unlistedByte := by simpa using hm.1.2
    cases n with
    | nil =>
      have := h a
      simp only [Memory.read, if_true] at this
      exact absurd this hv
    | cons e n =>
      obtain ⟨b, w⟩ := e
      simp only [memOrdered, Bool.and_eq_true] at hn
      have hw : w ≠ unlistedByte := by simpa using hn.1.2
      have hab : a = b := by
        rcases Nat.lt_trichotomy a b with hlt | heq | hgt
        · have := h a
          simp only [Memory.read, if_true] at this
          rw [if_neg (by omega), if_pos hlt] at this
          exact absurd this hv
        · exact heq
        · have := h b
          simp only [Memory.read, if_true] at this
          rw [if_neg (by omega), if_pos hgt] at this
          exact absurd this.symm hw
      subst hab
      have hvw : v = w := by simpa [Memory.read] using h a
      subst hvw
      refine congrArg _ (ih n _ _ hm.2 hn.2 ?_)
      intro c
      rcases Nat.lt_or_ge a c with hlt | hge
      · have := h c
        simp only [Memory.read] at this
        rwa [if_neg (by omega), if_neg (by omega), if_neg (by omega), if_neg (by omega)] at this
      · rw [read_below hm.2 hge, read_below hn.2 hge]

end Sys2Proof.Machine
end

