-- ==== Sys2Proof/Laws/State.lean ====
section
/-!
SUPPORT. What each named update of the device, of a group's registers and of the machine leaves in each field: one lemma per
field per update, true by rfl, so that no proof unfolds a record update.
-/

namespace Sys2Proof.Machine

@[simp] theorem Dev.setCore_cur (d : Dev) (n : Nat) (v : Core) : (d.setCore n v).cur = d.cur := rfl
@[simp] theorem Dev.setCore_groups (d : Dev) (n : Nat) (v : Core) : (d.setCore n v).groups = d.groups := rfl
@[simp] theorem Dev.setCore_nextGid (d : Dev) (n : Nat) (v : Core) : (d.setCore n v).nextGid = d.nextGid := rfl
@[simp] theorem Dev.setCore_ms (d : Dev) (n : Nat) (v : Core) : (d.setCore n v).ms = d.ms := rfl
@[simp] theorem Dev.setCore_shadow (d : Dev) (n : Nat) (v : Core) : (d.setCore n v).shadow = d.shadow := rfl
@[simp] theorem Dev.setCore_quarantine (d : Dev) (n : Nat) (v : Core) : (d.setCore n v).quarantine = d.quarantine := rfl
@[simp] theorem Dev.setCore_walks (d : Dev) (n : Nat) (v : Core) : (d.setCore n v).walks = d.walks := rfl
@[simp] theorem Dev.setCore_invals (d : Dev) (n : Nat) (v : Core) : (d.setCore n v).invals = d.invals := rfl
@[simp] theorem Dev.setCore_pools (d : Dev) (n : Nat) (v : Core) : (d.setCore n v).pools = d.pools := rfl
@[simp] theorem Dev.setCore_overflow (d : Dev) (n : Nat) (v : Core) : (d.setCore n v).overflow = d.overflow := rfl
@[simp] theorem Dev.setCore_order (d : Dev) (n : Nat) (v : Core) : (d.setCore n v).order = d.order := rfl
@[simp] theorem Dev.setCore_indirect (d : Dev) (n : Nat) (v : Core) : (d.setCore n v).indirect = d.indirect := rfl
@[simp] theorem Dev.setCore_clusterMem (d : Dev) (n : Nat) (v : Core) : (d.setCore n v).clusterMem = d.clusterMem := rfl
@[simp] theorem Dev.setCore_clusterPoison (d : Dev) (n : Nat) (v : Core) : (d.setCore n v).clusterPoison = d.clusterPoison := rfl
@[simp] theorem Dev.setCore_parts (d : Dev) (n : Nat) (v : Core) : (d.setCore n v).parts = d.parts := rfl
@[simp] theorem Dev.setCore_ctxs (d : Dev) (n : Nat) (v : Core) : (d.setCore n v).ctxs = d.ctxs := rfl
@[simp] theorem Dev.setCore_queues (d : Dev) (n : Nat) (v : Core) : (d.setCore n v).queues = d.queues := rfl
@[simp] theorem Dev.setCore_edges (d : Dev) (n : Nat) (v : Core) : (d.setCore n v).edges = d.edges := rfl
@[simp] theorem Dev.setCore_fqNow (d : Dev) (n : Nat) (v : Core) : (d.setCore n v).fqNow = d.fqNow := rfl
@[simp] theorem Dev.setCore_displaced (d : Dev) (n : Nat) (v : Core) : (d.setCore n v).displaced = d.displaced := rfl
@[simp] theorem Dev.setCore_launches (d : Dev) (n : Nat) (v : Core) : (d.setCore n v).launches = d.launches := rfl
@[simp] theorem Dev.setCore_nextTree (d : Dev) (n : Nat) (v : Core) : (d.setCore n v).nextTree = d.nextTree := rfl
@[simp] theorem Dev.setCore_bootWarn (d : Dev) (n : Nat) (v : Core) : (d.setCore n v).bootWarn = d.bootWarn := rfl
@[simp] theorem Dev.setCore_bootErr (d : Dev) (n : Nat) (v : Core) : (d.setCore n v).bootErr = d.bootErr := rfl
@[simp] theorem Dev.setCore_replace (d : Dev) (n : Nat) (v : Core) : (d.setCore n v).replace = d.replace := rfl
@[simp] theorem Dev.setCore_linkdn (d : Dev) (n : Nat) (v : Core) : (d.setCore n v).linkdn = d.linkdn := rfl
@[simp] theorem Dev.setCore_hstate (d : Dev) (n : Nat) (v : Core) : (d.setCore n v).hstate = d.hstate := rfl
@[simp] theorem Dev.setCore_orphans (d : Dev) (n : Nat) (v : Core) : (d.setCore n v).orphans = d.orphans := rfl
@[simp] theorem Dev.setCore_hcorr (d : Dev) (n : Nat) (v : Core) : (d.setCore n v).hcorr = d.hcorr := rfl
@[simp] theorem Dev.setCore_hunc (d : Dev) (n : Nat) (v : Core) : (d.setCore n v).hunc = d.hunc := rfl
@[simp] theorem Dev.setCore_hpermit (d : Dev) (n : Nat) (v : Core) : (d.setCore n v).hpermit = d.hpermit := rfl
@[simp] theorem Dev.setCore_uncTh (d : Dev) (n : Nat) (v : Core) : (d.setCore n v).uncTh = d.uncTh := rfl
@[simp] theorem Dev.setCore_corTh (d : Dev) (n : Nat) (v : Core) : (d.setCore n v).corTh = d.corTh := rfl
@[simp] theorem Dev.setCore_temp (d : Dev) (n : Nat) (v : Core) : (d.setCore n v).temp = d.temp := rfl
@[simp] theorem Dev.setCore_power (d : Dev) (n : Nat) (v : Core) : (d.setCore n v).power = d.power := rfl
@[simp] theorem Dev.setCore_overSince (d : Dev) (n : Nat) (v : Core) : (d.setCore n v).overSince = d.overSince := rfl
@[simp] theorem Dev.setCore_hgang (d : Dev) (n : Nat) (v : Core) : (d.setCore n v).hgang = d.hgang := rfl
@[simp] theorem Dev.setCore_cellCorr (d : Dev) (n : Nat) (v : Core) : (d.setCore n v).cellCorr = d.cellCorr := rfl
@[simp] theorem Dev.setCore_cellUnc (d : Dev) (n : Nat) (v : Core) : (d.setCore n v).cellUnc = d.cellUnc := rfl
@[simp] theorem Dev.setCore_lastAudit (d : Dev) (n : Nat) (v : Core) : (d.setCore n v).lastAudit = d.lastAudit := rfl
@[simp] theorem Dev.setCore_retired (d : Dev) (n : Nat) (v : Core) : (d.setCore n v).retired = d.retired := rfl
@[simp] theorem Dev.setCore_siteOf (d : Dev) (n : Nat) (v : Core) : (d.setCore n v).siteOf = d.siteOf := rfl
@[simp] theorem Dev.setCore_retireList (d : Dev) (n : Nat) (v : Core) : (d.setCore n v).retireList = d.retireList := rfl
@[simp] theorem Dev.setCore_harvest (d : Dev) (n : Nat) (v : Core) : (d.setCore n v).harvest = d.harvest := rfl
@[simp] theorem Dev.setCore_config (d : Dev) (n : Nat) (v : Core) : (d.setCore n v).config = d.config := rfl
@[simp] theorem Dev.setCore_firmware (d : Dev) (n : Nat) (v : Core) : (d.setCore n v).firmware = d.firmware := rfl
@[simp] theorem Dev.setCore_hostAttr (d : Dev) (n : Nat) (v : Core) : (d.setCore n v).hostAttr = d.hostAttr := rfl
@[simp] theorem Dev.setCore_msixTable (d : Dev) (n : Nat) (v : Core) : (d.setCore n v).msixTable = d.msixTable := rfl
@[simp] theorem Dev.setCore_msixPending (d : Dev) (n : Nat) (v : Core) : (d.setCore n v).msixPending = d.msixPending := rfl
@[simp] theorem Dev.setCore_ports (d : Dev) (n : Nat) (v : Core) : (d.setCore n v).ports = d.ports := rfl
@[simp] theorem Dev.setCore_routes (d : Dev) (n : Nat) (v : Core) : (d.setCore n v).routes = d.routes := rfl
@[simp] theorem Dev.setCore_cxlUp (d : Dev) (n : Nat) (v : Core) : (d.setCore n v).cxlUp = d.cxlUp := rfl
@[simp] theorem Dev.setCore_cxlCap (d : Dev) (n : Nat) (v : Core) : (d.setCore n v).cxlCap = d.cxlCap := rfl
@[simp] theorem Dev.setCore_hostLines (d : Dev) (n : Nat) (v : Core) : (d.setCore n v).hostLines = d.hostLines := rfl
@[simp] theorem Dev.setCore_out (d : Dev) (n : Nat) (v : Core) : (d.setCore n v).out = d.out := rfl
@[simp] theorem Dev.setCore_grants (d : Dev) (n : Nat) (v : Core) : (d.setCore n v).grants = d.grants := rfl
@[simp] theorem Dev.setCore_windowAt (d : Dev) (n : Nat) (v : Core) : (d.setCore n v).windowAt = d.windowAt := rfl
@[simp] theorem Dev.setCore_upsets (d : Dev) (n : Nat) (v : Core) : (d.setCore n v).upsets = d.upsets := rfl
@[simp] theorem Dev.setCore_nfree (d : Dev) (n : Nat) (v : Core) : (d.setCore n v).nfree = d.nfree := rfl

@[simp] theorem Dev.setPart_cur (d : Dev) (n : Nat) (v : Part) : (d.setPart n v).cur = d.cur := rfl
@[simp] theorem Dev.setPart_cores (d : Dev) (n : Nat) (v : Part) : (d.setPart n v).cores = d.cores := rfl
@[simp] theorem Dev.setPart_groups (d : Dev) (n : Nat) (v : Part) : (d.setPart n v).groups = d.groups := rfl
@[simp] theorem Dev.setPart_nextGid (d : Dev) (n : Nat) (v : Part) : (d.setPart n v).nextGid = d.nextGid := rfl
@[simp] theorem Dev.setPart_ms (d : Dev) (n : Nat) (v : Part) : (d.setPart n v).ms = d.ms := rfl
@[simp] theorem Dev.setPart_shadow (d : Dev) (n : Nat) (v : Part) : (d.setPart n v).shadow = d.shadow := rfl
@[simp] theorem Dev.setPart_quarantine (d : Dev) (n : Nat) (v : Part) : (d.setPart n v).quarantine = d.quarantine := rfl
@[simp] theorem Dev.setPart_walks (d : Dev) (n : Nat) (v : Part) : (d.setPart n v).walks = d.walks := rfl
@[simp] theorem Dev.setPart_invals (d : Dev) (n : Nat) (v : Part) : (d.setPart n v).invals = d.invals := rfl
@[simp] theorem Dev.setPart_pools (d : Dev) (n : Nat) (v : Part) : (d.setPart n v).pools = d.pools := rfl
@[simp] theorem Dev.setPart_overflow (d : Dev) (n : Nat) (v : Part) : (d.setPart n v).overflow = d.overflow := rfl
@[simp] theorem Dev.setPart_order (d : Dev) (n : Nat) (v : Part) : (d.setPart n v).order = d.order := rfl
@[simp] theorem Dev.setPart_indirect (d : Dev) (n : Nat) (v : Part) : (d.setPart n v).indirect = d.indirect := rfl
@[simp] theorem Dev.setPart_clusterMem (d : Dev) (n : Nat) (v : Part) : (d.setPart n v).clusterMem = d.clusterMem := rfl
@[simp] theorem Dev.setPart_clusterPoison (d : Dev) (n : Nat) (v : Part) : (d.setPart n v).clusterPoison = d.clusterPoison := rfl
@[simp] theorem Dev.setPart_ctxs (d : Dev) (n : Nat) (v : Part) : (d.setPart n v).ctxs = d.ctxs := rfl
@[simp] theorem Dev.setPart_queues (d : Dev) (n : Nat) (v : Part) : (d.setPart n v).queues = d.queues := rfl
@[simp] theorem Dev.setPart_edges (d : Dev) (n : Nat) (v : Part) : (d.setPart n v).edges = d.edges := rfl
@[simp] theorem Dev.setPart_fqNow (d : Dev) (n : Nat) (v : Part) : (d.setPart n v).fqNow = d.fqNow := rfl
@[simp] theorem Dev.setPart_displaced (d : Dev) (n : Nat) (v : Part) : (d.setPart n v).displaced = d.displaced := rfl
@[simp] theorem Dev.setPart_launches (d : Dev) (n : Nat) (v : Part) : (d.setPart n v).launches = d.launches := rfl
@[simp] theorem Dev.setPart_nextTree (d : Dev) (n : Nat) (v : Part) : (d.setPart n v).nextTree = d.nextTree := rfl
@[simp] theorem Dev.setPart_bootWarn (d : Dev) (n : Nat) (v : Part) : (d.setPart n v).bootWarn = d.bootWarn := rfl
@[simp] theorem Dev.setPart_bootErr (d : Dev) (n : Nat) (v : Part) : (d.setPart n v).bootErr = d.bootErr := rfl
@[simp] theorem Dev.setPart_replace (d : Dev) (n : Nat) (v : Part) : (d.setPart n v).replace = d.replace := rfl
@[simp] theorem Dev.setPart_linkdn (d : Dev) (n : Nat) (v : Part) : (d.setPart n v).linkdn = d.linkdn := rfl
@[simp] theorem Dev.setPart_hstate (d : Dev) (n : Nat) (v : Part) : (d.setPart n v).hstate = d.hstate := rfl
@[simp] theorem Dev.setPart_orphans (d : Dev) (n : Nat) (v : Part) : (d.setPart n v).orphans = d.orphans := rfl
@[simp] theorem Dev.setPart_hcorr (d : Dev) (n : Nat) (v : Part) : (d.setPart n v).hcorr = d.hcorr := rfl
@[simp] theorem Dev.setPart_hunc (d : Dev) (n : Nat) (v : Part) : (d.setPart n v).hunc = d.hunc := rfl
@[simp] theorem Dev.setPart_hpermit (d : Dev) (n : Nat) (v : Part) : (d.setPart n v).hpermit = d.hpermit := rfl
@[simp] theorem Dev.setPart_uncTh (d : Dev) (n : Nat) (v : Part) : (d.setPart n v).uncTh = d.uncTh := rfl
@[simp] theorem Dev.setPart_corTh (d : Dev) (n : Nat) (v : Part) : (d.setPart n v).corTh = d.corTh := rfl
@[simp] theorem Dev.setPart_temp (d : Dev) (n : Nat) (v : Part) : (d.setPart n v).temp = d.temp := rfl
@[simp] theorem Dev.setPart_power (d : Dev) (n : Nat) (v : Part) : (d.setPart n v).power = d.power := rfl
@[simp] theorem Dev.setPart_overSince (d : Dev) (n : Nat) (v : Part) : (d.setPart n v).overSince = d.overSince := rfl
@[simp] theorem Dev.setPart_hgang (d : Dev) (n : Nat) (v : Part) : (d.setPart n v).hgang = d.hgang := rfl
@[simp] theorem Dev.setPart_cellCorr (d : Dev) (n : Nat) (v : Part) : (d.setPart n v).cellCorr = d.cellCorr := rfl
@[simp] theorem Dev.setPart_cellUnc (d : Dev) (n : Nat) (v : Part) : (d.setPart n v).cellUnc = d.cellUnc := rfl
@[simp] theorem Dev.setPart_lastAudit (d : Dev) (n : Nat) (v : Part) : (d.setPart n v).lastAudit = d.lastAudit := rfl
@[simp] theorem Dev.setPart_retired (d : Dev) (n : Nat) (v : Part) : (d.setPart n v).retired = d.retired := rfl
@[simp] theorem Dev.setPart_siteOf (d : Dev) (n : Nat) (v : Part) : (d.setPart n v).siteOf = d.siteOf := rfl
@[simp] theorem Dev.setPart_retireList (d : Dev) (n : Nat) (v : Part) : (d.setPart n v).retireList = d.retireList := rfl
@[simp] theorem Dev.setPart_harvest (d : Dev) (n : Nat) (v : Part) : (d.setPart n v).harvest = d.harvest := rfl
@[simp] theorem Dev.setPart_config (d : Dev) (n : Nat) (v : Part) : (d.setPart n v).config = d.config := rfl
@[simp] theorem Dev.setPart_firmware (d : Dev) (n : Nat) (v : Part) : (d.setPart n v).firmware = d.firmware := rfl
@[simp] theorem Dev.setPart_hostAttr (d : Dev) (n : Nat) (v : Part) : (d.setPart n v).hostAttr = d.hostAttr := rfl
@[simp] theorem Dev.setPart_msixTable (d : Dev) (n : Nat) (v : Part) : (d.setPart n v).msixTable = d.msixTable := rfl
@[simp] theorem Dev.setPart_msixPending (d : Dev) (n : Nat) (v : Part) : (d.setPart n v).msixPending = d.msixPending := rfl
@[simp] theorem Dev.setPart_ports (d : Dev) (n : Nat) (v : Part) : (d.setPart n v).ports = d.ports := rfl
@[simp] theorem Dev.setPart_routes (d : Dev) (n : Nat) (v : Part) : (d.setPart n v).routes = d.routes := rfl
@[simp] theorem Dev.setPart_cxlUp (d : Dev) (n : Nat) (v : Part) : (d.setPart n v).cxlUp = d.cxlUp := rfl
@[simp] theorem Dev.setPart_cxlCap (d : Dev) (n : Nat) (v : Part) : (d.setPart n v).cxlCap = d.cxlCap := rfl
@[simp] theorem Dev.setPart_hostLines (d : Dev) (n : Nat) (v : Part) : (d.setPart n v).hostLines = d.hostLines := rfl
@[simp] theorem Dev.setPart_out (d : Dev) (n : Nat) (v : Part) : (d.setPart n v).out = d.out := rfl
@[simp] theorem Dev.setPart_grants (d : Dev) (n : Nat) (v : Part) : (d.setPart n v).grants = d.grants := rfl
@[simp] theorem Dev.setPart_windowAt (d : Dev) (n : Nat) (v : Part) : (d.setPart n v).windowAt = d.windowAt := rfl
@[simp] theorem Dev.setPart_upsets (d : Dev) (n : Nat) (v : Part) : (d.setPart n v).upsets = d.upsets := rfl
@[simp] theorem Dev.setPart_nfree (d : Dev) (n : Nat) (v : Part) : (d.setPart n v).nfree = d.nfree := rfl

@[simp] theorem Dev.setCtx_cur (d : Dev) (p c : Nat) (v : Ctx) : (d.setCtx p c v).cur = d.cur := rfl
@[simp] theorem Dev.setCtx_cores (d : Dev) (p c : Nat) (v : Ctx) : (d.setCtx p c v).cores = d.cores := rfl
@[simp] theorem Dev.setCtx_groups (d : Dev) (p c : Nat) (v : Ctx) : (d.setCtx p c v).groups = d.groups := rfl
@[simp] theorem Dev.setCtx_nextGid (d : Dev) (p c : Nat) (v : Ctx) : (d.setCtx p c v).nextGid = d.nextGid := rfl
@[simp] theorem Dev.setCtx_ms (d : Dev) (p c : Nat) (v : Ctx) : (d.setCtx p c v).ms = d.ms := rfl
@[simp] theorem Dev.setCtx_shadow (d : Dev) (p c : Nat) (v : Ctx) : (d.setCtx p c v).shadow = d.shadow := rfl
@[simp] theorem Dev.setCtx_quarantine (d : Dev) (p c : Nat) (v : Ctx) : (d.setCtx p c v).quarantine = d.quarantine := rfl
@[simp] theorem Dev.setCtx_walks (d : Dev) (p c : Nat) (v : Ctx) : (d.setCtx p c v).walks = d.walks := rfl
@[simp] theorem Dev.setCtx_invals (d : Dev) (p c : Nat) (v : Ctx) : (d.setCtx p c v).invals = d.invals := rfl
@[simp] theorem Dev.setCtx_pools (d : Dev) (p c : Nat) (v : Ctx) : (d.setCtx p c v).pools = d.pools := rfl
@[simp] theorem Dev.setCtx_overflow (d : Dev) (p c : Nat) (v : Ctx) : (d.setCtx p c v).overflow = d.overflow := rfl
@[simp] theorem Dev.setCtx_order (d : Dev) (p c : Nat) (v : Ctx) : (d.setCtx p c v).order = d.order := rfl
@[simp] theorem Dev.setCtx_indirect (d : Dev) (p c : Nat) (v : Ctx) : (d.setCtx p c v).indirect = d.indirect := rfl
@[simp] theorem Dev.setCtx_clusterMem (d : Dev) (p c : Nat) (v : Ctx) : (d.setCtx p c v).clusterMem = d.clusterMem := rfl
@[simp] theorem Dev.setCtx_clusterPoison (d : Dev) (p c : Nat) (v : Ctx) : (d.setCtx p c v).clusterPoison = d.clusterPoison := rfl
@[simp] theorem Dev.setCtx_parts (d : Dev) (p c : Nat) (v : Ctx) : (d.setCtx p c v).parts = d.parts := rfl
@[simp] theorem Dev.setCtx_queues (d : Dev) (p c : Nat) (v : Ctx) : (d.setCtx p c v).queues = d.queues := rfl
@[simp] theorem Dev.setCtx_edges (d : Dev) (p c : Nat) (v : Ctx) : (d.setCtx p c v).edges = d.edges := rfl
@[simp] theorem Dev.setCtx_fqNow (d : Dev) (p c : Nat) (v : Ctx) : (d.setCtx p c v).fqNow = d.fqNow := rfl
@[simp] theorem Dev.setCtx_displaced (d : Dev) (p c : Nat) (v : Ctx) : (d.setCtx p c v).displaced = d.displaced := rfl
@[simp] theorem Dev.setCtx_launches (d : Dev) (p c : Nat) (v : Ctx) : (d.setCtx p c v).launches = d.launches := rfl
@[simp] theorem Dev.setCtx_nextTree (d : Dev) (p c : Nat) (v : Ctx) : (d.setCtx p c v).nextTree = d.nextTree := rfl
@[simp] theorem Dev.setCtx_bootWarn (d : Dev) (p c : Nat) (v : Ctx) : (d.setCtx p c v).bootWarn = d.bootWarn := rfl
@[simp] theorem Dev.setCtx_bootErr (d : Dev) (p c : Nat) (v : Ctx) : (d.setCtx p c v).bootErr = d.bootErr := rfl
@[simp] theorem Dev.setCtx_replace (d : Dev) (p c : Nat) (v : Ctx) : (d.setCtx p c v).replace = d.replace := rfl
@[simp] theorem Dev.setCtx_linkdn (d : Dev) (p c : Nat) (v : Ctx) : (d.setCtx p c v).linkdn = d.linkdn := rfl
@[simp] theorem Dev.setCtx_hstate (d : Dev) (p c : Nat) (v : Ctx) : (d.setCtx p c v).hstate = d.hstate := rfl
@[simp] theorem Dev.setCtx_orphans (d : Dev) (p c : Nat) (v : Ctx) : (d.setCtx p c v).orphans = d.orphans := rfl
@[simp] theorem Dev.setCtx_hcorr (d : Dev) (p c : Nat) (v : Ctx) : (d.setCtx p c v).hcorr = d.hcorr := rfl
@[simp] theorem Dev.setCtx_hunc (d : Dev) (p c : Nat) (v : Ctx) : (d.setCtx p c v).hunc = d.hunc := rfl
@[simp] theorem Dev.setCtx_hpermit (d : Dev) (p c : Nat) (v : Ctx) : (d.setCtx p c v).hpermit = d.hpermit := rfl
@[simp] theorem Dev.setCtx_uncTh (d : Dev) (p c : Nat) (v : Ctx) : (d.setCtx p c v).uncTh = d.uncTh := rfl
@[simp] theorem Dev.setCtx_corTh (d : Dev) (p c : Nat) (v : Ctx) : (d.setCtx p c v).corTh = d.corTh := rfl
@[simp] theorem Dev.setCtx_temp (d : Dev) (p c : Nat) (v : Ctx) : (d.setCtx p c v).temp = d.temp := rfl
@[simp] theorem Dev.setCtx_power (d : Dev) (p c : Nat) (v : Ctx) : (d.setCtx p c v).power = d.power := rfl
@[simp] theorem Dev.setCtx_overSince (d : Dev) (p c : Nat) (v : Ctx) : (d.setCtx p c v).overSince = d.overSince := rfl
@[simp] theorem Dev.setCtx_hgang (d : Dev) (p c : Nat) (v : Ctx) : (d.setCtx p c v).hgang = d.hgang := rfl
@[simp] theorem Dev.setCtx_cellCorr (d : Dev) (p c : Nat) (v : Ctx) : (d.setCtx p c v).cellCorr = d.cellCorr := rfl
@[simp] theorem Dev.setCtx_cellUnc (d : Dev) (p c : Nat) (v : Ctx) : (d.setCtx p c v).cellUnc = d.cellUnc := rfl
@[simp] theorem Dev.setCtx_lastAudit (d : Dev) (p c : Nat) (v : Ctx) : (d.setCtx p c v).lastAudit = d.lastAudit := rfl
@[simp] theorem Dev.setCtx_retired (d : Dev) (p c : Nat) (v : Ctx) : (d.setCtx p c v).retired = d.retired := rfl
@[simp] theorem Dev.setCtx_siteOf (d : Dev) (p c : Nat) (v : Ctx) : (d.setCtx p c v).siteOf = d.siteOf := rfl
@[simp] theorem Dev.setCtx_retireList (d : Dev) (p c : Nat) (v : Ctx) : (d.setCtx p c v).retireList = d.retireList := rfl
@[simp] theorem Dev.setCtx_harvest (d : Dev) (p c : Nat) (v : Ctx) : (d.setCtx p c v).harvest = d.harvest := rfl
@[simp] theorem Dev.setCtx_config (d : Dev) (p c : Nat) (v : Ctx) : (d.setCtx p c v).config = d.config := rfl
@[simp] theorem Dev.setCtx_firmware (d : Dev) (p c : Nat) (v : Ctx) : (d.setCtx p c v).firmware = d.firmware := rfl
@[simp] theorem Dev.setCtx_hostAttr (d : Dev) (p c : Nat) (v : Ctx) : (d.setCtx p c v).hostAttr = d.hostAttr := rfl
@[simp] theorem Dev.setCtx_msixTable (d : Dev) (p c : Nat) (v : Ctx) : (d.setCtx p c v).msixTable = d.msixTable := rfl
@[simp] theorem Dev.setCtx_msixPending (d : Dev) (p c : Nat) (v : Ctx) : (d.setCtx p c v).msixPending = d.msixPending := rfl
@[simp] theorem Dev.setCtx_ports (d : Dev) (p c : Nat) (v : Ctx) : (d.setCtx p c v).ports = d.ports := rfl
@[simp] theorem Dev.setCtx_routes (d : Dev) (p c : Nat) (v : Ctx) : (d.setCtx p c v).routes = d.routes := rfl
@[simp] theorem Dev.setCtx_cxlUp (d : Dev) (p c : Nat) (v : Ctx) : (d.setCtx p c v).cxlUp = d.cxlUp := rfl
@[simp] theorem Dev.setCtx_cxlCap (d : Dev) (p c : Nat) (v : Ctx) : (d.setCtx p c v).cxlCap = d.cxlCap := rfl
@[simp] theorem Dev.setCtx_hostLines (d : Dev) (p c : Nat) (v : Ctx) : (d.setCtx p c v).hostLines = d.hostLines := rfl
@[simp] theorem Dev.setCtx_out (d : Dev) (p c : Nat) (v : Ctx) : (d.setCtx p c v).out = d.out := rfl
@[simp] theorem Dev.setCtx_grants (d : Dev) (p c : Nat) (v : Ctx) : (d.setCtx p c v).grants = d.grants := rfl
@[simp] theorem Dev.setCtx_windowAt (d : Dev) (p c : Nat) (v : Ctx) : (d.setCtx p c v).windowAt = d.windowAt := rfl
@[simp] theorem Dev.setCtx_upsets (d : Dev) (p c : Nat) (v : Ctx) : (d.setCtx p c v).upsets = d.upsets := rfl
@[simp] theorem Dev.setCtx_nfree (d : Dev) (p c : Nat) (v : Ctx) : (d.setCtx p c v).nfree = d.nfree := rfl

@[simp] theorem Dev.setQueue_cur (d : Dev) (p c q : Nat) (v : LQueue) : (d.setQueue p c q v).cur = d.cur := rfl
@[simp] theorem Dev.setQueue_cores (d : Dev) (p c q : Nat) (v : LQueue) : (d.setQueue p c q v).cores = d.cores := rfl
@[simp] theorem Dev.setQueue_groups (d : Dev) (p c q : Nat) (v : LQueue) : (d.setQueue p c q v).groups = d.groups := rfl
@[simp] theorem Dev.setQueue_nextGid (d : Dev) (p c q : Nat) (v : LQueue) : (d.setQueue p c q v).nextGid = d.nextGid := rfl
@[simp] theorem Dev.setQueue_ms (d : Dev) (p c q : Nat) (v : LQueue) : (d.setQueue p c q v).ms = d.ms := rfl
@[simp] theorem Dev.setQueue_shadow (d : Dev) (p c q : Nat) (v : LQueue) : (d.setQueue p c q v).shadow = d.shadow := rfl
@[simp] theorem Dev.setQueue_quarantine (d : Dev) (p c q : Nat) (v : LQueue) : (d.setQueue p c q v).quarantine = d.quarantine := rfl
@[simp] theorem Dev.setQueue_walks (d : Dev) (p c q : Nat) (v : LQueue) : (d.setQueue p c q v).walks = d.walks := rfl
@[simp] theorem Dev.setQueue_invals (d : Dev) (p c q : Nat) (v : LQueue) : (d.setQueue p c q v).invals = d.invals := rfl
@[simp] theorem Dev.setQueue_pools (d : Dev) (p c q : Nat) (v : LQueue) : (d.setQueue p c q v).pools = d.pools := rfl
@[simp] theorem Dev.setQueue_overflow (d : Dev) (p c q : Nat) (v : LQueue) : (d.setQueue p c q v).overflow = d.overflow := rfl
@[simp] theorem Dev.setQueue_order (d : Dev) (p c q : Nat) (v : LQueue) : (d.setQueue p c q v).order = d.order := rfl
@[simp] theorem Dev.setQueue_indirect (d : Dev) (p c q : Nat) (v : LQueue) : (d.setQueue p c q v).indirect = d.indirect := rfl
@[simp] theorem Dev.setQueue_clusterMem (d : Dev) (p c q : Nat) (v : LQueue) : (d.setQueue p c q v).clusterMem = d.clusterMem := rfl
@[simp] theorem Dev.setQueue_clusterPoison (d : Dev) (p c q : Nat) (v : LQueue) : (d.setQueue p c q v).clusterPoison = d.clusterPoison := rfl
@[simp] theorem Dev.setQueue_parts (d : Dev) (p c q : Nat) (v : LQueue) : (d.setQueue p c q v).parts = d.parts := rfl
@[simp] theorem Dev.setQueue_ctxs (d : Dev) (p c q : Nat) (v : LQueue) : (d.setQueue p c q v).ctxs = d.ctxs := rfl
@[simp] theorem Dev.setQueue_edges (d : Dev) (p c q : Nat) (v : LQueue) : (d.setQueue p c q v).edges = d.edges := rfl
@[simp] theorem Dev.setQueue_fqNow (d : Dev) (p c q : Nat) (v : LQueue) : (d.setQueue p c q v).fqNow = d.fqNow := rfl
@[simp] theorem Dev.setQueue_displaced (d : Dev) (p c q : Nat) (v : LQueue) : (d.setQueue p c q v).displaced = d.displaced := rfl
@[simp] theorem Dev.setQueue_launches (d : Dev) (p c q : Nat) (v : LQueue) : (d.setQueue p c q v).launches = d.launches := rfl
@[simp] theorem Dev.setQueue_nextTree (d : Dev) (p c q : Nat) (v : LQueue) : (d.setQueue p c q v).nextTree = d.nextTree := rfl
@[simp] theorem Dev.setQueue_bootWarn (d : Dev) (p c q : Nat) (v : LQueue) : (d.setQueue p c q v).bootWarn = d.bootWarn := rfl
@[simp] theorem Dev.setQueue_bootErr (d : Dev) (p c q : Nat) (v : LQueue) : (d.setQueue p c q v).bootErr = d.bootErr := rfl
@[simp] theorem Dev.setQueue_replace (d : Dev) (p c q : Nat) (v : LQueue) : (d.setQueue p c q v).replace = d.replace := rfl
@[simp] theorem Dev.setQueue_linkdn (d : Dev) (p c q : Nat) (v : LQueue) : (d.setQueue p c q v).linkdn = d.linkdn := rfl
@[simp] theorem Dev.setQueue_hstate (d : Dev) (p c q : Nat) (v : LQueue) : (d.setQueue p c q v).hstate = d.hstate := rfl
@[simp] theorem Dev.setQueue_orphans (d : Dev) (p c q : Nat) (v : LQueue) : (d.setQueue p c q v).orphans = d.orphans := rfl
@[simp] theorem Dev.setQueue_hcorr (d : Dev) (p c q : Nat) (v : LQueue) : (d.setQueue p c q v).hcorr = d.hcorr := rfl
@[simp] theorem Dev.setQueue_hunc (d : Dev) (p c q : Nat) (v : LQueue) : (d.setQueue p c q v).hunc = d.hunc := rfl
@[simp] theorem Dev.setQueue_hpermit (d : Dev) (p c q : Nat) (v : LQueue) : (d.setQueue p c q v).hpermit = d.hpermit := rfl
@[simp] theorem Dev.setQueue_uncTh (d : Dev) (p c q : Nat) (v : LQueue) : (d.setQueue p c q v).uncTh = d.uncTh := rfl
@[simp] theorem Dev.setQueue_corTh (d : Dev) (p c q : Nat) (v : LQueue) : (d.setQueue p c q v).corTh = d.corTh := rfl
@[simp] theorem Dev.setQueue_temp (d : Dev) (p c q : Nat) (v : LQueue) : (d.setQueue p c q v).temp = d.temp := rfl
@[simp] theorem Dev.setQueue_power (d : Dev) (p c q : Nat) (v : LQueue) : (d.setQueue p c q v).power = d.power := rfl
@[simp] theorem Dev.setQueue_overSince (d : Dev) (p c q : Nat) (v : LQueue) : (d.setQueue p c q v).overSince = d.overSince := rfl
@[simp] theorem Dev.setQueue_hgang (d : Dev) (p c q : Nat) (v : LQueue) : (d.setQueue p c q v).hgang = d.hgang := rfl
@[simp] theorem Dev.setQueue_cellCorr (d : Dev) (p c q : Nat) (v : LQueue) : (d.setQueue p c q v).cellCorr = d.cellCorr := rfl
@[simp] theorem Dev.setQueue_cellUnc (d : Dev) (p c q : Nat) (v : LQueue) : (d.setQueue p c q v).cellUnc = d.cellUnc := rfl
@[simp] theorem Dev.setQueue_lastAudit (d : Dev) (p c q : Nat) (v : LQueue) : (d.setQueue p c q v).lastAudit = d.lastAudit := rfl
@[simp] theorem Dev.setQueue_retired (d : Dev) (p c q : Nat) (v : LQueue) : (d.setQueue p c q v).retired = d.retired := rfl
@[simp] theorem Dev.setQueue_siteOf (d : Dev) (p c q : Nat) (v : LQueue) : (d.setQueue p c q v).siteOf = d.siteOf := rfl
@[simp] theorem Dev.setQueue_retireList (d : Dev) (p c q : Nat) (v : LQueue) : (d.setQueue p c q v).retireList = d.retireList := rfl
@[simp] theorem Dev.setQueue_harvest (d : Dev) (p c q : Nat) (v : LQueue) : (d.setQueue p c q v).harvest = d.harvest := rfl
@[simp] theorem Dev.setQueue_config (d : Dev) (p c q : Nat) (v : LQueue) : (d.setQueue p c q v).config = d.config := rfl
@[simp] theorem Dev.setQueue_firmware (d : Dev) (p c q : Nat) (v : LQueue) : (d.setQueue p c q v).firmware = d.firmware := rfl
@[simp] theorem Dev.setQueue_hostAttr (d : Dev) (p c q : Nat) (v : LQueue) : (d.setQueue p c q v).hostAttr = d.hostAttr := rfl
@[simp] theorem Dev.setQueue_msixTable (d : Dev) (p c q : Nat) (v : LQueue) : (d.setQueue p c q v).msixTable = d.msixTable := rfl
@[simp] theorem Dev.setQueue_msixPending (d : Dev) (p c q : Nat) (v : LQueue) : (d.setQueue p c q v).msixPending = d.msixPending := rfl
@[simp] theorem Dev.setQueue_ports (d : Dev) (p c q : Nat) (v : LQueue) : (d.setQueue p c q v).ports = d.ports := rfl
@[simp] theorem Dev.setQueue_routes (d : Dev) (p c q : Nat) (v : LQueue) : (d.setQueue p c q v).routes = d.routes := rfl
@[simp] theorem Dev.setQueue_cxlUp (d : Dev) (p c q : Nat) (v : LQueue) : (d.setQueue p c q v).cxlUp = d.cxlUp := rfl
@[simp] theorem Dev.setQueue_cxlCap (d : Dev) (p c q : Nat) (v : LQueue) : (d.setQueue p c q v).cxlCap = d.cxlCap := rfl
@[simp] theorem Dev.setQueue_hostLines (d : Dev) (p c q : Nat) (v : LQueue) : (d.setQueue p c q v).hostLines = d.hostLines := rfl
@[simp] theorem Dev.setQueue_out (d : Dev) (p c q : Nat) (v : LQueue) : (d.setQueue p c q v).out = d.out := rfl
@[simp] theorem Dev.setQueue_grants (d : Dev) (p c q : Nat) (v : LQueue) : (d.setQueue p c q v).grants = d.grants := rfl
@[simp] theorem Dev.setQueue_windowAt (d : Dev) (p c q : Nat) (v : LQueue) : (d.setQueue p c q v).windowAt = d.windowAt := rfl
@[simp] theorem Dev.setQueue_upsets (d : Dev) (p c q : Nat) (v : LQueue) : (d.setQueue p c q v).upsets = d.upsets := rfl
@[simp] theorem Dev.setQueue_nfree (d : Dev) (p c q : Nat) (v : LQueue) : (d.setQueue p c q v).nfree = d.nfree := rfl

@[simp] theorem Dev.setGroup_cur (d : Dev) (g : Group) : (d.setGroup g).cur = d.cur := rfl
@[simp] theorem Dev.setGroup_cores (d : Dev) (g : Group) : (d.setGroup g).cores = d.cores := rfl
@[simp] theorem Dev.setGroup_nextGid (d : Dev) (g : Group) : (d.setGroup g).nextGid = d.nextGid := rfl
@[simp] theorem Dev.setGroup_ms (d : Dev) (g : Group) : (d.setGroup g).ms = d.ms := rfl
@[simp] theorem Dev.setGroup_shadow (d : Dev) (g : Group) : (d.setGroup g).shadow = d.shadow := rfl
@[simp] theorem Dev.setGroup_quarantine (d : Dev) (g : Group) : (d.setGroup g).quarantine = d.quarantine := rfl
@[simp] theorem Dev.setGroup_walks (d : Dev) (g : Group) : (d.setGroup g).walks = d.walks := rfl
@[simp] theorem Dev.setGroup_invals (d : Dev) (g : Group) : (d.setGroup g).invals = d.invals := rfl
@[simp] theorem Dev.setGroup_pools (d : Dev) (g : Group) : (d.setGroup g).pools = d.pools := rfl
@[simp] theorem Dev.setGroup_overflow (d : Dev) (g : Group) : (d.setGroup g).overflow = d.overflow := rfl
@[simp] theorem Dev.setGroup_order (d : Dev) (g : Group) : (d.setGroup g).order = d.order := rfl
@[simp] theorem Dev.setGroup_indirect (d : Dev) (g : Group) : (d.setGroup g).indirect = d.indirect := rfl
@[simp] theorem Dev.setGroup_clusterMem (d : Dev) (g : Group) : (d.setGroup g).clusterMem = d.clusterMem := rfl
@[simp] theorem Dev.setGroup_clusterPoison (d : Dev) (g : Group) : (d.setGroup g).clusterPoison = d.clusterPoison := rfl
@[simp] theorem Dev.setGroup_parts (d : Dev) (g : Group) : (d.setGroup g).parts = d.parts := rfl
@[simp] theorem Dev.setGroup_ctxs (d : Dev) (g : Group) : (d.setGroup g).ctxs = d.ctxs := rfl
@[simp] theorem Dev.setGroup_queues (d : Dev) (g : Group) : (d.setGroup g).queues = d.queues := rfl
@[simp] theorem Dev.setGroup_edges (d : Dev) (g : Group) : (d.setGroup g).edges = d.edges := rfl
@[simp] theorem Dev.setGroup_fqNow (d : Dev) (g : Group) : (d.setGroup g).fqNow = d.fqNow := rfl
@[simp] theorem Dev.setGroup_displaced (d : Dev) (g : Group) : (d.setGroup g).displaced = d.displaced := rfl
@[simp] theorem Dev.setGroup_launches (d : Dev) (g : Group) : (d.setGroup g).launches = d.launches := rfl
@[simp] theorem Dev.setGroup_nextTree (d : Dev) (g : Group) : (d.setGroup g).nextTree = d.nextTree := rfl
@[simp] theorem Dev.setGroup_bootWarn (d : Dev) (g : Group) : (d.setGroup g).bootWarn = d.bootWarn := rfl
@[simp] theorem Dev.setGroup_bootErr (d : Dev) (g : Group) : (d.setGroup g).bootErr = d.bootErr := rfl
@[simp] theorem Dev.setGroup_replace (d : Dev) (g : Group) : (d.setGroup g).replace = d.replace := rfl
@[simp] theorem Dev.setGroup_linkdn (d : Dev) (g : Group) : (d.setGroup g).linkdn = d.linkdn := rfl
@[simp] theorem Dev.setGroup_hstate (d : Dev) (g : Group) : (d.setGroup g).hstate = d.hstate := rfl
@[simp] theorem Dev.setGroup_orphans (d : Dev) (g : Group) : (d.setGroup g).orphans = d.orphans := rfl
@[simp] theorem Dev.setGroup_hcorr (d : Dev) (g : Group) : (d.setGroup g).hcorr = d.hcorr := rfl
@[simp] theorem Dev.setGroup_hunc (d : Dev) (g : Group) : (d.setGroup g).hunc = d.hunc := rfl
@[simp] theorem Dev.setGroup_hpermit (d : Dev) (g : Group) : (d.setGroup g).hpermit = d.hpermit := rfl
@[simp] theorem Dev.setGroup_uncTh (d : Dev) (g : Group) : (d.setGroup g).uncTh = d.uncTh := rfl
@[simp] theorem Dev.setGroup_corTh (d : Dev) (g : Group) : (d.setGroup g).corTh = d.corTh := rfl
@[simp] theorem Dev.setGroup_temp (d : Dev) (g : Group) : (d.setGroup g).temp = d.temp := rfl
@[simp] theorem Dev.setGroup_power (d : Dev) (g : Group) : (d.setGroup g).power = d.power := rfl
@[simp] theorem Dev.setGroup_overSince (d : Dev) (g : Group) : (d.setGroup g).overSince = d.overSince := rfl
@[simp] theorem Dev.setGroup_hgang (d : Dev) (g : Group) : (d.setGroup g).hgang = d.hgang := rfl
@[simp] theorem Dev.setGroup_cellCorr (d : Dev) (g : Group) : (d.setGroup g).cellCorr = d.cellCorr := rfl
@[simp] theorem Dev.setGroup_cellUnc (d : Dev) (g : Group) : (d.setGroup g).cellUnc = d.cellUnc := rfl
@[simp] theorem Dev.setGroup_lastAudit (d : Dev) (g : Group) : (d.setGroup g).lastAudit = d.lastAudit := rfl
@[simp] theorem Dev.setGroup_retired (d : Dev) (g : Group) : (d.setGroup g).retired = d.retired := rfl
@[simp] theorem Dev.setGroup_siteOf (d : Dev) (g : Group) : (d.setGroup g).siteOf = d.siteOf := rfl
@[simp] theorem Dev.setGroup_retireList (d : Dev) (g : Group) : (d.setGroup g).retireList = d.retireList := rfl
@[simp] theorem Dev.setGroup_harvest (d : Dev) (g : Group) : (d.setGroup g).harvest = d.harvest := rfl
@[simp] theorem Dev.setGroup_config (d : Dev) (g : Group) : (d.setGroup g).config = d.config := rfl
@[simp] theorem Dev.setGroup_firmware (d : Dev) (g : Group) : (d.setGroup g).firmware = d.firmware := rfl
@[simp] theorem Dev.setGroup_hostAttr (d : Dev) (g : Group) : (d.setGroup g).hostAttr = d.hostAttr := rfl
@[simp] theorem Dev.setGroup_msixTable (d : Dev) (g : Group) : (d.setGroup g).msixTable = d.msixTable := rfl
@[simp] theorem Dev.setGroup_msixPending (d : Dev) (g : Group) : (d.setGroup g).msixPending = d.msixPending := rfl
@[simp] theorem Dev.setGroup_ports (d : Dev) (g : Group) : (d.setGroup g).ports = d.ports := rfl
@[simp] theorem Dev.setGroup_routes (d : Dev) (g : Group) : (d.setGroup g).routes = d.routes := rfl
@[simp] theorem Dev.setGroup_cxlUp (d : Dev) (g : Group) : (d.setGroup g).cxlUp = d.cxlUp := rfl
@[simp] theorem Dev.setGroup_cxlCap (d : Dev) (g : Group) : (d.setGroup g).cxlCap = d.cxlCap := rfl
@[simp] theorem Dev.setGroup_hostLines (d : Dev) (g : Group) : (d.setGroup g).hostLines = d.hostLines := rfl
@[simp] theorem Dev.setGroup_out (d : Dev) (g : Group) : (d.setGroup g).out = d.out := rfl
@[simp] theorem Dev.setGroup_grants (d : Dev) (g : Group) : (d.setGroup g).grants = d.grants := rfl
@[simp] theorem Dev.setGroup_windowAt (d : Dev) (g : Group) : (d.setGroup g).windowAt = d.windowAt := rfl
@[simp] theorem Dev.setGroup_upsets (d : Dev) (g : Group) : (d.setGroup g).upsets = d.upsets := rfl
@[simp] theorem Dev.setGroup_nfree (d : Dev) (g : Group) : (d.setGroup g).nfree = d.nfree := rfl

@[simp] theorem Dev.setLaunch_cur (d : Dev) (n : Nat) (l : Launch) : (d.setLaunch n l).cur = d.cur := rfl
@[simp] theorem Dev.setLaunch_cores (d : Dev) (n : Nat) (l : Launch) : (d.setLaunch n l).cores = d.cores := rfl
@[simp] theorem Dev.setLaunch_groups (d : Dev) (n : Nat) (l : Launch) : (d.setLaunch n l).groups = d.groups := rfl
@[simp] theorem Dev.setLaunch_nextGid (d : Dev) (n : Nat) (l : Launch) : (d.setLaunch n l).nextGid = d.nextGid := rfl
@[simp] theorem Dev.setLaunch_ms (d : Dev) (n : Nat) (l : Launch) : (d.setLaunch n l).ms = d.ms := rfl
@[simp] theorem Dev.setLaunch_shadow (d : Dev) (n : Nat) (l : Launch) : (d.setLaunch n l).shadow = d.shadow := rfl
@[simp] theorem Dev.setLaunch_quarantine (d : Dev) (n : Nat) (l : Launch) : (d.setLaunch n l).quarantine = d.quarantine := rfl
@[simp] theorem Dev.setLaunch_walks (d : Dev) (n : Nat) (l : Launch) : (d.setLaunch n l).walks = d.walks := rfl
@[simp] theorem Dev.setLaunch_invals (d : Dev) (n : Nat) (l : Launch) : (d.setLaunch n l).invals = d.invals := rfl
@[simp] theorem Dev.setLaunch_pools (d : Dev) (n : Nat) (l : Launch) : (d.setLaunch n l).pools = d.pools := rfl
@[simp] theorem Dev.setLaunch_overflow (d : Dev) (n : Nat) (l : Launch) : (d.setLaunch n l).overflow = d.overflow := rfl
@[simp] theorem Dev.setLaunch_order (d : Dev) (n : Nat) (l : Launch) : (d.setLaunch n l).order = d.order := rfl
@[simp] theorem Dev.setLaunch_indirect (d : Dev) (n : Nat) (l : Launch) : (d.setLaunch n l).indirect = d.indirect := rfl
@[simp] theorem Dev.setLaunch_clusterMem (d : Dev) (n : Nat) (l : Launch) : (d.setLaunch n l).clusterMem = d.clusterMem := rfl
@[simp] theorem Dev.setLaunch_clusterPoison (d : Dev) (n : Nat) (l : Launch) : (d.setLaunch n l).clusterPoison = d.clusterPoison := rfl
@[simp] theorem Dev.setLaunch_parts (d : Dev) (n : Nat) (l : Launch) : (d.setLaunch n l).parts = d.parts := rfl
@[simp] theorem Dev.setLaunch_ctxs (d : Dev) (n : Nat) (l : Launch) : (d.setLaunch n l).ctxs = d.ctxs := rfl
@[simp] theorem Dev.setLaunch_queues (d : Dev) (n : Nat) (l : Launch) : (d.setLaunch n l).queues = d.queues := rfl
@[simp] theorem Dev.setLaunch_edges (d : Dev) (n : Nat) (l : Launch) : (d.setLaunch n l).edges = d.edges := rfl
@[simp] theorem Dev.setLaunch_fqNow (d : Dev) (n : Nat) (l : Launch) : (d.setLaunch n l).fqNow = d.fqNow := rfl
@[simp] theorem Dev.setLaunch_displaced (d : Dev) (n : Nat) (l : Launch) : (d.setLaunch n l).displaced = d.displaced := rfl
@[simp] theorem Dev.setLaunch_nextTree (d : Dev) (n : Nat) (l : Launch) : (d.setLaunch n l).nextTree = d.nextTree := rfl
@[simp] theorem Dev.setLaunch_bootWarn (d : Dev) (n : Nat) (l : Launch) : (d.setLaunch n l).bootWarn = d.bootWarn := rfl
@[simp] theorem Dev.setLaunch_bootErr (d : Dev) (n : Nat) (l : Launch) : (d.setLaunch n l).bootErr = d.bootErr := rfl
@[simp] theorem Dev.setLaunch_replace (d : Dev) (n : Nat) (l : Launch) : (d.setLaunch n l).replace = d.replace := rfl
@[simp] theorem Dev.setLaunch_linkdn (d : Dev) (n : Nat) (l : Launch) : (d.setLaunch n l).linkdn = d.linkdn := rfl
@[simp] theorem Dev.setLaunch_hstate (d : Dev) (n : Nat) (l : Launch) : (d.setLaunch n l).hstate = d.hstate := rfl
@[simp] theorem Dev.setLaunch_orphans (d : Dev) (n : Nat) (l : Launch) : (d.setLaunch n l).orphans = d.orphans := rfl
@[simp] theorem Dev.setLaunch_hcorr (d : Dev) (n : Nat) (l : Launch) : (d.setLaunch n l).hcorr = d.hcorr := rfl
@[simp] theorem Dev.setLaunch_hunc (d : Dev) (n : Nat) (l : Launch) : (d.setLaunch n l).hunc = d.hunc := rfl
@[simp] theorem Dev.setLaunch_hpermit (d : Dev) (n : Nat) (l : Launch) : (d.setLaunch n l).hpermit = d.hpermit := rfl
@[simp] theorem Dev.setLaunch_uncTh (d : Dev) (n : Nat) (l : Launch) : (d.setLaunch n l).uncTh = d.uncTh := rfl
@[simp] theorem Dev.setLaunch_corTh (d : Dev) (n : Nat) (l : Launch) : (d.setLaunch n l).corTh = d.corTh := rfl
@[simp] theorem Dev.setLaunch_temp (d : Dev) (n : Nat) (l : Launch) : (d.setLaunch n l).temp = d.temp := rfl
@[simp] theorem Dev.setLaunch_power (d : Dev) (n : Nat) (l : Launch) : (d.setLaunch n l).power = d.power := rfl
@[simp] theorem Dev.setLaunch_overSince (d : Dev) (n : Nat) (l : Launch) : (d.setLaunch n l).overSince = d.overSince := rfl
@[simp] theorem Dev.setLaunch_hgang (d : Dev) (n : Nat) (l : Launch) : (d.setLaunch n l).hgang = d.hgang := rfl
@[simp] theorem Dev.setLaunch_cellCorr (d : Dev) (n : Nat) (l : Launch) : (d.setLaunch n l).cellCorr = d.cellCorr := rfl
@[simp] theorem Dev.setLaunch_cellUnc (d : Dev) (n : Nat) (l : Launch) : (d.setLaunch n l).cellUnc = d.cellUnc := rfl
@[simp] theorem Dev.setLaunch_lastAudit (d : Dev) (n : Nat) (l : Launch) : (d.setLaunch n l).lastAudit = d.lastAudit := rfl
@[simp] theorem Dev.setLaunch_retired (d : Dev) (n : Nat) (l : Launch) : (d.setLaunch n l).retired = d.retired := rfl
@[simp] theorem Dev.setLaunch_siteOf (d : Dev) (n : Nat) (l : Launch) : (d.setLaunch n l).siteOf = d.siteOf := rfl
@[simp] theorem Dev.setLaunch_retireList (d : Dev) (n : Nat) (l : Launch) : (d.setLaunch n l).retireList = d.retireList := rfl
@[simp] theorem Dev.setLaunch_harvest (d : Dev) (n : Nat) (l : Launch) : (d.setLaunch n l).harvest = d.harvest := rfl
@[simp] theorem Dev.setLaunch_config (d : Dev) (n : Nat) (l : Launch) : (d.setLaunch n l).config = d.config := rfl
@[simp] theorem Dev.setLaunch_firmware (d : Dev) (n : Nat) (l : Launch) : (d.setLaunch n l).firmware = d.firmware := rfl
@[simp] theorem Dev.setLaunch_hostAttr (d : Dev) (n : Nat) (l : Launch) : (d.setLaunch n l).hostAttr = d.hostAttr := rfl
@[simp] theorem Dev.setLaunch_msixTable (d : Dev) (n : Nat) (l : Launch) : (d.setLaunch n l).msixTable = d.msixTable := rfl
@[simp] theorem Dev.setLaunch_msixPending (d : Dev) (n : Nat) (l : Launch) : (d.setLaunch n l).msixPending = d.msixPending := rfl
@[simp] theorem Dev.setLaunch_ports (d : Dev) (n : Nat) (l : Launch) : (d.setLaunch n l).ports = d.ports := rfl
@[simp] theorem Dev.setLaunch_routes (d : Dev) (n : Nat) (l : Launch) : (d.setLaunch n l).routes = d.routes := rfl
@[simp] theorem Dev.setLaunch_cxlUp (d : Dev) (n : Nat) (l : Launch) : (d.setLaunch n l).cxlUp = d.cxlUp := rfl
@[simp] theorem Dev.setLaunch_cxlCap (d : Dev) (n : Nat) (l : Launch) : (d.setLaunch n l).cxlCap = d.cxlCap := rfl
@[simp] theorem Dev.setLaunch_hostLines (d : Dev) (n : Nat) (l : Launch) : (d.setLaunch n l).hostLines = d.hostLines := rfl
@[simp] theorem Dev.setLaunch_out (d : Dev) (n : Nat) (l : Launch) : (d.setLaunch n l).out = d.out := rfl
@[simp] theorem Dev.setLaunch_grants (d : Dev) (n : Nat) (l : Launch) : (d.setLaunch n l).grants = d.grants := rfl
@[simp] theorem Dev.setLaunch_windowAt (d : Dev) (n : Nat) (l : Launch) : (d.setLaunch n l).windowAt = d.windowAt := rfl
@[simp] theorem Dev.setLaunch_upsets (d : Dev) (n : Nat) (l : Launch) : (d.setLaunch n l).upsets = d.upsets := rfl
@[simp] theorem Dev.setLaunch_nfree (d : Dev) (n : Nat) (l : Launch) : (d.setLaunch n l).nfree = d.nfree := rfl

@[simp] theorem Dev.send_cur (d : Dev) (m : OutMsg) : (d.send m).cur = d.cur := rfl
@[simp] theorem Dev.send_cores (d : Dev) (m : OutMsg) : (d.send m).cores = d.cores := rfl
@[simp] theorem Dev.send_groups (d : Dev) (m : OutMsg) : (d.send m).groups = d.groups := rfl
@[simp] theorem Dev.send_nextGid (d : Dev) (m : OutMsg) : (d.send m).nextGid = d.nextGid := rfl
@[simp] theorem Dev.send_ms (d : Dev) (m : OutMsg) : (d.send m).ms = d.ms := rfl
@[simp] theorem Dev.send_shadow (d : Dev) (m : OutMsg) : (d.send m).shadow = d.shadow := rfl
@[simp] theorem Dev.send_quarantine (d : Dev) (m : OutMsg) : (d.send m).quarantine = d.quarantine := rfl
@[simp] theorem Dev.send_walks (d : Dev) (m : OutMsg) : (d.send m).walks = d.walks := rfl
@[simp] theorem Dev.send_invals (d : Dev) (m : OutMsg) : (d.send m).invals = d.invals := rfl
@[simp] theorem Dev.send_pools (d : Dev) (m : OutMsg) : (d.send m).pools = d.pools := rfl
@[simp] theorem Dev.send_overflow (d : Dev) (m : OutMsg) : (d.send m).overflow = d.overflow := rfl
@[simp] theorem Dev.send_order (d : Dev) (m : OutMsg) : (d.send m).order = d.order := rfl
@[simp] theorem Dev.send_indirect (d : Dev) (m : OutMsg) : (d.send m).indirect = d.indirect := rfl
@[simp] theorem Dev.send_clusterMem (d : Dev) (m : OutMsg) : (d.send m).clusterMem = d.clusterMem := rfl
@[simp] theorem Dev.send_clusterPoison (d : Dev) (m : OutMsg) : (d.send m).clusterPoison = d.clusterPoison := rfl
@[simp] theorem Dev.send_parts (d : Dev) (m : OutMsg) : (d.send m).parts = d.parts := rfl
@[simp] theorem Dev.send_ctxs (d : Dev) (m : OutMsg) : (d.send m).ctxs = d.ctxs := rfl
@[simp] theorem Dev.send_queues (d : Dev) (m : OutMsg) : (d.send m).queues = d.queues := rfl
@[simp] theorem Dev.send_edges (d : Dev) (m : OutMsg) : (d.send m).edges = d.edges := rfl
@[simp] theorem Dev.send_fqNow (d : Dev) (m : OutMsg) : (d.send m).fqNow = d.fqNow := rfl
@[simp] theorem Dev.send_displaced (d : Dev) (m : OutMsg) : (d.send m).displaced = d.displaced := rfl
@[simp] theorem Dev.send_launches (d : Dev) (m : OutMsg) : (d.send m).launches = d.launches := rfl
@[simp] theorem Dev.send_nextTree (d : Dev) (m : OutMsg) : (d.send m).nextTree = d.nextTree := rfl
@[simp] theorem Dev.send_bootWarn (d : Dev) (m : OutMsg) : (d.send m).bootWarn = d.bootWarn := rfl
@[simp] theorem Dev.send_bootErr (d : Dev) (m : OutMsg) : (d.send m).bootErr = d.bootErr := rfl
@[simp] theorem Dev.send_replace (d : Dev) (m : OutMsg) : (d.send m).replace = d.replace := rfl
@[simp] theorem Dev.send_linkdn (d : Dev) (m : OutMsg) : (d.send m).linkdn = d.linkdn := rfl
@[simp] theorem Dev.send_hstate (d : Dev) (m : OutMsg) : (d.send m).hstate = d.hstate := rfl
@[simp] theorem Dev.send_orphans (d : Dev) (m : OutMsg) : (d.send m).orphans = d.orphans := rfl
@[simp] theorem Dev.send_hcorr (d : Dev) (m : OutMsg) : (d.send m).hcorr = d.hcorr := rfl
@[simp] theorem Dev.send_hunc (d : Dev) (m : OutMsg) : (d.send m).hunc = d.hunc := rfl
@[simp] theorem Dev.send_hpermit (d : Dev) (m : OutMsg) : (d.send m).hpermit = d.hpermit := rfl
@[simp] theorem Dev.send_uncTh (d : Dev) (m : OutMsg) : (d.send m).uncTh = d.uncTh := rfl
@[simp] theorem Dev.send_corTh (d : Dev) (m : OutMsg) : (d.send m).corTh = d.corTh := rfl
@[simp] theorem Dev.send_temp (d : Dev) (m : OutMsg) : (d.send m).temp = d.temp := rfl
@[simp] theorem Dev.send_power (d : Dev) (m : OutMsg) : (d.send m).power = d.power := rfl
@[simp] theorem Dev.send_overSince (d : Dev) (m : OutMsg) : (d.send m).overSince = d.overSince := rfl
@[simp] theorem Dev.send_hgang (d : Dev) (m : OutMsg) : (d.send m).hgang = d.hgang := rfl
@[simp] theorem Dev.send_cellCorr (d : Dev) (m : OutMsg) : (d.send m).cellCorr = d.cellCorr := rfl
@[simp] theorem Dev.send_cellUnc (d : Dev) (m : OutMsg) : (d.send m).cellUnc = d.cellUnc := rfl
@[simp] theorem Dev.send_lastAudit (d : Dev) (m : OutMsg) : (d.send m).lastAudit = d.lastAudit := rfl
@[simp] theorem Dev.send_retired (d : Dev) (m : OutMsg) : (d.send m).retired = d.retired := rfl
@[simp] theorem Dev.send_siteOf (d : Dev) (m : OutMsg) : (d.send m).siteOf = d.siteOf := rfl
@[simp] theorem Dev.send_retireList (d : Dev) (m : OutMsg) : (d.send m).retireList = d.retireList := rfl
@[simp] theorem Dev.send_harvest (d : Dev) (m : OutMsg) : (d.send m).harvest = d.harvest := rfl
@[simp] theorem Dev.send_config (d : Dev) (m : OutMsg) : (d.send m).config = d.config := rfl
@[simp] theorem Dev.send_firmware (d : Dev) (m : OutMsg) : (d.send m).firmware = d.firmware := rfl
@[simp] theorem Dev.send_hostAttr (d : Dev) (m : OutMsg) : (d.send m).hostAttr = d.hostAttr := rfl
@[simp] theorem Dev.send_msixTable (d : Dev) (m : OutMsg) : (d.send m).msixTable = d.msixTable := rfl
@[simp] theorem Dev.send_msixPending (d : Dev) (m : OutMsg) : (d.send m).msixPending = d.msixPending := rfl
@[simp] theorem Dev.send_ports (d : Dev) (m : OutMsg) : (d.send m).ports = d.ports := rfl
@[simp] theorem Dev.send_routes (d : Dev) (m : OutMsg) : (d.send m).routes = d.routes := rfl
@[simp] theorem Dev.send_cxlUp (d : Dev) (m : OutMsg) : (d.send m).cxlUp = d.cxlUp := rfl
@[simp] theorem Dev.send_cxlCap (d : Dev) (m : OutMsg) : (d.send m).cxlCap = d.cxlCap := rfl
@[simp] theorem Dev.send_hostLines (d : Dev) (m : OutMsg) : (d.send m).hostLines = d.hostLines := rfl
@[simp] theorem Dev.send_grants (d : Dev) (m : OutMsg) : (d.send m).grants = d.grants := rfl
@[simp] theorem Dev.send_windowAt (d : Dev) (m : OutMsg) : (d.send m).windowAt = d.windowAt := rfl
@[simp] theorem Dev.send_upsets (d : Dev) (m : OutMsg) : (d.send m).upsets = d.upsets := rfl
@[simp] theorem Dev.send_nfree (d : Dev) (m : OutMsg) : (d.send m).nfree = d.nfree := rfl

@[simp] theorem Dev.setCore_cores (d : Dev) (n : Nat) (v : Core) : (d.setCore n v).cores = d.cores.put n v := rfl
@[simp] theorem Dev.setPart_parts (d : Dev) (n : Nat) (v : Part) : (d.setPart n v).parts = d.parts.put n v := rfl
@[simp] theorem Dev.setCtx_ctxs (d : Dev) (p c : Nat) (v : Ctx) : (d.setCtx p c v).ctxs = d.ctxs.put (ctxKey p c) v := rfl
@[simp] theorem Dev.setQueue_queues (d : Dev) (p c q : Nat) (v : LQueue) : (d.setQueue p c q v).queues = d.queues.put (queueKey p c q) v := rfl
@[simp] theorem Dev.setGroup_groups (d : Dev) (g : Group) : (d.setGroup g).groups = d.groups.put g.gid g := rfl
@[simp] theorem Dev.setLaunch_launches (d : Dev) (n : Nat) (l : Launch) : (d.setLaunch n l).launches = d.launches.put n l := rfl
@[simp] theorem Dev.send_out (d : Dev) (m : OutMsg) : (d.send m).out = d.out ++ [m] := rfl

@[simp] theorem Arch.setReg_loops (a : Arch) (r : RegRef) (n : Nat) : (a.setReg r n).loops = a.loops := by
  cases r <;> simp only [Arch.setReg] <;> split <;> rfl
@[simp] theorem Arch.setReg_keptLoops (a : Arch) (r : RegRef) (n : Nat) : (a.setReg r n).keptLoops = a.keptLoops := by
  cases r <;> simp only [Arch.setReg] <;> split <;> rfl
@[simp] theorem Arch.setReg_pc (a : Arch) (r : RegRef) (n : Nat) : (a.setReg r n).pc = a.pc := by
  cases r <;> simp only [Arch.setReg] <;> split <;> rfl
@[simp] theorem Arch.setReg_k (a : Arch) (r : RegRef) (n : Nat) : (a.setReg r n).k = a.k := by
  cases r <;> simp only [Arch.setReg] <;> split <;> rfl
@[simp] theorem Arch.setReg_m (a : Arch) (r : RegRef) (n : Nat) : (a.setReg r n).m = a.m := by
  cases r <;> simp only [Arch.setReg] <;> split <;> rfl
@[simp] theorem Arch.setReg_toks (a : Arch) (r : RegRef) (n : Nat) : (a.setReg r n).toks = a.toks := by
  cases r <;> simp only [Arch.setReg] <;> split <;> rfl
@[simp] theorem Arch.setReg_alts (a : Arch) (r : RegRef) (n : Nat) : (a.setReg r n).alts = a.alts := by
  cases r <;> simp only [Arch.setReg] <;> split <;> rfl
@[simp] theorem Arch.setReg_deferred (a : Arch) (r : RegRef) (n : Nat) : (a.setReg r n).deferred = a.deferred := by
  cases r <;> simp only [Arch.setReg] <;> split <;> rfl
@[simp] theorem Arch.setReg_ls (a : Arch) (r : RegRef) (n : Nat) : (a.setReg r n).ls = a.ls := by
  cases r <;> simp only [Arch.setReg] <;> split <;> rfl
@[simp] theorem Arch.setReg_acc (a : Arch) (r : RegRef) (n : Nat) : (a.setReg r n).acc = a.acc := by
  cases r <;> simp only [Arch.setReg] <;> split <;> rfl
@[simp] theorem Arch.setReg_win (a : Arch) (r : RegRef) (n : Nat) : (a.setReg r n).win = a.win := by
  cases r <;> simp only [Arch.setReg] <;> split <;> rfl
@[simp] theorem Arch.setReg_flags (a : Arch) (r : RegRef) (n : Nat) : (a.setReg r n).flags = a.flags := by
  cases r <;> simp only [Arch.setReg] <;> split <;> rfl
@[simp] theorem Arch.setReg_regPoison (a : Arch) (r : RegRef) (n : Nat) : (a.setReg r n).regPoison = a.regPoison := by
  cases r <;> simp only [Arch.setReg] <;> split <;> rfl
@[simp] theorem Arch.setReg_lsPoison (a : Arch) (r : RegRef) (n : Nat) : (a.setReg r n).lsPoison = a.lsPoison := by
  cases r <;> simp only [Arch.setReg] <;> split <;> rfl
@[simp] theorem Arch.setReg_accPoison (a : Arch) (r : RegRef) (n : Nat) : (a.setReg r n).accPoison = a.accPoison := by
  cases r <;> simp only [Arch.setReg] <;> split <;> rfl
@[simp] theorem Arch.setReg_winPoison (a : Arch) (r : RegRef) (n : Nat) : (a.setReg r n).winPoison = a.winPoison := by
  cases r <;> simp only [Arch.setReg] <;> split <;> rfl
@[simp] theorem Arch.setReg_o1 (a : Arch) (r : RegRef) (n : Nat) : (a.setReg r n).o1 = a.o1 := by
  cases r <;> simp only [Arch.setReg] <;> split <;> rfl
@[simp] theorem Arch.setReg_o2 (a : Arch) (r : RegRef) (n : Nat) : (a.setReg r n).o2 = a.o2 := by
  cases r <;> simp only [Arch.setReg] <;> split <;> rfl
@[simp] theorem Arch.setReg_latches (a : Arch) (r : RegRef) (n : Nat) : (a.setReg r n).latches = a.latches := by
  cases r <;> simp only [Arch.setReg] <;> split <;> rfl
@[simp] theorem Arch.setReg_copyIn (a : Arch) (r : RegRef) (n : Nat) : (a.setReg r n).copyIn = a.copyIn := by
  cases r <;> simp only [Arch.setReg] <;> split <;> rfl
@[simp] theorem Arch.setReg_copyJob (a : Arch) (r : RegRef) (n : Nat) : (a.setReg r n).copyJob = a.copyJob := by
  cases r <;> simp only [Arch.setReg] <;> split <;> rfl
@[simp] theorem Arch.setReg_copyOut (a : Arch) (r : RegRef) (n : Nat) : (a.setReg r n).copyOut = a.copyOut := by
  cases r <;> simp only [Arch.setReg] <;> split <;> rfl
@[simp] theorem Arch.setReg_copyLost (a : Arch) (r : RegRef) (n : Nat) : (a.setReg r n).copyLost = a.copyLost := by
  cases r <;> simp only [Arch.setReg] <;> split <;> rfl
@[simp] theorem Arch.setReg_indOut (a : Arch) (r : RegRef) (n : Nat) : (a.setReg r n).indOut = a.indOut := by
  cases r <;> simp only [Arch.setReg] <;> split <;> rfl
@[simp] theorem Arch.setReg_copyLines (a : Arch) (r : RegRef) (n : Nat) : (a.setReg r n).copyLines = a.copyLines := by
  cases r <;> simp only [Arch.setReg] <;> split <;> rfl
@[simp] theorem Arch.setReg_indLines (a : Arch) (r : RegRef) (n : Nat) : (a.setReg r n).indLines = a.indLines := by
  cases r <;> simp only [Arch.setReg] <;> split <;> rfl
@[simp] theorem Arch.setReg_drains (a : Arch) (r : RegRef) (n : Nat) : (a.setReg r n).drains = a.drains := by
  cases r <;> simp only [Arch.setReg] <;> split <;> rfl
@[simp] theorem Arch.setReg_indLost (a : Arch) (r : RegRef) (n : Nat) : (a.setReg r n).indLost = a.indLost := by
  cases r <;> simp only [Arch.setReg] <;> split <;> rfl
@[simp] theorem Arch.setReg_indPending (a : Arch) (r : RegRef) (n : Nat) : (a.setReg r n).indPending = a.indPending := by
  cases r <;> simp only [Arch.setReg] <;> split <;> rfl
@[simp] theorem Arch.setReg_copySlots (a : Arch) (r : RegRef) (n : Nat) : (a.setReg r n).copySlots = a.copySlots := by
  cases r <;> simp only [Arch.setReg] <;> split <;> rfl
@[simp] theorem Arch.setReg_indSlots (a : Arch) (r : RegRef) (n : Nat) : (a.setReg r n).indSlots = a.indSlots := by
  cases r <;> simp only [Arch.setReg] <;> split <;> rfl
@[simp] theorem Arch.setReg_rings (a : Arch) (r : RegRef) (n : Nat) : (a.setReg r n).rings = a.rings := by
  cases r <;> simp only [Arch.setReg] <;> split <;> rfl
@[simp] theorem Arch.setReg_bridge (a : Arch) (r : RegRef) (n : Nat) : (a.setReg r n).bridge = a.bridge := by
  cases r <;> simp only [Arch.setReg] <;> split <;> rfl
@[simp] theorem Arch.setReg_mu (a : Arch) (r : RegRef) (n : Nat) : (a.setReg r n).mu = a.mu := by
  cases r <;> simp only [Arch.setReg] <;> split <;> rfl
@[simp] theorem Arch.setReg_gops (a : Arch) (r : RegRef) (n : Nat) : (a.setReg r n).gops = a.gops := by
  cases r <;> simp only [Arch.setReg] <;> split <;> rfl
@[simp] theorem Arch.setReg_buffer (a : Arch) (r : RegRef) (n : Nat) : (a.setReg r n).buffer = a.buffer := by
  cases r <;> simp only [Arch.setReg] <;> split <;> rfl
@[simp] theorem Arch.setReg_seq (a : Arch) (r : RegRef) (n : Nat) : (a.setReg r n).seq = a.seq := by
  cases r <;> simp only [Arch.setReg] <;> split <;> rfl
@[simp] theorem Arch.setReg_nextId (a : Arch) (r : RegRef) (n : Nat) : (a.setReg r n).nextId = a.nextId := by
  cases r <;> simp only [Arch.setReg] <;> split <;> rfl
@[simp] theorem Arch.setReg_epoch (a : Arch) (r : RegRef) (n : Nat) : (a.setReg r n).epoch = a.epoch := by
  cases r <;> simp only [Arch.setReg] <;> split <;> rfl
@[simp] theorem Arch.setReg_commitPoison (a : Arch) (r : RegRef) (n : Nat) : (a.setReg r n).commitPoison = a.commitPoison := by
  cases r <;> simp only [Arch.setReg] <;> split <;> rfl
@[simp] theorem Arch.setReg_arrivedIn (a : Arch) (r : RegRef) (n : Nat) : (a.setReg r n).arrivedIn = a.arrivedIn := by
  cases r <;> simp only [Arch.setReg] <;> split <;> rfl
@[simp] theorem Arch.setReg_relOuter (a : Arch) (r : RegRef) (n : Nat) : (a.setReg r n).relOuter = a.relOuter := by
  cases r <;> simp only [Arch.setReg] <;> split <;> rfl
@[simp] theorem Arch.setReg_joinedIn (a : Arch) (r : RegRef) (n : Nat) : (a.setReg r n).joinedIn = a.joinedIn := by
  cases r <;> simp only [Arch.setReg] <;> split <;> rfl
@[simp] theorem Arch.setReg_later (a : Arch) (r : RegRef) (n : Nat) : (a.setReg r n).later = a.later := by
  cases r <;> simp only [Arch.setReg] <;> split <;> rfl

@[simp] theorem Group.lsWrite_gid (g : Group) (a n v m : Nat) : (g.lsWrite a n v m).gid = g.gid := rfl
@[simp] theorem Group.lsWrite_recd (g : Group) (a n v m : Nat) : (g.lsWrite a n v m).recd = g.recd := rfl
@[simp] theorem Group.lsWrite_core (g : Group) (a n v m : Nat) : (g.lsWrite a n v m).core = g.core := rfl
@[simp] theorem Group.lsWrite_slot (g : Group) (a n v m : Nat) : (g.lsWrite a n v m).slot = g.slot := rfl
@[simp] theorem Group.lsWrite_status (g : Group) (a n v m : Nat) : (g.lsWrite a n v m).status = g.status := rfl
@[simp] theorem Group.lsWrite_stall (g : Group) (a n v m : Nat) : (g.lsWrite a n v m).stall = g.stall := rfl
@[simp] theorem Group.lsWrite_readyAt (g : Group) (a n v m : Nat) : (g.lsWrite a n v m).readyAt = g.readyAt := rfl
@[simp] theorem Group.lsWrite_fetchPos (g : Group) (a n v m : Nat) : (g.lsWrite a n v m).fetchPos = g.fetchPos := rfl
@[simp] theorem Group.lsWrite_fetchFault (g : Group) (a n v m : Nat) : (g.lsWrite a n v m).fetchFault = g.fetchFault := rfl
@[simp] theorem Group.lsWrite_pinned (g : Group) (a n v m : Nat) : (g.lsWrite a n v m).pinned = g.pinned := rfl
@[simp] theorem Group.lsWrite_snapReleased (g : Group) (a n v m : Nat) : (g.lsWrite a n v m).snapReleased = g.snapReleased := rfl
@[simp] theorem Group.lsWrite_capoBad (g : Group) (a n v m : Nat) : (g.lsWrite a n v m).capoBad = g.capoBad := rfl
@[simp] theorem Group.lsWrite_linesOut (g : Group) (a n v m : Nat) : (g.lsWrite a n v m).linesOut = g.linesOut := rfl
@[simp] theorem Group.lsWrite_linesOn (g : Group) (a n v m : Nat) : (g.lsWrite a n v m).linesOn = g.linesOn := rfl
@[simp] theorem Group.lsWrite_arrived (g : Group) (a n v m : Nat) : (g.lsWrite a n v m).arrived = g.arrived := rfl
@[simp] theorem Group.lsWrite_released (g : Group) (a n v m : Nat) : (g.lsWrite a n v m).released = g.released := rfl
@[simp] theorem Group.lsWrite_suspended (g : Group) (a n v m : Nat) : (g.lsWrite a n v m).suspended = g.suspended := rfl
@[simp] theorem Group.lsWrite_consort (g : Group) (a n v m : Nat) : (g.lsWrite a n v m).consort = g.consort := rfl
@[simp] theorem Group.lsWrite_ganged (g : Group) (a n v m : Nat) : (g.lsWrite a n v m).ganged = g.ganged := rfl
@[simp] theorem Group.lsWrite_link (g : Group) (a n v m : Nat) : (g.lsWrite a n v m).link = g.link := rfl
@[simp] theorem Group.lsWrite_flagSeen (g : Group) (a n v m : Nat) : (g.lsWrite a n v m).flagSeen = g.flagSeen := rfl
@[simp] theorem Group.lsWrite_flagNow (g : Group) (a n v m : Nat) : (g.lsWrite a n v m).flagNow = g.flagNow := rfl
@[simp] theorem Group.lsWrite_ringAt (g : Group) (a n v m : Nat) : (g.lsWrite a n v m).ringAt = g.ringAt := rfl
@[simp] theorem Group.lsWrite_notBefore (g : Group) (a n v m : Nat) : (g.lsWrite a n v m).notBefore = g.notBefore := rfl
@[simp] theorem Group.lsWrite_nfree (g : Group) (a n v m : Nat) : (g.lsWrite a n v m).nfree = g.nfree := rfl
@[simp] theorem Group.lsWrite_isAbort (g : Group) (a n v m : Nat) : (g.lsWrite a n v m).isAbort = g.isAbort := rfl
@[simp] theorem Group.lsWrite_arch_x (g : Group) (a n v m : Nat) : (g.lsWrite a n v m).arch.x = g.arch.x := rfl
@[simp] theorem Group.lsWrite_arch_v (g : Group) (a n v m : Nat) : (g.lsWrite a n v m).arch.v = g.arch.v := rfl
@[simp] theorem Group.lsWrite_arch_w (g : Group) (a n v m : Nat) : (g.lsWrite a n v m).arch.w = g.arch.w := rfl
@[simp] theorem Group.lsWrite_arch_q (g : Group) (a n v m : Nat) : (g.lsWrite a n v m).arch.q = g.arch.q := rfl
@[simp] theorem Group.lsWrite_arch_lc (g : Group) (a n v m : Nat) : (g.lsWrite a n v m).arch.lc = g.arch.lc := rfl
@[simp] theorem Group.lsWrite_arch_loops (g : Group) (a n v m : Nat) : (g.lsWrite a n v m).arch.loops = g.arch.loops := rfl
@[simp] theorem Group.lsWrite_arch_keptLoops (g : Group) (a n v m : Nat) : (g.lsWrite a n v m).arch.keptLoops = g.arch.keptLoops := rfl
@[simp] theorem Group.lsWrite_arch_pc (g : Group) (a n v m : Nat) : (g.lsWrite a n v m).arch.pc = g.arch.pc := rfl
@[simp] theorem Group.lsWrite_arch_k (g : Group) (a n v m : Nat) : (g.lsWrite a n v m).arch.k = g.arch.k := rfl
@[simp] theorem Group.lsWrite_arch_m (g : Group) (a n v m : Nat) : (g.lsWrite a n v m).arch.m = g.arch.m := rfl
@[simp] theorem Group.lsWrite_arch_toks (g : Group) (a n v m : Nat) : (g.lsWrite a n v m).arch.toks = g.arch.toks := rfl
@[simp] theorem Group.lsWrite_arch_alts (g : Group) (a n v m : Nat) : (g.lsWrite a n v m).arch.alts = g.arch.alts := rfl
@[simp] theorem Group.lsWrite_arch_deferred (g : Group) (a n v m : Nat) : (g.lsWrite a n v m).arch.deferred = g.arch.deferred := rfl
@[simp] theorem Group.lsWrite_arch_acc (g : Group) (a n v m : Nat) : (g.lsWrite a n v m).arch.acc = g.arch.acc := rfl
@[simp] theorem Group.lsWrite_arch_win (g : Group) (a n v m : Nat) : (g.lsWrite a n v m).arch.win = g.arch.win := rfl
@[simp] theorem Group.lsWrite_arch_flags (g : Group) (a n v m : Nat) : (g.lsWrite a n v m).arch.flags = g.arch.flags := rfl
@[simp] theorem Group.lsWrite_arch_regPoison (g : Group) (a n v m : Nat) : (g.lsWrite a n v m).arch.regPoison = g.arch.regPoison := rfl
@[simp] theorem Group.lsWrite_arch_accPoison (g : Group) (a n v m : Nat) : (g.lsWrite a n v m).arch.accPoison = g.arch.accPoison := rfl
@[simp] theorem Group.lsWrite_arch_winPoison (g : Group) (a n v m : Nat) : (g.lsWrite a n v m).arch.winPoison = g.arch.winPoison := rfl
@[simp] theorem Group.lsWrite_arch_o1 (g : Group) (a n v m : Nat) : (g.lsWrite a n v m).arch.o1 = g.arch.o1 := rfl
@[simp] theorem Group.lsWrite_arch_o2 (g : Group) (a n v m : Nat) : (g.lsWrite a n v m).arch.o2 = g.arch.o2 := rfl
@[simp] theorem Group.lsWrite_arch_latches (g : Group) (a n v m : Nat) : (g.lsWrite a n v m).arch.latches = g.arch.latches := rfl
@[simp] theorem Group.lsWrite_arch_copyIn (g : Group) (a n v m : Nat) : (g.lsWrite a n v m).arch.copyIn = g.arch.copyIn := rfl
@[simp] theorem Group.lsWrite_arch_copyJob (g : Group) (a n v m : Nat) : (g.lsWrite a n v m).arch.copyJob = g.arch.copyJob := rfl
@[simp] theorem Group.lsWrite_arch_copyOut (g : Group) (a n v m : Nat) : (g.lsWrite a n v m).arch.copyOut = g.arch.copyOut := rfl
@[simp] theorem Group.lsWrite_arch_copyLost (g : Group) (a n v m : Nat) : (g.lsWrite a n v m).arch.copyLost = g.arch.copyLost := rfl
@[simp] theorem Group.lsWrite_arch_indOut (g : Group) (a n v m : Nat) : (g.lsWrite a n v m).arch.indOut = g.arch.indOut := rfl
@[simp] theorem Group.lsWrite_arch_copyLines (g : Group) (a n v m : Nat) : (g.lsWrite a n v m).arch.copyLines = g.arch.copyLines := rfl
@[simp] theorem Group.lsWrite_arch_indLines (g : Group) (a n v m : Nat) : (g.lsWrite a n v m).arch.indLines = g.arch.indLines := rfl
@[simp] theorem Group.lsWrite_arch_drains (g : Group) (a n v m : Nat) : (g.lsWrite a n v m).arch.drains = g.arch.drains := rfl
@[simp] theorem Group.lsWrite_arch_indLost (g : Group) (a n v m : Nat) : (g.lsWrite a n v m).arch.indLost = g.arch.indLost := rfl
@[simp] theorem Group.lsWrite_arch_indPending (g : Group) (a n v m : Nat) : (g.lsWrite a n v m).arch.indPending = g.arch.indPending := rfl
@[simp] theorem Group.lsWrite_arch_copySlots (g : Group) (a n v m : Nat) : (g.lsWrite a n v m).arch.copySlots = g.arch.copySlots := rfl
@[simp] theorem Group.lsWrite_arch_indSlots (g : Group) (a n v m : Nat) : (g.lsWrite a n v m).arch.indSlots = g.arch.indSlots := rfl
@[simp] theorem Group.lsWrite_arch_rings (g : Group) (a n v m : Nat) : (g.lsWrite a n v m).arch.rings = g.arch.rings := rfl
@[simp] theorem Group.lsWrite_arch_bridge (g : Group) (a n v m : Nat) : (g.lsWrite a n v m).arch.bridge = g.arch.bridge := rfl
@[simp] theorem Group.lsWrite_arch_mu (g : Group) (a n v m : Nat) : (g.lsWrite a n v m).arch.mu = g.arch.mu := rfl
@[simp] theorem Group.lsWrite_arch_gops (g : Group) (a n v m : Nat) : (g.lsWrite a n v m).arch.gops = g.arch.gops := rfl
@[simp] theorem Group.lsWrite_arch_buffer (g : Group) (a n v m : Nat) : (g.lsWrite a n v m).arch.buffer = g.arch.buffer := rfl
@[simp] theorem Group.lsWrite_arch_seq (g : Group) (a n v m : Nat) : (g.lsWrite a n v m).arch.seq = g.arch.seq := rfl
@[simp] theorem Group.lsWrite_arch_nextId (g : Group) (a n v m : Nat) : (g.lsWrite a n v m).arch.nextId = g.arch.nextId := rfl
@[simp] theorem Group.lsWrite_arch_epoch (g : Group) (a n v m : Nat) : (g.lsWrite a n v m).arch.epoch = g.arch.epoch := rfl
@[simp] theorem Group.lsWrite_arch_commitPoison (g : Group) (a n v m : Nat) : (g.lsWrite a n v m).arch.commitPoison = g.arch.commitPoison := rfl
@[simp] theorem Group.lsWrite_arch_arrivedIn (g : Group) (a n v m : Nat) : (g.lsWrite a n v m).arch.arrivedIn = g.arch.arrivedIn := rfl
@[simp] theorem Group.lsWrite_arch_relOuter (g : Group) (a n v m : Nat) : (g.lsWrite a n v m).arch.relOuter = g.arch.relOuter := rfl
@[simp] theorem Group.lsWrite_arch_joinedIn (g : Group) (a n v m : Nat) : (g.lsWrite a n v m).arch.joinedIn = g.arch.joinedIn := rfl
@[simp] theorem Group.lsWrite_arch_later (g : Group) (a n v m : Nat) : (g.lsWrite a n v m).arch.later = g.arch.later := rfl
@[simp] theorem Group.setFlag_arch_x (g : Group) (n : Nat) (b : Bool) : (g.setFlag n b).arch.x = g.arch.x := rfl
@[simp] theorem Group.setFlag_arch_v (g : Group) (n : Nat) (b : Bool) : (g.setFlag n b).arch.v = g.arch.v := rfl
@[simp] theorem Group.setFlag_arch_w (g : Group) (n : Nat) (b : Bool) : (g.setFlag n b).arch.w = g.arch.w := rfl
@[simp] theorem Group.setFlag_arch_q (g : Group) (n : Nat) (b : Bool) : (g.setFlag n b).arch.q = g.arch.q := rfl
@[simp] theorem Group.setFlag_arch_lc (g : Group) (n : Nat) (b : Bool) : (g.setFlag n b).arch.lc = g.arch.lc := rfl
@[simp] theorem Group.setFlag_arch_loops (g : Group) (n : Nat) (b : Bool) : (g.setFlag n b).arch.loops = g.arch.loops := rfl
@[simp] theorem Group.setFlag_arch_keptLoops (g : Group) (n : Nat) (b : Bool) : (g.setFlag n b).arch.keptLoops = g.arch.keptLoops := rfl
@[simp] theorem Group.setFlag_arch_pc (g : Group) (n : Nat) (b : Bool) : (g.setFlag n b).arch.pc = g.arch.pc := rfl
@[simp] theorem Group.setFlag_arch_k (g : Group) (n : Nat) (b : Bool) : (g.setFlag n b).arch.k = g.arch.k := rfl
@[simp] theorem Group.setFlag_arch_m (g : Group) (n : Nat) (b : Bool) : (g.setFlag n b).arch.m = g.arch.m := rfl
@[simp] theorem Group.setFlag_arch_toks (g : Group) (n : Nat) (b : Bool) : (g.setFlag n b).arch.toks = g.arch.toks := rfl
@[simp] theorem Group.setFlag_arch_alts (g : Group) (n : Nat) (b : Bool) : (g.setFlag n b).arch.alts = g.arch.alts := rfl
@[simp] theorem Group.setFlag_arch_deferred (g : Group) (n : Nat) (b : Bool) : (g.setFlag n b).arch.deferred = g.arch.deferred := rfl
@[simp] theorem Group.setFlag_arch_ls (g : Group) (n : Nat) (b : Bool) : (g.setFlag n b).arch.ls = g.arch.ls := rfl
@[simp] theorem Group.setFlag_arch_acc (g : Group) (n : Nat) (b : Bool) : (g.setFlag n b).arch.acc = g.arch.acc := rfl
@[simp] theorem Group.setFlag_arch_win (g : Group) (n : Nat) (b : Bool) : (g.setFlag n b).arch.win = g.arch.win := rfl
@[simp] theorem Group.setFlag_arch_regPoison (g : Group) (n : Nat) (b : Bool) : (g.setFlag n b).arch.regPoison = g.arch.regPoison := rfl
@[simp] theorem Group.setFlag_arch_lsPoison (g : Group) (n : Nat) (b : Bool) : (g.setFlag n b).arch.lsPoison = g.arch.lsPoison := rfl
@[simp] theorem Group.setFlag_arch_accPoison (g : Group) (n : Nat) (b : Bool) : (g.setFlag n b).arch.accPoison = g.arch.accPoison := rfl
@[simp] theorem Group.setFlag_arch_winPoison (g : Group) (n : Nat) (b : Bool) : (g.setFlag n b).arch.winPoison = g.arch.winPoison := rfl
@[simp] theorem Group.setFlag_arch_o1 (g : Group) (n : Nat) (b : Bool) : (g.setFlag n b).arch.o1 = g.arch.o1 := rfl
@[simp] theorem Group.setFlag_arch_o2 (g : Group) (n : Nat) (b : Bool) : (g.setFlag n b).arch.o2 = g.arch.o2 := rfl
@[simp] theorem Group.setFlag_arch_latches (g : Group) (n : Nat) (b : Bool) : (g.setFlag n b).arch.latches = g.arch.latches := rfl
@[simp] theorem Group.setFlag_arch_copyIn (g : Group) (n : Nat) (b : Bool) : (g.setFlag n b).arch.copyIn = g.arch.copyIn := rfl
@[simp] theorem Group.setFlag_arch_copyJob (g : Group) (n : Nat) (b : Bool) : (g.setFlag n b).arch.copyJob = g.arch.copyJob := rfl
@[simp] theorem Group.setFlag_arch_copyOut (g : Group) (n : Nat) (b : Bool) : (g.setFlag n b).arch.copyOut = g.arch.copyOut := rfl
@[simp] theorem Group.setFlag_arch_copyLost (g : Group) (n : Nat) (b : Bool) : (g.setFlag n b).arch.copyLost = g.arch.copyLost := rfl
@[simp] theorem Group.setFlag_arch_indOut (g : Group) (n : Nat) (b : Bool) : (g.setFlag n b).arch.indOut = g.arch.indOut := rfl
@[simp] theorem Group.setFlag_arch_copyLines (g : Group) (n : Nat) (b : Bool) : (g.setFlag n b).arch.copyLines = g.arch.copyLines := rfl
@[simp] theorem Group.setFlag_arch_indLines (g : Group) (n : Nat) (b : Bool) : (g.setFlag n b).arch.indLines = g.arch.indLines := rfl
@[simp] theorem Group.setFlag_arch_drains (g : Group) (n : Nat) (b : Bool) : (g.setFlag n b).arch.drains = g.arch.drains := rfl
@[simp] theorem Group.setFlag_arch_indLost (g : Group) (n : Nat) (b : Bool) : (g.setFlag n b).arch.indLost = g.arch.indLost := rfl
@[simp] theorem Group.setFlag_arch_indPending (g : Group) (n : Nat) (b : Bool) : (g.setFlag n b).arch.indPending = g.arch.indPending := rfl
@[simp] theorem Group.setFlag_arch_copySlots (g : Group) (n : Nat) (b : Bool) : (g.setFlag n b).arch.copySlots = g.arch.copySlots := rfl
@[simp] theorem Group.setFlag_arch_indSlots (g : Group) (n : Nat) (b : Bool) : (g.setFlag n b).arch.indSlots = g.arch.indSlots := rfl
@[simp] theorem Group.setFlag_arch_rings (g : Group) (n : Nat) (b : Bool) : (g.setFlag n b).arch.rings = g.arch.rings := rfl
@[simp] theorem Group.setFlag_arch_mu (g : Group) (n : Nat) (b : Bool) : (g.setFlag n b).arch.mu = g.arch.mu := rfl
@[simp] theorem Group.setFlag_arch_gops (g : Group) (n : Nat) (b : Bool) : (g.setFlag n b).arch.gops = g.arch.gops := rfl
@[simp] theorem Group.setFlag_arch_buffer (g : Group) (n : Nat) (b : Bool) : (g.setFlag n b).arch.buffer = g.arch.buffer := rfl
@[simp] theorem Group.setFlag_arch_seq (g : Group) (n : Nat) (b : Bool) : (g.setFlag n b).arch.seq = g.arch.seq := rfl
@[simp] theorem Group.setFlag_arch_nextId (g : Group) (n : Nat) (b : Bool) : (g.setFlag n b).arch.nextId = g.arch.nextId := rfl
@[simp] theorem Group.setFlag_arch_epoch (g : Group) (n : Nat) (b : Bool) : (g.setFlag n b).arch.epoch = g.arch.epoch := rfl
@[simp] theorem Group.setFlag_arch_commitPoison (g : Group) (n : Nat) (b : Bool) : (g.setFlag n b).arch.commitPoison = g.arch.commitPoison := rfl
@[simp] theorem Group.setFlag_arch_arrivedIn (g : Group) (n : Nat) (b : Bool) : (g.setFlag n b).arch.arrivedIn = g.arch.arrivedIn := rfl
@[simp] theorem Group.setFlag_arch_relOuter (g : Group) (n : Nat) (b : Bool) : (g.setFlag n b).arch.relOuter = g.arch.relOuter := rfl
@[simp] theorem Group.setFlag_arch_joinedIn (g : Group) (n : Nat) (b : Bool) : (g.setFlag n b).arch.joinedIn = g.arch.joinedIn := rfl
@[simp] theorem Group.setFlag_arch_later (g : Group) (n : Nat) (b : Bool) : (g.setFlag n b).arch.later = g.arch.later := rfl

end Sys2Proof.Machine
end

