-- ==== Sys2Proof/Laws/Ops.lean ====
section
/-!
SUPPORT. What each shared operation of an instruction does: reading and writing registers, guards, entries of completion
tokens, retirement, local accesses, and the lifting to the machine.
-/

namespace Sys2Proof.Machine

/-! The monad. -/

@[simp] theorem gm_pure {α : Type} (a : α) (e : Env) (g : Group) : (pure a : GM α) e g = .ok (a, g) := rfl

@[simp] theorem gm_bind {α β : Type} (m : GM α) (f : α → GM β) (e : Env) (g : Group) :
    (m >>= f) e g = match m e g with
      | .ok (a, g') => f a e g'
      | .error st => .error st := by
  show (m e g >>= fun x => f x.1 e x.2) = _
  cases m e g <;> rfl

@[simp] theorem gm_map {α β : Type} (m : GM α) (f : α → β) (e : Env) (g : Group) :
    (f <$> m) e g = match m e g with
      | .ok (a, g') => .ok (f a, g')
      | .error st => .error st := by
  show (m e g >>= fun x => (pure (f x.1, x.2) : Except Stop _)) = _
  cases m e g <;> rfl

theorem gm_bind_ok {α β : Type} {m : GM α} {f : α → GM β} {e : Env} {g g' : Group} {a : α} (h : m e g = .ok (a, g')) :
    (m >>= f) e g = f a e g' := by
  rw [gm_bind, h]

@[simp] theorem gm_get (e : Env) (g : Group) : (get : GM Group) e g = .ok (g, g) := rfl
@[simp] theorem gm_set (e : Env) (g h : Group) : (set h : GM PUnit) e g = .ok (PUnit.unit, h) := rfl
@[simp] theorem gm_read (e : Env) (g : Group) : (read : GM Env) e g = .ok (e, g) := rfl
@[simp] theorem gm_modify (f : Group → Group) (e : Env) (g : Group) : (modify f : GM Unit) e g = .ok ((), f g) := rfl
@[simp] theorem gm_arch (e : Env) (g : Group) : arch e g = .ok (g.arch, g) := rfl
@[simp] theorem gm_setArch (f : Arch → Arch) (e : Env) (g : Group) : setArch f e g = .ok ((), { g with arch := f g.arch }) := rfl
@[simp] theorem gm_raise {α : Type} (c : Nat) (v : Word) (e : Env) (g : Group) : (raise c v : GM α) e g = .error (.trap c v none) := rfl
@[simp] theorem gm_stop {α : Type} (st : Stop) (e : Env) (g : Group) : (stop st : GM α) e g = .error st := rfl


@[simp] theorem gm_ite {α : Type} (c : Prop) [Decidable c] (m n : GM α) (e : Env) (g : Group) :
    (if c then m else n) e g = if c then m e g else n e g := by
  split <;> rfl

/-! Registers. -/

theorem needLine_on {g : Group} {l : Nat} {e : Env} (h : g.lineHere e l) : needLine l e g = .ok ((), g) := by
  unfold Group.lineHere at h
  simp only [needLine, gm_bind, gm_get, gm_read, h, gm_ite]
  rfl

/-- A readable register is read: its value, and nothing changes. -/
theorem readReg_of_readable {e : Env} {g : Group} {r : RegRef} (h : g.readable e r) : readReg r e g = .ok (g.arch.reg r, g) := by
  unfold readReg regUsable regValue
  by_cases hf : r.fixed = true
  · simp [hf, gm_bind]
  · rcases h with hf' | ⟨hf' | ⟨hl, ha, hn⟩, hp, hu⟩
    · exact absurd hf' hf
    · exact absurd hf' hf
    · simp only [hf, Bool.false_eq_true, if_false, gm_bind, needLine_on hl, gm_arch, gm_read, hp, hu, ha, hn, gm_ite, gm_pure]
      by_cases hs : g.arch.k.strict = true
      · simp [hs]
      · simp [hs]

theorem readX_of_readable {e : Env} {g : Group} {n : BitVec 6} (h : g.readable e (.x n.toNat)) :
    readX n e g = .ok (g.arch.xr n.toNat, g) := by
  simp [readX, gm_bind, readReg_of_readable h, Arch.reg]

theorem readV_of_readable {e : Env} {g : Group} {n : BitVec 6} (h : g.readable e (.v n.toNat)) :
    readV n e g = .ok ((g.arch.vr n.toNat).toNat, g) := readReg_of_readable h

theorem readW_of_readable {e : Env} {g : Group} {n : Nat} (h : g.readable e (.w n)) :
    readW n e g = .ok ((g.arch.wr n).toNat, g) := readReg_of_readable h

theorem readQ_of_readable {e : Env} {g : Group} {n : Nat} (h : g.readable e (.q n)) :
    readQ n e g = .ok (g.arch.qr n, g) := by
  simp only [readQ, gm_bind, readReg_of_readable h, Arch.reg]
  cases g.arch.qr n <;> rfl

theorem pendingTok_none {r : RegRef} {n : Nat} {es : List (List TokEntry)} (h : pendingTok r n es = none) :
    ∀ l ∈ es, ∀ t ∈ l, t.dests.contains r = false := by
  induction es generalizing n with
  | nil => simp
  | cons a es ih =>
    simp only [pendingTok] at h
    split at h
    · cases h
    · rename_i hn
      intro l hl
      rcases List.mem_cons.1 hl with rfl | hl
      · intro t ht
        exact Bool.not_eq_true _ ▸ List.any_eq_false.1 (Bool.not_eq_true _ ▸ hn) t ht
      · exact ih h l hl

theorem markClash_free {r : RegRef} {es : List TokEntry} (h : ∀ t ∈ es, t.dests.contains r = false) : markClash r es = es := by
  unfold markClash
  conv => rhs; rw [← List.map_id es]
  refine List.map_congr_left fun t ht => ?_
  rw [h t ht]; rfl

/-- A register that no entry is to write marks no entry. -/
theorem toks_markClash {a : Arch} {r : RegRef} (h : a.pending r = none) : a.toks.map (markClash r) = a.toks := by
  apply Vector.toList_inj.1
  rw [Vector.toList_map]
  conv => rhs; rw [← List.map_id a.toks.toList]
  exact List.map_congr_left fun es hes => markClash_free (pendingTok_none h es hes)

theorem strictWrite_of_free {e : Env} {g : Group} {r : RegRef} {lat : Nat} (ha : g.arch.openAlts e.aclk r = [])
    (hn : g.arch.pending r = none) : strictWrite r lat e g = .ok ((), g) := by
  simp only [strictWrite, gm_bind, gm_arch, gm_read, ha, hn]
  by_cases hs : g.arch.k.strict = true <;> simp [hs]

/-- No write of a register is second to one that is over (R126). -/
theorem second_free {a : Arch} {now : Nat} {r : RegRef} (h : a.openAlts now r = []) (lat : Nat) : a.second now lat r = false := by
  simp only [Arch.openAlts, List.filter_eq_nil_iff] at h
  simp only [Arch.second, List.any_eq_false, Bool.and_eq_true, not_and]
  intro t ht h1 h2
  have h3 := h t ht
  simp only [h1, Bool.true_and] at h3
  cases ht' : t.till with
  | aclk u => rw [ht'] at h2; simp only [Alt.isOpen, ht', decide_eq_true_eq] at h3 h2; omega
  | entry k id => simp [Alt.isOpen, ht'] at h3

/-- A writable register is written: that value, the old one readable until the latency has passed. -/
theorem writeReg_of_writable {e : Env} {g : Group} {r : RegRef} (h : g.writable e r) (v lat : Nat) (whole : Nat → Bool) :
    writeReg r v lat whole e g = .ok ((), g.wrote e.aclk r v lat whole) := by
  unfold writeReg Group.wrote
  by_cases hf : r.fixed = true
  · simp [hf]
  · rcases h with hf' | ⟨hl, ha, hn⟩
    · exact absurd hf' hf
    · simp only [hf, Bool.false_eq_true, gm_bind, needLine_on hl, strictWrite_of_free ha hn, gm_arch, gm_read,
        second_free ha, gm_pure, gm_setArch, toks_markClash hn, false_and, if_neg not_false, List.append_nil, Arch.setReg_toks,
        keptPoison]

/-! Retirement and guards. -/

theorem retire_fall (n : Nat) (e : Env) (g : Group) : retire .fall n e g = .ok ((), g.goesOn e.aclk g.link n) := rfl

theorem retire_jump (p : Word) (e : Env) (g : Group) :
    retire (.jump p) 1 e g =
      .ok ((), { g with arch := { g.arch with loops := g.arch.loops.map (leaveLoop g.arch.pc p) } }.goesOn e.aclk p 2) := rfl

theorem retire_skip (p : Word) (e : Env) (g : Group) : retire (.skip p) 1 e g = .ok ((), g.goesOn e.aclk p 2) := rfl

theorem retire_call (p : Word) (e : Env) (g : Group) :
    retire (.call p) 1 e g = .ok ((), { g with arch := { g.arch with pc := p }, stall := .none, notBefore := e.aclk + 2 }) := rfl

/-- Under a true guard the body is executed and retires. -/
theorem guarded_on {e : Env} {g h : Group} {gd : Guard} {tok : Option Nat} {body : GM Next} {n : Next}
    (hg : g.guardOn e gd) (hb : body e g = .ok (n, h)) : guarded gd tok body e g = retire n 1 e h := by
  have hq : (g.arch.qr gd.q.toNat != gd.sense) = true := by simpa using hg.2
  simp only [guarded, guardTrue, gm_bind, readQ_of_readable hg.1, gm_pure, hq, if_true, hb]

/-- Under a true guard a body that stops, stops the instruction. -/
theorem guarded_stops {e : Env} {g : Group} {gd : Guard} {tok : Option Nat} {body : GM Next} {st : Stop}
    (hg : g.guardOn e gd) (hb : body e g = .error st) : guarded gd tok body e g = .error st := by
  have hq : (g.arch.qr gd.q.toNat != gd.sense) = true := by simpa using hg.2
  simp only [guarded, guardTrue, gm_bind, readQ_of_readable hg.1, gm_pure, hq, if_true, hb]

/-- Under a false guard an instruction that names no token does nothing. -/
theorem guarded_off {e : Env} {g : Group} {gd : Guard} {body : GM Next} (hg : g.guardOff e gd) :
    guarded gd none body e g = .ok ((), g.goesOn e.aclk g.link 1) := by
  have hq : (g.arch.qr gd.q.toNat != gd.sense) = false := by simpa using hg.2
  simp only [guarded, guardTrue, gm_bind, readQ_of_readable hg.1, gm_pure, hq, Bool.false_eq_true, if_false]
  rfl

/-! Entries of completion tokens. -/

theorem forIn_dests {e : Env} {g : Group} {ds : List RegRef} {lat : Nat} (h : ∀ r ∈ ds, g.writable e r) (hf : ∀ r ∈ ds, r.fixed = false) :
    (forIn ds PUnit.unit fun r _ => do
      needLine r.line
      strictWrite r lat
      pure (ForInStep.yield PUnit.unit) : GM PUnit) e g = .ok (PUnit.unit, g) := by
  induction ds with
  | nil => rfl
  | cons r ds ih =>
    have hr := h r (List.mem_cons_self)
    have hfr := hf r (List.mem_cons_self)
    rcases hr with hx | ⟨hl, ha, hn⟩
    · rw [hfr] at hx; cases hx
    · simp only [List.forIn_cons, gm_bind, needLine_on hl, strictWrite_of_free ha hn, gm_pure]
      exact ih (fun r hr => h r (List.mem_cons_of_mem _ hr)) (fun r hr => hf r (List.mem_cons_of_mem _ hr))

/-- An entry is made on a token with room whose destinations may be written. -/
theorem issueEntry_open {e : Env} {g : Group} {tok : Nat} {row : EntryRow} {remote : Bool} {due : Option Nat}
    {dests : List RegRef} {writes : List (RegRef × Nat)} {mask : Mask} (hc : g.arch.tokCount tok < 63)
    (hd : ∀ r ∈ dests, g.writable e r) :
    issueEntry tok row remote false due dests writes mask e g = .ok (g.arch.nextId, g.entered tok row remote due dests writes mask) := by
  have hn : ∀ r ∈ dests.filter (fun r => !r.fixed), r.fixed = false := fun r hr => by simpa using (List.mem_filter.1 hr).2
  have hw : ∀ r ∈ dests.filter (fun r => !r.fixed), g.writable e r := fun r hr => hd r (List.mem_filter.1 hr).1
  have hcl : ∀ lat, (dests.filter (fun r => !r.fixed)).filter (g.arch.second e.aclk lat) = [] := fun lat => by
    simp only [List.filter_eq_nil_iff]
    intro r hr
    rcases hw r hr with hx | hx
    · rw [hn r hr] at hx; cases hx
    · simp [second_free hx.2.1]
  unfold issueEntry tokenRoom
  simp only [gm_bind, gm_arch, gm_read, gm_ite, if_neg (show ¬ 63 ≤ g.arch.tokCount tok by omega), gm_pure, forIn_dests hw hn, hcl,
    gm_setArch, Bool.false_eq_true, if_false]
  rfl

/-! The lifting to the machine. -/

theorem onCur_ok {s : State} {g h : Group} {m : GM Unit} (hs : s.issuing g) (hm : m (s.dev.env s.clk g) g = .ok ((), h)) :
    s.onCur m = .next (s.put h) := by
  simp only [State.onCur, State.onGroup, State.onDev, show s.dev.current = some g from hs, hm]
  rfl

/-- An instruction that stops does what the stop does. -/
theorem onCur_stop {s : State} {g : Group} {m : GM Unit} {st : Stop} (hs : s.issuing g)
    (hm : m (s.dev.env s.clk g) g = .error st) : s.onCur m = .next { s with dev := s.dev.onStop s.clk g st } := by
  simp only [State.onCur, State.onGroup, State.onDev, show s.dev.current = some g from hs, hm]

theorem onGroup_ok {s : State} {g : Group} {d : Dev} {f : Clock → Dev → Group → Except Stop Dev} (hs : s.issuing g)
    (hf : f s.clk s.dev g = .ok d) : s.onGroup f = .next { s with dev := d } := by
  simp only [State.onGroup, State.onDev, show s.dev.current = some g from hs, hf]

theorem onGroup_stop {s : State} {g : Group} {st : Stop} {f : Clock → Dev → Group → Except Stop Dev} (hs : s.issuing g)
    (hf : f s.clk s.dev g = .error st) : s.onGroup f = .next { s with dev := s.dev.onStop s.clk g st } := by
  simp only [State.onGroup, State.onDev, show s.dev.current = some g from hs, hf]

theorem event_some {s : State} {d : Dev} {f : Clock → Dev → Option Dev} (hf : f s.clk s.dev = some d) :
    s.event f = .next { s with dev := d } := by
  simp only [State.event, State.onDev, hf]

@[simp] theorem env_aclk (d : Dev) (clk : Clock) (g : Group) : (d.env clk g).aclk = clk.aclk := by
  unfold Dev.env; split <;> rfl

@[simp] theorem env_fclk (d : Dev) (clk : Clock) (g : Group) : (d.env clk g).fclk = clk.fclk := by
  unfold Dev.env; split <;> rfl

/-- The issuing group is the one its device holds under its number. -/
theorem issuing_found {s : State} {g : Group} (h : s.issuing g) : s.dev.groups.find ((s.dev.core s.dev.cur).group.getD 0) = some g := by
  unfold State.issuing Dev.current at h
  split at h
  · cases h
  · rename_i gid hg
    split at h
    · cases h
    · rename_i k hk
      split at h
      · cases h; simp only [hg, Option.getD_some, hk]
      · cases h

end Sys2Proof.Machine
end

