-- ==== Sys2Proof/Laws/Local.lean ====
section
/-!
SUPPORT. Local-store accesses: an access to bytes on the core and not poisoned reads and writes exactly them.
-/

namespace Sys2Proof.Machine

theorem nbit_mod {m k i : Nat} (h : i < k) : nbit (m % 2 ^ k) i = nbit m i := by
  have := Nat.testBit_mod_two_pow m k i
  simp only [Nat.testBit_eq_decide_div_mod_eq, h, decide_true, Bool.true_and] at this
  simpa [nbit] using this

theorem nbit_div {m k i : Nat} : nbit (m / 2 ^ k) i = nbit m (k + i) := by
  simp only [nbit, Nat.div_div_eq_div_mul, Nat.pow_add]

/-- Only the low bits of the mask count. -/
theorem Memory.writeMasked_mod (m : Memory) (a v mask n : Nat) : m.writeMasked a v (mask % 2 ^ n) n = m.writeMasked a v mask n := by
  induction n generalizing m a v mask with
  | zero => rfl
  | succ n ih =>
    have h1 : mask % 2 ^ (n + 1) % 2 = mask % 2 := by
      rw [Nat.pow_succ, Nat.mul_comm, Nat.mod_mul_right_mod]
    have h2 : mask % 2 ^ (n + 1) / 2 = mask / 2 % 2 ^ n := by
      rw [Nat.pow_succ, Nat.mul_comm, Nat.mod_mul_right_div_self]
    simp only [Memory.writeMasked, h1, h2, ih]

theorem Memory.writeMasked_zero (m : Memory) (a v n : Nat) : m.writeMasked a v 0 n = m := by
  induction n generalizing a v with
  | zero => rfl
  | succ n ih => simp [Memory.writeMasked, ih]

/-- A masked store is the store of its first bytes and then of the others. -/
theorem Memory.writeMasked_add (m : Memory) (a v mask k n : Nat) :
    m.writeMasked a v mask (k + n) = (m.writeMasked a v mask k).writeMasked (a + k) (v / 2 ^ (8 * k)) (mask / 2 ^ k) n := by
  induction k generalizing m a v mask with
  | zero => simp [Memory.writeMasked]
  | succ k ih =>
    rw [Nat.add_right_comm]
    simp only [Memory.writeMasked]
    rw [ih]
    have e1 : v / 256 / 2 ^ (8 * k) = v / 2 ^ (8 * (k + 1)) := by
      rw [Nat.div_div_eq_div_mul, show (256 : Nat) = 2 ^ 8 from rfl, ← Nat.pow_add, Nat.mul_add, Nat.add_comm 8]
    have e2 : mask / 2 / 2 ^ k = mask / 2 ^ (k + 1) := by
      rw [Nat.div_div_eq_div_mul, ← Nat.pow_succ', Nat.succ_eq_add_one]
    rw [e1, e2, show a + 1 + k = a + (k + 1) by omega]

theorem mask_zero {mask k : Nat} (h : mask % 2 ^ k ≠ 0) : ∃ i < k, nbit mask i = true := by
  apply Classical.byContradiction
  intro hn
  refine h (Nat.eq_of_testBit_eq fun i => ?_)
  rw [Nat.testBit_mod_two_pow, Nat.zero_testBit]
  by_cases hi : i < k
  · have : ¬ nbit mask i = true := fun hb => hn ⟨i, hi, hb⟩
    simp only [nbit, decide_eq_true_eq] at this
    simp [hi, Nat.testBit_eq_decide_div_mod_eq, this]
  · simp [hi]

theorem clean_head {ps : List Nat} {a mask n : Nat} (h : ∀ i < n, nbit mask i = true → ps.contains ((a + i) / 8) = false)
    (hz : mask % 2 ^ min n (8 - a % 8) ≠ 0) : ps.contains (a / 8) = false := by
  obtain ⟨i, hi, hb⟩ := mask_zero hz
  have := h i (by omega) hb
  rwa [show (a + i) / 8 = a / 8 by omega] at this

theorem clean_tail {ps : List Nat} {a mask n k : Nat} (h : ∀ i < n, nbit mask i = true → ps.contains ((a + i) / 8) = false) :
    ∀ i < n - k, nbit (mask / 2 ^ k) i = true → ps.contains ((a + k + i) / 8) = false := by
  intro i hi hb
  rw [nbit_div] at hb
  have := h (k + i) (by omega) hb
  rwa [← Nat.add_assoc] at this

theorem partWords_clean {ps : List Nat} {a mask fuel n : Nat}
    (h : ∀ i < n, nbit mask i = true → ps.contains ((a + i) / 8) = false) : partWords ps a mask fuel n = false := by
  induction fuel generalizing a mask n with
  | zero => rfl
  | succ f ih =>
    simp only [partWords]
    split
    · rfl
    · rw [ih (clean_tail h), Bool.or_false]
      by_cases hz : mask % 2 ^ min n (8 - a % 8) = 0
      · simp [hz]
      · rw [clean_head h hz]; simp

theorem writeWords_clean {ps : List Nat} {m : Memory} {a v mask fuel n : Nat}
    (h : ∀ i < n, nbit mask i = true → ps.contains ((a + i) / 8) = false) (hf : n = 0 ∨ n + a % 8 ≤ 8 * fuel) :
    writeWords m ps a v mask fuel n = (m.writeMasked a v mask n, ps) := by
  induction fuel generalizing m a v mask n with
  | zero =>
    have : n = 0 := by omega
    subst this
    rfl
  | succ f ih =>
    simp only [writeWords]
    split
    · subst_vars; rfl
    · rename_i hn
      have hw : (if mask % 2 ^ min n (8 - a % 8) = 0 then (m, ps)
          else if ps.contains (a / 8) = true then
            (if min n (8 - a % 8) = 8 ∧ mask % 2 ^ min n (8 - a % 8) = 255 then
              (m.writeMasked a v (mask % 2 ^ min n (8 - a % 8)) (min n (8 - a % 8)), ps.filter (· ≠ a / 8)) else (m, ps))
          else (m.writeMasked a v (mask % 2 ^ min n (8 - a % 8)) (min n (8 - a % 8)), ps)) =
          (m.writeMasked a v mask (min n (8 - a % 8)), ps) := by
        split
        · rename_i hz
          rw [← Memory.writeMasked_mod, hz, Memory.writeMasked_zero]
        · rename_i hz
          rw [clean_head h hz, if_neg Bool.false_ne_true, Memory.writeMasked_mod]
      rw [hw, ih (clean_tail h)]
      · rw [← Memory.writeMasked_add, show min n (8 - a % 8) + (n - min n (8 - a % 8)) = n by omega]
      · rcases Nat.le_total n (8 - a % 8) with hle | hle
        · have : min n (8 - a % 8) = n := Nat.min_eq_left hle
          omega
        · have : min n (8 - a % 8) = 8 - a % 8 := Nat.min_eq_right hle
          omega

/-- A store whose enabled bytes lie in no poisoned word writes them and marks nothing (R362). -/
theorem storeWords_clean {ps : List Nat} {m : Memory} {a v mask n : Nat}
    (h : ∀ i < n, nbit mask i = true → ps.contains ((a + i) / 8) = false) : storeWords m ps a n v mask = (m.writeMasked a v mask n, ps) := by
  unfold storeWords
  rw [partWords_clean h, if_neg Bool.false_ne_true, writeWords_clean h (.inr (by omega))]

theorem poisonIn_clean {ps : List Nat} {a n : Nat} (h : ∀ i < n, ps.contains ((a + i) / 8) = false) : poisonIn ps a n = none := by
  induction n generalizing a with
  | zero => rfl
  | succ n ih =>
    have h0 : ps.contains (a / 8) = false := h 0 (by omega)
    simp only [poisonIn, h0, Bool.false_eq_true, if_false]
    refine ih fun i hi => ?_
    have := h (i + 1) (by omega)
    rwa [show a + (i + 1) = a + 1 + i by omega] at this

theorem needBlocks_on {e : Env} {g : Group} {bs : List Nat} (h : ∀ b ∈ bs, g.lineHere e b) :
    needBlocks bs e g = .ok ((), g) := by
  induction bs with
  | nil => rfl
  | cons b bs ih =>
    simp only [needBlocks, gm_bind, needLine_on (h b List.mem_cons_self)]
    exact ih fun b hb => h b (List.mem_cons_of_mem _ hb)

theorem mem_blocksOf {base a n b : Nat} (h : b ∈ blocksOf base a n) : ∃ i < n, b = base + (a + i) / 256 := by
  unfold blocksOf at h
  split at h
  · cases h
  · rename_i hn
    obtain ⟨j, hj, rfl⟩ := List.mem_map.1 h
    rw [List.mem_range] at hj
    by_cases h0 : j = 0
    · exact ⟨0, by omega, by subst h0; simp⟩
    · refine ⟨(a / 256 + j) * 256 - a, ?_, ?_⟩
      · omega
      · have : (a + ((a / 256 + j) * 256 - a)) / 256 = a / 256 + j := by omega
        rw [this]; omega

/-- Words without a correctable error need no repair. -/
theorem upsetWords_clean {ws : List Nat} {a n : Nat} (h : ∀ i < n, ws.contains ((a + i) / 8) = false) : ws.any (inWords a n) = false := by
  rw [List.any_eq_false]
  intro w hw hin
  simp only [inWords, Bool.and_eq_true, decide_eq_true_eq] at hin
  have := h (w * 8 - a) (by omega)
  rw [show (a + (w * 8 - a)) / 8 = w by omega] at this
  rw [List.contains_iff_mem.2 hw] at this
  exact Bool.noConfusion this

/-- Local bytes that are ready are read at issue, and nothing changes (R181). -/
theorem localRead_ready {e : Env} {g : Group} {a n : Nat} (h : g.localReady e a n) : localRead a n e g = .ok (g.arch.ls.readN a n, g) := by
  have hb : ∀ b ∈ blocksOf lsBase a n, g.lineHere e b := fun b hb => by
    obtain ⟨i, hi, rfl⟩ := mem_blocksOf hb
    exact (h i hi).1
  have hu : e.upsetWords.any (inWords a n) = false := upsetWords_clean fun i hi => (h i hi).2.1
  simp only [localRead, gm_bind, needBlocks_on hb, gm_read, hu, Bool.false_eq_true, if_false, gm_arch,
    poisonIn_clean fun i hi => (h i hi).2.2, gm_pure]

/-- Local bytes that are ready are stored at issue (R181). -/
theorem localWrite_ready {e : Env} {g : Group} {a n v mask : Nat} (h : g.localReady e a n) :
    localWrite a n v mask e g = .ok ((), g.lsWrite a n v mask) := by
  have hb : ∀ b ∈ blocksOf lsBase a n, g.lineHere e b := fun b hb => by
    obtain ⟨i, hi, rfl⟩ := mem_blocksOf hb
    exact (h i hi).1
  simp only [localWrite, gm_bind, needBlocks_on hb, gm_modify]

theorem lsWrite_ls {e : Env} {g : Group} {a n v mask : Nat} (h : g.localReady e a n) :
    (g.lsWrite a n v mask).arch.ls = g.arch.ls.writeMasked a v mask n := by
  simp only [Group.lsWrite, Group.aside, storeWords_clean fun i hi _ => (h i hi).2.2]

theorem lsWrite_lsPoison {e : Env} {g : Group} {a n v mask : Nat} (h : g.localReady e a n) :
    (g.lsWrite a n v mask).arch.lsPoison = g.arch.lsPoison := by
  simp only [Group.lsWrite, Group.aside, storeWords_clean fun i hi _ => (h i hi).2.2]

end Sys2Proof.Machine
end

