-- ==== Sys2Proof/Laws/Meanings.lean ====
section
/-!
SUPPORT. What the shared forms of the instructions do when their operands may be read and their destination written.
-/

namespace Sys2Proof.Machine

/-- A body that writes one register and goes on. -/
theorem writes_run {s : State} {g : Group} {gd : Guard} {body : GM Next} {r : RegRef} {v lat : Nat} {whole : Nat → Bool} {tok : Option Nat}
    (hs : s.issuing g) (hg : s.guardOn g gd)
    (hb : body (s.dev.env s.clk g) g = .ok (.fall, g.wrote s.clk.aclk r v lat whole)) :
    s.onCur (guarded gd tok body) = .next (s.put ((g.wrote s.clk.aclk r v lat whole).goesOn s.clk.aclk g.link 1)) := by
  refine onCur_ok hs ?_
  rw [guarded_on hg hb, retire_fall, env_aclk]
  have : (g.wrote s.clk.aclk r v lat whole).link = g.link := by unfold Group.wrote; split <;> rfl
  rw [this]

theorem wrote_gid (g : Group) (now : Nat) (r : RegRef) (v lat : Nat) (whole : Nat → Bool) : (g.wrote now r v lat whole).gid = g.gid := by
  unfold Group.wrote; split <;> rfl

theorem writeX_of_writable {e : Env} {g : Group} {n : BitVec 6} (h : g.writable e (.x n.toNat)) (v : Word) (lat : Nat) :
    writeX n v lat e g = .ok ((), g.wrote e.aclk (.x n.toNat) v.toNat lat) := writeReg_of_writable h _ _ _

/-- The three-register form (R137). -/
theorem alu_run {s : State} {g : Group} {gd : Guard} {t : TailA} {lat : Nat} {f : Word → Word → Word → Word} {useC : Bool}
    (hs : s.issuing g) (hg : s.guardOn g gd) (ha : s.readable g (.x t.a.toNat))
    (hb : s.readable g (.x t.b.toNat)) (hc : s.readable g (.x t.c.toNat))
    (hd : s.writable g (.x t.d.toNat)) :
    s.onCur (alu lat gd t f useC) = .next (s.put ((g.wrote s.clk.aclk (.x t.d.toNat)
      (f (g.arch.xr t.a.toNat) (g.arch.xr t.b.toNat) (if useC then g.arch.xr t.c.toNat else 0)).toNat lat).goesOn s.clk.aclk g.link 1)) := by
  refine writes_run hs hg ?_
  rw [← env_aclk s.dev s.clk g]
  cases useC <;>
    simp [gm_bind, gm_map, readX_of_readable ha, readX_of_readable hb, readX_of_readable hc, writeX_of_writable hd]

/-- The immediate form (R139). -/
theorem aluI_run {s : State} {g : Group} {gd : Guard} {t : TailI} {f : Word → BitVec 32 → Word}
    (hs : s.issuing g) (hg : s.guardOn g gd) (ha : s.readable g (.x t.a.toNat))
    (hd : s.writable g (.x t.d.toNat)) :
    s.onCur (aluI gd t f) = .next (s.put ((g.wrote s.clk.aclk (.x t.d.toNat)
      (f (g.arch.xr t.a.toNat) t.imm).toNat 1).goesOn s.clk.aclk g.link 1)) := by
  refine writes_run hs hg ?_
  rw [← env_aclk s.dev s.clk g]
  simp [gm_bind, gm_map, readX_of_readable ha, writeX_of_writable hd]

/-- The unary form (R140). -/
theorem aluH_run {s : State} {g : Group} {gd : Guard} {t : TailH} {f : Word → Word}
    (hs : s.issuing g) (hg : s.guardOn g gd) (ha : s.readable g (.x t.a.toNat))
    (hd : s.writable g (.x t.d.toNat)) :
    s.onCur (aluH gd t f) = .next (s.put ((g.wrote s.clk.aclk (.x t.d.toNat)
      (f (g.arch.xr t.a.toNat)).toNat 1).goesOn s.clk.aclk g.link 1)) := by
  refine writes_run hs hg ?_
  rw [← env_aclk s.dev s.clk g]
  simp [gm_bind, gm_map, readX_of_readable ha, writeX_of_writable hd]

/-- The divides (R138). -/
theorem divide_run {s : State} {g : Group} {gd : Guard} {t : TailA} {f : Nat → Nat → Nat}
    (hs : s.issuing g) (hg : s.guardOn g gd) (ha : s.readable g (.x t.a.toNat))
    (hb : s.readable g (.x t.b.toNat)) (hd : s.writable g (.x t.d.toNat))
    (hc : g.arch.tokCount (t.e.toNat % 32) < 63) :
    s.onCur (divide gd t f) = .next (s.put ((g.entered (t.e.toNat % 32) .divide false (some (s.clk.aclk + 40)) [.x t.d.toNat]
      [(.x t.d.toNat, f (g.arch.xr t.a.toNat).toNat (g.arch.xr t.b.toNat).toNat)]).goesOn s.clk.aclk g.link 1)) := by
  refine onCur_ok hs ?_
  rw [← env_aclk s.dev s.clk g]
  unfold divide
  rw [guarded_on hg (n := .fall) (h := g.entered (t.e.toNat % 32) .divide false (some ((s.dev.env s.clk g).aclk + 40)) [.x t.d.toNat]
      [(.x t.d.toNat, f (g.arch.xr t.a.toNat).toNat (g.arch.xr t.b.toNat).toNat)])]
  · rfl
  · have hd' : ∀ r ∈ [RegRef.x t.d.toNat], g.writable (s.dev.env s.clk g) r := fun r hr => by
      rw [List.mem_singleton.1 hr]; exact hd
    simp only [gm_bind, readX_of_readable ha, readX_of_readable hb, gm_read, issueEntry_open hc hd', gm_pure]

end Sys2Proof.Machine
end

