-- ==== Sys2Proof/Laws/MemSys.lean ====
section
/-!
SUPPORT. Every operation of the memory system, and of a group's own memories, keeps the canonical form of its memory;
caching operations leave the memory behind them alone.
-/

namespace Sys2Proof.Machine

/-! The memory behind the caches. -/

/-- A fill changes no memory behind the caches (R183). -/
@[simp] theorem MemSys.fill_mem (ms : MemSys) (pl : Place) (cmp : Bool) (asid : BitVec 12) (pa : Nat) :
    (ms.fill pl cmp asid pa).mem = ms.mem := by
  cases pl with
  | engine e => simp only [MemSys.fill]; split <;> rfl
  | slice c => rfl
  | _ => rfl

@[simp] theorem MemSys.markBad_mem (ms : MemSys) (pl : Place) (pa : Nat) : (ms.markBad pl pa).mem = ms.mem := by
  cases pl with
  | slice c => simp only [MemSys.markBad]; (repeat' split) <;> rfl
  | engine e => simp only [MemSys.markBad]; split <;> rfl
  | _ => rfl

@[simp] theorem MemSys.dropBad_mem (ms : MemSys) : ms.dropBad.mem = ms.mem := rfl

/-- A write within one unit keeps the canonical form (R362). -/
theorem MemSys.writeUnit_wf {ms : MemSys} {pl : Place} {cmp : Bool} {asid : BitVec 12} {unit v mask : Nat}
    (h : ms.mem.wf = true) : (ms.writeUnit pl cmp asid unit v mask).mem.wf = true := by
  have hf : (ms.fill pl cmp asid unit).mem.wf = true := by simpa using h
  simp only [MemSys.writeUnit]
  by_cases hm : mask = 0
  · rw [if_pos hm]; exact hf
  · rw [if_neg hm]
    split
    · exact hf
    · cases pl with
      | slice c => exact hf
      | engine e => exact hf
      | nowhere => exact hf
      | _ => dsimp only; exact Memory.writeMasked_wf hf

theorem MemSys.writeUnits_wf {ms : MemSys} {pl : Place} {cmp : Bool} {asid : BitVec 12} {pa v mask fuel n : Nat}
    (h : ms.mem.wf = true) : (ms.writeUnits pl cmp asid pa v mask fuel n).mem.wf = true := by
  induction fuel generalizing ms pa v mask n with
  | zero => exact h
  | succ fuel ih =>
    simp only [MemSys.writeUnits]
    split
    · exact h
    · exact ih (MemSys.writeUnit_wf h)

/-- A store at a place keeps the canonical form. -/
theorem MemSys.writeAt_wf {ms : MemSys} {pl : Place} {cmp : Bool} {asid : BitVec 12} {pa n v mask : Nat}
    (h : ms.mem.wf = true) : (ms.writeAt pl cmp asid pa n v mask).mem.wf = true := by
  unfold MemSys.writeAt
  split
  · exact h
  · exact MemSys.writeUnits_wf h

theorem MemSys.writeBack_wf {ms : MemSys} {base s : Nat} {l : L2Line} (h : ms.mem.wf = true) :
    (ms.writeBack base l s).mem.wf = true := by
  unfold MemSys.writeBack
  split
  · exact h
  · split
    · exact h
    · dsimp only; exact Memory.writeN_wf h

/-- A property that each step of a fold keeps holds of the result. -/
theorem foldl_keeps {α β : Type} (p : α → Prop) (f : α → β → α) (hf : ∀ a b, p a → p (f a b)) (l : List β) (a : α) (h : p a) :
    p (l.foldl f a) := by
  induction l generalizing a with
  | nil => exact h
  | cons b l ih => exact ih _ (hf a b h)

/-- The dirty sectors of a line written behind the caches. -/
theorem MemSys.writeBacks_wf {ms : MemSys} {base : Nat} {l : L2Line} (h : ms.mem.wf = true) (secs : List Nat) :
    (secs.foldl (fun ms s => ms.writeBack base l s) ms).mem.wf = true :=
  foldl_keeps (fun ms : MemSys => ms.mem.wf = true) (fun ms s => ms.writeBack base l s) (fun _ _ h => MemSys.writeBack_wf h) secs ms h

/-- A line stored behind the caches (R188). -/
theorem MemSys.storeLine_wf {ms : MemSys} {line : Nat} {l : L2Line} (h : ms.mem.wf = true) : (ms.storeLine line l).mem.wf = true := by
  have hw := MemSys.writeBacks_wf (base := 256 * line) (l := l) h (List.range 8)
  simp only [MemSys.storeLine]
  split <;> exact hw

theorem MemSys.dropGranule_wf {ms : MemSys} {up : Nat → Bool} {key : Nat} (h : ms.mem.wf = true) :
    (ms.dropGranule up key).mem.wf = true := by
  unfold MemSys.dropGranule
  split
  · exact h
  · rename_i g hg
    by_cases hd : (!g.dirty || !up (key % 2 ^ 46 * 64)) = true
    · simp only [hd, if_true]; exact h
    · simp only [if_neg hd]
      split
      · exact h
      · dsimp only
        generalize key % 2 ^ 46 * 64 = pa
        exact Memory.writeN_wf h

/-- Flushing every home cache keeps the canonical form (R185). -/
theorem MemSys.flushAll_wf {ms : MemSys} {up : Nat → Bool} (h : ms.mem.wf = true) : (ms.flushAll up).mem.wf = true := by
  have h1 := foldl_keeps (fun ms : MemSys => ms.mem.wf = true)
    (fun ms (kl : Nat × L2Line) =>
      if up (kl.1 % 2 ^ 44 * 256) then ms.storeLine (kl.1 % 2 ^ 44) kl.2 else ms)
    (fun ms kl h => by
      split
      · exact MemSys.storeLine_wf h
      · exact h) ms.l2 ms h
  exact foldl_keeps (fun ms : MemSys => ms.mem.wf = true) (fun ms (kg : Nat × Granule) => ms.dropGranule up kg.1)
    (fun ms kg h => MemSys.dropGranule_wf h) _ _ h1

/-! The device. -/

/-- Taking lines back from the host changes no memory (R376). -/
@[simp] theorem Dev.backInval_ms (d : Dev) (pa n : Nat) : (d.backInval pa n).ms = d.ms := by
  unfold Dev.backInval
  dsimp only
  split <;> rfl

/-- Counting a correction changes no memory (R369, R389). -/
@[simp] theorem Dev.countCell_ms (d : Dev) (u : UpsetUnit) (b : Bool) : (d.countCell u b).ms = d.ms := by
  unfold Dev.countCell
  split
  · rfl
  · split <;> rfl

/-- Correcting errors changes no memory: the corrected word is the word (R369). -/
@[simp] theorem Dev.repairAll_ms (d : Dev) (found : UpsetTarget → Bool) : (d.repairAll found).ms = d.ms := by
  unfold Dev.repairAll
  exact foldl_keeps (fun e : Dev => e.ms = d.ms) _ (fun e t h => by simpa using h) _ _ rfl

/-- What a read by physical address brings about changes no memory (R369, R376). -/
@[simp] theorem Dev.askedPhys_ms (d : Dev) (pa n : Nat) : (d.askedPhys pa n).ms = d.ms := by simp [Dev.askedPhys, Dev.foundPhys]

/-- Nor does a walk (R193, R376). -/
@[simp] theorem Dev.takeBackWalk_ms (d : Dev) (l : Latched) (va : Nat) (slot : Bool) : (d.takeBackWalk l va slot).ms = d.ms := by
  have hw := foldl_keeps (fun e : Dev => e.ms = d.ms) (fun (e : Dev) pa => e.askedPhys pa 8) (fun e pa h => by simpa using h)
    (d.walkReads l.ptroot va walkShape) d rfl
  unfold Dev.takeBackWalk
  split
  · exact hw
  · simpa using hw

@[simp] theorem Dev.dropWrite_ms (d : Dev) : d.dropWrite.ms = d.ms := rfl

theorem Dev.writeX_wf {d : Dev} {x : Xlat} {asid : BitVec 12} {n v mask : Nat} (h : d.ms.mem.wf = true) :
    (d.writeX x asid n v mask).ms.mem.wf = true := by
  unfold Dev.writeX
  split
  · split
    · exact h
    · dsimp only; exact MemSys.writeAt_wf (by simpa using h)
  · exact h

theorem Dev.physWrite_wf {d : Dev} {pa n v : Nat} (h : d.ms.mem.wf = true) : (d.physWrite pa n v).ms.mem.wf = true := by
  unfold Dev.physWrite
  split
  · dsimp only; exact MemSys.writeAt_wf (by simpa using h)
  · exact h

/-- A host write of memory keeps the canonical form (R376). -/
theorem Dev.physStore_wf {d : Dev} {pa fuel : Nat} {bs : List Byte} (h : d.ms.mem.wf = true) :
    (d.physStore pa bs fuel).ms.mem.wf = true := by
  induction fuel generalizing d pa bs with
  | zero => exact h
  | succ fuel ih =>
    simp only [Dev.physStore]
    split
    · exact h
    · exact ih (Dev.physWrite_wf h)

/-- The device's own write to a context's memory keeps the canonical form. -/
theorem Dev.ctxWrite_wf {d d' : Dev} {part : Nat} {l : Latched} {va n v : Nat} (h : d.ms.mem.wf = true)
    (he : d.ctxWrite part l va n v = some d') : d'.ms.mem.wf = true := by
  unfold Dev.ctxWrite at he
  split at he
  · cases he
  · cases he; exact Dev.writeX_wf (by simpa using h)

theorem Dev.writeEntries_wf {d d' : Dev} {part i : Nat} {l : Latched} {vs : List Nat} (h : d.ms.mem.wf = true)
    (he : d.writeEntries part l i vs = some d') : d'.ms.mem.wf = true := by
  induction vs generalizing d i with
  | nil => cases he; exact h
  | cons v vs ih =>
    simp only [Dev.writeEntries] at he
    cases hc : d.ctxWrite part l (l.backing + 0x1000 + 32 * (i % 1024)) 32 v with
    | none => rw [hc] at he; cases he
    | some e => rw [hc] at he; exact ih (Dev.ctxWrite_wf h hc) he

@[simp] theorem Dev.interrupt_ms (d : Dev) (vec : Nat) : (d.interrupt vec).ms = d.ms := by
  unfold Dev.interrupt
  repeat' (first | rfl | split)

/-- A fault-queue entry keeps the canonical form (R336). -/
theorem Dev.faultEntry_wf {d : Dev} {p c : Nat} {val pc ticket : Word} {aux typ cause core : Nat} (h : d.ms.mem.wf = true) :
    (d.faultEntry p c val pc ticket aux typ cause core).1.ms.mem.wf = true := by
  simp only [Dev.faultEntry]
  split
  · exact h
  · split
    · exact h
    · split
      · split
        · exact h
        · rename_i he
          have hw := Dev.writeEntries_wf h he
          split
          · exact hw
          · simpa [Dev.setCtx] using hw
      · split
        · exact h
        · split
          · exact h
          · rename_i he
            have hs (x : Ctx) : (d.setCtx p c x).ms.mem.wf = true := h
            have hw := Dev.writeEntries_wf (hs _) he
            exact hw

/-- An eviction keeps the canonical form (R364). -/
theorem Dev.evictLine_wf {d : Dev} {core line : Nat} (h : d.ms.mem.wf = true) : (d.evictLine core line).ms.mem.wf = true := by
  simp only [Dev.evictLine]
  split
  · exact h
  · split
    · exact h
    · split
      · simpa [Dev.orphan] using h
      · split
        · exact h
        · have hw := MemSys.storeLine_wf (line := line) (l := ‹L2Line›) (ms := { d.ms with l2 := d.ms.l2.del (core * 2 ^ 44 + line) }) h
          split
          · exact hw
          · split
            · exact hw
            · exact Dev.faultEntry_wf hw

/-! A group's own memories. -/

theorem writeWords_wf {m : Memory} {ps : List Nat} {a v mask fuel n : Nat} (h : m.wf = true) :
    (writeWords m ps a v mask fuel n).1.wf = true := by
  induction fuel generalizing m ps a v mask n with
  | zero => exact h
  | succ fuel ih =>
    simp only [writeWords]
    split
    · exact h
    · refine ih ?_
      split
      · exact h
      · split
        · split
          · exact Memory.writeMasked_wf h
          · exact h
        · exact Memory.writeMasked_wf h

theorem storeWords_wf {m : Memory} {ps : List Nat} {a n v mask : Nat} (h : m.wf = true) : (storeWords m ps a n v mask).1.wf = true := by
  unfold storeWords
  split
  · exact h
  · exact writeWords_wf h

/-- The memories of a group are in canonical form: local store, accumulators and window. -/
def Arch.memsWf (a : Arch) : Bool := a.ls.wf && a.acc.wf && a.win.wf

theorem Group.lsWrite_wf {g : Group} {a n v mask : Nat} (h : g.arch.memsWf = true) : (g.lsWrite a n v mask).arch.memsWf = true := by
  simp only [Arch.memsWf, Bool.and_eq_true] at h ⊢
  exact ⟨⟨storeWords_wf h.1.1, h.1.2⟩, h.2⟩

theorem Group.accWrite_wf {g : Group} {a n v : Nat} (h : g.arch.memsWf = true) : (g.accWrite a n v).arch.memsWf = true := by
  simp only [Arch.memsWf, Bool.and_eq_true] at h ⊢
  exact ⟨⟨h.1.1, storeWords_wf h.1.2⟩, h.2⟩

theorem Group.winWrite_wf {g : Group} {a n v mask : Nat} (h : g.arch.memsWf = true) : (g.winWrite a n v mask).arch.memsWf = true := by
  simp only [Arch.memsWf, Bool.and_eq_true] at h ⊢
  exact ⟨⟨h.1.1, h.1.2⟩, storeWords_wf h.2⟩

/-! Reset. -/

/-- Memory after reset is in canonical form, with nothing listed. -/
theorem reset_mem_wf : State.reset.dev.ms.mem.wf = true := rfl

/-- A group that starts holds empty memories, in canonical form (R340). -/
theorem reset_arch_wf (pc x3 : Word) (strict : Bool) : (Arch.reset pc x3 strict).memsWf = true := rfl

end Sys2Proof.Machine
end

