-- ==== Sys2Proof/Laws/PerInstr.lean ====
section
/-!
SUPPORT. One lemma per constructor of `Instr` about its encoding: an instruction of the opcode map has the row of its
opcode, whose tail has room for its fields (R102, R103, R110 to R117). The steps of the other agents have no encoding.
Before them, each tail format: its fields fit its bits, and are read back from them.
-/

namespace Sys2Proof

theorem Guard.toNat_lt (g : Guard) : g.toNat < 16 := by
  unfold Guard.toNat; split <;> omega

theorem TailH.toNat_lt (t : TailH) : t.toNat < 2 ^ 16 := by
  unfold TailH.toNat; omega

theorem TailA.toNat_lt (t : TailA) : t.toNat < 2 ^ 32 := by
  unfold TailA.toNat; omega

theorem TailV.toNat_lt (t : TailV) : t.toNat < 2 ^ 48 := by
  unfold TailV.toNat; omega

theorem TailI.toNat_lt (t : TailI) : t.toNat < 2 ^ 64 := by
  unfold TailI.toNat; omega

theorem TailM.toNat_lt (t : TailM) : t.toNat < 2 ^ 64 := by
  unfold TailM.toNat; omega

theorem TailJ.toNat_lt (t : TailJ) : t.toNat < 2 ^ 64 := by
  unfold TailJ.toNat; omega

theorem TailL.toNat_lt (t : TailL) : t.toNat < 2 ^ 96 := by
  unfold TailL.toNat; omega

theorem TailW.toNat_lt (t : TailW) : t.toNat < 2 ^ 128 := by
  unfold TailW.toNat; omega

theorem TailP.toNat_lt (t : TailP) : t.toNat < 2 ^ 192 := by
  unfold TailP.toNat; omega

theorem bits_eq_of {w : Nat} (x : BitVec w) (n lo hi : Nat) (h : n = x.toNat * 2 ^ lo + hi * 2 ^ (lo + w) + n % 2 ^ lo) :
    bits n lo w = x := by
  apply BitVec.eq_of_toNat_eq
  have hp : 0 < 2 ^ lo := Nat.two_pow_pos lo
  have hm : n % 2 ^ lo < 2 ^ lo := Nat.mod_lt _ hp
  have hd : n / 2 ^ lo = x.toNat + hi * 2 ^ w := by
    rw [h, Nat.pow_add, show x.toNat * 2 ^ lo + hi * (2 ^ lo * 2 ^ w) + n % 2 ^ lo = n % 2 ^ lo + 2 ^ lo * (x.toNat + hi * 2 ^ w) by
      rw [Nat.mul_add, Nat.mul_comm (2 ^ lo) x.toNat, Nat.mul_left_comm (2 ^ lo) hi]; omega,
      Nat.add_mul_div_left _ _ hp, Nat.div_eq_of_lt hm, Nat.zero_add]
  simp [bits, hd, Nat.add_mul_mod_self_right, Nat.mod_eq_of_lt x.isLt]

theorem Guard.ofNat_toNat (g : Guard) : Guard.ofNat g.toNat = g := by
  obtain ⟨s, q⟩ := g
  have hb : bits (Guard.toNat ⟨s, q⟩) 0 3 = q := by
    cases s <;> (apply BitVec.eq_of_toNat_eq; simp [bits, Guard.toNat]; try omega)
  have hs : decide (Guard.toNat ⟨s, q⟩ / 8 % 2 = 1) = s := by
    cases s <;> simp [Guard.toNat] <;> omega
  simp [Guard.ofNat, hb, hs]

theorem TailH.ofNat_toNat (t : TailH) : TailH.ofNat t.toNat = t := by
  obtain ⟨d, a, e⟩ := t
  simp only [TailH.ofNat, TailH.mk.injEq]
  exact ⟨bits_eq_of d _ 0 (a.toNat + e.toNat * 2 ^ 6) (by simp only [TailH.toNat]; omega),
    bits_eq_of a _ 6 (e.toNat) (by simp only [TailH.toNat]; omega),
    bits_eq_of e _ 12 (0) (by simp only [TailH.toNat]; omega)⟩

theorem TailA.ofNat_toNat (t : TailA) : TailA.ofNat t.toNat = t := by
  obtain ⟨d, a, b, c, e⟩ := t
  simp only [TailA.ofNat, TailA.mk.injEq]
  exact ⟨bits_eq_of d _ 0 (a.toNat + b.toNat * 2 ^ 6 + c.toNat * 2 ^ 12 + e.toNat * 2 ^ 18) (by simp only [TailA.toNat]; omega),
    bits_eq_of a _ 6 (b.toNat + c.toNat * 2 ^ 6 + e.toNat * 2 ^ 12) (by simp only [TailA.toNat]; omega),
    bits_eq_of b _ 12 (c.toNat + e.toNat * 2 ^ 6) (by simp only [TailA.toNat]; omega),
    bits_eq_of c _ 18 (e.toNat) (by simp only [TailA.toNat]; omega),
    bits_eq_of e _ 24 (0) (by simp only [TailA.toNat]; omega)⟩

theorem TailV.ofNat_toNat (t : TailV) : TailV.ofNat t.toNat = t := by
  obtain ⟨d, a, b, c, ty, rd, st, wm, ty2, e⟩ := t
  simp only [TailV.ofNat, TailV.mk.injEq]
  exact ⟨bits_eq_of d _ 0 (a.toNat + b.toNat * 2 ^ 6 + c.toNat * 2 ^ 12 + ty.toNat * 2 ^ 18 + rd.toNat * 2 ^ 23 + st.toNat * 2 ^ 25 + wm.toNat * 2 ^ 26 + ty2.toNat * 2 ^ 29 + e.toNat * 2 ^ 34) (by simp only [TailV.toNat]; omega),
    bits_eq_of a _ 6 (b.toNat + c.toNat * 2 ^ 6 + ty.toNat * 2 ^ 12 + rd.toNat * 2 ^ 17 + st.toNat * 2 ^ 19 + wm.toNat * 2 ^ 20 + ty2.toNat * 2 ^ 23 + e.toNat * 2 ^ 28) (by simp only [TailV.toNat]; omega),
    bits_eq_of b _ 12 (c.toNat + ty.toNat * 2 ^ 6 + rd.toNat * 2 ^ 11 + st.toNat * 2 ^ 13 + wm.toNat * 2 ^ 14 + ty2.toNat * 2 ^ 17 + e.toNat * 2 ^ 22) (by simp only [TailV.toNat]; omega),
    bits_eq_of c _ 18 (ty.toNat + rd.toNat * 2 ^ 5 + st.toNat * 2 ^ 7 + wm.toNat * 2 ^ 8 + ty2.toNat * 2 ^ 11 + e.toNat * 2 ^ 16) (by simp only [TailV.toNat]; omega),
    bits_eq_of ty _ 24 (rd.toNat + st.toNat * 2 ^ 2 + wm.toNat * 2 ^ 3 + ty2.toNat * 2 ^ 6 + e.toNat * 2 ^ 11) (by simp only [TailV.toNat]; omega),
    bits_eq_of rd _ 29 (st.toNat + wm.toNat * 2 ^ 1 + ty2.toNat * 2 ^ 4 + e.toNat * 2 ^ 9) (by simp only [TailV.toNat]; omega),
    bits_eq_of st _ 31 (wm.toNat + ty2.toNat * 2 ^ 3 + e.toNat * 2 ^ 8) (by simp only [TailV.toNat]; omega),
    bits_eq_of wm _ 32 (ty2.toNat + e.toNat * 2 ^ 5) (by simp only [TailV.toNat]; omega),
    bits_eq_of ty2 _ 35 (e.toNat) (by simp only [TailV.toNat]; omega),
    bits_eq_of e _ 40 (0) (by simp only [TailV.toNat]; omega)⟩

theorem TailI.ofNat_toNat (t : TailI) : TailI.ofNat t.toNat = t := by
  obtain ⟨d, a, z, imm⟩ := t
  simp only [TailI.ofNat, TailI.mk.injEq]
  exact ⟨bits_eq_of d _ 0 (a.toNat + z.toNat * 2 ^ 6 + imm.toNat * 2 ^ 26) (by simp only [TailI.toNat]; omega),
    bits_eq_of a _ 6 (z.toNat + imm.toNat * 2 ^ 20) (by simp only [TailI.toNat]; omega),
    bits_eq_of z _ 12 (imm.toNat) (by simp only [TailI.toNat]; omega),
    bits_eq_of imm _ 32 (0) (by simp only [TailI.toNat]; omega)⟩

theorem TailM.ofNat_toNat (t : TailM) : TailM.ofNat t.toNat = t := by
  obtain ⟨d, a, b, sz, sc, ord, scp, tk, wm, z, off⟩ := t
  simp only [TailM.ofNat, TailM.mk.injEq]
  exact ⟨bits_eq_of d _ 0 (a.toNat + b.toNat * 2 ^ 6 + sz.toNat * 2 ^ 12 + sc.toNat * 2 ^ 15 + ord.toNat * 2 ^ 18 + scp.toNat * 2 ^ 20 + tk.toNat * 2 ^ 23 + wm.toNat * 2 ^ 28 + z.toNat * 2 ^ 31 + off.toNat * 2 ^ 34) (by simp only [TailM.toNat]; omega),
    bits_eq_of a _ 6 (b.toNat + sz.toNat * 2 ^ 6 + sc.toNat * 2 ^ 9 + ord.toNat * 2 ^ 12 + scp.toNat * 2 ^ 14 + tk.toNat * 2 ^ 17 + wm.toNat * 2 ^ 22 + z.toNat * 2 ^ 25 + off.toNat * 2 ^ 28) (by simp only [TailM.toNat]; omega),
    bits_eq_of b _ 12 (sz.toNat + sc.toNat * 2 ^ 3 + ord.toNat * 2 ^ 6 + scp.toNat * 2 ^ 8 + tk.toNat * 2 ^ 11 + wm.toNat * 2 ^ 16 + z.toNat * 2 ^ 19 + off.toNat * 2 ^ 22) (by simp only [TailM.toNat]; omega),
    bits_eq_of sz _ 18 (sc.toNat + ord.toNat * 2 ^ 3 + scp.toNat * 2 ^ 5 + tk.toNat * 2 ^ 8 + wm.toNat * 2 ^ 13 + z.toNat * 2 ^ 16 + off.toNat * 2 ^ 19) (by simp only [TailM.toNat]; omega),
    bits_eq_of sc _ 21 (ord.toNat + scp.toNat * 2 ^ 2 + tk.toNat * 2 ^ 5 + wm.toNat * 2 ^ 10 + z.toNat * 2 ^ 13 + off.toNat * 2 ^ 16) (by simp only [TailM.toNat]; omega),
    bits_eq_of ord _ 24 (scp.toNat + tk.toNat * 2 ^ 3 + wm.toNat * 2 ^ 8 + z.toNat * 2 ^ 11 + off.toNat * 2 ^ 14) (by simp only [TailM.toNat]; omega),
    bits_eq_of scp _ 26 (tk.toNat + wm.toNat * 2 ^ 5 + z.toNat * 2 ^ 8 + off.toNat * 2 ^ 11) (by simp only [TailM.toNat]; omega),
    bits_eq_of tk _ 29 (wm.toNat + z.toNat * 2 ^ 3 + off.toNat * 2 ^ 6) (by simp only [TailM.toNat]; omega),
    bits_eq_of wm _ 34 (z.toNat + off.toNat * 2 ^ 3) (by simp only [TailM.toNat]; omega),
    bits_eq_of z _ 37 (off.toNat) (by simp only [TailM.toNat]; omega),
    bits_eq_of off _ 40 (0) (by simp only [TailM.toNat]; omega)⟩

theorem TailJ.ofNat_toNat (t : TailJ) : TailJ.ofNat t.toNat = t := by
  obtain ⟨d, a, b, slot, z, disp⟩ := t
  simp only [TailJ.ofNat, TailJ.mk.injEq]
  exact ⟨bits_eq_of d _ 0 (a.toNat + b.toNat * 2 ^ 6 + slot.toNat * 2 ^ 12 + z.toNat * 2 ^ 17 + disp.toNat * 2 ^ 26) (by simp only [TailJ.toNat]; omega),
    bits_eq_of a _ 6 (b.toNat + slot.toNat * 2 ^ 6 + z.toNat * 2 ^ 11 + disp.toNat * 2 ^ 20) (by simp only [TailJ.toNat]; omega),
    bits_eq_of b _ 12 (slot.toNat + z.toNat * 2 ^ 5 + disp.toNat * 2 ^ 14) (by simp only [TailJ.toNat]; omega),
    bits_eq_of slot _ 18 (z.toNat + disp.toNat * 2 ^ 9) (by simp only [TailJ.toNat]; omega),
    bits_eq_of z _ 23 (disp.toNat) (by simp only [TailJ.toNat]; omega),
    bits_eq_of disp _ 32 (0) (by simp only [TailJ.toNat]; omega)⟩

theorem TailL.ofNat_toNat (t : TailL) : TailL.ofNat t.toNat = t := by
  obtain ⟨d, z, imm⟩ := t
  simp only [TailL.ofNat, TailL.mk.injEq]
  exact ⟨bits_eq_of d _ 0 (z.toNat + imm.toNat * 2 ^ 26) (by simp only [TailL.toNat]; omega),
    bits_eq_of z _ 6 (imm.toNat) (by simp only [TailL.toNat]; omega),
    bits_eq_of imm _ 32 (0) (by simp only [TailL.toNat]; omega)⟩

theorem TailW.ofNat_toNat (t : TailW) : TailW.ofNat t.toNat = t := by
  obtain ⟨d, a, b, c, op, sz, ord, scp, tk, e, off, ext⟩ := t
  simp only [TailW.ofNat, TailW.mk.injEq]
  exact ⟨bits_eq_of d _ 0 (a.toNat + b.toNat * 2 ^ 6 + c.toNat * 2 ^ 12 + op.toNat * 2 ^ 18 + sz.toNat * 2 ^ 22 + ord.toNat * 2 ^ 25 + scp.toNat * 2 ^ 27 + tk.toNat * 2 ^ 30 + e.toNat * 2 ^ 35 + off.toNat * 2 ^ 58 + ext.toNat * 2 ^ 90) (by simp only [TailW.toNat]; omega),
    bits_eq_of a _ 6 (b.toNat + c.toNat * 2 ^ 6 + op.toNat * 2 ^ 12 + sz.toNat * 2 ^ 16 + ord.toNat * 2 ^ 19 + scp.toNat * 2 ^ 21 + tk.toNat * 2 ^ 24 + e.toNat * 2 ^ 29 + off.toNat * 2 ^ 52 + ext.toNat * 2 ^ 84) (by simp only [TailW.toNat]; omega),
    bits_eq_of b _ 12 (c.toNat + op.toNat * 2 ^ 6 + sz.toNat * 2 ^ 10 + ord.toNat * 2 ^ 13 + scp.toNat * 2 ^ 15 + tk.toNat * 2 ^ 18 + e.toNat * 2 ^ 23 + off.toNat * 2 ^ 46 + ext.toNat * 2 ^ 78) (by simp only [TailW.toNat]; omega),
    bits_eq_of c _ 18 (op.toNat + sz.toNat * 2 ^ 4 + ord.toNat * 2 ^ 7 + scp.toNat * 2 ^ 9 + tk.toNat * 2 ^ 12 + e.toNat * 2 ^ 17 + off.toNat * 2 ^ 40 + ext.toNat * 2 ^ 72) (by simp only [TailW.toNat]; omega),
    bits_eq_of op _ 24 (sz.toNat + ord.toNat * 2 ^ 3 + scp.toNat * 2 ^ 5 + tk.toNat * 2 ^ 8 + e.toNat * 2 ^ 13 + off.toNat * 2 ^ 36 + ext.toNat * 2 ^ 68) (by simp only [TailW.toNat]; omega),
    bits_eq_of sz _ 28 (ord.toNat + scp.toNat * 2 ^ 2 + tk.toNat * 2 ^ 5 + e.toNat * 2 ^ 10 + off.toNat * 2 ^ 33 + ext.toNat * 2 ^ 65) (by simp only [TailW.toNat]; omega),
    bits_eq_of ord _ 31 (scp.toNat + tk.toNat * 2 ^ 3 + e.toNat * 2 ^ 8 + off.toNat * 2 ^ 31 + ext.toNat * 2 ^ 63) (by simp only [TailW.toNat]; omega),
    bits_eq_of scp _ 33 (tk.toNat + e.toNat * 2 ^ 5 + off.toNat * 2 ^ 28 + ext.toNat * 2 ^ 60) (by simp only [TailW.toNat]; omega),
    bits_eq_of tk _ 36 (e.toNat + off.toNat * 2 ^ 23 + ext.toNat * 2 ^ 55) (by simp only [TailW.toNat]; omega),
    bits_eq_of e _ 41 (off.toNat + ext.toNat * 2 ^ 32) (by simp only [TailW.toNat]; omega),
    bits_eq_of off _ 64 (ext.toNat) (by simp only [TailW.toNat]; omega),
    bits_eq_of ext _ 96 (0) (by simp only [TailW.toNat]; omega)⟩

theorem TailP.ofNat_toNat (t : TailP) : TailP.ofNat t.toNat = t := by
  obtain ⟨s0, s1, s2, s3, sm, tk, e, par0, par1, par2, par3⟩ := t
  simp only [TailP.ofNat, TailP.mk.injEq]
  exact ⟨bits_eq_of s0 _ 0 (s1.toNat + s2.toNat * 2 ^ 6 + s3.toNat * 2 ^ 12 + sm.toNat * 2 ^ 18 + tk.toNat * 2 ^ 22 + e.toNat * 2 ^ 27 + par0.toNat * 2 ^ 58 + par1.toNat * 2 ^ 90 + par2.toNat * 2 ^ 122 + par3.toNat * 2 ^ 154) (by simp only [TailP.toNat]; omega),
    bits_eq_of s1 _ 6 (s2.toNat + s3.toNat * 2 ^ 6 + sm.toNat * 2 ^ 12 + tk.toNat * 2 ^ 16 + e.toNat * 2 ^ 21 + par0.toNat * 2 ^ 52 + par1.toNat * 2 ^ 84 + par2.toNat * 2 ^ 116 + par3.toNat * 2 ^ 148) (by simp only [TailP.toNat]; omega),
    bits_eq_of s2 _ 12 (s3.toNat + sm.toNat * 2 ^ 6 + tk.toNat * 2 ^ 10 + e.toNat * 2 ^ 15 + par0.toNat * 2 ^ 46 + par1.toNat * 2 ^ 78 + par2.toNat * 2 ^ 110 + par3.toNat * 2 ^ 142) (by simp only [TailP.toNat]; omega),
    bits_eq_of s3 _ 18 (sm.toNat + tk.toNat * 2 ^ 4 + e.toNat * 2 ^ 9 + par0.toNat * 2 ^ 40 + par1.toNat * 2 ^ 72 + par2.toNat * 2 ^ 104 + par3.toNat * 2 ^ 136) (by simp only [TailP.toNat]; omega),
    bits_eq_of sm _ 24 (tk.toNat + e.toNat * 2 ^ 5 + par0.toNat * 2 ^ 36 + par1.toNat * 2 ^ 68 + par2.toNat * 2 ^ 100 + par3.toNat * 2 ^ 132) (by simp only [TailP.toNat]; omega),
    bits_eq_of tk _ 28 (e.toNat + par0.toNat * 2 ^ 31 + par1.toNat * 2 ^ 63 + par2.toNat * 2 ^ 95 + par3.toNat * 2 ^ 127) (by simp only [TailP.toNat]; omega),
    bits_eq_of e _ 33 (par0.toNat + par1.toNat * 2 ^ 32 + par2.toNat * 2 ^ 64 + par3.toNat * 2 ^ 96) (by simp only [TailP.toNat]; omega),
    bits_eq_of par0 _ 64 (par1.toNat + par2.toNat * 2 ^ 32 + par3.toNat * 2 ^ 64) (by simp only [TailP.toNat]; omega),
    bits_eq_of par1 _ 96 (par2.toNat + par3.toNat * 2 ^ 32) (by simp only [TailP.toNat]; omega),
    bits_eq_of par2 _ 128 (par3.toNat) (by simp only [TailP.toNat]; omega),
    bits_eq_of par3 _ 160 (0) (by simp only [TailP.toNat]; omega)⟩

namespace Laws.EncodesInRow

/-- The instruction, where it is one of the opcode map, has the row of its opcode, and its fields fit that row's tail. -/
def Statement (i : Instr) : Prop :=
  ∀ opc g tail, parts i = some (opc, g, tail) → opc < 2 ^ 9 ∧ ∃ row, opcodeRow opc = some row ∧ tail < 2 ^ (8 * tlBytes row.tl)

theorem of_parts {i : Instr} {opc : Nat} {g : Guard} {tail : Nat} {row : Row} (hp : parts i = some (opc, g, tail)) (ho : opc < 2 ^ 9)
    (hr : opcodeRow opc = some row) (ht : tail < 2 ^ (8 * tlBytes row.tl)) : Statement i := by
  intro opc' g' tail' h
  rw [hp] at h
  cases h
  exact ⟨ho, row, hr, ht⟩

theorem of_none {i : Instr} (hp : parts i = none) : Statement i := by
  intro opc g tail h
  rw [hp] at h
  cases h

theorem add (g : Guard) (t : TailA) : Statement (.add g t) := of_parts rfl (by decide) rfl t.toNat_lt
theorem sub (g : Guard) (t : TailA) : Statement (.sub g t) := of_parts rfl (by decide) rfl t.toNat_lt
theorem addi (g : Guard) (t : TailI) : Statement (.addi g t) := of_parts rfl (by decide) rfl t.toNat_lt
theorem mul (g : Guard) (t : TailA) : Statement (.mul g t) := of_parts rfl (by decide) rfl t.toNat_lt
theorem mulh (g : Guard) (t : TailA) : Statement (.mulh g t) := of_parts rfl (by decide) rfl t.toNat_lt
theorem mulhn (g : Guard) (t : TailA) : Statement (.mulhn g t) := of_parts rfl (by decide) rfl t.toNat_lt
theorem div (g : Guard) (t : TailA) : Statement (.div g t) := of_parts rfl (by decide) rfl t.toNat_lt
theorem divn (g : Guard) (t : TailA) : Statement (.divn g t) := of_parts rfl (by decide) rfl t.toNat_lt
theorem rem (g : Guard) (t : TailA) : Statement (.rem g t) := of_parts rfl (by decide) rfl t.toNat_lt
theorem remn (g : Guard) (t : TailA) : Statement (.remn g t) := of_parts rfl (by decide) rfl t.toNat_lt
theorem and (g : Guard) (t : TailA) : Statement (.and g t) := of_parts rfl (by decide) rfl t.toNat_lt
theorem or (g : Guard) (t : TailA) : Statement (.or g t) := of_parts rfl (by decide) rfl t.toNat_lt
theorem xor (g : Guard) (t : TailA) : Statement (.xor g t) := of_parts rfl (by decide) rfl t.toNat_lt
theorem andn (g : Guard) (t : TailA) : Statement (.andn g t) := of_parts rfl (by decide) rfl t.toNat_lt
theorem orn (g : Guard) (t : TailA) : Statement (.orn g t) := of_parts rfl (by decide) rfl t.toNat_lt
theorem shl (g : Guard) (t : TailA) : Statement (.shl g t) := of_parts rfl (by decide) rfl t.toNat_lt
theorem shr (g : Guard) (t : TailA) : Statement (.shr g t) := of_parts rfl (by decide) rfl t.toNat_lt
theorem sha (g : Guard) (t : TailA) : Statement (.sha g t) := of_parts rfl (by decide) rfl t.toNat_lt
theorem rol (g : Guard) (t : TailA) : Statement (.rol g t) := of_parts rfl (by decide) rfl t.toNat_lt
theorem shli (g : Guard) (t : TailI) : Statement (.shli g t) := of_parts rfl (by decide) rfl t.toNat_lt
theorem shri (g : Guard) (t : TailI) : Statement (.shri g t) := of_parts rfl (by decide) rfl t.toNat_lt
theorem shai (g : Guard) (t : TailI) : Statement (.shai g t) := of_parts rfl (by decide) rfl t.toNat_lt
theorem roli (g : Guard) (t : TailI) : Statement (.roli g t) := of_parts rfl (by decide) rfl t.toNat_lt
theorem clz (g : Guard) (t : TailH) : Statement (.clz g t) := of_parts rfl (by decide) rfl t.toNat_lt
theorem ctz (g : Guard) (t : TailH) : Statement (.ctz g t) := of_parts rfl (by decide) rfl t.toNat_lt
theorem popc (g : Guard) (t : TailH) : Statement (.popc g t) := of_parts rfl (by decide) rfl t.toNat_lt
theorem bfx (g : Guard) (t : TailI) : Statement (.bfx g t) := of_parts rfl (by decide) rfl t.toNat_lt
theorem bfi (g : Guard) (t : TailI) : Statement (.bfi g t) := of_parts rfl (by decide) rfl t.toNat_lt
theorem fsh (g : Guard) (t : TailA) : Statement (.fsh g t) := of_parts rfl (by decide) rfl t.toNat_lt
theorem min (g : Guard) (t : TailA) : Statement (.min g t) := of_parts rfl (by decide) rfl t.toNat_lt
theorem max (g : Guard) (t : TailA) : Statement (.max g t) := of_parts rfl (by decide) rfl t.toNat_lt
theorem minn (g : Guard) (t : TailA) : Statement (.minn g t) := of_parts rfl (by decide) rfl t.toNat_lt
theorem maxn (g : Guard) (t : TailA) : Statement (.maxn g t) := of_parts rfl (by decide) rfl t.toNat_lt
theorem sext (g : Guard) (t : TailH) : Statement (.sext g t) := of_parts rfl (by decide) rfl t.toNat_lt
theorem slt (g : Guard) (t : TailA) : Statement (.slt g t) := of_parts rfl (by decide) rfl t.toNat_lt
theorem sltn (g : Guard) (t : TailA) : Statement (.sltn g t) := of_parts rfl (by decide) rfl t.toNat_lt
theorem seq (g : Guard) (t : TailA) : Statement (.seq g t) := of_parts rfl (by decide) rfl t.toNat_lt
theorem sne (g : Guard) (t : TailA) : Statement (.sne g t) := of_parts rfl (by decide) rfl t.toNat_lt
theorem csel (g : Guard) (t : TailA) : Statement (.csel g t) := of_parts rfl (by decide) rfl t.toNat_lt
theorem li (g : Guard) (t : TailL) : Statement (.li g t) := of_parts rfl (by decide) rfl t.toNat_lt
theorem lea (g : Guard) (t : TailM) : Statement (.lea g t) := of_parts rfl (by decide) rfl t.toNat_lt
theorem mov (g : Guard) (t : TailH) : Statement (.mov g t) := of_parts rfl (by decide) rfl t.toNat_lt
theorem beq (g : Guard) (t : TailJ) : Statement (.beq g t) := of_parts rfl (by decide) rfl t.toNat_lt
theorem bne (g : Guard) (t : TailJ) : Statement (.bne g t) := of_parts rfl (by decide) rfl t.toNat_lt
theorem blt (g : Guard) (t : TailJ) : Statement (.blt g t) := of_parts rfl (by decide) rfl t.toNat_lt
theorem bge (g : Guard) (t : TailJ) : Statement (.bge g t) := of_parts rfl (by decide) rfl t.toNat_lt
theorem bltn (g : Guard) (t : TailJ) : Statement (.bltn g t) := of_parts rfl (by decide) rfl t.toNat_lt
theorem bgen (g : Guard) (t : TailJ) : Statement (.bgen g t) := of_parts rfl (by decide) rfl t.toNat_lt
theorem bz (g : Guard) (t : TailJ) : Statement (.bz g t) := of_parts rfl (by decide) rfl t.toNat_lt
theorem bnz (g : Guard) (t : TailJ) : Statement (.bnz g t) := of_parts rfl (by decide) rfl t.toNat_lt
theorem j (g : Guard) (t : TailJ) : Statement (.j g t) := of_parts rfl (by decide) rfl t.toNat_lt
theorem jl (g : Guard) (t : TailJ) : Statement (.jl g t) := of_parts rfl (by decide) rfl t.toNat_lt
theorem jr (g : Guard) (t : TailH) : Statement (.jr g t) := of_parts rfl (by decide) rfl t.toNat_lt
theorem loop (g : Guard) (t : TailJ) : Statement (.loop g t) := of_parts rfl (by decide) rfl t.toNat_lt
theorem dly (g : Guard) (t : TailH) : Statement (.dly g t) := of_parts rfl (by decide) rfl t.toNat_lt
theorem nop (g : Guard) : Statement (.nop g) := of_parts rfl (by decide) rfl (by decide)
theorem done (g : Guard) : Statement (.done g) := of_parts rfl (by decide) rfl (by decide)
theorem qset (g : Guard) (t : TailA) : Statement (.qset g t) := of_parts rfl (by decide) rfl t.toNat_lt
theorem qop (g : Guard) (t : TailA) : Statement (.qop g t) := of_parts rfl (by decide) rfl t.toNat_lt
theorem wait (g : Guard) (t : TailH) : Statement (.wait g t) := of_parts rfl (by decide) rfl t.toNat_lt
theorem fset (g : Guard) (t : TailI) : Statement (.fset g t) := of_parts rfl (by decide) rfl t.toNat_lt
theorem fclr (g : Guard) (t : TailI) : Statement (.fclr g t) := of_parts rfl (by decide) rfl t.toNat_lt
theorem ftst (g : Guard) (t : TailI) : Statement (.ftst g t) := of_parts rfl (by decide) rfl t.toNat_lt
theorem fwait (g : Guard) (t : TailI) : Statement (.fwait g t) := of_parts rfl (by decide) rfl t.toNat_lt
theorem abort (g : Guard) : Statement (.abort g) := of_parts rfl (by decide) rfl (by decide)
theorem abchk (g : Guard) (t : TailH) : Statement (.abchk g t) := of_parts rfl (by decide) rfl t.toNat_lt
theorem ldl (g : Guard) (t : TailM) : Statement (.ldl g t) := of_parts rfl (by decide) rfl t.toNat_lt
theorem ldg (g : Guard) (t : TailM) : Statement (.ldg g t) := of_parts rfl (by decide) rfl t.toNat_lt
theorem stl (g : Guard) (t : TailM) : Statement (.stl g t) := of_parts rfl (by decide) rfl t.toNat_lt
theorem stg (g : Guard) (t : TailM) : Statement (.stg g t) := of_parts rfl (by decide) rfl t.toNat_lt
theorem fence (g : Guard) (t : TailA) : Statement (.fence g t) := of_parts rfl (by decide) rfl t.toNat_lt
theorem acq (g : Guard) (t : TailA) : Statement (.acq g t) := of_parts rfl (by decide) rfl t.toNat_lt
theorem rel (g : Guard) (t : TailA) : Statement (.rel g t) := of_parts rfl (by decide) rfl t.toNat_lt
theorem vadd (g : Guard) (t : TailV) : Statement (.vadd g t) := of_parts rfl (by decide) rfl t.toNat_lt
theorem vsub (g : Guard) (t : TailV) : Statement (.vsub g t) := of_parts rfl (by decide) rfl t.toNat_lt
theorem vmul (g : Guard) (t : TailV) : Statement (.vmul g t) := of_parts rfl (by decide) rfl t.toNat_lt
theorem vmulh (g : Guard) (t : TailV) : Statement (.vmulh g t) := of_parts rfl (by decide) rfl t.toNat_lt
theorem vfma (g : Guard) (t : TailV) : Statement (.vfma g t) := of_parts rfl (by decide) rfl t.toNat_lt
theorem vfms (g : Guard) (t : TailV) : Statement (.vfms g t) := of_parts rfl (by decide) rfl t.toNat_lt
theorem vfnma (g : Guard) (t : TailV) : Statement (.vfnma g t) := of_parts rfl (by decide) rfl t.toNat_lt
theorem vdiv (g : Guard) (t : TailV) : Statement (.vdiv g t) := of_parts rfl (by decide) rfl t.toNat_lt
theorem vsqrt (g : Guard) (t : TailV) : Statement (.vsqrt g t) := of_parts rfl (by decide) rfl t.toNat_lt
theorem vmin (g : Guard) (t : TailV) : Statement (.vmin g t) := of_parts rfl (by decide) rfl t.toNat_lt
theorem vmax (g : Guard) (t : TailV) : Statement (.vmax g t) := of_parts rfl (by decide) rfl t.toNat_lt
theorem vabs (g : Guard) (t : TailV) : Statement (.vabs g t) := of_parts rfl (by decide) rfl t.toNat_lt
theorem vneg (g : Guard) (t : TailV) : Statement (.vneg g t) := of_parts rfl (by decide) rfl t.toNat_lt
theorem vand (g : Guard) (t : TailV) : Statement (.vand g t) := of_parts rfl (by decide) rfl t.toNat_lt
theorem vor (g : Guard) (t : TailV) : Statement (.vor g t) := of_parts rfl (by decide) rfl t.toNat_lt
theorem vxor (g : Guard) (t : TailV) : Statement (.vxor g t) := of_parts rfl (by decide) rfl t.toNat_lt
theorem vandn (g : Guard) (t : TailV) : Statement (.vandn g t) := of_parts rfl (by decide) rfl t.toNat_lt
theorem vshl (g : Guard) (t : TailV) : Statement (.vshl g t) := of_parts rfl (by decide) rfl t.toNat_lt
theorem vshr (g : Guard) (t : TailV) : Statement (.vshr g t) := of_parts rfl (by decide) rfl t.toNat_lt
theorem vsha (g : Guard) (t : TailV) : Statement (.vsha g t) := of_parts rfl (by decide) rfl t.toNat_lt
theorem vfsh (g : Guard) (t : TailV) : Statement (.vfsh g t) := of_parts rfl (by decide) rfl t.toNat_lt
theorem vclz (g : Guard) (t : TailV) : Statement (.vclz g t) := of_parts rfl (by decide) rfl t.toNat_lt
theorem vpopc (g : Guard) (t : TailV) : Statement (.vpopc g t) := of_parts rfl (by decide) rfl t.toNat_lt
theorem vcmp (g : Guard) (t : TailV) : Statement (.vcmp g t) := of_parts rfl (by decide) rfl t.toNat_lt
theorem vsel (g : Guard) (t : TailV) : Statement (.vsel g t) := of_parts rfl (by decide) rfl t.toNat_lt
theorem vcvt (g : Guard) (t : TailV) : Statement (.vcvt g t) := of_parts rfl (by decide) rfl t.toNat_lt
theorem vred (g : Guard) (t : TailV) : Statement (.vred g t) := of_parts rfl (by decide) rfl t.toNat_lt
theorem vgmax (g : Guard) (t : TailV) : Statement (.vgmax g t) := of_parts rfl (by decide) rfl t.toNat_lt
theorem vscan (g : Guard) (t : TailV) : Statement (.vscan g t) := of_parts rfl (by decide) rfl t.toNat_lt
theorem vsld (g : Guard) (t : TailV) : Statement (.vsld g t) := of_parts rfl (by decide) rfl t.toNat_lt
theorem vperm (g : Guard) (t : TailV) : Statement (.vperm g t) := of_parts rfl (by decide) rfl t.toNat_lt
theorem vbcast (g : Guard) (t : TailV) : Statement (.vbcast g t) := of_parts rfl (by decide) rfl t.toNat_lt
theorem vext (g : Guard) (t : TailV) : Statement (.vext g t) := of_parts rfl (by decide) rfl t.toNat_lt
theorem vins (g : Guard) (t : TailV) : Statement (.vins g t) := of_parts rfl (by decide) rfl t.toNat_lt
theorem vseq (g : Guard) (t : TailV) : Statement (.vseq g t) := of_parts rfl (by decide) rfl t.toNat_lt
theorem vrand (g : Guard) (t : TailV) : Statement (.vrand g t) := of_parts rfl (by decide) rfl t.toNat_lt
theorem vsect (g : Guard) (t : TailV) : Statement (.vsect g t) := of_parts rfl (by decide) rfl t.toNat_lt
theorem vcompress (g : Guard) (t : TailV) : Statement (.vcompress g t) := of_parts rfl (by decide) rfl t.toNat_lt
theorem vexpand (g : Guard) (t : TailV) : Statement (.vexpand g t) := of_parts rfl (by decide) rfl t.toNat_lt
theorem vldl (g : Guard) (t : TailM) : Statement (.vldl g t) := of_parts rfl (by decide) rfl t.toNat_lt
theorem vldg (g : Guard) (t : TailM) : Statement (.vldg g t) := of_parts rfl (by decide) rfl t.toNat_lt
theorem vstl (g : Guard) (t : TailM) : Statement (.vstl g t) := of_parts rfl (by decide) rfl t.toNat_lt
theorem vstg (g : Guard) (t : TailM) : Statement (.vstg g t) := of_parts rfl (by decide) rfl t.toNat_lt
theorem vldu (g : Guard) (t : TailM) : Statement (.vldu g t) := of_parts rfl (by decide) rfl t.toNat_lt
theorem vstu (g : Guard) (t : TailM) : Statement (.vstu g t) := of_parts rfl (by decide) rfl t.toNat_lt
theorem vgat (g : Guard) (t : TailV) : Statement (.vgat g t) := of_parts rfl (by decide) rfl t.toNat_lt
theorem vsca (g : Guard) (t : TailV) : Statement (.vsca g t) := of_parts rfl (by decide) rfl t.toNat_lt
theorem wand (g : Guard) (t : TailA) : Statement (.wand g t) := of_parts rfl (by decide) rfl t.toNat_lt
theorem wor (g : Guard) (t : TailA) : Statement (.wor g t) := of_parts rfl (by decide) rfl t.toNat_lt
theorem wxor (g : Guard) (t : TailA) : Statement (.wxor g t) := of_parts rfl (by decide) rfl t.toNat_lt
theorem wnot (g : Guard) (t : TailH) : Statement (.wnot g t) := of_parts rfl (by decide) rfl t.toNat_lt
theorem wpopc (g : Guard) (t : TailH) : Statement (.wpopc g t) := of_parts rfl (by decide) rfl t.toNat_lt
theorem wfirst (g : Guard) (t : TailH) : Statement (.wfirst g t) := of_parts rfl (by decide) rfl t.toNat_lt
theorem wset (g : Guard) (t : TailI) : Statement (.wset g t) := of_parts rfl (by decide) rfl t.toNat_lt
theorem amo (g : Guard) (t : TailW) : Statement (.amo g t) := of_parts rfl (by decide) rfl t.toNat_lt
theorem bar (g : Guard) (t : TailA) : Statement (.bar g t) := of_parts rfl (by decide) rfl t.toNat_lt
theorem fret (g : Guard) (t : TailA) : Statement (.fret g t) := of_parts rfl (by decide) rfl t.toNat_lt
theorem spawn (g : Guard) (t : TailM) : Statement (.spawn g t) := of_parts rfl (by decide) rfl t.toNat_lt
theorem join (g : Guard) (t : TailM) : Statement (.join g t) := of_parts rfl (by decide) rfl t.toNat_lt
theorem gang (g : Guard) : Statement (.gang g) := of_parts rfl (by decide) rfl (by decide)
theorem solo (g : Guard) : Statement (.solo g) := of_parts rfl (by decide) rfl (by decide)
theorem cpy (g : Guard) (t : TailP) : Statement (.cpy g t) := of_parts rfl (by decide) rfl t.toNat_lt
theorem epop (g : Guard) (t : TailA) : Statement (.epop g t) := of_parts rfl (by decide) rfl t.toNat_lt
theorem gat (g : Guard) (t : TailP) : Statement (.gat g t) := of_parts rfl (by decide) rfl t.toNat_lt
theorem sca (g : Guard) (t : TailP) : Statement (.sca g t) := of_parts rfl (by decide) rfl t.toNat_lt
theorem chg (g : Guard) (t : TailP) : Statement (.chg g t) := of_parts rfl (by decide) rfl t.toNat_lt
theorem chs (g : Guard) (t : TailP) : Statement (.chs g t) := of_parts rfl (by decide) rfl t.toNat_lt
theorem evw (g : Guard) (t : TailH) : Statement (.evw g t) := of_parts rfl (by decide) rfl t.toNat_lt
theorem xbar (g : Guard) (t : TailW) : Statement (.xbar g t) := of_parts rfl (by decide) rfl t.toNat_lt
theorem rset (g : Guard) (t : TailP) : Statement (.rset g t) := of_parts rfl (by decide) rfl t.toNat_lt
theorem rpush (g : Guard) (t : TailA) : Statement (.rpush g t) := of_parts rfl (by decide) rfl t.toNat_lt
theorem rpop (g : Guard) (t : TailA) : Statement (.rpop g t) := of_parts rfl (by decide) rfl t.toNat_lt
theorem mma (g : Guard) (t : TailP) : Statement (.mma g t) := of_parts rfl (by decide) rfl t.toNat_lt
theorem mmas (g : Guard) (t : TailP) : Statement (.mmas g t) := of_parts rfl (by decide) rfl t.toNat_lt
theorem mzero (g : Guard) (t : TailA) : Statement (.mzero g t) := of_parts rfl (by decide) rfl t.toNat_lt
theorem mdrain (g : Guard) (t : TailP) : Statement (.mdrain g t) := of_parts rfl (by decide) rfl t.toNat_lt
theorem mload (g : Guard) (t : TailP) : Statement (.mload g t) := of_parts rfl (by decide) rfl t.toNat_lt
theorem mred (g : Guard) (t : TailP) : Statement (.mred g t) := of_parts rfl (by decide) rfl t.toNat_lt
theorem mq (g : Guard) (t : TailM) : Statement (.mq g t) := of_parts rfl (by decide) rfl t.toNat_lt
theorem mstat (g : Guard) (t : TailA) : Statement (.mstat g t) := of_parts rfl (by decide) rfl t.toNat_lt
theorem cget (g : Guard) (t : TailI) : Statement (.cget g t) := of_parts rfl (by decide) rfl t.toNat_lt
theorem cset (g : Guard) (t : TailI) : Statement (.cset g t) := of_parts rfl (by decide) rfl t.toNat_lt
theorem trap (g : Guard) (t : TailI) : Statement (.trap g t) := of_parts rfl (by decide) rfl t.toNat_lt
theorem svc (g : Guard) (t : TailI) : Statement (.svc g t) := of_parts rfl (by decide) rfl t.toNat_lt
theorem kret (g : Guard) : Statement (.kret g) := of_parts rfl (by decide) rfl (by decide)
theorem tlbinv (g : Guard) (t : TailA) : Statement (.tlbinv g t) := of_parts rfl (by decide) rfl t.toNat_lt
theorem halt (g : Guard) : Statement (.halt g) := of_parts rfl (by decide) rfl (by decide)
theorem plbaseWrite (p : Nat) (v : Word) : Statement (.plbaseWrite p v) := of_none rfl
theorem pclusWrite (p : Nat) (v : Word) : Statement (.pclusWrite p v) := of_none rfl
theorem pstatWrite (p : Nat) (v : Word) : Statement (.pstatWrite p v) := of_none rfl
theorem entryValidate (p c : Nat) : Statement (.entryValidate p c) := of_none rfl
theorem contextRetire (p c : Nat) : Statement (.contextRetire p c) := of_none rfl
theorem contextRetirementEnd (p c : Nat) : Statement (.contextRetirementEnd p c) := of_none rfl
theorem lqtailWrite (p c q : Nat) (v : Word) : Statement (.lqtailWrite p c q v) := of_none rfl
theorem lqctlEn (p c q : Nat) : Statement (.lqctlEn p c q) := of_none rfl
theorem lqctlTear (p c q : Nat) : Statement (.lqctlTear p c q) := of_none rfl
theorem teardownEnd (p c q : Nat) : Statement (.teardownEnd p c q) := of_none rfl
theorem lqerrWrite (p c q : Nat) : Statement (.lqerrWrite p c q) := of_none rfl
theorem fqtailWrite (p c : Nat) : Statement (.fqtailWrite p c) := of_none rfl
theorem fqReplyRetry (p c : Nat) : Statement (.fqReplyRetry p c) := of_none rfl
theorem fqReplyResume (p c : Nat) : Statement (.fqReplyResume p c) := of_none rfl
theorem fqReplyAbort (p c : Nat) : Statement (.fqReplyAbort p c) := of_none rfl
theorem pdmgctxWrite (p : Nat) : Statement (.pdmgctxWrite p) := of_none rfl
theorem hstatWrite (v : Word) : Statement (.hstatWrite v) := of_none rfl
theorem horphRead : Statement .horphRead := of_none rfl
theorem hcorrWrite : Statement .hcorrWrite := of_none rfl
theorem huncWrite : Statement .huncWrite := of_none rfl
theorem hpermitWrite : Statement .hpermitWrite := of_none rfl
theorem hgangWrite (v : Word) : Statement (.hgangWrite v) := of_none rfl
theorem attestationRequest (nonce : List Byte) : Statement (.attestationRequest nonce) := of_none rfl
theorem controlRegisterWrite (offset : Nat) (v : Word) : Statement (.controlRegisterWrite offset v) := of_none rfl
theorem queueWindowStage (core word : Nat) (v : Word) : Statement (.queueWindowStage core word v) := of_none rfl
theorem queueWindowPush (core : Nat) (v : Word) : Statement (.queueWindowPush core v) := of_none rfl
theorem hostCxlMemRead (addr count : Nat) : Statement (.hostCxlMemRead addr count) := of_none rfl
theorem hostCxlMemWrite (addr : Nat) (data : List Byte) : Statement (.hostCxlMemWrite addr data) := of_none rfl
theorem hostAtomic (addr : Nat) : Statement (.hostAtomic addr) := of_none rfl
theorem hostSnoop (addr : Nat) (invalidate : Bool) : Statement (.hostSnoop addr invalidate) := of_none rfl
theorem acceptanceRound (p : Nat) : Statement (.acceptanceRound p) := of_none rfl
theorem sliceEnd (p : Nat) : Statement (.sliceEnd p) := of_none rfl
theorem entryDue (p c : Nat) : Statement (.entryDue p c) := of_none rfl
theorem recordProduce (cluster : Nat) : Statement (.recordProduce cluster) := of_none rfl
theorem groupStart (cell core : Nat) : Statement (.groupStart cell core) := of_none rfl
theorem footprintFetchComplete (gid : Nat) : Statement (.footprintFetchComplete gid) := of_none rfl
theorem groupResume (gid core : Nat) : Statement (.groupResume gid core) := of_none rfl
theorem slotsExhausted (p c : Nat) : Statement (.slotsExhausted p c) := of_none rfl
theorem commitBufferDrain (gid : Nat) : Statement (.commitBufferDrain gid) := of_none rfl
theorem commitPhaseStart (launch dom : Nat) : Statement (.commitPhaseStart launch dom) := of_none rfl
theorem exchangePhaseStart (launch dom : Nat) : Statement (.exchangePhaseStart launch dom) := of_none rfl
theorem fretComplete (launch dom : Nat) : Statement (.fretComplete launch dom) := of_none rfl
theorem ilvRoundStart (launch : Nat) : Statement (.ilvRoundStart launch) := of_none rfl
theorem globalLoadPerformed (gid entry : Nat) : Statement (.globalLoadPerformed gid entry) := of_none rfl
theorem storePerformed (gid id : Nat) : Statement (.storePerformed gid id) := of_none rfl
theorem amoPerformed (gid entry : Nat) : Statement (.amoPerformed gid entry) := of_none rfl
theorem flagWritePerformed (gid id : Nat) : Statement (.flagWritePerformed gid id) := of_none rfl
theorem divideComplete (gid entry : Nat) : Statement (.divideComplete gid entry) := of_none rfl
theorem vectorLongComplete (gid entry : Nat) : Statement (.vectorLongComplete gid entry) := of_none rfl
theorem pageWalk (cluster : Nat) : Statement (.pageWalk cluster) := of_none rfl
theorem tlbinvComplete (gid entry : Nat) : Statement (.tlbinvComplete gid entry) := of_none rfl
theorem lineRefill (gid line : Nat) : Statement (.lineRefill gid line) := of_none rfl
theorem lineWriteOut (gid line : Nat) : Statement (.lineWriteOut gid line) := of_none rfl
theorem l2DirtyEvict (slice line : Nat) : Statement (.l2DirtyEvict slice line) := of_none rfl
theorem scaleCacheFill (core : Nat) (tensor : Nat) (block : Nat) : Statement (.scaleCacheFill core tensor block) := of_none rfl
theorem copyJobStart (gid : Nat) : Statement (.copyJobStart gid) := of_none rfl
theorem copyChunk (gid : Nat) : Statement (.copyChunk gid) := of_none rfl
theorem indirectJobStart (cluster : Nat) : Statement (.indirectJobStart cluster) := of_none rfl
theorem gatherChunk (cluster : Nat) : Statement (.gatherChunk cluster) := of_none rfl
theorem scatterChunk (cluster : Nat) : Statement (.scatterChunk cluster) := of_none rfl
theorem scaAddMergePass (cluster : Nat) : Statement (.scaAddMergePass cluster) := of_none rfl
theorem scaAddApplyPass (cluster : Nat) : Statement (.scaAddApplyPass cluster) := of_none rfl
theorem chainGather (cluster : Nat) : Statement (.chainGather cluster) := of_none rfl
theorem chsReadPass (cluster : Nat) : Statement (.chsReadPass cluster) := of_none rfl
theorem chsApplyPass (cluster : Nat) : Statement (.chsApplyPass cluster) := of_none rfl
theorem bridgeEvaluate (gid : Nat) : Statement (.bridgeEvaluate gid) := of_none rfl
theorem mmaCommand (gid : Nat) : Statement (.mmaCommand gid) := of_none rfl
theorem mmasCommand (gid : Nat) : Statement (.mmasCommand gid) := of_none rfl
theorem zeroCommand (gid : Nat) : Statement (.zeroCommand gid) := of_none rfl
theorem drainCommand (gid : Nat) : Statement (.drainCommand gid) := of_none rfl
theorem loadCommand (gid : Nat) : Statement (.loadCommand gid) := of_none rfl
theorem redCommand (gid : Nat) : Statement (.redCommand gid) := of_none rfl
theorem matrixCommandRetire (gid : Nat) : Statement (.matrixCommandRetire gid) := of_none rfl
theorem governorWindow : Statement .governorWindow := of_none rfl
theorem deferredTrap (gid : Nat) : Statement (.deferredTrap gid) := of_none rfl
theorem abortLineArrive (launch cluster : Nat) : Statement (.abortLineArrive launch cluster) := of_none rfl
theorem abortGroupStart (launch : Nat) : Statement (.abortGroupStart launch) := of_none rfl
theorem launchComplete (launch : Nat) : Statement (.launchComplete launch) := of_none rfl
theorem rollback (launch dom : Nat) : Statement (.rollback launch dom) := of_none rfl
theorem correctableErrorRepair (upset : Nat) : Statement (.correctableErrorRepair upset) := of_none rfl
theorem tuningPass : Statement .tuningPass := of_none rfl
theorem cellRetire (cell : Nat) : Statement (.cellRetire cell) := of_none rfl
theorem throttleDown : Statement .throttleDown := of_none rfl
theorem throttleUp : Statement .throttleUp := of_none rfl
theorem overheatStop : Statement .overheatStop := of_none rfl
theorem powerUp (boot : BootInput) : Statement (.powerUp boot) := of_none rfl
theorem flitReceive (port : Nat) (flit : List Byte) : Statement (.flitReceive port flit) := of_none rfl
theorem nakReceive (port seq : Nat) : Statement (.nakReceive port seq) := of_none rfl
theorem portDown (port : Nat) : Statement (.portDown port) := of_none rfl
theorem launchGrantReceive (p c q pos field digest : Nat) : Statement (.launchGrantReceive p c q pos field digest) := of_none rfl
theorem logEndMarkerReceive (launch dom : Nat) (pkg : Nat) : Statement (.logEndMarkerReceive launch dom pkg) := of_none rfl
theorem readyReceive (launch dom : Nat) (pkg : Nat) : Statement (.readyReceive launch dom pkg) := of_none rfl
theorem remoteRequest (req : RemoteReq) : Statement (.remoteRequest req) := of_none rfl
theorem ackReceive (port seq : Nat) : Statement (.ackReceive port seq) := of_none rfl
theorem portRetrainComplete (port : Nat) : Statement (.portRetrainComplete port) := of_none rfl
theorem cxlDeviceFailed (port : Nat) : Statement (.cxlDeviceFailed port) := of_none rfl
theorem softError (target : UpsetTarget) : Statement (.softError target) := of_none rfl
theorem quarantineRelease (frame : Nat) : Statement (.quarantineRelease frame) := of_none rfl
theorem watchdogExpiry : Statement .watchdogExpiry := of_none rfl
theorem fixedEntryComplete (gid entry : Nat) : Statement (.fixedEntryComplete gid entry) := of_none rfl

end Laws.EncodesInRow

end Sys2Proof
end

