-- ==== Sys2Proof/Laws/Reads.lean ====
section
/-!
SUPPORT. What reads bring about beside the value they return, said once: host copies are taken back, errors corrected and
counted, other packages asked (R303, R369, R376); every other field of the device stands.
-/

namespace Sys2Proof.Machine

/-- e differs from d by what reads bring about, and by nothing else. -/
def Dev.ReadFrom (d e : Dev) : Prop :=
  ∃ ups hc cc cu hl out draw,
    e = { d with upsets := ups, hcorr := hc, cellCorr := cc, cellUnc := cu, hostLines := hl, out := out, ms := { d.ms with draw := draw } }

theorem Dev.ReadFrom.rfl (d : Dev) : d.ReadFrom d := ⟨_, _, _, _, _, _, _, Eq.refl d⟩

theorem Dev.ReadFrom.trans {d e f : Dev} (h : d.ReadFrom e) (k : e.ReadFrom f) : d.ReadFrom f := by
  obtain ⟨_, _, _, _, _, _, _, rfl⟩ := h
  obtain ⟨_, _, _, _, _, _, _, rfl⟩ := k
  exact ⟨_, _, _, _, _, _, _, Eq.refl _⟩

/-- A device that reads have led to holds the same groups, cores, launches, queues, contexts and partitions. -/
theorem Dev.ReadFrom.frame {d e : Dev} (h : d.ReadFrom e) :
    e.groups = d.groups ∧ e.cores = d.cores ∧ e.launches = d.launches ∧ e.queues = d.queues ∧ e.ctxs = d.ctxs ∧ e.parts = d.parts ∧
      e.ms = { d.ms with draw := e.ms.draw } := by
  obtain ⟨_, _, _, _, _, _, _, rfl⟩ := h
  exact ⟨Eq.refl _, Eq.refl _, Eq.refl _, Eq.refl _, Eq.refl _, Eq.refl _, Eq.refl _⟩

/-- So do the steps of a fold that are reads. -/
theorem Dev.ReadFrom.foldl {α : Type} {f : Dev → α → Dev} (hf : ∀ (e : Dev) (a : α), Dev.ReadFrom e (f e a)) (as : List α) (d : Dev) : d.ReadFrom (as.foldl f d) :=
  foldl_keeps (fun e => d.ReadFrom e) f (fun e a h => h.trans (hf e a)) as d (.rfl d)

theorem Dev.ReadFrom.backInval (d : Dev) (pa n : Nat) : d.ReadFrom (d.backInval pa n) := by
  unfold Dev.backInval
  dsimp only
  split
  · exact ⟨_, _, _, _, _, _, _, Eq.refl _⟩
  · exact .rfl d

theorem Dev.ReadFrom.countCell (d : Dev) (u : UpsetUnit) (b : Bool) : d.ReadFrom (d.countCell u b) := by
  unfold Dev.countCell
  split
  · exact .rfl d
  · split <;> exact ⟨_, _, _, _, _, _, _, Eq.refl _⟩

theorem Dev.ReadFrom.repairAll (d : Dev) (found : UpsetTarget → Bool) : d.ReadFrom (d.repairAll found) := by
  unfold Dev.repairAll
  refine .trans (e := { d with upsets := d.upsets.filter fun t => !found t }) ⟨_, _, _, _, _, _, _, Eq.refl _⟩ (.foldl (fun e t => ?_) _ _)
  exact .trans (e := { e with hcorr := satInc64 e.hcorr }) ⟨_, _, _, _, _, _, _, Eq.refl _⟩ (.countCell _ _ _)

theorem Dev.ReadFrom.asked (d : Dev) (x : Xlat) (n : Nat) : d.ReadFrom (d.asked x n) := by
  have h := (Dev.ReadFrom.backInval d x.pa n).trans (Dev.ReadFrom.repairAll _ fun t => x.finds n t.unit)
  unfold Dev.asked
  dsimp only
  split
  · split
    · exact h.trans ⟨_, _, _, _, _, _, _, Eq.refl _⟩
    · exact h
  · exact h

theorem Dev.ReadFrom.askedPhys (d : Dev) (pa n : Nat) : d.ReadFrom (d.askedPhys pa n) :=
  (Dev.ReadFrom.backInval d pa n).trans (.repairAll _ _)

theorem Dev.ReadFrom.takeBackWalk (d : Dev) (l : Latched) (va : Nat) (slot : Bool) : d.ReadFrom (d.takeBackWalk l va slot) := by
  have h := Dev.ReadFrom.foldl (f := fun (e : Dev) pa => e.askedPhys pa 8) (fun e pa => Dev.ReadFrom.askedPhys e pa 8) (d.walkReads l.ptroot va walkShape) d
  unfold Dev.takeBackWalk
  dsimp only
  split
  · exact h
  · exact h.trans (.askedPhys _ _ _)

theorem Dev.ReadFrom.askedLines (d : Dev) (g : Group) (lines : List Nat) : d.ReadFrom (d.askedLines g lines) := by
  unfold Dev.askedLines
  refine .foldl (fun e line => ?_) _ d
  split
  · exact .rfl e
  · split
    · exact .rfl e
    · exact .asked _ _ _

theorem Dev.ReadFrom.askedPages (d : Dev) (l : Latched) (va n : Nat) : d.ReadFrom (d.askedPages l va n) :=
  Dev.ReadFrom.foldl (fun e _ => .takeBackWalk e l _ false) _ d

theorem Dev.ReadFrom.askedHeader (d : Dev) (p : Nat) (l : Latched) : d.ReadFrom (d.askedHeader p l) := by
  unfold Dev.askedHeader
  split
  · exact .rfl d
  · exact .asked _ _ _

theorem Dev.ReadFrom.askedAgain (d : Dev) (p c va : Nat) (x : Option Xlat) : d.ReadFrom (d.askedAgain p c va x) := by
  unfold Dev.askedAgain
  split
  · split
    · exact .takeBackWalk _ _ _ _
    · exact .rfl d
  · exact .rfl d

theorem Dev.ReadFrom.askedRecord (d : Dev) (p : Nat) (lt : Latched) (r : Nat) : d.ReadFrom (d.askedRecord p lt r) := by
  have h := Dev.ReadFrom.foldl (f := fun (e : Dev) va => e.takeBackWalk lt va false) (fun e va => Dev.ReadFrom.takeBackWalk e lt va false) (recordVas r) d
  unfold Dev.askedRecord
  dsimp only
  split
  · exact h.trans (.asked _ _ _)
  · exact h

theorem Dev.ReadFrom.askedPred (d : Dev) (p c : Nat) (h : Held) : d.ReadFrom (d.askedPred p c h) := by
  unfold Dev.askedPred
  split
  · dsimp only
    split
    · exact .rfl d
    · split
      · exact .askedAgain _ _ _ _ _
      · exact (Dev.ReadFrom.askedAgain _ _ _ _ _).trans (.asked _ _ _)
  · exact .rfl d

theorem Dev.ReadFrom.askedAll (d : Dev) (g : Group) (ps : List (EPlace × Nat)) : d.ReadFrom (d.askedAll g ps) := by
  unfold Dev.askedAll
  refine .foldl (fun e p => ?_) ps d
  split
  · exact .asked _ _ _
  · exact .askedLines _ _ _
  · split
    · exact .askedLines _ _ _
    · exact .rfl e
  · exact .rfl e

theorem Dev.ReadFrom.foundBy (d : Dev) (g : Group) (ps : List (EPlace × Nat)) : d.ReadFrom (d.foundBy g ps) :=
  (Dev.ReadFrom.askedAll d g ps).trans (.repairAll _ _)

end Sys2Proof.Machine
end

