-- ==== Sys2Proof/Laws/Vector.lean ====
section
/-!
SUPPORT. Lanes and byte masks of vector registers: a byte under a mask, a lane of a list of lanes.
-/

namespace Sys2Proof.Machine

theorem testBit_nbits (n lo w i : Nat) : (nbits n lo w).testBit i = (decide (i < w) && n.testBit (lo + i)) := by
  simp only [nbits, Nat.testBit_mod_two_pow, Nat.testBit_div_two_pow]
  rw [Nat.add_comm]

theorem testBit_spread (m n i : Nat) : (spread m n).testBit i = (decide (i / 8 < n) && m.testBit (i / 8)) := by
  induction n generalizing m i with
  | zero => simp [spread]
  | succ n ih =>
    simp only [spread]
    by_cases hi : i < 8
    · have h8 : i / 8 = 0 := by omega
      have : ((if m % 2 = 1 then 255 else 0) + 256 * spread (m / 2) n) % 2 ^ 8 = if m % 2 = 1 then 255 else 0 := by
        split <;> omega
      have h1 := Nat.testBit_mod_two_pow ((if m % 2 = 1 then 255 else 0) + 256 * spread (m / 2) n) 8 i
      rw [this] at h1
      simp only [hi, decide_true, Bool.true_and] at h1
      rw [← h1, h8]
      simp only [Nat.testBit_zero, Nat.zero_lt_succ, decide_true, Bool.true_and]
      split
      · rename_i h
        rw [show (255 : Nat) = 2 ^ 8 - 1 from rfl, Nat.testBit_two_pow_sub_one]
        simp [hi, h]
      · rename_i h
        simp [h]
    · have h1 := Nat.testBit_div_two_pow (n := 8) ((if m % 2 = 1 then 255 else 0) + 256 * spread (m / 2) n) (i - 8)
      rw [show i - 8 + 8 = i by omega] at h1
      have : ((if m % 2 = 1 then 255 else 0) + 256 * spread (m / 2) n) / 2 ^ 8 = spread (m / 2) n := by
        split <;> omega
      rw [this] at h1
      rw [← h1, ih]
      have e : i / 8 = (i - 8) / 8 + 1 := by omega
      rw [e, Nat.testBit_succ]
      simp

theorem spread_lt (m n : Nat) : spread m n < 2 ^ (8 * n) := by
  apply Nat.lt_pow_two_of_testBit
  intro i hi
  rw [testBit_spread]
  simp
  omega

/-- A byte of a masked write is the result's where its mask bit is set, otherwise the old one (R154). -/
theorem underMask_byte (old res mask : Nat) {j : Nat} (hj : j < 128) :
    nbits (underMask old res mask) (8 * j) 8 = if nbit mask j then nbits res (8 * j) 8 else nbits old (8 * j) 8 := by
  have hlt := spread_lt mask 128
  apply Nat.eq_of_testBit_eq
  intro i
  have hb : nbit mask j = mask.testBit j := by simp [nbit, Nat.testBit_eq_decide_div_mod_eq]
  rw [testBit_nbits, hb]
  by_cases hi : i < 8
  · have e : (8 * j + i) / 8 = j := by omega
    have h2 : (2 ^ 1024 - 1 - spread mask 128).testBit (8 * j + i) = !(spread mask 128).testBit (8 * j + i) := by
      rw [show 2 ^ 1024 - 1 - spread mask 128 = 2 ^ 1024 - (spread mask 128 + 1) by omega, Nat.testBit_two_pow_sub_succ hlt]
      simp; omega
    simp only [underMask, Nat.testBit_or, Nat.testBit_and, h2, testBit_spread, e, hj, hi, decide_true, Bool.true_and]
    cases mask.testBit j <;> simp [testBit_nbits, hi]
  · cases mask.testBit j <;> simp [testBit_nbits, hi]

/-- Lane i of a register made from its lanes (R151). -/
theorem lane_ofLanes (w : Nat) {xs : List Nat} {i : Nat} (hi : i < xs.length) : lane w (ofLanes w xs) i = xs[i] % 2 ^ w := by
  induction xs generalizing i with
  | nil => simp at hi
  | cons x xs ih =>
    have hpos : 0 < 2 ^ w := Nat.two_pow_pos w
    cases i with
    | zero =>
      simp only [lane, nbits, ofLanes, Nat.mul_zero, Nat.pow_zero, Nat.div_one, List.getElem_cons_zero]
      rw [Nat.add_mul_mod_self_left, Nat.mod_mod]
    | succ i =>
      have h := ih (i := i) (by simpa using hi)
      simp only [lane, nbits] at h
      simp only [lane, nbits, ofLanes, List.getElem_cons_succ]
      rw [Nat.mul_succ, Nat.add_comm (w * i) w, Nat.pow_add, ← Nat.div_div_eq_div_mul, Nat.add_mul_div_left _ _ hpos,
        Nat.div_eq_of_lt (Nat.mod_lt _ hpos), Nat.zero_add, h]

theorem ofLanes_lt (w : Nat) (xs : List Nat) : ofLanes w xs < 2 ^ (w * xs.length) := by
  induction xs with
  | nil => simp [ofLanes]
  | cons x xs ih =>
    simp only [ofLanes, List.length_cons, Nat.mul_succ, Nat.pow_add]
    have := Nat.mod_lt x (Nat.two_pow_pos w)
    calc x % 2 ^ w + 2 ^ w * ofLanes w xs < 2 ^ w + 2 ^ w * ofLanes w xs := by omega
      _ = 2 ^ w * (ofLanes w xs + 1) := by rw [Nat.mul_add, Nat.mul_one, Nat.add_comm]
      _ ≤ 2 ^ w * 2 ^ (w * xs.length) := Nat.mul_le_mul_left _ ih
      _ = 2 ^ (w * xs.length) * 2 ^ w := Nat.mul_comm _ _

/-- A masked vector write (R154): readable mask, writable register. -/
theorem writeV_run {e : Env} {g : Group} {d : BitVec 6} {wm : BitVec 3} {res lat computed : Nat}
    (hm : g.readable e (.w wm.toNat)) (hd : g.writable e (.v d.toNat)) :
    writeV d wm res lat computed e g = .ok ((), g.wrote e.aclk (.v d.toNat)
      (underMask (g.arch.vr d.toNat).toNat res ((g.arch.wr wm.toNat).toNat &&& computed)) lat
      fun k => nbits ((g.arch.wr wm.toNat).toNat &&& computed) (4 * k) 4 == 15) := by
  simp only [writeV, gm_bind, readW_of_readable hm, gm_arch]
  exact writeReg_of_writable hd _ _ _

end Sys2Proof.Machine
end

