-- ==== Sys2Proof/Tests/Slice0.lean ====
section
/-!
SUPPORT. Tests: words written out from the encoding tables decode to their instructions; ill-formed terms are refused;
single steps from small states give what the spec's rules and examples say; and, for every statement of
Certificates/Slice0/Obligations.lean that has hypotheses, a named witness shows a state and operands that meet them.
-/

open Sys2Proof Sys2Proof.Machine

namespace Sys2Proof.Tests

set_option maxRecDepth 8000

/-! ## Small states -/

def q0 : Guard := ⟨false, 0⟩
def nq3 : Guard := ⟨true, 3⟩

/-- The group that `State.place` puts on core 0, and its launch. -/
def base : Group := (State.reset.dev.placeGroup 0).2
def lfree : Launch := freshLaunch.addMember 0
def ldet : Launch := { lfree with mode := .det, logq := 1, quota := 1 }

/-- The machine in which g runs on core 0 for the launch l. -/
def world (g : Group) (l : Launch) : State :=
  { State.reset with dev := { ((State.reset.dev.placeGroup 0).1.setLaunch base.recd.launch l).setGroup g with cur := 0 } }

def withX (g : Group) (rs : List (Nat × Nat)) : Group :=
  { g with arch := rs.foldl (fun a r => a.setReg (.x r.1) r.2) g.arch }
def withV (g : Group) (rs : List (Nat × Nat)) : Group :=
  { g with arch := rs.foldl (fun a r => a.setReg (.v r.1) r.2) g.arch }
def withLs (g : Group) (a v n : Nat) : Group := { g with arch := { g.arch with ls := g.arch.ls.writeN a v n } }

/-- Core 0 holds the translation of the first 2^20 bytes of its address space: Normal memory, every access allowed. -/
def mapped (s : State) : State :=
  let c := s.dev.core 0
  { s with dev := s.dev.setCore 0 { c with tlb := [⟨0, 0, 20, 0x3F, 0, false⟩] } }

def after (o : Host.Outcome State Fault Refusal) : Option State :=
  match o with
  | .next t => some t
  | _ => none
def gAfter (o : Host.Outcome State Fault Refusal) : Option Group := (after o).bind fun t => t.dev.groups.find base.gid
def xAfter (o : Host.Outcome State Fault Refusal) (n : Nat) : Option Nat := (gAfter o).map fun g => g.arch.reg (.x n)
def vAfter (o : Host.Outcome State Fault Refusal) (n : Nat) : Option Nat := (gAfter o).map fun g => g.arch.reg (.v n)
def pcAfter (o : Host.Outcome State Fault Refusal) : Option Nat := (gAfter o).map fun g => g.arch.pc.toNat
def causeAfter (o : Host.Outcome State Fault Refusal) : Option (Nat × Nat) :=
  (gAfter o).map fun g => (g.arch.k.cause.toNat, g.arch.k.val.toNat)

/-! ## Decoding: every instruction of the opcode map by a word packed by hand from the tables of R102, R110 to R117 -/

def decodedAs (x : Nat × Nat × Instr) : Bool :=
  match decode x.1 x.2.1 with
  | .ok i => i == x.2.2
  | .error _ => false
/-- Head, tail and the instruction they stand for. -/
def reads (l : List (Nat × Nat × Instr)) : Bool := l.all decodedAs

theorem test_decode_scalar : reads
    [(0x002B, 0x3081, .add nq3 ⟨1, 2, 3, 0, 0⟩), (0x00A0, 0x3081, .sub q0 ⟨1, 2, 3, 0, 0⟩),
    (0x0140, 0xFFFFFFFF00000081, .addi q0 ⟨1, 2, 0, 0xffffffff⟩), (0x01A0, 0x3081, .mul q0 ⟨1, 2, 3, 0, 0⟩),
    (0x0220, 0x3081, .mulh q0 ⟨1, 2, 3, 0, 0⟩), (0x02AB, 0x3081, .mulhn nq3 ⟨1, 2, 3, 0, 0⟩),
    (0x0320, 0x1F007185, .div q0 ⟨5, 6, 7, 0, 31⟩), (0x03A0, 0x1F007185, .divn q0 ⟨5, 6, 7, 0, 31⟩),
    (0x0420, 0x1F007185, .rem q0 ⟨5, 6, 7, 0, 31⟩), (0x04A0, 0x1F007185, .remn q0 ⟨5, 6, 7, 0, 31⟩),
    (0x052B, 0x3081, .and nq3 ⟨1, 2, 3, 0, 0⟩), (0x05A0, 0x3081, .or q0 ⟨1, 2, 3, 0, 0⟩), (0x0620, 0x3081, .xor q0 ⟨1, 2, 3, 0, 0⟩),
    (0x06A0, 0x3081, .andn q0 ⟨1, 2, 3, 0, 0⟩), (0x0720, 0x3081, .orn q0 ⟨1, 2, 3, 0, 0⟩), (0x07AB, 0x3081, .shl nq3 ⟨1, 2, 3, 0, 0⟩),
    (0x0820, 0x3081, .shr q0 ⟨1, 2, 3, 0, 0⟩), (0x08A0, 0x3081, .sha q0 ⟨1, 2, 3, 0, 0⟩), (0x0920, 0x3081, .rol q0 ⟨1, 2, 3, 0, 0⟩),
    (0x09C0, 0x3F00000081, .shli q0 ⟨1, 2, 0, 63⟩), (0x0A4B, 0x3F00000081, .shri nq3 ⟨1, 2, 0, 63⟩),
    (0x0AC0, 0x3F00000081, .shai q0 ⟨1, 2, 0, 63⟩), (0x0B40, 0x3F00000081, .roli q0 ⟨1, 2, 0, 63⟩), (0x0B90, 0x289, .clz q0 ⟨9, 10, 0⟩),
    (0x0C10, 0x289, .ctz q0 ⟨9, 10, 0⟩), (0x0C9B, 0x289, .popc nq3 ⟨9, 10, 0⟩), (0x0D40, 0x13C00000081, .bfx q0 ⟨1, 2, 0, 0x13c⟩),
    (0x0DC0, 0x13C00000081, .bfi q0 ⟨1, 2, 0, 0x13c⟩), (0x0E20, 0xFFEF7C, .fsh q0 ⟨60, 61, 62, 63, 0⟩),
    (0x0EA0, 0x3081, .min q0 ⟨1, 2, 3, 0, 0⟩), (0x0F2B, 0x3081, .max nq3 ⟨1, 2, 3, 0, 0⟩), (0x0FA0, 0x3081, .minn q0 ⟨1, 2, 3, 0, 0⟩),
    (0x1020, 0x3081, .maxn q0 ⟨1, 2, 3, 0, 0⟩), (0x1090, 0x2081, .sext q0 ⟨1, 2, 2⟩), (0x1120, 0x3081, .slt q0 ⟨1, 2, 3, 0, 0⟩),
    (0x11AB, 0x3081, .sltn nq3 ⟨1, 2, 3, 0, 0⟩), (0x1220, 0x3081, .seq q0 ⟨1, 2, 3, 0, 0⟩), (0x12A0, 0x3081, .sne q0 ⟨1, 2, 3, 0, 0⟩),
    (0x1320, 0xFFEF7C, .csel q0 ⟨60, 61, 62, 63, 0⟩), (0x13D0, 0x123456789ABCDEF00000007, .li q0 ⟨7, 0, 0x123456789abcdef⟩),
    (0x144B, 0x8000000000803081, .lea nq3 ⟨1, 2, 3, 0, 4, 0, 0, 0, 0, 0, 0x800000⟩),
    (0x1490, 0x1101, .mov q0 ⟨1, 4, 1⟩)] = true := by decide
theorem test_decode_control : reads
    [(0x2040, 0xFFFFFFFF00742040, .beq q0 ⟨0, 1, 2, 29, 0, 0xffffffff⟩),
    (0x20C0, 0xFFFFFFFF00742040, .bne q0 ⟨0, 1, 2, 29, 0, 0xffffffff⟩),
    (0x2140, 0xFFFFFFFF00742040, .blt q0 ⟨0, 1, 2, 29, 0, 0xffffffff⟩),
    (0x21CB, 0xFFFFFFFF00742040, .bge nq3 ⟨0, 1, 2, 29, 0, 0xffffffff⟩),
    (0x2240, 0xFFFFFFFF00742040, .bltn q0 ⟨0, 1, 2, 29, 0, 0xffffffff⟩),
    (0x22C0, 0xFFFFFFFF00742040, .bgen q0 ⟨0, 1, 2, 29, 0, 0xffffffff⟩), (0x2340, 0x200040040, .bz q0 ⟨0, 1, 0, 1, 0, 2⟩),
    (0x23C0, 0x200040040, .bnz q0 ⟨0, 1, 0, 1, 0, 2⟩), (0x244B, 0x1000C0000, .j nq3 ⟨0, 0, 0, 3, 0, 1⟩),
    (0x24C0, 0x1000C003F, .jl q0 ⟨63, 0, 0, 3, 0, 1⟩), (0x2510, 0xFC0, .jr q0 ⟨0, 63, 0⟩),
    (0x25C0, 0x100100081, .loop q0 ⟨1, 2, 0, 4, 0, 1⟩), (0x2610, 0x7F, .dly q0 ⟨63, 1, 0⟩), (0x268B, 0x0, .nop nq3),
    (0x2700, 0x0, .done q0), (0x27A0, 0x7002047, .qset q0 ⟨7, 1, 2, 0, 7⟩), (0x2820, 0xF002047, .qop q0 ⟨7, 1, 2, 0, 15⟩),
    (0x2890, 0x7FF, .wait q0 ⟨63, 31, 0⟩), (0x294B, 0x1FFF00000000, .fset nq3 ⟨0, 0, 0, 0x1fff⟩),
    (0x29C0, 0x1FFF00000000, .fclr q0 ⟨0, 0, 0, 0x1fff⟩), (0x2A40, 0x100100000005, .ftst q0 ⟨5, 0, 0, 0x1001⟩),
    (0x2AC0, 0x100100000005, .fwait q0 ⟨5, 0, 0, 0x1001⟩), (0x2B00, 0x0, .abort q0),
    (0x2B9B, 0x3, .abchk nq3 ⟨3, 0, 0⟩)] = true := by decide
theorem test_decode_memory : reads
    [(0x3040, 0x7FFFFF0000905102, .ldl q0 ⟨2, 4, 5, 4, 4, 0, 0, 0, 0, 0, 0x7fffff⟩),
    (0x30C0, 0x803F96C5102, .ldg q0 ⟨2, 4, 5, 3, 3, 1, 6, 31, 0, 0, 8⟩),
    (0x3140, 0x7FFFFF0000905102, .stl q0 ⟨2, 4, 5, 4, 4, 0, 0, 0, 0, 0, 0x7fffff⟩),
    (0x31C0, 0x8001A6C5102, .stg q0 ⟨2, 4, 5, 3, 3, 2, 6, 0, 0, 0, 8⟩), (0x322B, 0x6000000, .fence nq3 ⟨0, 0, 0, 0, 6⟩),
    (0x32A0, 0x6000000, .acq q0 ⟨0, 0, 0, 0, 6⟩), (0x3320, 0x6000000, .rel q0 ⟨0, 0, 0, 0, 6⟩)] = true := by decide
theorem test_decode_vector : reads
    [(0x4030, 0x7EA003081, .vadd q0 ⟨1, 2, 3, 0, 10, 3, 1, 7, 0, 0⟩), (0x40B0, 0x7EA003081, .vsub q0 ⟨1, 2, 3, 0, 10, 3, 1, 7, 0, 0⟩),
    (0x413B, 0x7EA003081, .vmul nq3 ⟨1, 2, 3, 0, 10, 3, 1, 7, 0, 0⟩), (0x41B0, 0x707003081, .vmulh q0 ⟨1, 2, 3, 0, 7, 0, 0, 7, 0, 0⟩),
    (0x4230, 0x1CB7C3081, .vfma q0 ⟨1, 2, 3, 31, 11, 2, 1, 1, 0, 0⟩), (0x42B0, 0x1CB7C3081, .vfms q0 ⟨1, 2, 3, 31, 11, 2, 1, 1, 0, 0⟩),
    (0x4330, 0x1CB7C3081, .vfnma q0 ⟨1, 2, 3, 31, 11, 2, 1, 1, 0, 0⟩),
    (0x43BB, 0x1F01A8003081, .vdiv nq3 ⟨1, 2, 3, 0, 8, 1, 1, 1, 0, 31⟩),
    (0x4430, 0x1F01A9000081, .vsqrt q0 ⟨1, 2, 0, 0, 9, 1, 1, 1, 0, 31⟩), (0x44B0, 0x10B003081, .vmin q0 ⟨1, 2, 3, 0, 11, 0, 0, 1, 0, 0⟩),
    (0x4530, 0x10B003081, .vmax q0 ⟨1, 2, 3, 0, 11, 0, 0, 1, 0, 0⟩), (0x45B0, 0x183000081, .vabs q0 ⟨1, 2, 0, 0, 3, 0, 1, 1, 0, 0⟩),
    (0x463B, 0x183000081, .vneg nq3 ⟨1, 2, 0, 0, 3, 0, 1, 1, 0, 0⟩), (0x46B0, 0x100003081, .vand q0 ⟨1, 2, 3, 0, 0, 0, 0, 1, 0, 0⟩),
    (0x4730, 0x100003081, .vor q0 ⟨1, 2, 3, 0, 0, 0, 0, 1, 0, 0⟩), (0x47B0, 0x100003081, .vxor q0 ⟨1, 2, 3, 0, 0, 0, 0, 1, 0, 0⟩),
    (0x4830, 0x100003081, .vandn q0 ⟨1, 2, 3, 0, 0, 0, 0, 1, 0, 0⟩),
    (0x48BB, 0x8F0101000081, .vshl nq3 ⟨1, 2, 0, 0, 1, 0, 0, 1, 0, 0x8f⟩),
    (0x4930, 0x8F0101000081, .vshr q0 ⟨1, 2, 0, 0, 1, 0, 0, 1, 0, 0x8f⟩),
    (0x49B0, 0x8F0101000081, .vsha q0 ⟨1, 2, 0, 0, 1, 0, 0, 1, 0, 0x8f⟩),
    (0x4A30, 0x9F0102003081, .vfsh q0 ⟨1, 2, 3, 0, 2, 0, 0, 1, 0, 0x9f⟩), (0x4AB0, 0x106000081, .vclz q0 ⟨1, 2, 0, 0, 6, 0, 0, 1, 0, 0⟩),
    (0x4B3B, 0x106000081, .vpopc nq3 ⟨1, 2, 0, 0, 6, 0, 0, 1, 0, 0⟩), (0x4BB0, 0x70103003087, .vcmp q0 ⟨7, 2, 3, 0, 3, 0, 0, 1, 0, 7⟩),
    (0x4C30, 0x1001C3081, .vsel q0 ⟨1, 2, 3, 7, 0, 0, 0, 1, 0, 0⟩),
    (0x4CB0, 0x371AA000081, .vcvt q0 ⟨1, 2, 0, 0, 10, 1, 1, 1, 14, 3⟩)] = true := by decide
theorem test_decode_vector_moves : reads
    [(0x4D30, 0xBF0103000081, .vred q0 ⟨1, 2, 0, 0, 3, 0, 0, 1, 0, 0xbf⟩),
    (0x4DBB, 0x1F010B000081, .vgmax nq3 ⟨1, 2, 0, 0, 11, 0, 0, 1, 0, 31⟩),
    (0x4E30, 0xBF0103000081, .vscan q0 ⟨1, 2, 0, 0, 3, 0, 0, 1, 0, 0xbf⟩),
    (0x4EB0, 0x800100003081, .vsld q0 ⟨1, 2, 3, 0, 0, 0, 0, 1, 0, 0x80⟩),
    (0x4F30, 0x101003081, .vperm q0 ⟨1, 2, 3, 0, 1, 0, 0, 1, 0, 0⟩), (0x4FB0, 0x111000F01, .vbcast q0 ⟨1, 60, 0, 0, 17, 0, 0, 1, 0, 0⟩),
    (0x503B, 0xFF000D0030BC, .vext nq3 ⟨60, 2, 3, 0, 13, 0, 0, 0, 0, 0xff⟩),
    (0x50B0, 0xFF010C003F01, .vins q0 ⟨1, 60, 3, 0, 12, 0, 0, 1, 0, 0xff⟩),
    (0x5130, 0xFF0107000F01, .vseq q0 ⟨1, 60, 0, 0, 7, 0, 0, 1, 0, 0xff⟩),
    (0x51B0, 0x1F010A000F01, .vrand q0 ⟨1, 60, 0, 0, 10, 0, 0, 1, 0, 31⟩),
    (0x5230, 0x1F00071C3081, .vsect q0 ⟨1, 2, 3, 7, 7, 0, 0, 0, 0, 31⟩),
    (0x52BB, 0xB1C0081, .vcompress nq3 ⟨1, 2, 0, 7, 11, 0, 0, 0, 0, 0⟩),
    (0x5330, 0xB1C0081, .vexpand q0 ⟨1, 2, 0, 7, 11, 0, 0, 0, 0, 0⟩)] = true := by decide
theorem test_decode_vector_memory : reads
    [(0x8040, 0x801C0080511F, .vldl q0 ⟨31, 4, 5, 0, 4, 0, 0, 0, 7, 0, 0x80⟩),
    (0x80C0, 0x801FE580511F, .vldg q0 ⟨31, 4, 5, 0, 4, 1, 1, 31, 7, 0, 0x80⟩),
    (0x8140, 0x801C0080511F, .vstl q0 ⟨31, 4, 5, 0, 4, 0, 0, 0, 7, 0, 0x80⟩),
    (0x81CB, 0x801C0680511F, .vstg nq3 ⟨31, 4, 5, 0, 4, 2, 1, 0, 7, 0, 0x80⟩),
    (0x8240, 0x801C0080511F, .vldu q0 ⟨31, 4, 5, 0, 4, 0, 0, 0, 7, 0, 0x80⟩),
    (0x82C0, 0x801C0080511F, .vstu q0 ⟨31, 4, 5, 0, 4, 0, 0, 0, 7, 0, 0x80⟩),
    (0x8330, 0x1F010B003F01, .vgat q0 ⟨1, 60, 3, 0, 11, 0, 0, 1, 0, 31⟩),
    (0x83B0, 0x2001AB103F00, .vsca q0 ⟨0, 60, 3, 4, 11, 1, 1, 1, 0, 32⟩)] = true := by decide
theorem test_decode_masks : reads
    [(0x902B, 0x2047, .wand nq3 ⟨7, 1, 2, 0, 0⟩), (0x90A0, 0x2047, .wor q0 ⟨7, 1, 2, 0, 0⟩), (0x9120, 0x2047, .wxor q0 ⟨7, 1, 2, 0, 0⟩),
    (0x9190, 0x47, .wnot q0 ⟨7, 1, 0⟩), (0x9210, 0x1FC, .wpopc q0 ⟨60, 7, 0⟩), (0x929B, 0x1FC, .wfirst nq3 ⟨60, 7, 0⟩),
    (0x9340, 0x1007F000000C7, .wset q0 ⟨7, 3, 0, 0x1007f⟩)] = true := by decide
theorem test_decode_synchronising : reads
    [(0xA060, 0xFFFFFFF0000001FDCA1840C2, .amo q0 ⟨2, 3, 4, 6, 10, 4, 3, 6, 31, 0, 0xfffffff0, 0⟩),
    (0xA0A0, 0x5000005, .bar q0 ⟨5, 0, 0, 0, 5⟩), (0xA120, 0x5, .fret q0 ⟨5, 0, 0, 0, 0⟩),
    (0xA1CB, 0x4003E0803081, .spawn nq3 ⟨1, 2, 3, 0, 4, 0, 0, 31, 0, 0, 64⟩),
    (0xA240, 0x4003E0803081, .join q0 ⟨1, 2, 3, 0, 4, 0, 0, 31, 0, 0, 64⟩), (0xA280, 0x0, .gang q0),
    (0xA300, 0x0, .solo q0)] = true := by decide
theorem test_decode_engines : reads
    [(0xB070, 0x80000000020000000003FB230BF9100001, .cpy q0 ⟨1, 0, 0, 4, 9, 31, 0x1fd9185, 0, 2, 0x80, 0⟩),
    (0xB0AB, 0x3F00003C, .epop nq3 ⟨60, 0, 0, 0, 63⟩),
    (0xB170, 0x43801E00BF2000080, .gat q0 ⟨0, 2, 0, 0, 2, 31, 0x1c00f005, 4, 0, 0, 0⟩),
    (0xB1F0, 0x7000000000000000003D6200A10000000, .sca q0 ⟨0, 0, 0, 0, 0, 1, 0x1eb1005, 0, 0, 7, 0⟩),
    (0xB270, 0x400003FFE10000000, .chg q0 ⟨0, 0, 0, 0, 0, 1, 0x1fff, 4, 0, 0, 0⟩),
    (0xB2F0, 0x3F80000000000000000000000000000034001FFE10000000, .chs q0 ⟨0, 0, 0, 0, 0, 1, 0x1a000fff, 0, 0, 0, 0x3f800000⟩),
    (0xB31B, 0xF005, .evw nq3 ⟨5, 0, 15⟩),
    (0xB3E0, 0xFFFF000000001FF9800000000000, .xbar q0 ⟨0, 0, 0, 0, 0, 0, 0, 0, 0, 0xffcc0, 0, 0xffff⟩),
    (0xB470, 0x400000001000000000E04003000, .rset q0 ⟨0, 0, 3, 0, 4, 0, 7, 0x100, 0x400, 0, 0⟩),
    (0xB4A0, 0x1F0061C5, .rpush q0 ⟨5, 7, 6, 0, 31⟩), (0xB520, 0x1F0061C5, .rpop q0 ⟨5, 7, 6, 0, 31⟩)] = true := by decide
theorem test_decode_matrix : reads
    [(0xC07B, 0x3FFF3FFF103081, .mma nq3 ⟨1, 2, 3, 4, 15, 31, 0x1fff9f, 0, 0, 0, 0⟩),
    (0xC0F0, 0x3FFF3FFF103081, .mmas q0 ⟨1, 2, 3, 4, 15, 31, 0x1fff9f, 0, 0, 0, 0⟩), (0xC120, 0x1F0002D4, .mzero q0 ⟨20, 11, 0, 0, 31⟩),
    (0xC1F0, 0x10FFFFFFFF0000000, .mdrain q0 ⟨0, 0, 0, 0, 0, 31, 0x7ffffff, 1, 0, 0, 0⟩),
    (0xC270, 0x1097C0FFFF0000000, .mload q0 ⟨0, 0, 0, 0, 0, 31, 0x4be07ff, 1, 0, 0, 0⟩),
    (0xC2FB, 0x10000FFBFF0000000, .mred nq3 ⟨0, 0, 0, 0, 0, 31, 0x7fdf, 1, 0, 0, 0⟩),
    (0xC340, 0x4003E0805100, .mq q0 ⟨0, 4, 5, 0, 4, 0, 0, 31, 0, 0, 64⟩),
    (0xC3A0, 0x5F000005, .mstat q0 ⟨5, 0, 0, 0, 95⟩)] = true := by decide
theorem test_decode_control_registers : reads
    [(0xE040, 0x2F00000005, .cget q0 ⟨5, 0, 0, 47⟩), (0xE0C0, 0x1800000140, .cset q0 ⟨0, 5, 0, 24⟩),
    (0xE14B, 0xFFFFFFFF00000000, .trap nq3 ⟨0, 0, 0, 0xffffffff⟩), (0xE1C0, 0x700000284, .svc q0 ⟨4, 10, 0, 7⟩), (0xE200, 0x0, .kret q0),
    (0xE2A0, 0x5F000240, .tlbinv q0 ⟨0, 9, 0, 0, 95⟩), (0xE300, 0x0, .halt q0)] = true := by decide
theorem test_wf_accepts : ([(.add q0 ⟨1, 2, 3, 0, 0⟩), (.remn q0 ⟨5, 6, 7, 0, 31⟩), (.rol q0 ⟨1, 2, 3, 0, 0⟩),
    (.bfi q0 ⟨1, 2, 0, 0x13c⟩), (.seq q0 ⟨1, 2, 3, 0, 0⟩), (.bge q0 ⟨0, 1, 2, 29, 0, 0xffffffff⟩), (.dly q0 ⟨63, 1, 0⟩),
    (.fwait q0 ⟨5, 0, 0, 0x1001⟩), (.rel q0 ⟨0, 0, 0, 0, 6⟩), (.vsqrt q0 ⟨1, 2, 0, 0, 9, 1, 1, 1, 0, 31⟩),
    (.vshl q0 ⟨1, 2, 0, 0, 1, 0, 0, 1, 0, 0x8f⟩), (.vred q0 ⟨1, 2, 0, 0, 3, 0, 0, 1, 0, 0xbf⟩),
    (.vrand q0 ⟨1, 60, 0, 0, 10, 0, 0, 1, 0, 31⟩), (.vstu q0 ⟨31, 4, 5, 0, 4, 0, 0, 0, 7, 0, 0x80⟩), (.wset q0 ⟨7, 3, 0, 0x1007f⟩),
    (.epop q0 ⟨60, 0, 0, 0, 63⟩), (.rpop q0 ⟨5, 7, 6, 0, 31⟩), (.cget q0 ⟨5, 0, 0, 47⟩)] : List Instr).all Instr.wf = true := by decide
theorem test_wf_refuses_guard : (Instr.nop ⟨true, 0⟩).wf = false := by decide
theorem test_wf_refuses_scalar : ([(.add q0 ⟨1, 2, 3, 1, 0⟩), (.add q0 ⟨1, 2, 3, 0, 1⟩), (.div q0 ⟨5, 6, 7, 0, 32⟩),
    (.addi q0 ⟨1, 2, 1, 0xffffffff⟩), (.shli q0 ⟨1, 2, 0, 64⟩), (.clz q0 ⟨9, 10, 1⟩), (.bfx q0 ⟨1, 2, 0, 0x13d⟩), (.bfi q0 ⟨1, 2, 0, 5⟩),
    (.bfi q0 ⟨1, 2, 0, 0x213c⟩), (.sext q0 ⟨1, 2, 3⟩), (.sext q0 ⟨1, 2, 4⟩), (.li q0 ⟨7, 1, 0x123456789abcdef⟩),
    (.lea q0 ⟨1, 2, 3, 0, 5, 0, 0, 0, 0, 0, 0x800000⟩), (.lea q0 ⟨1, 2, 3, 1, 4, 0, 0, 0, 0, 0, 0x800000⟩),
    (.lea q0 ⟨1, 2, 3, 0, 4, 1, 0, 0, 0, 0, 0x800000⟩), (.lea q0 ⟨1, 2, 3, 0, 4, 0, 1, 0, 0, 0, 0x800000⟩),
    (.lea q0 ⟨1, 2, 3, 0, 4, 0, 0, 1, 0, 0, 0x800000⟩), (.lea q0 ⟨1, 2, 3, 0, 4, 0, 0, 0, 1, 0, 0x800000⟩),
    (.lea q0 ⟨1, 2, 3, 0, 4, 0, 0, 0, 0, 1, 0x800000⟩), (.mov q0 ⟨2, 2, 4⟩), (.mov q0 ⟨1, 4, 2⟩),
    (.mov q0 ⟨1, 4, 8⟩)] : List Instr).any Instr.wf = false := by decide
theorem test_wf_refuses_control : ([(.beq q0 ⟨1, 1, 2, 29, 0, 0xffffffff⟩), (.beq q0 ⟨0, 1, 2, 30, 0, 0xffffffff⟩),
    (.beq q0 ⟨0, 1, 2, 29, 1, 0xffffffff⟩), (.bz q0 ⟨0, 1, 1, 1, 0, 2⟩), (.j q0 ⟨0, 1, 0, 3, 0, 1⟩), (.loop q0 ⟨2, 2, 0, 4, 0, 1⟩),
    (.dly q0 ⟨63, 1, 1⟩), (.jr q0 ⟨0, 63, 1⟩), (.qset q0 ⟨0, 1, 2, 0, 7⟩), (.qset q0 ⟨7, 1, 2, 0, 8⟩), (.qop q0 ⟨7, 8, 2, 0, 15⟩),
    (.qop q0 ⟨7, 1, 2, 0, 16⟩), (.wait q0 ⟨63, 32, 0⟩), (.fset q0 ⟨1, 0, 0, 0x1fff⟩), (.fset q0 ⟨0, 0, 0, 0x400⟩),
    (.fset q0 ⟨0, 0, 0, 0x2000⟩), (.abchk q0 ⟨3, 1, 0⟩)] : List Instr).any Instr.wf = false := by decide
theorem test_wf_refuses_memory : ([(.ldl q0 ⟨3, 4, 5, 4, 4, 0, 0, 0, 0, 0, 0x7fffff⟩),
    (.ldl q0 ⟨0, 4, 5, 4, 4, 0, 0, 0, 0, 0, 0x7fffff⟩), (.ldl q0 ⟨2, 4, 5, 5, 4, 0, 0, 0, 0, 0, 0x7fffff⟩),
    (.ldl q0 ⟨2, 4, 5, 4, 4, 1, 0, 0, 0, 0, 0x7fffff⟩), (.ldg q0 ⟨2, 4, 5, 3, 3, 2, 6, 31, 0, 0, 8⟩),
    (.ldg q0 ⟨2, 4, 5, 3, 3, 0, 6, 31, 0, 0, 8⟩), (.ldg q0 ⟨2, 4, 5, 3, 3, 1, 7, 31, 0, 0, 8⟩),
    (.stg q0 ⟨2, 4, 5, 3, 3, 1, 6, 0, 0, 0, 8⟩), (.stg q0 ⟨2, 4, 5, 3, 3, 2, 6, 1, 0, 0, 8⟩), (.fence q0 ⟨0, 0, 0, 0, 7⟩),
    (.fence q0 ⟨0, 0, 0, 0, 8⟩), (.fence q0 ⟨1, 0, 0, 0, 6⟩), (.vldl q0 ⟨32, 4, 5, 0, 4, 0, 0, 0, 7, 0, 0x80⟩),
    (.vldl q0 ⟨31, 4, 5, 0, 4, 0, 0, 1, 7, 0, 0x80⟩), (.vldg q0 ⟨31, 4, 5, 1, 4, 1, 1, 31, 7, 0, 0x80⟩),
    (.vgat q0 ⟨1, 60, 3, 0, 11, 0, 0, 1, 0, 32⟩), (.vsca q0 ⟨1, 60, 3, 4, 11, 1, 1, 1, 0, 32⟩),
    (.vsca q0 ⟨0, 60, 3, 4, 12, 1, 1, 1, 0, 32⟩), (.vsca q0 ⟨0, 60, 3, 4, 11, 1, 1, 1, 0, 33⟩),
    (.vsca q0 ⟨0, 60, 3, 4, 11, 1, 1, 1, 0, 64⟩)] : List Instr).any Instr.wf = false := by decide
theorem test_wf_refuses_vector : ([(.vadd q0 ⟨1, 32, 3, 0, 10, 3, 1, 7, 0, 0⟩), (.vadd q0 ⟨1, 2, 3, 0, 12, 3, 1, 7, 0, 0⟩),
    (.vadd q0 ⟨1, 2, 3, 0, 7, 1, 1, 7, 0, 0⟩), (.vadd q0 ⟨1, 2, 3, 0, 10, 3, 1, 7, 1, 0⟩), (.vadd q0 ⟨1, 2, 3, 0, 10, 3, 1, 7, 0, 1⟩),
    (.vadd q0 ⟨1, 2, 3, 1, 10, 3, 1, 7, 0, 0⟩), (.vmulh q0 ⟨1, 2, 3, 0, 8, 0, 0, 7, 0, 0⟩), (.vmulh q0 ⟨1, 2, 3, 0, 7, 0, 1, 7, 0, 0⟩),
    (.vdiv q0 ⟨1, 2, 3, 0, 8, 1, 1, 1, 0, 32⟩), (.vsqrt q0 ⟨1, 2, 0, 0, 7, 1, 1, 1, 0, 31⟩), (.vmin q0 ⟨1, 2, 3, 0, 11, 1, 0, 1, 0, 0⟩),
    (.vabs q0 ⟨1, 2, 0, 0, 8, 0, 1, 1, 0, 0⟩), (.vshl q0 ⟨1, 2, 0, 0, 1, 0, 0, 1, 0, 0x90⟩), (.vshl q0 ⟨1, 2, 0, 0, 1, 0, 0, 1, 0, 1⟩),
    (.vshl q0 ⟨1, 2, 0, 0, 1, 0, 0, 1, 0, 0xc0⟩), (.vcmp q0 ⟨0, 2, 3, 0, 3, 0, 0, 1, 0, 7⟩), (.vcmp q0 ⟨7, 2, 3, 0, 8, 0, 0, 1, 0, 6⟩),
    (.vcmp q0 ⟨7, 2, 3, 0, 3, 0, 0, 1, 0, 8⟩), (.vsel q0 ⟨1, 2, 3, 7, 1, 0, 0, 1, 0, 0⟩), (.vsel q0 ⟨1, 2, 3, 8, 0, 0, 0, 1, 0, 0⟩),
    (.vcvt q0 ⟨1, 2, 0, 0, 18, 1, 1, 1, 14, 3⟩), (.vcvt q0 ⟨1, 2, 0, 0, 17, 1, 1, 1, 14, 3⟩),
    (.vcvt q0 ⟨1, 2, 0, 0, 10, 1, 1, 1, 14, 4⟩), (.vcvt q0 ⟨1, 2, 0, 0, 10, 1, 1, 1, 14, 16⟩),
    (.vred q0 ⟨1, 2, 0, 0, 8, 0, 0, 1, 0, 96⟩), (.vred q0 ⟨1, 2, 0, 0, 3, 0, 0, 1, 0, 0xc0⟩),
    (.vsld q0 ⟨1, 2, 3, 0, 0, 0, 0, 1, 0, 0x81⟩), (.vbcast q0 ⟨1, 60, 0, 0, 14, 0, 0, 1, 0, 0⟩),
    (.vext q0 ⟨60, 2, 3, 0, 13, 0, 0, 1, 0, 0xff⟩), (.vseq q0 ⟨1, 60, 0, 0, 8, 0, 0, 1, 0, 0xff⟩),
    (.vrand q0 ⟨1, 60, 0, 0, 9, 0, 0, 1, 0, 31⟩), (.vsect q0 ⟨1, 2, 3, 0, 7, 0, 0, 0, 0, 31⟩),
    (.vcompress q0 ⟨1, 2, 0, 7, 11, 0, 0, 1, 0, 0⟩),
    (.vcompress q0 ⟨1, 2, 0, 8, 11, 0, 0, 0, 0, 0⟩)] : List Instr).any Instr.wf = false := by decide
theorem test_wf_refuses_masks_and_atomics : ([(.wand q0 ⟨8, 1, 2, 0, 0⟩), (.wnot q0 ⟨7, 1, 1⟩), (.wset q0 ⟨7, 3, 0, 0x80⟩),
    (.wset q0 ⟨7, 3, 0, 0x10100⟩), (.wset q0 ⟨7, 0, 0, 0x8100⟩), (.wset q0 ⟨7, 3, 0, 0x20000⟩),
    (.amo q0 ⟨3, 3, 4, 6, 10, 4, 3, 6, 31, 0, 0xfffffff0, 0⟩), (.amo q0 ⟨2, 3, 5, 6, 10, 4, 3, 6, 31, 0, 0xfffffff0, 0⟩),
    (.amo q0 ⟨2, 3, 0, 6, 10, 4, 3, 6, 31, 0, 0xfffffff0, 0⟩), (.amo q0 ⟨2, 3, 4, 6, 9, 4, 3, 6, 31, 0, 0xfffffff0, 0⟩),
    (.amo q0 ⟨2, 3, 4, 0, 11, 4, 3, 6, 31, 0, 0xfffffff0, 0⟩), (.amo q0 ⟨2, 3, 4, 0, 0, 4, 3, 6, 31, 0, 0xfffffff0, 0⟩),
    (.amo q0 ⟨2, 3, 4, 0, 9, 3, 3, 6, 31, 10, 0xfffffff0, 0⟩), (.amo q0 ⟨2, 3, 4, 6, 10, 4, 3, 7, 31, 0, 0xfffffff0, 0⟩),
    (.amo q0 ⟨2, 3, 4, 6, 10, 4, 0, 6, 31, 0, 0xfffffff0, 0⟩), (.amo q0 ⟨2, 3, 4, 6, 10, 4, 3, 6, 31, 1, 0xfffffff0, 0⟩),
    (.amo q0 ⟨2, 3, 4, 6, 10, 4, 3, 6, 31, 0x100, 0xfffffff0, 0⟩), (.amo q0 ⟨2, 3, 4, 6, 10, 4, 3, 6, 31, 0, 0xfffffff0, 1⟩),
    (.bar q0 ⟨5, 0, 0, 0, 6⟩), (.bar q0 ⟨5, 0, 0, 0, 8⟩), (.fret q0 ⟨5, 1, 0, 0, 0⟩),
    (.spawn q0 ⟨1, 2, 3, 0, 4, 1, 0, 31, 0, 0, 64⟩)] : List Instr).any Instr.wf = false := by decide
theorem test_wf_refuses_engines : ([(.cpy q0 ⟨1, 1, 0, 4, 9, 31, 0x1fd9185, 0, 2, 0x80, 0⟩),
    (.cpy q0 ⟨1, 0, 0, 4, 9, 31, 0x3000, 0, 2, 0x80, 0⟩), (.cpy q0 ⟨1, 0, 0, 4, 9, 31, 0xc000, 0, 2, 0x80, 0⟩),
    (.cpy q0 ⟨1, 0, 0, 4, 9, 31, 0x40000, 0, 2, 0x80, 0⟩), (.cpy q0 ⟨1, 0, 0, 4, 9, 31, 0x200000, 0, 2, 0x80, 0⟩),
    (.cpy q0 ⟨1, 0, 0, 4, 9, 31, 0x2000000, 0, 2, 0x80, 0⟩), (.cpy q0 ⟨0, 0, 0, 0, 1, 31, 0x30000, 0, 0, 0, 0⟩),
    (.epop q0 ⟨2, 0, 0, 0, 63⟩), (.epop q0 ⟨0, 0, 0, 0, 63⟩), (.epop q0 ⟨60, 0, 0, 0, 64⟩),
    (.gat q0 ⟨0, 2, 0, 0, 2, 31, 64, 4, 0, 0, 0⟩), (.gat q0 ⟨0, 2, 0, 0, 2, 31, 0x10000, 4, 0, 0, 0⟩),
    (.gat q0 ⟨0, 2, 0, 0, 2, 31, 0x1000000, 4, 0, 0, 0⟩), (.sca q0 ⟨0, 0, 0, 0, 0, 1, 0x10c0000, 0, 0, 7, 0⟩),
    (.sca q0 ⟨0, 0, 0, 0, 0, 1, 0x800000, 0, 0, 7, 0⟩), (.sca q0 ⟨0, 0, 0, 0, 0, 1, 0x200000, 0, 0, 7, 0⟩),
    (.sca q0 ⟨0, 0, 0, 0, 0, 1, 0x4000000, 0, 0, 7, 0⟩), (.gat q0 ⟨0, 2, 0, 0, 2, 31, 0x8000000, 4, 0, 0, 0⟩),
    (.gat q0 ⟨0, 2, 0, 0, 2, 31, 0x20000000, 4, 0, 0, 0⟩), (.chs q0 ⟨0, 0, 0, 0, 0, 1, 0x1000000, 0, 0, 0, 0x3f800000⟩),
    (.xbar q0 ⟨1, 0, 0, 0, 0, 0, 0, 0, 0, 0xffcc0, 0, 0xffff⟩), (.xbar q0 ⟨0, 0, 0, 0, 0, 0, 0, 0, 0, 0x140, 0, 1⟩),
    (.xbar q0 ⟨0, 0, 0, 0, 0, 0, 0, 0, 0, 0x400, 0, 1⟩), (.xbar q0 ⟨0, 0, 0, 0, 0, 0, 0, 0, 0, 0, 0, 0⟩),
    (.xbar q0 ⟨0, 0, 0, 0, 0, 0, 0, 0, 0, 0, 0, 0x10000⟩), (.xbar q0 ⟨0, 0, 0, 0, 0, 0, 0, 0, 0, 33, 0, 0⟩),
    (.xbar q0 ⟨0, 0, 0, 0, 0, 0, 0, 0, 0, 0x82, 0, 0⟩), (.xbar q0 ⟨0, 0, 0, 0, 0, 0, 0, 0, 0, 2, 0, 0x100⟩),
    (.xbar q0 ⟨0, 0, 0, 0, 0, 0, 0, 0, 0, 3, 0, 1⟩), (.xbar q0 ⟨0, 0, 0, 0, 0, 0, 0, 0, 0, 0xffcc0, 1, 0xffff⟩),
    (.rset q0 ⟨0, 0, 3, 0, 4, 1, 7, 0x100, 0x400, 0, 0⟩), (.rset q0 ⟨0, 0, 3, 0, 4, 0, 8, 0x100, 0x400, 0, 0⟩),
    (.rpush q0 ⟨5, 8, 6, 0, 31⟩), (.rpop q0 ⟨5, 7, 6, 0, 32⟩)] : List Instr).any Instr.wf = false := by decide
theorem test_wf_refuses_matrix_and_system : ([(.mma q0 ⟨1, 2, 3, 4, 15, 31, 32, 0, 0, 0, 0⟩),
    (.mma q0 ⟨1, 2, 3, 4, 15, 31, 0x200000, 0, 0, 0, 0⟩), (.mzero q0 ⟨32, 11, 0, 0, 31⟩), (.mzero q0 ⟨21, 11, 0, 0, 31⟩),
    (.mzero q0 ⟨20, 32, 0, 0, 31⟩), (.mzero q0 ⟨20, 11, 0, 0, 32⟩), (.mdrain q0 ⟨0, 0, 0, 0, 0, 31, 0x8000000, 1, 0, 0, 0⟩),
    (.mload q0 ⟨0, 0, 0, 0, 0, 31, 0x800, 1, 0, 0, 0⟩), (.mload q0 ⟨0, 0, 0, 0, 0, 31, 0x400000, 1, 0, 0, 0⟩),
    (.mload q0 ⟨0, 0, 0, 0, 0, 31, 0x1000000, 1, 0, 0, 0⟩), (.mload q0 ⟨0, 0, 0, 0, 0, 31, 0x8000000, 1, 0, 0, 0⟩),
    (.mred q0 ⟨0, 0, 0, 0, 0, 31, 32, 1, 0, 0, 0⟩), (.mred q0 ⟨0, 0, 0, 0, 0, 31, 0x8000, 1, 0, 0, 0⟩),
    (.mq q0 ⟨1, 4, 5, 0, 4, 0, 0, 31, 0, 0, 64⟩), (.mstat q0 ⟨5, 0, 0, 0, 96⟩), (.cget q0 ⟨5, 0, 0, 13⟩), (.cget q0 ⟨5, 0, 0, 0x1000⟩),
    (.cset q0 ⟨1, 5, 0, 24⟩), (.trap q0 ⟨1, 0, 0, 0xffffffff⟩), (.svc q0 ⟨4, 10, 1, 7⟩), (.tlbinv q0 ⟨0, 9, 0, 0, 0x80⟩),
    (.tlbinv q0 ⟨0, 9, 0, 0, 32⟩), (.tlbinv q0 ⟨1, 9, 0, 0, 95⟩)] : List Instr).any Instr.wf = false := by decide

/-! ## Witnesses: the hypotheses of the statements about instructions are met -/

/-- g issues on s under the guard q0 with these registers readable and these writable. -/
def Opens (s : State) (g : Machine.Group) (rs ws : List RegRef) : Prop :=
  s.issuing g ∧ s.guardOn g q0 ∧ (∀ r ∈ rs, s.readable g r) ∧ ∀ r ∈ ws, s.writable g r

theorem no_pending (r : RegRef) (n : Nat) (l : List (List TokEntry)) (h : l.all (·.isEmpty) = true) : pendingTok r n l = none := by
  induction l generalizing n with
  | nil => rfl
  | cons a l ih =>
    simp only [List.all_cons, Bool.and_eq_true, List.isEmpty_iff] at h
    simp [pendingTok, h.1, ih _ h.2]

/-- No line of g, and of no group that left the core, lies in the slot, and no upset awaits g's reads. -/
def calm (s : State) (g : Machine.Group) : Prop := (s.dev.env s.clk g).others = [] ∧ (s.dev.env s.clk g).upsets = [] ∧
  (s.dev.env s.clk g).upsetWords = []

theorem opens_of {s : State} {g : Machine.Group} {rs ws : List RegRef} (hi : s.issuing g) (h1 : g.linesOut = []) (h2 : g.arch.regPoison = [])
    (h3 : g.arch.alts = []) (h4 : g.arch.toks.toList.all (·.isEmpty) = true) (hc : calm s g) : Opens s g rs ws := by
  have hw : ∀ r, s.writable g r := fun r =>
    Or.inr ⟨by simp [Group.lineHere, missesLine, h1, hc.1], by simp [Arch.openAlts, h3], no_pending r 0 _ h4⟩
  have hr : ∀ r, s.readable g r := fun r => Or.inr ⟨hw r, by simp [h2], by simp [hc.2.1]⟩
  exact ⟨hi, ⟨hr _, by simp [q0, Arch.qr]⟩, fun r _ => hr r, fun r _ => hw r⟩

theorem ready_all {s : State} {g : Machine.Group} (a n : Nat) (h1 : g.linesOut = []) (h2 : g.arch.lsPoison = []) (hc : calm s g) :
    s.localReady g a n := by
  intro i _; simp [Group.lineHere, missesLine, h1, h2, hc.1, hc.2.2]

/-- x2 = 5, x3 = 7, x4 = all ones. -/
def gx : Machine.Group := withX base [(2, 5), (3, 7), (4, 2 ^ 64 - 1)]

theorem witness_ScalarArithmeticResults : Opens (world gx lfree) gx [.x 2, .x 3, .x 0] [.x 1] ∧ gx.arch.tokCount 31 < 63 ∧
    gx.arch.xr 0 = 0 ∧ gx.arch.xr 3 ≠ 0 := ⟨opens_of rfl rfl rfl rfl rfl ⟨rfl, rfl, rfl⟩, by decide, rfl, by decide⟩

theorem witness_ScalarImmediateAndUnaryResults : Opens (world gx lfree) gx [.x 2, .x 1, .lc 1] [.x 1, .lc 0] ∧
    (63 < 64 ∧ 1 ≤ (60 + 64 * 4) / 64 ∧ (60 + 64 * 4) % 64 + (60 + 64 * 4) / 64 ≤ 64 ∧ 1 ≤ 64 * 64 / 64 ∧ 64 * 64 % 64 + 64 * 64 / 64 ≤ 64) ∧
    ((4 : Nat) % 4 < 2 ∧ 4 / 4 < 2 ∧ 1 % 4 < 2 ∧ 1 / 4 < 2) := ⟨opens_of rfl rfl rfl rfl rfl ⟨rfl, rfl, rfl⟩, by decide, by decide⟩

theorem witness_RegisterWriteFrame : (RegRef.x 63 ≠ .x 0 ∧ (63 : Nat) ≠ 0 ∧ 63 < 64 ∧ 31 < 32 ∧ 7 < 8 ∧ 1 < 2) ∧ (RegRef.x 0).fixed = true ∧
    gx.arch.openAlts 0 (.x 1) = [] ∧ (∀ k, k < 2 → (gx.arch.loopAt k).active = false) := ⟨by decide, rfl, rfl, by decide⟩

/-- The target of a J-format displacement and slot at the start address. -/
def jt (disp : Int) (slot : Nat) : Word := BitVec.ofInt 64 (((2 : Nat) % 2 ^ 57 / 64 * 64 : Nat) + 64 * disp + 2 + 2 * slot)

theorem witness_BranchAndJumpResults : Opens (world gx lfree) gx [.x 2, .x 3] [.x 1] ∧ gx.arch.pc = 2 ∧
    (validTarget (jt 0 29) = true ∧ validTarget (jt (-1) 0) = false ∧ (jt (-1) 0).toNat / 2 ^ 57 ≠ 0) ∧
    (gx.arch.xr 2 ≠ gx.arch.xr 3 ∧ gx.arch.xr 2 = gx.arch.xr 2 ∧ (gx.arch.xr 4).toInt < (gx.arch.xr 2).toInt ∧
      ¬ (gx.arch.xr 4).toNat < (gx.arch.xr 2).toNat ∧ gx.arch.xr 0 = 0) ∧
    (validTarget (gx.arch.xr 2) = false ∧ validTarget ((withX base [(2, 60)]).arch.xr 2) = true ∧ validTarget ((withX base [(2, 62)]).arch.xr 2) = false) :=
  ⟨opens_of rfl rfl rfl rfl rfl ⟨rfl, rfl, rfl⟩, rfl, by decide, by decide, by decide⟩

theorem witness_LoopResults : Opens (world gx lfree) gx [.x 2, .x 0] [.lc 1] ∧ gx.link = 4 ∧ (1 : BitVec 6).toNat < 2 ∧
    (jt 0 0 ≤ gx.link ∧ jt 0 1 ≤ gx.link ∧ gx.link < jt 0 2 ∧ validTarget (jt 0 2) = true) ∧
    ((gx.arch.xr 2).toNat % 2 ^ 32 ≠ 0 ∧ (gx.arch.xr 0).toNat % 2 ^ 32 = 0) :=
  ⟨opens_of rfl rfl rfl rfl rfl ⟨rfl, rfl, rfl⟩, rfl, by decide, by decide, by decide⟩

theorem witness_PredicateFlagAndAbortResults : Opens (world gx lfree) gx [.x 2, .x 3, .q 1, .q 2] [.q 7, .x 1] ∧ gx.core = some 0 ∧
    (0 / 1024 % 8 = 0 ∧ 4 ≤ (7 * 1024 + 1023) / 1024 % 8) ∧ gx.isAbort = false ∧
    (world gx lfree).dev.launches.find gx.recd.launch = some lfree ∧
    ((world gx lfree).dev.testFlag gx none 5 = false ∧ (world (gx.setFlag 5 true) lfree).dev.testFlag (gx.setFlag 5 true) none 5 = true) ∧
    (((world gx lfree).dev.env (world gx lfree).clk gx).aborted = false ∧
      ((world gx { lfree with raised := [0], raisedAt := some 0 }).dev.env (world gx lfree).clk gx).aborted = true) :=
  ⟨opens_of rfl rfl rfl rfl rfl ⟨rfl, rfl, rfl⟩, rfl, by decide, rfl, rfl, by decide, by decide⟩

theorem witness_LocalScalarAccess : Opens (world (withX base [(2, 0x3FFF8), (3, 1), (4, 0x40000)]) lfree) (withX base [(2, 0x3FFF8), (3, 1), (4, 0x40000)])
      [.x 2, .x 3, .x 4, .x 6, .x 7] [.x 6, .x 7] ∧
    (0x3FFF8 % 8 = 0 ∧ 0x3FFF8 < 0x40000 ∧ 0x3FFF8 % 16 ≠ 0 ∧ 0x40000 % 16 = 0 ∧ 0x40000 ≤ 0x40000) ∧
    (world (withX base [(2, 0x3FFF8)]) lfree).localReady (withX base [(2, 0x3FFF8)]) 0x3FFF8 8 ∧ (withX base [(2, 0x3FFF8)]).arch.ls.wf = true :=
  ⟨opens_of rfl rfl rfl rfl rfl ⟨rfl, rfl, rfl⟩, by decide, ready_all _ _ rfl rfl ⟨rfl, rfl, rfl⟩, rfl⟩

theorem witness_LocalVectorAccess : Opens (world (withX base [(2, 0x3FF80), (3, 0x3FFC0), (4, 0x40000)]) lfree) (withX base [(2, 0x3FF80), (3, 0x3FFC0), (4, 0x40000)])
      [.x 2, .x 3, .x 4, .w 0, .v 1] [.v 1] ∧
    (0x3FF80 % 128 = 0 ∧ 0x3FF80 < 0x40000 ∧ 0x3FFC0 % 128 ≠ 0 ∧ 0x40000 % 128 = 0 ∧ 0x3FFC0 + 128 ≤ 2 ^ 64) ∧
    (nbit (base.arch.wr 0).toNat 64 = true ∧ 0x40000 ≤ 0x3FFC0 + 64 ∧ (∀ j < 64, 0x3FFC0 + j < 0x40000)) ∧
    (world base lfree).localReady base 0x3FF80 128 ∧ (∀ j < 128, nbit (base.arch.wr 0).toNat j = true → 0x3FF80 + j < 0x40000 ∧ (world base lfree).localReady base (0x3FF80 + j) 1) ∧
    base.arch.ls.wf = true :=
  ⟨opens_of rfl rfl rfl rfl rfl ⟨rfl, rfl, rfl⟩, by decide, by decide, ready_all _ _ rfl rfl ⟨rfl, rfl, rfl⟩,
    fun j h _ => ⟨by omega, ready_all _ _ rfl rfl ⟨rfl, rfl, rfl⟩⟩, rfl⟩

/-- x2 = 0x80 and x5 = 0x81, of which core 0 holds the translation; x6 beyond it; x7 beyond the address space. -/
def gm : Machine.Group := withX base [(2, 0x80), (5, 0x81), (6, 0x100000), (7, 2 ^ 57)]
def xm : Xlat := ⟨0x80, .slice 0, 0, false, some (0, 0), 20⟩

theorem witness_GlobalLoadIssue : Opens (mapped (world gm lfree)) gm [.x 2, .x 0, .w 0] [.x 8, .x 9, .v 1] ∧ gm.arch.tokCount 31 < 63 ∧
    (0x81 % 8 ≠ 0 ∧ 0x80 % 16 = 0 ∧ 0x80 % 128 = 0 ∧ 0x100000 % 128 = 0) ∧
    ((mapped (world gm lfree)).dev.translate gm (gm.arch.xr 2) .load = .ok xm ∧ (mapped (world gm lfree)).dev.translate gm (gm.arch.xr 2) .vload = .ok xm ∧
      (mapped (world gm lfree)).dev.translate gm (gm.arch.xr 6) .load = .miss ∧ (mapped (world gm lfree)).dev.translate gm (gm.arch.xr 6) .vload = .miss ∧
      (mapped (world gm lfree)).dev.translate gm (gm.arch.xr 7) .load = .fault cACCESS ∧
      (mapped (world gm lfree)).dev.translate gm (gm.arch.xr 7) .vload = .fault cACCESS) :=
  ⟨opens_of rfl rfl rfl rfl rfl ⟨rfl, rfl, rfl⟩, by decide, by decide, by decide⟩

def gfull : Machine.Group := { gm with arch := { gm.arch with buffer := List.replicate 64 default } }

theorem witness_GlobalStoreIssue : Opens (mapped (world gm lfree)) gm [.x 2, .x 0, .x 8, .x 9, .v 1, .w 0] [] ∧
    (mapped (world gm lfree)).dev.launches.find gm.recd.launch = some lfree ∧ (mapped (world gm ldet)).dev.launches.find gm.recd.launch = some ldet ∧
    (lfree.mode ≠ .det ∧ ldet.mode = .det ∧ xm.typ ≠ 2 ∧ ldet.raisedAt.isNone = true) ∧
    ((mapped (world gm ldet)).dev.translate gm (gm.arch.xr 2) .store = .ok xm ∧ (mapped (world gm ldet)).dev.translate gm (gm.arch.xr 2) .vstore = .ok xm) ∧
    (64 ≤ gfull.arch.buffer.length ∧ gm.arch.buffer.length < 64 ∧ 0 + 160 ≤ ldet.logq * 1024 ∧ ({ ldet with logq := 0 } : Launch).logq * 1024 < 0 + 32) ∧
    (({ ldet with raised := [0], raisedAt := some 0 } : Launch).raisedAt.isSome = true ∧ gm.isAbort = false) :=
  ⟨opens_of rfl rfl rfl rfl rfl ⟨rfl, rfl, rfl⟩, by decide, by decide, by decide, by decide, by decide, by decide⟩

def anOp (k : GOpKind) : GOp := { (default : GOp) with kind := k, va := 0x80, size := 8, xl := xm }
def gop (k : GOpKind) : Machine.Group := { base with arch := { base.arch with gops := [anOp k] } }
def gpend : Machine.Group := base.entered 3 .load true none [] []
def gteam : Machine.Group := { base with recd := { base.recd with team4 := true } }
def gmate : Machine.Group := { gteam with gid := 77, core := none }
def glead : Machine.Group := { base with consort := .leader [] }

theorem witness_WaitFenceAndGangResults : Opens (world base lfree) base [] [] ∧ (base.arch.gops = [] ∧ base.arch.gops.any (fun o => o.kind.isLoad) = false) ∧
    (Opens (world (gop (.load [] false 0)) lfree) (gop (.load [] false 0)) [] [] ∧ (gop (.load [] false 0)).arch.gops.any (fun o => o.kind.isLoad) = true ∧
      (gop (.load [] false 0)).arch.gops ≠ []) ∧
    (base.arch.tokCount 31 ≤ 0 ∧ 0 < gpend.arch.tokCount 3 ∧ gpend.commitWaits (.wait 3 0) = false ∧ (world gpend lfree).issuing gpend) ∧
    base.recd.team4 = false ∧ (gteam.recd.team4 = true ∧ ((world gteam lfree).put gmate).issuing gteam ∧
      (((world gteam lfree).put gmate).dev.env default gteam).aborted = false) ∧
    (((world gteam lfree).put gmate).dev.team gteam).any (fun h => h.gid != gteam.gid && !h.ganged) = true ∧
    (∀ ms, base.consort ≠ .leader ms) ∧ ((world glead lfree).issuing glead ∧ glead.consort = .leader []) :=
  ⟨opens_of rfl rfl rfl rfl rfl ⟨rfl, rfl, rfl⟩, by decide, ⟨opens_of rfl rfl rfl rfl rfl ⟨rfl, rfl, rfl⟩, rfl, by simp [gop]⟩, ⟨by decide, by decide, by decide, rfl⟩, rfl,
    ⟨rfl, rfl, by decide⟩, by decide, (fun ms h => by cases h), rfl, rfl⟩

/-- v1 holds 3 in its low byte, v2 an index beyond every lane in its lane 0. -/
def gv : Machine.Group := withV (withX base [(2, 8), (3, 2 ^ 64 - 1)]) [(1, 3), (2, 255)]

theorem witness_VectorArithmeticResults : Opens (world gv lfree) gv [.v 1, .v 2, .v 3, .w 0] [.v 31] ∧
    ((7 : BitVec 5).toNat < 8 ∧ 8 ≤ (8 : BitVec 5).toNat ∧ (11 : BitVec 5).toNat < 12) ∧ (gv.arch.wr 0).getLsbD 127 = true ∧ (gv.arch.wr 1).getLsbD 0 = false :=
  ⟨opens_of rfl rfl rfl rfl rfl ⟨rfl, rfl, rfl⟩, by decide, by decide, by decide⟩

theorem witness_VectorBitAndMaskResults : Opens (world gv lfree) gv [.v 1, .v 2, .v 3, .w 0, .x 2] [.v 31, .w 7, .x 9] ∧ (7 : BitVec 5).toNat < 8 ∧
    (∀ k, (fun k => lane 64 (gv.arch.vr 2).toNat k % 64) k = lane 64 (gv.arch.vr 2).toNat k % 64) ∧
    ((0xBF : BitVec 8).toNat = 128 + (fun _ : Nat => 63) 0 ∧ (fun _ : Nat => 63) 0 < 64) ∧
    (0x0007F / 2 ^ 16 % 2 = 0 ∧ 0x1007F / 2 ^ 16 % 2 = 1) :=
  ⟨opens_of rfl rfl rfl rfl rfl ⟨rfl, rfl, rfl⟩, by decide, fun _ => rfl, by decide, by decide⟩

theorem witness_VectorCompareSelectConvert : Opens (world gv lfree) gv [.v 1, .v 2, .w 0, .w 7] [.v 31, .w 7] ∧
    ((0 : BitVec 5).toNat < 12 ∧ (7 : BitVec 8).toNat < 8 ∧ (11 : BitVec 5).toNat < 12 ∧ (5 : BitVec 8).toNat < 6) ∧
    ((17 : BitVec 5).toNat < 18 ∧ 3 < max (Ty.ofCode 14).lanes (Ty.ofCode 10).lanes / min (Ty.ofCode 14).lanes (Ty.ofCode 10).lanes ∧
      7 < max (Ty.ofCode 0).lanes (Ty.ofCode 3).lanes / min (Ty.ofCode 0).lanes (Ty.ofCode 3).lanes) :=
  ⟨opens_of rfl rfl rfl rfl rfl ⟨rfl, rfl, rfl⟩, by decide, by decide⟩

theorem witness_VectorMovementResults : Opens (world gv lfree) gv [.v 1, .v 2, .v 31, .x 2, .x 3, .x 0, .w 0, .w 7] [.v 31, .x 9] ∧
    ((13 : BitVec 5).toNat < 14 ∧ (128 : BitVec 8).toNat ≤ (Ty.ofCode 0).lanes ∧ (7 : BitVec 5).toNat < 8) ∧
    ((Ty.ofCode 0).lanes ≤ (gv.arch.xr 3 + (0 : BitVec 8).setWidth 64).toNat ∧ (gv.arch.xr 0 + (127 : BitVec 8).setWidth 64).toNat < (Ty.ofCode 0).lanes) :=
  ⟨opens_of rfl rfl rfl rfl rfl ⟨rfl, rfl, rfl⟩, by decide, by decide⟩

theorem witness_VectorLongLatencyResults : Opens (world gv lfree) gv [.v 1, .v 2, .w 0, .x 2] [.v 31, .w 7] ∧ gv.arch.tokCount ((255 : BitVec 8).toNat % 32) < 63 ∧
    ((7 : BitVec 5).toNat < 8 ∧ 8 ≤ (11 : BitVec 5).toNat ∧ (11 : BitVec 5).toNat < 12 ∧ (0xBF : BitVec 8).toNat / 32 < 6 ∧ (0x5F : BitVec 8).toNat / 32 < 3) :=
  ⟨opens_of rfl rfl rfl rfl rfl ⟨rfl, rfl, rfl⟩, by decide, by decide⟩

/-- x2 = 0x3FFF8: with 64-bit elements lane 0 of v1 (index 0) is the last in the local store, lane 0 of v2 (255) beyond it. -/
def gg : Machine.Group := withV (withX base [(2, 0x3FFF8), (3, 4)]) [(2, 255)]

theorem witness_LocalGatherScatter : Opens (world gg lfree) gg [.x 2, .x 3, .v 1, .v 2, .v 3, .w 0] [.v 31] ∧ gg.arch.tokCount 31 < 63 ∧
    (3 : BitVec 5).toNat < 14 ∧ (gg.arch.xr 3).toNat % 8 ≠ 0 ∧ (gg.arch.xr 2).toNat % 8 = 0 ∧
    (∀ i < 16, (gg.arch.xr 2).toNat + lane 64 (gg.arch.vr 1).toNat i * 8 + 8 ≤ 0x40000 ∧ (world gg lfree).localReady gg 0x3FFF8 8) ∧
    (let addr (i : Nat) : Nat := (gg.arch.xr 2).toNat + lane 64 (gg.arch.vr 2).toNat i * 8
     0x40000 < addr 0 + 8 ∧ ∀ j < 16, 0x40000 < addr j + 8 → addr 0 ≤ addr j) ∧
    gg.arch.ls.wf = true ∧ (0x20 : BitVec 8).toNat / 32 % 2 = 1 :=
  ⟨opens_of rfl rfl rfl rfl rfl ⟨rfl, rfl, rfl⟩, by decide, by decide, by decide, by decide,
    fun i h => ⟨by revert i; decide, ready_all _ _ rfl rfl ⟨rfl, rfl, rfl⟩⟩, by decide, rfl, by decide⟩

/-- A synchronisation page in place of the Normal one. -/
def synced (s : State) : State :=
  let c := s.dev.core 0
  { s with dev := s.dev.setCore 0 { c with tlb := [⟨0, 0, 20, 0x7F, 0, false⟩] } }
def xs : Xlat := ⟨0x80, .engine 0, 1, false, some (0, 0), 20⟩
def gdeep : Machine.Group := { gm with recd := { gm.recd with ticket := 0x1001 } }
def glast : Machine.Group := { gm with arch := { gm.arch with o1 := 4095 } }

theorem witness_AtomicIssue : Opens (synced (world gm lfree)) gm [.x 2, .x 0, .x 8, .x 9, .x 10] [.x 8, .x 9] ∧
    ((synced (world gm lfree)).dev.launches.find gm.recd.launch = some lfree ∧ (synced (world gm ldet)).dev.launches.find gm.recd.launch = some ldet) ∧
    (lfree.mode ≠ .det ∧ ldet.mode = .det ∧ ldet.raisedAt = none ∧ 0 + 32 ≤ ldet.logq * 1024 ∧ gm.arch.buffer.length < 64) ∧
    ((synced (world gm lfree)).dev.translate gm (gm.arch.xr 2) .amo = .ok xs ∧ (synced (world gm lfree)).dev.translate gm (gm.arch.xr 2) .rmw = .ok xs) ∧
    (gm.arch.tokCount 31 < 63 ∧ 0x80 % 64 = 0 ∧ 0x80 % 16 = 0 ∧ gm.isAbort = false) ∧
    (gm.recd.ticket.toNat / 2 ^ 12 % 2 ^ 12 = 0 ∧ gm.arch.o1 ≠ 4095 ∧ glast.arch.o1 = 4095) ∧
    (gdeep.recd.ticket.toNat / 2 ^ 12 % 2 ^ 12 ≠ 0 ∧ gdeep.recd.ticket.toNat % 2 ^ 12 ≠ 0) ∧
    ((0x1000 : Word).toNat / 2 ^ 12 % 2 ^ 12 ≠ 0 ∧ (0x1000 : Word).toNat % 2 ^ 12 = 0 ∧ gm.arch.o2 ≠ 4095) :=
  ⟨opens_of rfl rfl rfl rfl rfl ⟨rfl, rfl, rfl⟩, by decide, by decide, by decide, by decide, by decide, by decide, by decide⟩

def lscope (l : Launch) (k : Nat) : Launch := { l with scope := k }
def gdone : Machine.Group := { base with released := some 2 }
/-- A launch whose barrier object of cell 0 expects two arrivals. -/
def lbar : Launch := { lscope lfree 3 with bars := [(4096, { BarObj.reset with expect := 2 })] }

theorem witness_BarrierResults : Opens (world base lfree) base [] [.x 1] ∧ Opens (world gdone lfree) gdone [] [.x 1] ∧
    (world base lfree).dev.launches.find base.recd.launch = some lfree ∧
    ((5 : BitVec 8).toNat < 6 ∧ (if lfree.scope = 0 then 4 else lfree.scope) < 5 ∧ 4 ≤ (if lfree.scope = 0 then 4 else lfree.scope)) ∧
    (gdone.released = some 2 ∧ 2 < 2 ^ 64) ∧
    (base.released = none ∧ ((world base lfree).dev.env (world base lfree).clk base).aborted = false ∧ base.arrived = none ∧ base.recd.late = false ∧
      base.arch.gops = [] ∧ base.quiet = true) ∧
    (lbar.ceiling ≠ 0 ∧ (lbar.bar (4096 + base.recd.home)).kind = 0 ∧
      (lbar.bar (4096 + base.recd.home)).count + 1 < (lbar.bar (4096 + base.recd.home)).expect - (lbar.bar (4096 + base.recd.home)).late) :=
  ⟨opens_of rfl rfl rfl rfl rfl ⟨rfl, rfl, rfl⟩, opens_of rfl rfl rfl rfl rfl ⟨rfl, rfl, rfl⟩, rfl, by decide, by decide, by decide, by decide⟩

theorem witness_RetirementResults : (world base lfree).issuing base ∧ Opens (world base ldet) base [] [] ∧ base.core = some 0 ∧ base.consort = .none ∧ base.isAbort = false ∧
    ((world gpend lfree).issuing gpend ∧ gpend.arch.toks.toList.all (·.isEmpty) = false ∧ gpend.commitWaits .done = false) ∧
    (base.arch.toks.toList.all (·.isEmpty) = true ∧ base.quiet = true) ∧ base.recd.addr = none ∧ (lfree.mode ≠ .det ∧ ldet.mode = .det) :=
  ⟨rfl, opens_of rfl rfl rfl rfl rfl ⟨rfl, rfl, rfl⟩, rfl, rfl, rfl, ⟨rfl, by decide, by decide⟩, by decide, rfl, by decide⟩

/-- Parameter words given by the instruction alone. -/
def parT (e : BitVec 31) (p0 p1 p2 p3 : BitVec 32) : TailP := ⟨0, 0, 0, 0, 0, 31, e, p0, p1, p2, p3⟩
theorem parsReady_imm (s : State) (g : Machine.Group) (e : BitVec 31) (p0 p1 p2 p3 : BitVec 32) : s.parsReady g (parT e p0 p1 p2 p3) := by
  intro k _ h
  simp [parT] at h

def gcpy8 : Machine.Group := { base with arch := { base.arch with copyIn := List.replicate 8 default } }

theorem witness_CopyPush : Opens (world gx lfree) gx [.x 2, .x 3] [] ∧ Opens (world gx ldet) gx [] [] ∧ gx.arch.tokCount 31 < 63 ∧
    (∀ s : State, s.parsReady gx (parT 0 0 0 0x3FF80 0)) ∧
    (let w (t : TailP) (k : Nat) : BitVec 32 := gx.par t k
     (w (parT 0 0 0 0x3FF80 0) 2).toNat % 128 = 0 ∧ (w (parT 0 0 0 0x3FF80 0) 2).toNat < 0x40000 ∧ w (parT 0 0 0 0x3FF80 0) 3 = 0 ∧
     (w (parT 0 0 0 64 0) 2).toNat % 128 ≠ 0 ∧ 0x40000 ≤ (w (parT 0 0 0 0x40000 0) 2).toNat ∧ w (parT 0 0 0 0 1) 3 ≠ 0 ∧
     (w (parT (1 <<< 20) 0 0 0 1023) 3).toNat < 1024 ∧ w (parT (3 <<< 16) 0 0 1 0) 2 ≠ 0 ∧ w (parT (3 <<< 16) 0 0 1 0) 1 = 0) ∧
    ([0, 1, 2, 3].map fun n : Nat => ((BitVec.ofNat 31 (n * 2 ^ 16)).extractLsb' 16 2).toNat) = [0, 1, 2, 3] ∧
    (world gx lfree).localReady gx 0x3FF80 128 ∧ (8 ≤ gcpy8.arch.copyIn.length ∧ gx.arch.copyIn.length < 8 ∧ (world gcpy8 lfree).issuing gcpy8) :=
  ⟨opens_of rfl rfl rfl rfl rfl ⟨rfl, rfl, rfl⟩, opens_of rfl rfl rfl rfl rfl ⟨rfl, rfl, rfl⟩, by decide, fun s => parsReady_imm _ _ _ _ _ _ _, by decide, by decide, ready_all _ _ rfl rfl ⟨rfl, rfl, rfl⟩,
    by decide, by decide, rfl⟩

def gind4 : Machine.Group := { base with arch := { base.arch with indPending := 4 } }

theorem witness_IndirectPush : Opens (world gx lfree) gx [.x 2] [] ∧ gx.arch.tokCount 31 < 63 ∧ (∀ s : State, s.parsReady gx (parT 0 0x3FFFC 0x3FFFF8 0 0)) ∧
    (let w (k : Nat) : Nat := (gx.par (parT 0 0x3FFFC 0x3FFFF8 0 0) k).toNat
     w 0 % 4 = 0 ∧ w 0 + 4 * (w 2 % 65536 + 1) ≤ 0x40000 ∧ w 1 % 8 = 0 ∧ w 1 < 0x400000 ∧ ¬ w 1 < 0x10000 ∧ w 2 < 2 ^ 16 ∧ w 3 = 0) ∧
    (0x40000 < 64 * 4095 + 144 ∧ 64 * 4093 + 144 ≤ 0x40000) ∧ (world gx lfree).localReady gx (64 * 4093) 144 ∧
    ((parT (1 <<< 24) 0 0 0 0).e.getLsbD 24 = true ∧ (parT 0 0 0 0 0).e.getLsbD 24 = false) ∧
    ([0, 1, 2, 3].map fun n : Nat => ((BitVec.ofNat 31 (n * 2 ^ 25)).extractLsb' 25 2).toNat) = [0, 1, 2, 3] ∧
    (4 ≤ gind4.arch.indPending ∧ gx.arch.indPending < 4 ∧ (world gind4 lfree).issuing gind4) :=
  ⟨opens_of rfl rfl rfl rfl rfl ⟨rfl, rfl, rfl⟩, by decide, fun s => parsReady_imm _ _ _ _ _ _ _, by decide, by decide, ready_all _ _ rfl rfl ⟨rfl, rfl, rfl⟩, by decide, by decide,
    by decide, by decide, rfl⟩

def gout : Machine.Group := { base with arch := { base.arch with copyOut := [BitVec.ofNat 256 (7 * 2 ^ 64)], latches := 2, copyLost := true } }

theorem witness_EngineReturnsAndRings : Opens (world base lfree) base [.x 2] [.x 60, .x 61, .x 62, .x 63] ∧ Opens (world gout lfree) gout [] [.x 60, .x 61, .x 62, .x 63] ∧
    base.arch.tokCount 31 < 63 ∧ (gout.arch.copyOut = BitVec.ofNat 256 (7 * 2 ^ 64) :: [] ∧ nbits (BitVec.ofNat 256 (7 * 2 ^ 64)).toNat 64 5 = 7) ∧
    (base.arch.copyOut = [] ∧ base.arch.copyIn = [] ∧ base.arch.copyJob = none ∧ gcpy8.arch.copyIn ≠ [] ∧ gcpy8.arch.copyOut = [] ∧
      gind4.arch.indOut = [] ∧ gind4.arch.indPending ≠ 0) ∧
    (gout.arch.latches.getLsbD 1 = true ∧ gout.arch.latches.getLsbD 15 = false) ∧
    (0x3FF00 % 256 = 0 ∧ 0x3FF00 + 256 ≤ 0x40000 ∧ 256 % 64 = 0 ∧ 1 ≤ 256 / 64 ∧ 256 / 64 ≤ 4096 ∧ 128 % 256 ≠ 0 ∧ 0x40000 < 0x40100 ∧ 256 % 96 ≠ 0 ∧ 96 % 64 ≠ 0) ∧
    (ringBusy base.arch 7 mcmdUsesRing = false ∧
      ringBusy { base.arch with copyIn := [{ (default : CopyCmd) with re := true, ring := 7 }] } 7 mcmdUsesRing = true) :=
  ⟨opens_of rfl rfl rfl rfl rfl ⟨rfl, rfl, rfl⟩, opens_of rfl rfl rfl rfl rfl ⟨rfl, rfl, rfl⟩, by decide, by decide, ⟨rfl, rfl, rfl, by simp [gcpy8], rfl, rfl, by decide⟩, by decide, by decide, by decide⟩

/-- A ZERO of slot 0, whose check passes; one whose count is 0, whose check does not. -/
def cmd (ws : List Word) : MCmd := { words := ws ++ List.replicate (8 - ws.length) 0, entry := none, seq := 0, after := 0 }
def gq16 : Machine.Group := { base with arch := { base.arch with mu := { base.arch.mu with queue := List.replicate 16 (cmd [3, 1]) } } }

theorem witness_MatrixPush : Opens (world gm lfree) gm [.x 2, .x 3, .x 5] [] ∧ gm.arch.tokCount 31 < 63 ∧ (∀ s : State, s.parsReady gm (parT 0 0 0 0 0)) ∧
    ((cmd [3, 1]).fail false (fun _ => 0) [] = none ∧ (cmd [3, 0]).fail false (fun _ => 0) [] = some (.code 3 64) ∧
      (cmd [5, 128 + 10 * 2 ^ 24, 2]).fail false (fun _ => 0) [] = some (.align 2) ∧
      (cmd [5, 128 + 10 * 2 ^ 24, 0x3FFFC]).fail false (fun _ => 0) [] = some (.access 0x3FFFC)) ∧
    (16 ≤ gq16.arch.mu.queue.length ∧ gm.arch.mu.queue.length < 16 ∧ (world gq16 lfree).issuing gq16) ∧
    (0x81 % 64 ≠ 0 ∧ 0x80 % 64 = 0 ∧ 0x80 < 0x40000 ∧ 0x40000 % 64 = 0) ∧ (world gm lfree).localReady gm 0x80 64 :=
  ⟨opens_of rfl rfl rfl rfl rfl ⟨rfl, rfl, rfl⟩, by decide, fun s => parsReady_imm _ _ _ _ _ _ _, by decide, ⟨by decide, by decide, rfl⟩, by decide, ready_all _ _ rfl rfl ⟨rfl, rfl, rfl⟩⟩

theorem witness_MatrixCommandChecks : (cmd [3, 1]).words.length = 8 ∧ ([1, 2, 3, 4, 5, 6].map fun n : Word => (cmd [n, 1]).op) = [1, 2, 3, 4, 5, 6] := by decide

theorem witness_MatrixStatusAndWindow : Opens (world gq16 lfree) gq16 [] [.x 1] ∧ gq16.arch.tokCount 31 < 63 ∧
    ((31 : BitVec 8).toNat / 32 = 0 ∧ (63 : BitVec 8).toNat / 32 = 1 ∧ 2 ≤ (95 : BitVec 8).toNat / 32) ∧ (4095 < 4096 ∧ 6 < 7) ∧
    ((world base lfree).dev.windowGroup 0 = some base ∧ base.arch.mu.queue.length < 16 ∧ (world base lfree).dev.modeOf base ≠ .det ∧
      (cmd []).fail false (fun _ => 0) [] = some (.code 1 0)) :=
  ⟨opens_of rfl rfl rfl rfl rfl ⟨rfl, rfl, rfl⟩, by decide, by decide, by decide, rfl, by decide, by decide, by decide⟩

/-! ## Witnesses: guards, exceptions, decoding, fetching, memory -/

theorem witness_FalseGuardHasNoEffect : (world gx lfree).issuing gx ∧ parts (.add ⟨true, 0⟩ ⟨1, 2, 3, 0, 0⟩) = some (0, ⟨true, 0⟩, 0x3081) ∧
    (world gx lfree).guardOff gx ⟨true, 0⟩ ∧ (∀ gd' t, Instr.add ⟨true, 0⟩ ⟨1, 2, 3, 0, 0⟩ ≠ .loop gd' t) ∧
    (gx.link < jTarget gx.arch.pc 0 2) ∧ (namesToken (.add ⟨true, 0⟩ ⟨1, 2, 3, 0, 0⟩) = none ∧ namesToken (.div ⟨true, 0⟩ ⟨1, 2, 3, 0, 31⟩) = some 31) ∧
    (gx.arch.tokCount 31 < 63 ∧ 63 ≤ ({ gx.arch with toks := gx.arch.toks.set 31 (List.replicate 63 default) } : Arch).tokCount 31) :=
  ⟨rfl, rfl, ⟨Or.inl rfl, rfl⟩, (fun _ _ h => by cases h), by decide, by decide, by decide⟩

theorem witness_ControlRegisters : Opens (world gx lfree) gx [.x 2] [.x 1] ∧ gx.core = some 0 ∧ (world gx lfree).dev.launches.find gx.recd.launch = some lfree ∧
    (gx.recd.home < 1024 ∧ lfree.scope < 8 ∧ gx.recd.launch < 2 ^ 32 ∧ (world gx lfree).dev.pkg < 64) ∧
    ((gx.arch.m.bnd.toList[15]?).isSome = true ∧ (gx.arch.xr 2).toNat % 128 ≤ 64 ∧ ¬ (127 : Word).toNat % 128 ≤ 64) :=
  ⟨opens_of rfl rfl rfl rfl rfl ⟨rfl, rfl, rfl⟩, rfl, rfl, by decide, by decide⟩

def handler (v : Word) (inTrap : Bool) (pc : Word) : Machine.Group :=
  { base with arch := { base.arch with k := { base.arch.k with vec := v, inTrap := inTrap, pc := pc } } }

theorem witness_TrapEntry : (world (handler 0x42 false 0) lfree).dev.groups.find (handler 0x42 false 0).gid = some (handler 0x42 false 0) ∧
    (handler 0x42 false 0).consort = .none ∧ (handler 0x42 false 0).arch.k.inTrap = false ∧ (handler 0x42 false 0).arch.k.vec ≠ 0 ∧
    (world (handler 0x42 false 0) lfree).dev.vecFails (handler 0x42 false 0) 0x42 0 = none ∧ 255 < 256 := by
  refine ⟨rfl, rfl, rfl, by decide, by decide +kernel, by decide⟩

theorem witness_TrapsThatEndOrSuspendResults : (handler 0 true 0).arch.k.inTrap = true ∧ ((handler 0 false 0).arch.k.inTrap = false ∧ (handler 0 false 0).arch.k.vec = 0) ∧
    ((handler 1 false 0).arch.k.vec ≠ 0 ∧ validTarget (handler 1 false 0).arch.k.vec = false) ∧
    ((world base lfree).dev.groups.find base.gid = some base ∧ (world base lfree).dev.launches.find base.recd.launch = some lfree ∧ base.status = .running ∧
      base.consort = .none ∧ base.isAbort = false) ∧ Opens (world gx lfree) gx [.x 2] [] ∧
    (((world base lfree).dev.ctx lfree.part lfree.ctx).latched = some ⟨0, 0, 0, 0, 0, 1⟩ ∧ ((world base lfree).dev.groupEntry base 0 2 0 1 22).2 = false) :=
  ⟨rfl, ⟨rfl, rfl⟩, by decide +kernel, ⟨rfl, rfl, rfl, rfl, rfl⟩, opens_of rfl rfl rfl rfl rfl ⟨rfl, rfl, rfl⟩, rfl, by decide +kernel⟩

/-- The first 2^30 addresses are mapped one to one by a page table at physical address 0. -/
def pageTable : Memory := ((Memory.writeN [] 0 0x10000001 8).writeN 0x10000 0x20000001 8).writeN 0x20000 0x43B 8
def withMem (s : State) (m : Memory) : State := { s with dev := { s.dev with ms := { s.dev.ms with mem := m } } }
def paged (s : State) : State := withMem s pageTable
def lt0 : Latched := ⟨0, 0, 0, 0, 0, 1⟩

theorem witness_suspension : ((paged (world base lfree)).dev.groupEntry base 0 2 0 1 22).2 = true := by decide +kernel

theorem witness_TrapAndReturn : Opens (world (handler 0x42 false 0) lfree) (handler 0x42 false 0) [] [] ∧ base.core = some 0 ∧
    ((world (handler 0x42 true 0x82) lfree).issuing (handler 0x42 true 0x82) ∧ (handler 0x42 true 0x82).arch.k.inTrap = true ∧
      validTarget (handler 0x42 true 0x82).arch.k.pc = true) ∧ validTarget (handler 0x42 true 0x80).arch.k.pc = false ∧
    ((⟨0, 0, 0, 0x55⟩ : TailI).d = 0 ∧ (⟨0, 1, 0, 0⟩ : TailI).a ≠ 0) :=
  ⟨opens_of rfl rfl rfl rfl rfl ⟨rfl, rfl, rfl⟩, rfl, ⟨rfl, rfl, by decide⟩, by decide, by decide⟩

def tinv (s : State) : State := { s with dev := { s.dev with invals := [⟨base.gid, 3, 9, [0], 0, none, 0⟩] } }

theorem witness_TlbInvalidation : Opens (world gx lfree) gx [.x 2] [] ∧ gx.arch.tokCount 31 < 63 ∧ (world gx lfree).dev.latchedOf gx = some (0, lt0) ∧
    ((tinv (world base lfree)).dev.groups.find base.gid = some base ∧
      (tinv (world base lfree)).dev.invals.find? (fun j => j.gid = base.gid ∧ j.id = 9) = some ⟨base.gid, 3, 9, [0], 0, none, 0⟩ ∧
      (tinv (world base lfree)).dev.walks.any (fun kw => kw.2.any fun w => w.drop && [0].contains w.core) = false) :=
  ⟨opens_of rfl rfl rfl rfl rfl ⟨rfl, rfl, rfl⟩, by decide, rfl, rfl, rfl, rfl⟩

theorem witness_DecodeEncodeRoundTrip : (Instr.add q0 ⟨1, 2, 3, 0, 0⟩).isCore = true ∧ (Instr.add q0 ⟨1, 2, 3, 0, 0⟩).wf = true ∧
    decode 0x0020 0x3081 = .ok (.add q0 ⟨1, 2, 3, 0, 0⟩) ∧ 0x0020 < 2 ^ 16 ∧ 0x3081 < 2 ^ (8 * tlBytes (0x0020 / 2 ^ 4 % 2 ^ 3)) :=
  ⟨by decide, by decide, rfl, by decide, by decide⟩

/-- A line of one instruction, `add x1, x2, x3`; its tail ends the line. -/
def addLine : Nat := lineWith 0 0x0020 0x3081
theorem witness_LineChecks : addLine % 32 = 1 ∧ addLine / 32 % 2 ^ 11 = 0 ∧ addLine / 2 ^ 16 % 2 ^ 16 = 0x0020 ∧
    decode 0x0020 0x3081 = .ok (.add q0 ⟨1, 2, 3, 0, 0⟩) ∧ (validTarget 2 = true ∧ validTarget 60 = true ∧ validTarget 62 = false ∧ validTarget 64 = false) ∧
    (1 ≤ ((4 : Word).toNat % 64 - 2) / 2 ∧ ((2 : Word).toNat % 64 - 2) / 2 < 1) ∧ decode 0xFF80 0 = .error .opcode ∧
    decode 0x0030 0x3081 = .error .format ∧ decode 0x0020 0x01003081 = .error (.field 24) ∧ (0 % 32 = 0 ∧ 31 % 32 = 31 ∧ (32 + 1) / 32 % 2 ^ 11 ≠ 0) :=
  ⟨by decide, by decide, by decide, rfl, by decide, by decide, rfl, rfl, rfl, by decide⟩

def placed (head tail : Nat) : State := State.reset.withFetchWord 64 (head + 2 ^ 16 * tail)

theorem witness_StepRunsDecodedInstruction :
    ∃ u g, (placed 0x0020 0x3081).pop = (.issue 0, u) ∧ ({ u.dev with cur := 0 } : Dev).current = some g ∧ g.notBefore ≤ u.clk.aclk ∧ u.dev.rollsBack g = false ∧
      g.trapDue = false ∧ g.consort = .none ∧ u.dev.codeLine u.clk g 0 = .ok (u.dev, addLine) ∧
      instrAt addLine g.arch.pc = .ok (.add q0 ⟨1, 2, 3, 0, 0⟩, BitVec.ofNat 64 66) ∧ ((u.dev.core 0).icache.find (g.arch.pc.toNat / 64)).isSome = true :=
  ⟨_, _, rfl, rfl, by decide, rfl, rfl, rfl, rfl, rfl, rfl⟩

theorem witness_StepRunsDecodedInstruction_fault : (match instrAt (lineWith 0 0xFF80 0) 2 with
    | .error (c, v) => c == cILLEGAL_OPCODE && v == 0xFF80
    | .ok _ => false) = true := by decide

theorem witness_StepKeepsClock : State.reset.clk.phase < 1200 ∧ 300 ≤ State.reset.clk.mhz ∧ State.reset.clk.mhz ≤ 600 ∧ State.reset.clk.mhz % 25 = 0 ∧
    (after (step (placed 0x2690 0))).isSome = true := by decide

theorem witness_StepKeepsClock_exec : (after (exec (.nop q0) (world base lfree))).isSome = true ∧ Instr.nop q0 ≠ .throttleDown ∧ Instr.nop q0 ≠ .throttleUp := by
  decide

theorem witness_MemoryReadsWhatWasStored : (256 : Nat) ≤ 256 ∧ (2 ^ 52 - 256) + 256 ≤ 2 ^ 52 ∧ State.reset.dev.ms.mem.wf = true ∧
    (∀ i < 8, State.reset.dev.ms.poisonAt (.slice 0) (0x80 + i) = false) ∧
    (({ State.reset.dev.ms with poison := [4] } : MemSys).partPoison (.slice 0) 0x80 1 2 8 = true) ∧
    (Place.slice 1 ≠ .slice 0 ∧ Place.slice 0 ≠ .control ∧ ∀ k, Place.slice 0 ≠ .remote k) ∧ (Memory.wf [(5, 1)] = true ∧ Memory.wf [] = true) :=
  ⟨by decide, by decide, by decide, by decide, by decide, ⟨by decide, by decide, fun k h => by cases h⟩, by decide⟩

theorem witness_RoundingKeepsValues : ((Ty.f32).isInt = false ∧ Ty.f32 ≠ .e8m0 ∧ 0x7F7FFFFF < 2 ^ (Ty.f32).width) ∧
    ((decodeVal .f32 0x7F7FFFFF).isNan = false ∧ (decodeVal .f32 1).isNan = false ∧ decodeVal .f32 0xFF800000 = .inf true) ∧
    ((decodeVal .f32 0x7F800001).isNan = true ∧ (decodeVal .e4m3 0xFF).isNan = true) ∧
    (2 ^ 23 ≤ 2 ^ 24 - 1 ∧ 2 ^ 24 - 1 < 2 ^ 24 ∧ -149 ≤ (-150 : Int) + (2 : Nat) ∧ (-150 : Int) + (2 : Nat) ≤ 104 ∧ 2 * 1 < 2 ^ 2) := by decide

/-! ## Witnesses: the host, the outside and the device's other agents -/

/-- The machine without a group, with its launch l. -/
def bare (l : Launch) : State :=
  let s := world base l
  { s with dev := s.dev.removeGroup base }
def withDev (s : State) (f : Dev → Dev) : State := { s with dev := f s.dev }
def qopen (head tail : BitVec 32) : LQueue := { LQueue.reset with state := 1, head := head, tail := tail }

theorem witness_HostRegisterWrites : (15 < 16 ∧ 63 < 64 ∧ 7 < 8 ∧ 4095 < 4096 ∧ 6 < 7) ∧ (∀ k < 64, (State.reset.dev.ctx 0 k).latched = none) ∧
    ((world base lfree).dev.ctx 0 0).latched ≠ none ∧ ((2 ^ 52 : Word).toNat / 2 ^ 52 ≠ 0 ∧ (4095 : Word).toNat % 4096 ≠ 0 ∧ (4096 : Word).toNat / 2 ^ 52 = 0) ∧
    ((world base lfree).dev.part 0).pclus &&& 1 ≠ 0 ∧ ((2 ^ 32 : Word).toNat / 2 ^ 32 ≠ 0 ∧ (16 : Word).toNat / 2 ^ 32 = 0) ∧
    ((qopen 0 0).state = 1 ∧ LQueue.reset.state = 0) ∧
    (2 ^ 31 < (((2 ^ 31 + 1 : Word).setWidth 32 : BitVec 32) - (qopen 0 0).tail).toNat ∧
      2 ^ (qopen 0 0).log2n - ((qopen 0 0).tail - (qopen 0 0).head).toNat < (((17 : Word).setWidth 32 : BitVec 32) - (qopen 0 0).tail).toNat ∧
      (((16 : Word).setWidth 32 : BitVec 32) - (qopen 0 0).tail).toNat ≤ 2 ^ (qopen 0 0).log2n - ((qopen 0 0).tail - (qopen 0 0).head).toNat) ∧
    (∀ k < 16, ∀ j < 64, (State.reset.dev.ctx k j).latched = none) := by
  refine ⟨by decide, fun k _ => rfl, by decide, by decide, by decide, by decide, by decide, by decide, fun k _ j _ => rfl⟩

def gsusp (cause : Nat) : Machine.Group := { base with status := .suspended, suspended := some ⟨cause, 5, 4, false⟩ }
def xret : Ctx := { Ctx.reset with latched := some lt0, retiring := true }
/-- A list entry that validates: the page table as its PTROOT, no pool, a slice of one microsecond; a backing with 4 slots at 0x100000. -/
def entryMem : Memory := (pageTable.writeN (0x40000 + 8) 0x100000 8).writeN (0x40000 + 44) 1 4 |>.writeN 0x100000 4 8
def listed : State := withDev (withMem State.reset entryMem) fun d =>
  { d.setPart 0 { d.part 0 with plbase := 0x40000, pclus := 1 } with retired := List.range' 1 15 }

theorem witness_ContextsAndReplies : nbit ((world base lfree).dev.runEntry 0 0) 399 = false ∧ xret.retiring = true ∧
    ((world base lfree).dev.ctx 0 0).latched = some lt0 ∧ ((world base lfree).dev.ctx 0 0).retiring = false ∧
    (world base lfree).dev.validate 0 0 0 = none ∧
    ((withDev State.reset fun d => d.setCtx 0 0 xret).dev.ctx 0 0).latched = some lt0 ∧ State.reset.dev.launchesOf 0 0 = [] ∧
    ((withDev State.reset fun d => d.setQueue 0 0 7 { LQueue.reset with state := 2 }).dev.lqueue 0 0 7).state = 2 ∧
    (world base lfree).dev.suspendedAt 0 0 0 = none ∧
    ((world (gsusp 21) lfree).dev.suspendedAt 0 0 base.recd.ticket = some (gsusp 21) ∧ (gsusp 21).suspended = some ⟨21, 5, 4, false⟩) ∧
    (listed.dev.ctx 0 0).retiring = false ∧ (listed.dev.validate 0 0 (listed.dev.runEntry 0 0)).isSome = true ∧
    ((world (gsusp 22) lfree).dev.suspendedAt 0 0 base.recd.ticket = some (gsusp 22) ∧ (world (gsusp 7) lfree).dev.suspendedAt 0 0 base.recd.ticket = some (gsusp 7)) :=
  ⟨by decide +kernel, rfl, rfl, rfl, by decide +kernel, rfl, rfl, rfl, rfl, ⟨rfl, rfl⟩, rfl, by decide +kernel, rfl, rfl⟩

/-- A package of a gang, with a deterministic launch of scope 5. -/
def gang (h : Word) : State := withDev (bare { lscope ldet 5 with doms := [(0, Dom.reset none)] }) fun d => { d with hgang := h }

/-- Zeros with the check sum that the device would send. -/
def zeroFlit : List Byte := List.replicate 248 0 ++ toBytes (Config.crc64 (List.replicate 248 0) % 2 ^ 64) 8

theorem ofBytes_toBytes (k n : Nat) : ofBytes (toBytes n k) = n % 256 ^ k := by
  induction k generalizing n with
  | zero => simp [toBytes, ofBytes, Nat.mod_one]
  | succ k ih =>
    have h : n % 256 ^ (k + 1) = n % 256 + 256 * (n / 256 % 256 ^ k) := by rw [Nat.pow_succ, Nat.mul_comm, Nat.mod_mul]
    rw [h, toBytes, ofBytes, ih, BitVec.toNat_ofNat]

theorem length_toBytes (k n : Nat) : (toBytes n k).length = k := by
  induction k generalizing n with
  | zero => rfl
  | succ k ih => simp [toBytes, ih]

/-- A sound flit with SEQ 0 for package 0 exists, whatever the check sum. -/
theorem witness_sound_flit : flitSound zeroFlit = true ∧ flitSeq zeroFlit = 0 ∧ flitDst zeroFlit = 0 := by
  have h8 : zeroFlit.take 8 = List.replicate 8 0 := by
    rw [zeroFlit, List.take_append_of_le_length (by rw [List.length_replicate]; decide)]; rfl
  have ht : zeroFlit.take 248 = List.replicate 248 0 := List.take_left' List.length_replicate
  have hd : zeroFlit.drop 248 = toBytes (Config.crc64 (List.replicate 248 0) % 2 ^ 64) 8 := List.drop_left' List.length_replicate
  have hl : zeroFlit.length = 256 := by rw [zeroFlit, List.length_append, length_toBytes, List.length_replicate]
  refine ⟨?_, ?_, ?_⟩
  · rw [flitSound, hl, ht, hd, ofBytes_toBytes, show (256 : Nat) ^ 8 = 2 ^ 64 by decide, Nat.mod_mod]
    exact Bool.and_eq_true_iff.mpr ⟨rfl, beq_self_eq_true _⟩
  · rw [flitSeq, flitHead, h8]; decide
  · rw [flitDst, flitHead, h8]; decide

theorem witness_HostMemoryAndLinks : (0x7FFEFFFFC0 + 64 ≤ 0x7FFF000000 ∧ 0x7FFF000000 < 0x7FFEFFFFC1 + 64) ∧ State.reset.dev.entriesIn 0 4 = [] ∧
    (0x7C % 64 + [1, 2, 3, 4].length ≤ 64) ∧ State.reset.dev.ms.l2 = [] ∧ flitSound [] = false ∧
    (let p : Port := { up := true, retraining := none, sendSeq := 0, recvSeq := 4095, retry := [], replays := [(0, 15)] }
     ((withDev State.reset fun d => d.setPort 5 p).dev.port 5).up = true ∧ ((withDev State.reset fun d => d.setPort 5 p).dev.port 5).retraining = none ∧
       ((withDev State.reset fun d => d.setPort 5 { p with retraining := some 0 }).dev.port 5).retraining = some 0) ∧
    ((gang 0x0003000100000001).dev.inGang = true ∧ ((gang 0x0003000100000001).dev.gangDom base.recd.launch 0 1).isSome = true ∧
      (1 :: (Dom.reset none).markers).length = (gang 0x0003000100000001).dev.gangSize - 1) ∧
    ((gang 0x0003000100010001).dev.pkg ≠ 0 ∧ (1 :: (Dom.reset none).markers).length < (gang 0x0003000100010002).dev.gangSize - 1) := by
  refine ⟨by decide, by decide, by decide, rfl, by decide, ⟨rfl, rfl, rfl⟩, by decide, by decide⟩

theorem witness_HealthAndPower : ((⟨.mem 3, true⟩ : UpsetTarget).correctable = true ∧ (⟨.ls base.gid 2, false⟩ : UpsetTarget).correctable = false) ∧
    (world base lfree).dev.groups.find base.gid = some base ∧
    ((withDev State.reset fun d => { d with upsets := [⟨.mem 3, true⟩] }).dev.upsets[0]? = some ⟨.mem 3, true⟩ ∧ ∀ gid file n, UpsetUnit.mem 3 ≠ .reg gid file n) ∧
    (State.reset.dev.lastAudit.toList[0]? = some 0 ∧ State.reset.dev.lastAudit.toList[1 - 0]? = some 0 ∧ ((0 : Nat) < 0 ∨ (0 : Nat) = 0 ∧ (0 : Nat) = 0) ∧
      0 + 12000000 ≤ 12000000) ∧ (withDev State.reset fun d => { d with cellUnc := [(1023, 2)] }).dev.worn 1023 = true ∧
    (300 < State.reset.clk.mhz ∧ 575 < 600) ∧
    ((withDev State.reset fun d => { d with overSince := some 0 }).dev.overPower 1200000 = true ∧
      (withDev State.reset fun d => { d with temp := 96 }).dev.tooHot = true ∧ State.reset.dev.overPower 0 = false ∧ State.reset.dev.tooHot = false ∧
      105 < (withDev State.reset fun d => { d with temp := 106 }).dev.temp.toNat) ∧ State.reset.dev.hstate ≠ 4 ∧ (withDev State.reset fun d => { d with quarantine := [7] }).dev.quarantine = [7] ∧
    (withDev State.reset fun d => { d with cxlUp := d.cxlUp.set 3 true }).dev.cxlUp.toList.getD 3 false = true ∧
    ((default : BootCopy).signed = false ∧ ({ (default : BootCopy) with signed := true } : BootCopy).keysMatch = false ∧
      (1 : Nat) < 2 ∧ ({ (default : BootCopy) with signed := true, keysMatch := true } : BootCopy).minimum ≤ 0) :=
  ⟨by decide, rfl, ⟨rfl, fun _ _ _ h => by cases h⟩, by decide, by decide, by decide, by decide, by decide, rfl, by decide, by decide⟩

/-- One record waits in a queue at 0x200000: FIRSTPC f, CTRL k, PRED p, LOGQ q. -/
def accepting (f k p q : Nat) : State :=
  let m := ((entryMem.writeN 0x200000 f 8).writeN 0x200008 k 8).writeN 0x200038 p 8 |>.writeN 0x200030 q 4
  withDev (withMem listed m) fun d => (d.setCtx 0 0 { Ctx.reset with latched := some lt0 }).setQueue 0 0 0 { qopen 0 1 with base := 0x200000 }
def recOf (s : State) : Nat := s.dev.headRecord (s.dev.lqueue 0 0 0)
def ready0 : State := accepting 0x400002 0x1000203 0 0
def ldone : Launch := { lfree with live := 0 }

theorem witness_AcceptanceAndCompletion : (ready0.dev.ctx 0 0).latched = some lt0 ∧ (ready0.dev.ctx 0 0).retiring = false ∧ (ready0.dev.lqueue 0 0 0).state = 1 ∧
    (ready0.dev.lqueue 0 0 0).head ≠ (ready0.dev.lqueue 0 0 0).tail ∧ (∀ k, k ≠ 0 → (ready0.dev.lqueue 0 0 k).state ≠ 1) ∧
    (∀ k, k ≠ 0 → (ready0.dev.ctx 0 k).latched = none) ∧
    ((ready0.dev.lqueue 0 0 0).held = none ∧ (∃ h, ready0.dev.validRecord 0 lt0 (recOf ready0) = some h ∧ ready0.dev.resolvePred 0 0 h = .final 0) ∧
      lrLogq (recOf ready0) * (ready0.dev.domKeys 0 (lrScope (recOf ready0))).length = 0 ∧ ready0.dev.ticketField 0 0 (lrScope (recOf ready0)) = some 0 ∧
      ready0.dev.inGang = false) ∧
    ((accepting 0 0 0 0).dev.validRecord 0 lt0 (recOf (accepting 0 0 0 0)) = none ∧
      ((accepting 0 0 0 0).dev.doneTranslates 0 lt0 (recOf (accepting 0 0 0 0))).isSome = true) ∧
    ((∃ h, (accepting 0x400002 0x1000203 0x300000 0).dev.validRecord 0 lt0 (recOf (accepting 0x400002 0x1000203 0x300000 0)) = some h ∧
        (accepting 0x400002 0x1000203 0x300000 0).dev.resolvePred 0 0 h = .unresolved) ∧
      lt0.poolsz < lrLogq (recOf (accepting 0x400002 0x1000803 0 64)) * ((accepting 0x400002 0x1000803 0 64).dev.domKeys 0 1).length) ∧
    ((bare ldone).dev.launches.find base.recd.launch = some ldone ∧ (bare ldone).dev.completable base.recd.launch ldone = true ∧ (bare ldone).dev.groups = [] ∧
      ldone.armed = [] ∧ ldone.irq = false ∧ ldone.groupsDone < 2 ^ 24) := by
  refine ⟨rfl, rfl, rfl, by decide +kernel, ?_, ?_, by decide +kernel, by decide +kernel, by decide +kernel, rfl, by decide +kernel, rfl, rfl, rfl, by decide +kernel⟩
  · intro k hk
    have h : ready0.dev.queues = [(0, { qopen 0 1 with base := 0x200000 })] := rfl
    simp [Dev.lqueue, h, Tab.getD, Tab.find, queueKey, ctxKey, Ne.symm hk, LQueue.reset]
  · intro k hk
    have h : ready0.dev.ctxs = [(0, { Ctx.reset with latched := some lt0 })] := rfl
    simp [Dev.ctx, h, Tab.getD, Tab.find, ctxKey, Ne.symm hk, Ctx.reset]

/-- A context with a launch that has groups to produce, and no group. -/
def lmore : Launch := { lfree with cells := [(0, 0)] }
def idle (l : Launch) : State := withDev (bare l) fun d => d.setPart 0 { d.part 0 with running := none }

theorem witness_SlicesAndRecords : 15 < 16 ∧ ((idle lmore).dev.part 0).running = none ∧ (idle lmore).dev.firstDue 0 0 = none ∧ (idle lmore).dev.nextEntry 0 = some 0 ∧
    (let s := withDev (bare lmore) fun d => d.setPart 0 { d.part 0 with sliceEnd := 0 }
     (s.dev.part 0).running = some 0 ∧ (s.dev.part 0).sliceEnd ≤ s.clk.fclk ∧ s.dev.firstDue 0 0 = none ∧ s.dev.nextEntry 0 = some 0) ∧
    ((bare lmore).dev.launches = [(base.recd.launch, lmore)] ∧ (bare lmore).dev.runs base.recd.launch = true ∧ lmore.torn = false ∧
      ((bare lmore).dev.pool 0).length < 960 ∧ nextPosition lmore 0 = some (0, 0, 0)) ∧ 2 ^ 24 - 1 < 2 ^ 24 ∧ lmore.foot = none := by
  refine ⟨by decide, rfl, by decide, by decide, ⟨rfl, by decide, by decide, by decide⟩, ⟨rfl, by decide, rfl, by decide, by decide⟩, by decide, rfl⟩

/-- A record of the launch waits in cluster 0's pool. -/
def arec : Rec := launchRec base.recd.launch lfree 0 0
def pooled (l : Launch) : State := withDev (bare l) fun d => { d with pools := [(0, [arec])] }
def noSlot (s : State) : State := withDev s fun d => d.setCtx 0 0 { d.ctx 0 0 with latched := some { lt0 with nslot := 0 } }
def gpark : Machine.Group := { base with core := none, status := .parked, readyAt := some 0 }
def parkedAt : State := withDev (bare lfree) fun d => d.setGroup gpark
def gfetch (rs : List Region) : Machine.Group := { base with status := .fetching, recd := { base.recd with regions := rs } }
def lab : Launch := { lfree with live := 0, abortpc := 0x42, raised := [0], raisedAt := some 0 }

theorem witness_StartingGroups : ((pooled lfree).dev.freeCores 0 = [0, 1, 2, 3] ∧ (pooled lfree).dev.bestCand 0 [0, 1, 2, 3] = some (.record arec) ∧ arec.team4 = false ∧
      (pooled lfree).dev.launches.find arec.launch = some lfree ∧ lfree.abortIn 0 = false ∧ lab.abortIn 0 = true) ∧
    (pooled lfree).dev.chooseSlot 0 0 = some 0 ∧
    (parkedAt.dev.freeCores (cellOf 0) = [0, 1, 2, 3] ∧ parkedAt.dev.groups.find gpark.gid = some gpark ∧ gpark.recd.home = cellOf 0 ∧ gpark.recd.team4 = false ∧
      (match parkedAt.dev.bestCand 0 [0, 1, 2, 3] with
        | some (.group k _) => k == gpark.gid
        | _ => false) = true) ∧
    ((world (gfetch []) lfree).dev.groups.find base.gid = some (gfetch []) ∧ (gfetch []).status = .fetching ∧ (gfetch []).fetchPos = 0 ∧
      (gfetch []).fetchFault = none ∧ (gfetch []).recd.addr = none) ∧
    ((piecesOf [{ (default : Region) with nb := 1 }])[0]? = some (0, 0, 256) ∧ lfree.mode ≠ .ilv) ∧
    (((noSlot (pooled lfree)).dev.part 0).running = some 0 ∧ (noSlot (pooled lfree)).dev.freeSlotCount 0 0 = 0 ∧ (noSlot (pooled lfree)).dev.groups = [] ∧
      (noSlot (pooled lfree)).dev.pools = [(clusterOfCell arec.home, [arec])] ∧ (noSlot (pooled lfree)).dev.runs arec.launch = true ∧
      (noSlot (pooled lfree)).dev.freeCores arec.home = [0, 1, 2, 3]) ∧
    ((bare lab).dev.launches.find base.recd.launch = some lab ∧ lab.abortDue = true ∧ (bare lab).dev.runs base.recd.launch = true ∧ (bare lab).dev.groups = [] ∧
      ((bare lab).dev.cellList 0).head? = some 0 ∧ ((bare lab).dev.freeCores 0).head? = some 0) := by
  refine ⟨⟨by decide, by decide, rfl, rfl, by decide, by decide⟩, ?_, ⟨by decide, rfl, rfl, rfl, by decide⟩, ⟨rfl, rfl, rfl, rfl, rfl⟩, ⟨by decide, by decide⟩,
    ⟨rfl, by decide, rfl, rfl, by decide, by decide⟩, ⟨rfl, by decide, by decide, rfl, by decide, by decide⟩⟩
  show ([0] : List Nat)[Config.slotChoice (pooled lfree).dev.nfree % 1]? = some 0
  rw [Nat.mod_one]; rfl

/-- A deterministic launch whose domain of scope 1 (the cell) is in a phase. -/
def ldom (ph : Phase) : Launch := { lscope ldet 1 with doms := [((lscope ldet 1).domOf 0, { Dom.reset none with phase := ph })] }
def ddom : Nat := (lscope ldet 1).domOf 0
def gbuf : Machine.Group := { base with arch := { base.arch with buffer := [anOp (.store 7 0xFF)] } }

theorem witness_LogAndCommit : ((world gbuf ldet).dev.groups.find base.gid = some gbuf ∧ gbuf.arch.buffer = anOp (.store 7 0xFF) :: []) ∧
    (State.reset.dev.reachable (anOp (.store 7 0xFF)).xl.pa = true ∧ (anOp (.store 7 0xFF)).kind = .store 7 0xFF ∧
      State.reset.dev.ms.firstPoison (.slice 0) 0x80 8 = none ∧ ({ State.reset.dev.ms with poison := [4] } : MemSys).firstPoison (.slice 0) 0x80 8 = some 0x80) ∧
    (gpend.arch.tokCount 3 = 1 ∧ (findEntry gpend.arch 3 base.arch.nextId).isSome = true) ∧
    (ddom ∈ (ldom .commit).doms.map (·.1) ∧ (ldom .commit).mode = .det ∧ (ldom .commit).torn = false ∧ (ldom .commit).raisedAt = none ∧
      ((ldom .commit).doms.getD ddom (Dom.reset none)).rollback = none ∧ ((ldom .commit).doms.getD ddom (Dom.reset none)).phase = .commit ∧
      (ldom .commit).scope ≠ 5) ∧
    ((world base (ldom .commit)).dev.domGroups base.recd.launch (ldom .commit) ddom = [base] ∧ base.arch.buffer = [] ∧ base.busy = false) ∧
    (world { base with status := .provisional } (ldom .commit)).dev.domGroups base.recd.launch (ldom .commit) ddom = [{ base with status := .provisional }] := by
  refine ⟨⟨rfl, rfl⟩, by decide, by decide, by decide, ⟨rfl, rfl, by decide⟩, rfl⟩

def gexch : Machine.Group := { base with arch := { base.arch with copySlots := base.arch.copySlots.set 3 (.exchange default) } }
def lilv : Launch := { lfree with mode := .ilv }
def gtrap : Machine.Group := { base with arch := { base.arch with deferred := [⟨cPOISON, 5, false⟩] } }

theorem witness_FretEndAndRounds : ((ldom .committed).mode = .det ∧ ((ldom .committed).doms.getD ddom (Dom.reset none)).phase = .committed ∧ (ldom .committed).raisedAt = none) ∧
    (((ldom .exchange).doms.getD ddom (Dom.reset none)).phase = .exchange ∧ ((ldom .exchange).doms.getD ddom (Dom.reset none)).rollback = none ∧
      ((world base (ldom .exchange)).dev.domGroups base.recd.launch (ldom .exchange) ddom).any (world base (ldom .exchange)).dev.exchanging = false) ∧
    (({ base with arrived := some 7 } : Machine.Group).arrived = some 7 ∧ base.arrived = none) ∧
    ((∀ i < 4, gexch.arch.copySlots.toList[i]? = some (if i = 3 then .exchange default else .empty)) ∧ ∀ i < 4, gexch.arch.indSlots.toList[i]? = some .empty) ∧
    (lilv.mode = .ilv ∧ (world (gop (.load [] false 0)) lilv).dev.liveGrants default lilv = [] ∧
      (((world (gop (.load [] false 0)) lilv).dev.groups.map (·.2)).filter fun g =>
        g.recd.launch == base.recd.launch && (world (gop (.load [] false 0)) lilv).dev.accessWaits default g) ≠ []) ∧
    (lab.raisedAt.isSome = true ∧ 63 < 64 ∧ 63 ∉ lab.raised) ∧
    (gtrap.status = .running ∧ gtrap.core.isSome = true ∧ gtrap.arch.k.inTrap = false ∧ gtrap.arch.commitPoison = none ∧ gtrap.arch.deferred = ⟨cPOISON, 5, false⟩ :: []) ∧
    (base.arrived = none ∧ base.released = none) := by
  refine ⟨by decide, by decide, by decide, by decide, ⟨rfl, by decide, by decide⟩, by decide, ⟨rfl, rfl, rfl, rfl, rfl⟩, by decide⟩

theorem witness_RollbackResults : (({ Dom.reset none with rollback := some (base.gid, 5) } : Dom).rollback = some (base.gid, 5) ∧ (Dom.reset none).phase ≠ .exchange ∧ (Dom.reset none).rerun = false ∧
      (Dom.reset none).exchAgain = false) ∧ (({ base with snap := some base.arch } : Machine.Group).snap = some base.arch ∧ base.status = .running ∧ base.core = some 0) := by
  refine ⟨by decide, rfl, rfl, rfl⟩

theorem witness_PerformedLoads : ((world (gop (.load [.x 1] false 0)) lfree).dev.readyFor base.gid 0 = some (gop (.load [.x 1] false 0), anOp (.load [.x 1] false 0)) ∧
      (anOp (.load [.x 1] false 0)).kind = .load [.x 1] false 0) ∧ (xm.typ ≠ 2 ∧ (anOp (.load [] false 0)).plain = false) ∧
    ((world base ldet).dev.modeOf base = .det ∧ (world base lfree).dev.modeOf base ≠ .det) ∧
    (State.reset.dev.reachable 0x80 = true ∧ State.reset.dev.reachable 0x200000000000 = false ∧ ∀ i < 8, State.reset.dev.ms.poisonAt (.slice 0) (0x80 + i) = false) ∧
    (∀ i < 1, ({ State.reset.dev.ms with poison := [4] } : MemSys).poisonAt (.slice 0) (0x80 + i) = true) := by
  refine ⟨⟨rfl, rfl⟩, by decide, by decide, by decide, by decide⟩

theorem witness_PerformedStoresFlagsEntries : (world (gop (.store 7 0xFF)) lfree).dev.readyFor base.gid 0 = some (gop (.store 7 0xFF), anOp (.store 7 0xFF)) ∧
    (world (gop (.flag none 5 true)) lfree).dev.readyFor base.gid 0 = some (gop (.flag none 5 true), anOp (.flag none 5 true)) ∧
    ((world base lfree).dev.flagGroup base (some 3) = none ∧ ((world base lfree).dev.flagGroup base (some 0)).isSome = true) ∧ 1023 < 1024 ∧
    (let g := base.entered 3 .divide false (some 0) [.x 1] [(.x 1, 9)]
     (world g lfree).dev.groups.find base.gid = some g ∧ tokOf base.arch.nextId 0 g.arch.toks.toList = some 3 ∧
       findEntry g.arch 3 base.arch.nextId = some ⟨base.arch.nextId, .divide, false, false, some 0, [.x 1], [(.x 1, 9)], [], BitVec.allOnes 128⟩ ∧ 0 ≤ (world g lfree).clk.aclk) ∧
    (RegRef.x 63 = .x 63 ∧ 0 < 63 ∧ 2 ^ 64 - 1 < 2 ^ 64) := by
  refine ⟨rfl, rfl, ⟨by decide, by decide⟩, by decide, ⟨rfl, rfl, rfl, by decide⟩, by decide⟩

theorem witness_AtomicEffects : ((world (gop (.amo 0 0 0 false 1 0 [.x 1])) lfree).dev.readyFor base.gid 0 =
      some (gop (.amo 0 0 0 false 1 0 [.x 1]), anOp (.amo 0 0 0 false 1 0 [.x 1])) ∧ (anOp (.amo 0 0 0 false 1 0 [.x 1])).kind.isAtomic = true) ∧
    State.reset.dev.readIn State.reset.dev.ms xm 8 = (0, none) ∧ (amoNew 0 0 0 false 64 5 1 0 = some 6 ∧ amoNew 10 0 0 false 64 5 1 0 = none) ∧
    ((world (gop (.join [.x 1])) lfree).dev.readyFor base.gid 0).isSome = true ∧ (nbits 0 64 32 = 0 ∧ 1 < nbits (2 ^ 65) 64 32 ∧ nbits (2 ^ 64) 64 32 = 1) ∧
    ((State.reset.dev.shadow.find (xm.pa / 64)).isSome = false ∧ nbit (2 ^ 64) 99 = false ∧ nbits (2 ^ 64) 64 32 ≠ 0 ∧ nbit (2 ^ 99) 99 = true) ∧
    ((world (gop (.spawn 1 [.x 1])) lfree).dev.readyFor base.gid 0).isSome = true ∧
    ((withDev State.reset fun d => { d with ms := { d.ms with poison := [4] } }).dev.readIn { State.reset.dev.ms with poison := [4] } xm 8).2 = some 0x80 ∧
    (let d := (withMem State.reset (Memory.writeN [] 0x88 (2 ^ 35 + 1) 8)).dev
     nbits (d.recordImage xm) 64 32 = 1 ∧ nbit (d.recordImage xm) 99 = true ∧ d.shadow.find (xm.pa / 64) = none) ∧ (2 ^ 8 - 1 < 2 ^ 8) := by
  refine ⟨⟨rfl, rfl⟩, by decide, by decide, by decide, by decide, by decide, by decide, by decide, ⟨by decide, by decide, rfl⟩, by decide⟩

def walking (va : Nat) (drop : Bool) : State := withDev (paged (world { base with stall := .tlb } lfree)) fun d => { d with walks := [(0, [⟨0, base.gid, va, drop⟩])] }
def gaway : Machine.Group := { base with core := none, status := .away, linesOn := some 0 }
/-- A newcomer on core 0 misses on line 1 of the group that left it. -/
def missing : State := withDev (paged (world gaway lfree)) fun d =>
  (d.setGroup { base with gid := 99, stall := .refill 1 }).setCore 0 { d.core 0 with group := some 99 }
def gback : Machine.Group := { base with linesOut := [1279, 256] }
def l2of (dirty : BitVec 8) : State := withDev State.reset fun d =>
  { d with ms := { d.ms with l2 := [(5 * 2 ^ 44 + 3, ⟨0xFF, dirty, 7, 0, 0, false, false⟩)] } }

theorem witness_WalksAndLines : ((walking 0x100 false).dev.walks.getD 0 [] = ⟨0, base.gid, 0x100, false⟩ :: [] ∧ (walking 0x100 false).dev.latchedOf base = some (0, lt0) ∧
      ((walking 0x100 false).dev.walk lt0 0x100).isSome = true ∧ (walking (2 ^ 40) false).dev.walk lt0 (2 ^ 40) = none ∧
      ({ base with stall := .tlb } : Machine.Group).stall = .tlb ∧ base.status = .running ∧ base.stall ≠ .tlb) ∧
    ((world gback lfree).dev.latchedOf gback = some (0, lt0) ∧ gback.core.isSome = true ∧ 1279 ∈ gback.linesOut ∧ 1279 < 2048 ∧ 256 ≤ 1279 ∧ gback.arch.ls.wf = true ∧
      (match (paged (world gback lfree)).dev.slotXlat (some 0) 0 lt0 (0x10000 + 256 * 1279) .load with
        | .ok x => State.reset.dev.reachable x.pa
        | .error _ => false) = true) ∧
    (missing.dev.groups.find base.gid = some gaway ∧ gaway.core = none ∧ missing.dev.lineMissed gaway 1 = true ∧ 1 ∉ gaway.linesOut ∧
      (∀ i < 32, gaway.lineMark 1 i = false) ∧
      (match missing.dev.slotXlat (some 0) 0 lt0 (0x10000 + 256 * 1) .store with
        | .ok _ => true
        | .error _ => false) = true) ∧
    ((l2of 0).dev.ms.l2.find (5 * 2 ^ 44 + 3) = some ⟨0xFF, 0, 7, 0, 0, false, false⟩ ∧ (0x80 : BitVec 8) ≠ 0 ∧ (l2of 0x80).dev.reachable (256 * 3) = true ∧
      (0x80 : BitVec 8) &&& 0 = 0 ∧ (l2of 0x80).dev.ms.mem.wf = true) := by
  refine ⟨⟨rfl, rfl, by decide +kernel, by decide +kernel, rfl, rfl, by decide +kernel⟩, ⟨rfl, rfl, by decide +kernel, by decide +kernel, by decide +kernel, rfl, by decide +kernel⟩,
    ⟨rfl, rfl, by decide +kernel, by decide +kernel, by decide +kernel, by decide +kernel⟩, by decide +kernel⟩

/-- One dimension of 16 binary32 elements, local to local. -/
def shape16 : Shape := { (default : Shape) with ty := 10, dims := [⟨16, 1, 1⟩], esz := 4 }
def ccmd : CopyCmd := { (default : CopyCmd) with shape := some shape16, dbase := 0x1000 }
def gcopy (c : CopyCmd) : Machine.Group := { base with arch := { base.arch with copyIn := [c] } }
def gjob (k : Nat) : Machine.Group := { base with arch := { base.arch with copyJob := some ⟨ccmd, k, Finger.reset, false, 0, []⟩ } }

theorem witness_CopyEngineSteps : ((world (gcopy ccmd) lfree).dev.groups.find base.gid = some (gcopy ccmd) ∧ (gcopy ccmd).arch.released ccmd.after = true ∧ (world (gcopy ccmd) lfree).dev.engineRuns (gcopy ccmd) = true ∧
      (gcopy ccmd).arch.copyJob = none ∧ (gcopy ccmd).arch.copyIn = ccmd :: [] ∧ (gcopy ccmd).arch.gops = []) ∧
    (({ ccmd with shape := none } : CopyCmd).shape = none ∧ 1 ≤ eszBits shape16.esz / 8 ∧ ccmd.dbase.toNat % (eszBits shape16.esz / 8) = 0 ∧
      (2 : Word).toNat % (eszBits shape16.esz / 8) ≠ 0 ∧ ccmd.exch = false) ∧
    ((gjob 0).arch.copyJob = some ⟨ccmd, 0, Finger.reset, false, 0, []⟩ ∧ (world (gjob 0) lfree).dev.stopsJobs (gjob 0) = false ∧
      (world (gjob 0) { lfree with raised := [0], raisedAt := some 0 }).dev.stopsJobs (gjob 0) = true ∧ 0 < shape16.chunks ∧ shape16.chunks ≤ 1 ∧
      (world (gjob 0) lfree).dev.granted (gjob 0) false = true ∧
      (match (world (gjob 0) lfree).dev.readChunk (gjob 0) ccmd 32 shape16.walk 16 0 with
        | .ok (vs, none) => vs.length == 16 && (boundChunk (gjob 0).arch.m.bnd.toList shape16 vs).isSome &&
            (match (world (gjob 0) lfree).dev.placeChunk (gjob 0) ccmd 32 shape16.walk 16 0 vs with
              | .ok _ => true
              | .error _ => false)
        | _ => false) = true) ∧
    (let b : Bound := { (default : Bound) with v := true }
     boundChunk [b] { shape16 with tidv := true, tid := 0 } [1] ≠ some ([1], false) ∧
       (match (world (gjob 0) lfree).dev.readChunk (gjob 0) { ccmd with ss := 2, sbase := 2 ^ 57 } 32 shape16.walk 16 0 with
        | .error e => e.1 == sACCESS
        | .ok _ => false) = true) ∧
    (ccmd.ss = 0 ∧ ∀ k < 16, (ccmd.sbase + BitVec.ofInt 64 ((elemAt shape16.walk (0 + k)).1 * (32 / 8 : Nat))).toNat + 32 / 8 ≤ 0x40000) ∧
    (sOK < 32 ∧ sOK ≠ sPAGE ∧ sOK ≠ sACCESS ∧ sOK ≠ sPOISON ∧ ccmd.entry = none ∧ ccmd.ring < 8) := by
  refine ⟨⟨rfl, by decide, by decide, rfl, rfl, rfl⟩, by decide, ⟨rfl, by decide, by decide, by decide, by decide, by decide, by decide⟩, by decide, by decide, by decide⟩

/-- The end of the second fclk. -/
def later (s : State) : State := { s with clk := { s.clk with fclk := 1, closing := true } }

def icmd (op : IndOp) : IndCmd := { (default : IndCmd) with op := op, n := 1, row := 8, clu := 0x100, gid := base.gid, ty := 10 }
def iworld (q : List IndCmd) (j : Option IndJob) : State := withDev (paged (world base lfree)) fun d => { d with indirect := [(0, ⟨q, j, []⟩)] }
def ijob (op : IndOp) (merged : Bool) : IndJob := ⟨icmd op, 0, 0, merged, [], none, []⟩

theorem witness_IndirectEngineSteps : (((iworld [icmd .gat] none).dev.indirect.getD 0 Indirect.reset).job = none ∧
      ((iworld [icmd .gat] none).dev.indirect.getD 0 Indirect.reset).queue = icmd .gat :: [] ∧ (iworld [icmd .gat] none).dev.groups.find base.gid = some base ∧
      (iworld [icmd .gat] none).dev.engineRuns base = true ∧ base.arch.released (icmd .gat).after = true ∧
      (icmd .gat).at_ < (later (iworld [icmd .gat] none)).clk.fclk) ∧ (icmd .gat).base.toNat % 8 = 0 ∧
    ((iworld [] (some (ijob .gat false))).dev.indRun 0 = some (ijob .gat false, base) ∧ (iworld [] (some (ijob .chs true))).dev.indRun 0 = some (ijob .chs true, base)) ∧
    ((iworld [] none).dev.stopsJobs base = false ∧ (iworld [] none).dev.granted base true = true) ∧
    (match (iworld [] none).dev.moveRows base (icmd .gat) true (chunkOf 8 1 0) (none, []) with
      | .ok (ws, none, _) => ws.length == 1
      | _ => false) = true ∧
    (match (iworld [] none).dev.moveRows base { icmd .gat with base := 2 ^ 57 } true (chunkOf 8 1 0) (none, []) with
      | .error e => e.1 == sACCESS
      | .ok _ => false) = true ∧
    (match (withMem (iworld [] none) (pageTable.writeN 0x20000 0x47B 8)).dev.mergePass base (icmd .scaAdd) (none, []) with
      | .ok (ups, none, _) => ups.length != 0
      | _ => false) = true ∧
    State.reset.dev.readIn State.reset.dev.ms xm 8 = (0, none) := by
  refine ⟨⟨rfl, rfl, rfl, by decide +kernel, by decide +kernel, by decide +kernel⟩, by decide +kernel, ⟨rfl, rfl⟩, by decide +kernel, by decide +kernel, by decide +kernel, by decide +kernel, by decide +kernel⟩

def gbridge : Machine.Group :=
  let b := { base.arch.bridge with copyEvents := 1 }
  { base with arch := { base.arch with bridge := b, copySlots := base.arch.copySlots.set 2 (.bridge ccmd), indSlots := base.arch.indSlots.set 1 (.bridge (icmd .gat)) } }

theorem witness_BridgeEvaluation : ((later (world gbridge lfree)).dev.groups.find base.gid = some gbridge ∧ (later (world gbridge lfree)).dev.engineRuns gbridge = true ∧
      gbridge.arch.bridge.last < (later (world gbridge lfree)).clk.fclk ∧ gbridge.arch.bridge.idle 1 = false ∧ (later (world gbridge lfree)).clk.closing = true) ∧ (∀ c ∈ gbridge.arch.bridge.config, 1 ≤ c.1) ∧
    (gbridge.arch.bridge.term.toList.all (fun m => !termTrue gbridge.arch.bridge.ec m) = true) ∧
    (gbridge.arch.copySlots.toList[2]? = some (.bridge ccmd) ∧ gbridge.arch.copyIn.length < 8 ∧ 8 ≤ gcpy8.arch.copyIn.length ∧
      gbridge.arch.indSlots.toList[1]? = some (.bridge (icmd .gat)) ∧ 4 ≤ gind4.arch.indPending ∧ (world gbridge lfree).dev.modeOf gbridge ≠ .det) := by
  refine ⟨⟨rfl, by decide, by decide, by decide, rfl⟩, by decide, by decide, by decide⟩

def gmat (ws : List Word) (run : MRun) : Machine.Group := { base with arch := { base.arch with mu := { base.arch.mu with queue := [cmd ws], run := run } } }
def started : MRun := { MRun.reset with started := true }
/-- An MMA of binary32 by binary32 into slot 0 from rings 0 and 1: M 32, N 32, K 32. -/
def mmaWords : List Word := [1 + 1 * 2 ^ 14 + 10 * 2 ^ 22 + 10 * 2 ^ 27, 32, 32 + 32 * 2 ^ 32]
def ended (code : Nat) : MRun := { started with ending := some code }
def gred : Machine.Group := gmat [6] MRun.reset

theorem witness_MatrixCommandSteps : ((world (gmat [3, 1] MRun.reset) lfree).dev.groups.find base.gid = some (gmat [3, 1] MRun.reset) ∧
      (gmat [3, 1] MRun.reset).arch.mu.queue = cmd [3, 1] :: [] ∧ 1 ≤ (cmd [3, 1]).op ∧ (cmd [3, 1]).op ≤ 5 ∧ (gmat [3, 1] MRun.reset).arch.mu.run.ending = none ∧
      (gmat [3, 1] MRun.reset).arch.mu.run.left = 0 ∧ (world (gmat [3, 1] MRun.reset) lfree).dev.matrixRuns (gmat [3, 1] MRun.reset) = true) ∧
    ((world (gmat [3, 1] MRun.reset) lfree).dev.abortsHead (gmat [3, 1] MRun.reset) = false ∧
      (world (gmat [3, 1] MRun.reset) { lfree with raised := [0], raisedAt := some 0 }).dev.abortsHead (gmat [3, 1] MRun.reset) = true ∧ (world base lfree).dev.stopsJobs base = false ∧ MRun.reset.started = false ∧ (gmat [3, 1] MRun.reset).arch.mu.halted = false ∧
      (gmat [3, 1] MRun.reset).arch.released (cmd [3, 1]).after = true ∧ started.started = true ∧ (world base lfree).dev.granted base true = true ∧ started.scan = none) ∧
    ringsReady { base with arch := (base.arch.setRing 0 ⟨0, 4096, 4096, 0, 1⟩).setRing 1 ⟨0, 4096, 4096, 0, 1⟩ } (cmd mmaWords) = true ∧
    (base.arch.acc.wf = true ∧ base.arch.accPoison = []) ∧ ([1, 2, 3, 4, 5].map fun n : Word => (cmd [n]).op) = [1, 2, 3, 4, 5] ∧
    ((world base lfree).dev.modeOf base ≠ .det ∧ (world base ldet).dev.modeOf base = .det) ∧ (cmd [3, 1]).entry = none := by
  refine ⟨⟨rfl, rfl, by decide +kernel, by decide +kernel, rfl, rfl, by decide +kernel⟩, ⟨by decide +kernel, by decide +kernel, by decide +kernel, rfl, rfl, by decide +kernel, rfl, by decide +kernel, rfl⟩, by decide +kernel, ⟨rfl, rfl⟩, by decide +kernel, by decide +kernel, rfl⟩

theorem witness_MatrixRetireRedGovernor : ((world gred lfree).dev.groups.find base.gid = some gred ∧ gred.arch.mu.queue = cmd [6] :: [] ∧ (cmd [6]).op = 6 ∧
      gred.arch.mu.run.ending = none ∧ gred.arch.mu.run.left = 0 ∧ gred.arch.mu.halted = false ∧ (world gred lfree).dev.matrixRuns gred = true ∧
      (world gred lfree).dev.abortsHead gred = false ∧ ((world gred lfree).dev.quad gred).length < 4) ∧
    (let mate (k : Nat) : Machine.Group := { gred with gid := k, core := none, recd := { gred.recd with team4 := true, ticket := BitVec.ofNat 64 (k * 2 ^ 24) } }
     let d := [0, 1, 2, 3].foldl (fun (d : Dev) k => d.setGroup (mate k)) (bare lfree).dev
     (d.quad (mate 0)).length = 4 ∧ (d.quad (mate 0)).all (fun h => redHead h && d.matrixRuns h && h.arch.mu.run.left == 0 && h.arch.released 0) = true) ∧
    ((gmat [3, 1] (ended 0)).arch.mu.run.ending = some 0 ∧ (gmat [4] (ended sBOUND)).arch.mu.run.ending = some sBOUND ∧ 2 < (cmd [4]).op) ∧
    (world gred lfree).dev.windowAt < 64 / 64 * 64 := by
  refine ⟨⟨rfl, rfl, by decide, rfl, rfl, rfl, by decide, by decide, by decide⟩, by decide, by decide, by decide⟩

/-! ## Completion and commits -/

/-- A group with an element in each FIFO, a latch and a flag set. -/
def gflow : Machine.Group :=
  ({ gx with arch := { gx.arch with copyOut := [0], indOut := [0], latches := 2 } }).setFlag 5 true

theorem witness_FlowFlagEngineCompletion :
    Opens (world gflow lfree) gflow [.x 2, .x 3, .q 1, .q 2] [.q 7, .x 1, .x 60, .x 61, .x 62, .x 63] ∧ gflow.core = some 0 ∧ gflow.isAbort = false ∧
    (world gflow lfree).dev.launches.find gflow.recd.launch = some lfree ∧ (∀ s : State, s.parsReady gflow (parT 0 0x100 0x400 0x40 0)) ∧
    (gflow.arch.tokCount 31 < 63 ∧ (60 : BitVec 6).toNat ≤ 60 ∧ gflow.arch.latches.getLsbD 1 = true ∧ nbits (0 : BitVec 256).toNat 64 5 ≠ 7 ∧
      gflow.arch.copyOut ≠ [] ∧ gflow.arch.indOut ≠ []) ∧
    ((world gflow lfree).dev.testFlag gflow none 5 = true ∧
      ((world gflow { lfree with raised := [0], raisedAt := some 0 }).dev.env (world gflow lfree).clk gflow).aborted = true) ∧
    (0x100 % 256 = 0 ∧ 0x100 + 0x400 ≤ 0x40000 ∧ 0x40 % 64 = 0 ∧ 0x400 % 0x40 = 0 ∧ 1 ≤ 0x400 / 0x40 ∧ 0x400 / 0x40 ≤ 4096 ∧
      ringBusy gflow.arch 0 mcmdUsesRing = false) ∧
    ((world base lfree).dev.windowGroup 0 = some base ∧ base.arch.mu.queue.length < 16 ∧ State.reset.dev.windowGroup 4095 = none) ∧
    (nbit (listed.dev.runEntry 0 1) 399 = false ∧ ((world base lfree).dev.ctx 0 0).latched.isSome = true ∧ ((world base lfree).dev.ctx 0 0).retiring = false ∧
      xret.latched.isSome = true ∧ xret.retiring = true ∧ State.reset.dev.launchesOf 0 0 = []) ∧
    ((world (gcopy ccmd) lfree).dev.engineRuns (gcopy ccmd) = true ∧ (gcopy ccmd).arch.released ccmd.after = true ∧
      (world (gjob 0) lfree).dev.engineRuns (gjob 0) = true ∧ (world (gjob 0) lfree).dev.granted (gjob 0) true = true ∧ ccmd.re = false) :=
  ⟨opens_of rfl rfl rfl rfl rfl ⟨rfl, rfl, rfl⟩, rfl, rfl, rfl, fun s => parsReady_imm _ _ _ _ _ _ _, by decide, by decide, by decide,
    ⟨rfl, by decide +kernel, rfl⟩, ⟨by decide +kernel, rfl, rfl, rfl, rfl, rfl⟩, by decide +kernel⟩

/-- A domain whose commit may begin at the end of the fclk, with one logged store. -/
def committing : State :=
  let l := ldom .commit
  let dm := { Dom.reset none with phase := .commit, log := [⟨base.recd.ticket, anOp (.store 7 0xFF), base.gid⟩] }
  later (world base { l with doms := [(ddom, dm)] })

theorem witness_commit_at_the_end_of_the_fclk : committing.clk.closing = true ∧ (committing.dev.readyCommits.map (·.dom)) = [ddom] ∧
    (after (exec (.commitPhaseStart base.recd.launch ddom) committing)).isSome = true ∧
    (after (exec (.commitPhaseStart base.recd.launch ddom) { committing with clk := { committing.clk with closing := false } })).isSome = false := by decide

/-! ## Witnesses of the clauses on teams, handlers, other packages, the host's lines and lines out -/

/-- A member of rank k of a team of four at its `gang`. -/
def ganging (k : Nat) : Machine.Group :=
  { base with gid := base.gid + k, core := some k, ganged := true, stall := .gang
              recd := { base.recd with team4 := true, ticket := BitVec.ofNat 64 (k * 2 ^ 24) } }
/-- The member of rank 0 issues its `gang`; the others are there. -/
def gfirst : Machine.Group := { ganging 0 with ganged := false, stall := .none }
def team4 : State :=
  let s := world gfirst lfree
  { s with dev := [1, 2, 3].foldl (fun (d : Dev) k => d.setGroup (ganging k)) s.dev }

theorem witness_GangOfTheLastMember : team4.issuing gfirst ∧ team4.guardOn gfirst q0 ∧ gfirst.recd.team4 = true ∧
    (team4.dev.env team4.clk gfirst).aborted = false ∧ (team4.dev.groups.map (·.1)).Nodup ∧ (∀ kg ∈ team4.dev.groups, kg.2.gid = kg.1) ∧
    gfirst.status ≠ .provisional ∧ (∀ h ∈ team4.dev.team gfirst, h.consort = .none ∧ (h.gid ≠ gfirst.gid → h.ganged = true)) ∧
    gfirst ∈ team4.dev.team gfirst ∧ (∀ h ∈ team4.dev.team gfirst, h.gid ≠ gfirst.gid → teamPos gfirst < teamPos h) ∧
    (team4.dev.team gfirst).length = 4 := by
  refine ⟨rfl, ⟨Or.inl rfl, by decide⟩, rfl, ?_, ?_, ?_, ?_, ?_, List.mem_of_mem_head? rfl, ?_, ?_⟩ <;> decide +kernel

/-- A group with a load issued and not performed, and one whose only access is of an uncached device. -/
def gacq : Machine.Group := gop (.load [.x 1] false 0)
def gdevice : Machine.Group := gop (.store 7 0xFF) |> fun g =>
  { g with arch := { g.arch with gops := g.arch.gops.map fun o => { o with xl := { o.xl with typ := 2 } } } }

theorem witness_PendingAcquiresAndDevices : (world gacq lfree).issuing gacq ∧ gacq.arch.gops.any GOp.beforeAcquire = true ∧ base.arch.gops.any GOp.beforeAcquire = false ∧ gdevice.arch.gops.any GOp.beforeAcquire = false ∧
    gdevice.arch.gops ≠ [] ∧ (∀ o ∈ gdevice.arch.gops, o.xl.typ = 2) ∧ gdevice.arrived = none ∧ gdevice.released = none ∧ gdevice.recd.late = false := by
  refine ⟨rfl, ?_, ?_, ?_, ?_, ?_, ?_, ?_, ?_⟩ <;> decide

/-- The line of the trap registers lies in the slot. -/
def gline4 : Machine.Group := { base with linesOut := [4] }
/-- STRICT is set and x5 awaits a load of token 3. -/
def gstrict : Machine.Group :=
  let g := base.entered 3 .amo false none [.x 5] []
  { g with arch := { g.arch with k := { g.arch.k with strict := true } } }

theorem witness_TrapRegisterLineAndStrictSvc : missesLine ((world gline4 lfree).dev.env (world gline4 lfree).clk gline4).others gline4 (4 + 0x006 / 32) = true ∧
    gstrict.arch.k.strict = true ∧ gstrict.arch.pending (.x 5) = some 3 ∧ (world gstrict lfree).issuing gstrict ∧ base.arch.k.strict = false := by
  refine ⟨by decide, rfl, by decide, rfl, rfl⟩

def outPort : Port := { up := false, retraining := none, sendSeq := 0, recvSeq := 0, retry := [(7, [0])], replays := [(7, 15)] }

theorem witness_HostLinesAndReplays : (let d : Dev := { State.reset.dev with hostLines := [2] }
     d.reachable 0x80 = true ∧ 2 ∈ d.hostLines ∧ 0x80 / 64 ≤ 2 ∧ 2 ≤ (0x80 + (8 - 1)) / 64 ∧ d.reachable 0x200000000000 = false) ∧
    (outPort.up = false ∧ (fromSeq 7 outPort.retry).any (fun f => 16 ≤ (replayed outPort.replays (fromSeq 7 outPort.retry)).getD f.1 0) = true) := by
  decide +kernel

/-- A head record without PRED, and one without the translation of DONE. -/
theorem witness_HeldRecords :
    (∃ h, ready0.dev.validRecord 0 lt0 (recOf ready0) = some h ∧ h.pred = none ∧ h.done ≠ none) ∧
    (∃ h, (accepting 0x400002 0x1000203 0x300000 0).dev.validRecord 0 lt0 (recOf (accepting 0x400002 0x1000203 0x300000 0)) = some h ∧ h.pred.isSome = true) ∧
    (let l : Launch := { lfree with doneX := none }
     l.doneX = none ∧ ((world base lfree).dev.ctx l.part l.ctx).latched = some lt0) ∧ ((idle lmore).dev.part 0).dueRun = none ∧
    (idle lmore).dev.hostLines = [] := by
  refine ⟨by decide +kernel, by decide +kernel, ⟨rfl, rfl⟩, rfl, rfl⟩

/-- A logged store to package 2's window. -/
def farOp : GOp := { anOp (.store 7 0xFF) with xl := { xm with place := .remote 2 } }
def gfar (k : GOpKind) : Machine.Group := gop k |> fun g =>
  { g with arch := { g.arch with gops := g.arch.gops.map fun o => { o with xl := { xm with place := .remote 2 } } } }

theorem witness_OtherPackages : farOp.xl.place = .remote 2 ∧ State.reset.dev.reachable farOp.xl.pa = true ∧
    (State.reset.dev.sentLog 0 = false ∧ (gang 0x0003000100000001).dev.sentLog base.recd.launch = true) ∧
    (∀ k ∈ [GOpKind.load [.x 1] false 0, .store 7 0xFF, .amo 0 0 0 false 1 0 [.x 1]],
      (match (world (gfar k) lfree).dev.readyFor base.gid 0 with
        | some (_, o) => o.kind == k && o.xl.place == .remote 2
        | none => false) = true) ∧
    (gang 0x0003000100010000).dev.inGang = true ∧ (gang 0x0003000100000000).dev.gangSize = 1 := by
  refine ⟨rfl, ?_, ?_, ?_, ?_⟩ <;> decide +kernel

/-- A handler that was reached with the phase of the interrupted `bar` completed, and one that arrived at a `fret` before it. -/
def gouter : Machine.Group := { handler 0x42 true 0 with arrived := some 7, stall := .fret }
def gpoisoned : Machine.Group := { handler 0x42 true 0 with arch := { (handler 0x42 true 0).arch with commitPoison := some 0x80 } }

theorem witness_HandlersAndPhases : (({ base with released := some 5 } : Machine.Group).released = some 5) ∧
    (gouter.arch.k.inTrap = true ∧ gouter.arch.arrivedIn = false ∧ gouter.arrived = some 7 ∧ gouter.stall = .fret) ∧
    (gpoisoned.arch.commitPoison = some 0x80 ∧ gpoisoned.arrived = none ∧ gpoisoned.released = none ∧ gpoisoned.arch.relOuter = none ∧
      gpoisoned.status = .running ∧ gpoisoned.core.isSome = true) := by decide

/-- An aside job's engine, sums under way, the apply pass of a group whose engines have stopped. -/
def gheld : Machine.Group := { base with status := .suspended }
def sums : IndJob := { ijob .scaAdd false with ups := [(0x80, xm, 1)] }

theorem witness_EnginesSetAside : (iworld [] (some (ijob .chs false))).dev.groups.find base.gid = some base ∧
    ((withDev (iworld [] (some (ijob .chs false))) fun d => d.setGroup gheld).dev.engineRuns gheld = false) ∧
    ((ijob .chs false).applying = false ∧ (ijob .chs false).merged = false ∧ ({ ijob .scaAdd true with next := 1 } : IndJob).applying = true) ∧
    (iworld [] (some sums)).dev.indRun 0 = some (sums, base) ∧ sums.ups ≠ [] ∧ sums.merged = false ∧
    ((gjob 0).arch.writing = true ∧ base.arch.writing = false) := by
  refine ⟨rfl, ?_, ?_, rfl, ?_, ?_, ?_⟩ <;> decide +kernel

/-- A job that ended with an entry on token 3, its lines kept for the `wait` that observes it. -/
theorem witness_CopyDoneEntry : ({ ccmd with entry := some (3, 0) } : CopyCmd).entry = some (3, 0) ∧ ccmd.flag = none ∧ (sOK ≠ sPAGE ∧ sOK ≠ sACCESS ∧ sOK ≠ sPOISON) ∧
    (world base lfree).dev.groups.find base.gid = some base := by
  refine ⟨rfl, rfl, by decide, rfl⟩

/-- A bridge whose configuration is due and whose trigger 1 fires on term 2. -/
def bfire : Bridge :=
  { base.arch.bridge with ec := base.arch.bridge.ec.set 0 ⟨1, 0, 1, 3⟩, term := base.arch.bridge.term.set 2 1, trg := base.arch.bridge.trg.set 1 ⟨4, 3, 9⟩
                          config := [(0, 1 + 2 ^ 2 * 7, 5)] }

theorem witness_BridgeFires : bfire.config.filter (fun c => c.1 < 1) = bfire.config ∧ bfire.config ≠ [] ∧ nbits (1 + 2 ^ 2 * 7) 2 3 = 7 ∧
    (let g : Trig := ⟨4, 3, 9⟩
     (g.mask.getLsbD 2 && termTrue bfire.ec (bfire.term.toList.getD 2 0)) = true ∧
       ∀ k < 2, (g.mask.getLsbD k && termTrue bfire.ec (bfire.term.toList.getD k 0)) = false) := by decide

/-- Line 0 of accumulator slot 0 lies in the group's slot, which is mapped. -/
def gacc : Machine.Group := { gmat [3, 1] { MRun.reset with started := true } with linesOut := [1280] }

theorem witness_AccumulatorLines : 1280 ∈ (cmd [3, 1]).accLines ∧ 1280 ∈ gacc.linesOut ∧ ((paged (world gacc lfree)).dev.slotLine gacc 1280).isSome = true ∧
    (cmd [3, 1]).slot + (cmd [3, 1]).slots ≤ 32 ∧ gacc.arch.acc.wf = true ∧ (paged (world gacc lfree)).dev.refills gacc (cmd [3, 1]) = true ∧
    ((world base lfree).clk.aclk + 1 ≠ base.ringAt) := by
  refine ⟨?_, ?_, ?_, ?_, rfl, ?_, ?_⟩ <;> decide +kernel

/-- A core that keeps a translation, and one that keeps none of the address. -/
theorem witness_KeptTranslations : (∃ t ∈ ((mapped State.reset).dev.core 0).tlb, t.slot = false ∧ t.covers 0 0x80 = true) ∧
    ((State.reset.dev.core 0).tlb = [] ∧ ((paged State.reset).dev.walkBy lt0 0x80 false).isSome = true) := by
  refine ⟨⟨_, List.mem_cons_self, rfl, by decide⟩, rfl, by decide +kernel⟩

/-! ## Witnesses of the clauses on lines out, held units, windows of a reply, moved cells and cut slices -/

/-- The line of the predicates lies in the slot. -/
def gline2 : Machine.Group := { base with linesOut := [2] }

theorem witness_CoreLines : (world base lfree).dev.coreLine base = none ∧ (world gline2 lfree).dev.coreLine gline2 = some 2 ∧
    (world gline4 lfree).dev.coreLine gline4 = some 4 ∧
    ((world gline2 lfree).dev.env (world gline2 lfree).clk gline2).others = [] ∧ 4 ∉ gline2.linesOut ∧ 2 ∈ gline2.linesOut := by decide +kernel

/-- A group that has left core 0 while a step of its unit goes on, beside the next group of that core. -/
def gleft : Machine.Group := { gmat [3, 1] { MRun.reset with begun := true } with gid := base.gid + 1, core := none, linesOn := some 0, status := .parked }
def heldWorld : State := withDev (world base lfree) fun d => d.setGroup gleft

theorem witness_HeldUnit : heldWorld.dev.unitHeld base = true ∧ heldWorld.dev.windowGroup 0 = some base ∧ (world base lfree).dev.unitHeld base = false ∧
    base.core.isSome = true ∧ gleft.gid ≠ base.gid ∧ gleft.core = none ∧ gleft.linesOn = base.core ∧ gleft.arch.mu.run.begun = true ∧
    base.arch.mu.queue.length < 16 := by
  refine ⟨by decide, rfl, by decide, rfl, by decide, rfl, rfl, rfl, by decide⟩

/-- STRICT is set and a producer of x5 with a fixed latency ends 9 aclk from now. -/
def gwindow : Machine.Group :=
  { base with arch := { base.arch with k := { base.arch.k with strict := true }, alts := [⟨.x 5, 7, .aclk 9, 10⟩] } }

theorem witness_SvcInWindow : gwindow.arch.k.strict = true ∧ gwindow.arch.pending (.x 5) = none ∧
    (∃ x ∈ gwindow.arch.openAlts 0 (.x 5), ∃ u, x.till = .aclk u ∧ 0 + 1 < u) ∧ (world gwindow lfree).issuing gwindow ∧
    (world gwindow lfree).clk.aclk = 0 ∧ gwindow.arch.openAlts 9 (.x 5) = [] := by
  refine ⟨rfl, by decide, ⟨_, List.mem_cons_self, 9, rfl, by decide⟩, rfl, rfl, by decide⟩

/-- An indirect job of the suspended group, half-way through its sums. -/
theorem witness_SuspendedPass : (iworld [] (some sums)).dev.indirect.find 0 = some ⟨[], some sums, []⟩ ∧ sums.cmd.gid = base.gid ∧ sums.merged = false ∧
    sums.cmd.op = .scaAdd ∧ sums.ups ≠ [] ∧ ((iworld [] (some sums)).dev.groupEntry base 0 2 0 1 22).2 = true := by
  refine ⟨rfl, rfl, rfl, rfl, by decide, by decide +kernel⟩

/-- Bases and sizes of a ring where the two checks of R239 meet. -/
theorem witness_RingLimits : (0x40000 % 256 = 0 ∧ 0x40000 < 0x40000 + 256) ∧ (0x3FF00 % 256 = 0 ∧ 0x3FF00 + 256 ≤ 0x40000 ∧ 0x40000 < 0x3FF00 + 512) ∧
    (256 % 64 = 0 ∧ 1 ≤ 256 / 64 ∧ 256 / 64 ≤ 4096) ∧ (255 % 64 ≠ 0) := by decide

/-- Launch queues that may and may not take a new base or size. -/
theorem witness_QueueRegisters : (LQueue.reset.state = 0 ∧ (qopen 0 0).state = 1) ∧ ((4096 : Word).toNat / 2 ^ 52 = 0 ∧ (4096 : Word).toNat % 4096 = 0) ∧
    ((2 ^ 52 : Word).toNat / 2 ^ 52 ≠ 0) ∧ (4 ≤ (4 : Word).toNat ∧ (4 : Word).toNat ≤ 16 ∧ ¬ 4 ≤ (3 : Word).toNat ∧ ¬ (17 : Word).toNat ≤ 16) := by decide

/-- A worn cell, and a launch of cell scope whose fret domain there is in a phase. -/
def worn : Dev := { State.reset.dev with cellUnc := [(1023, 2)] }
def lcell (ph : Phase) : Launch := { lscope ldet 1 with doms := [((lscope ldet 1).domOf 1023, { Dom.reset none with phase := ph })] }

theorem witness_CellMoves : worn.worn 1023 = true ∧ worn.mayMove 1023 (lcell .compute) = true ∧ worn.mayMove 1023 (lcell .commit) = false ∧
    worn.launches = [] ∧ ({ worn with retired := [1023] }.newHome 0 1023 = 1008) := by decide

/-- A barrier of a handler that waits for the phase which its group came to before it. -/
def gjoined : Machine.Group := { handler 0x42 true 0 with arrived := some 6, stall := .bar 6, arch := { (handler 0x42 true 0).arch with joinedIn := true } }

theorem witness_JoinedBarrier : gjoined.arch.k.inTrap = true ∧ gjoined.arch.arrivedIn = false ∧ gjoined.arrived = some 6 ∧ gjoined.arch.joinedIn = true := by decide

/-- A bridge whose group is away, and a job that waits for its turn in an interleave launch. -/
theorem witness_AwayAndUngranted : (world { gbridge with core := none } lfree).dev.groups.find base.gid = some { gbridge with core := none } ∧ gbridge.core.isSome = true ∧
    ((withDev (iworld [] (some (ijob .chs true))) fun d => (d.setLaunch base.recd.launch lilv)).dev.stopsJobs base = false ∧
      (withDev (iworld [] (some (ijob .chs true))) fun d => (d.setLaunch base.recd.launch lilv)).dev.granted base true = false) := by
  refine ⟨rfl, rfl, by decide +kernel, by decide +kernel⟩

/-! ## Single steps: what the rules give, worked out by hand -/

def x1 (i : Instr) (rs : List (Nat × Nat)) : Option Nat := xAfter (exec i (world (withX base rs) lfree)) 1
def neg (n : Nat) : Nat := 2 ^ 64 - n
/-- The value an entry of token 1 is to write. -/
def entryVal (i : Instr) (g : Machine.Group) : Option (List Nat × Option Nat) :=
  ((gAfter (exec i (world g lfree))).bind fun h => (h.arch.toks.toList.getD 1 []).head?).map fun e => (e.writes.map (·.2), e.due)
def v1 (i : Instr) (rs : List (Nat × Nat)) : Option Nat := vAfter (exec i (world (withV base rs) lfree)) 1

theorem test_add_wraps : x1 (.add q0 ⟨1, 2, 3, 0, 0⟩) [(2, neg 1), (3, 2)] = some 1 := by decide
theorem test_write_of_x0_is_discarded : xAfter (exec (.add q0 ⟨0, 2, 3, 0, 0⟩) (world (withX base [(2, 7)]) lfree)) 0 = some 0 := by decide
theorem test_sub_source_is_destination : x1 (.sub q0 ⟨1, 2, 1, 0, 0⟩) [(1, 5), (2, 3)] = some (neg 2) := by decide
theorem test_addi_sign_extends : x1 (.addi q0 ⟨1, 2, 0, 0xFFFFFFFF⟩) [(2, 1)] = some 0 := by decide
theorem test_mulh_signed : x1 (.mulh q0 ⟨1, 2, 3, 0, 0⟩) [(2, neg 1), (3, neg 1)] = some 0 ∧ x1 (.mulhn q0 ⟨1, 2, 3, 0, 0⟩) [(2, neg 1), (3, neg 1)] = some (neg 2) := by
  decide
theorem test_div_by_zero : entryVal (.div q0 ⟨1, 2, 0, 0, 1⟩) (withX base [(2, 7)]) = some ([2 ^ 64 - 1], some 40) ∧
    entryVal (.rem q0 ⟨1, 2, 0, 0, 1⟩) (withX base [(2, 7)]) = some ([7], some 40) := by decide +kernel
theorem test_div_truncates : entryVal (.div q0 ⟨1, 2, 3, 0, 1⟩) (withX base [(2, neg 7), (3, 2)]) = some ([neg 3], some 40) ∧
    entryVal (.rem q0 ⟨1, 2, 3, 0, 1⟩) (withX base [(2, neg 7), (3, 2)]) = some ([neg 1], some 40) := by decide +kernel
theorem test_shifts : x1 (.shl q0 ⟨1, 2, 3, 0, 0⟩) [(2, 3), (3, 65)] = some 6 ∧ x1 (.sha q0 ⟨1, 2, 3, 0, 0⟩) [(2, neg 8), (3, 2)] = some (neg 2) ∧
    x1 (.shr q0 ⟨1, 2, 3, 0, 0⟩) [(2, neg 8), (3, 60)] = some 15 ∧ x1 (.rol q0 ⟨1, 2, 3, 0, 0⟩) [(2, 2 ^ 63 + 1), (3, 1)] = some 3 := by decide
theorem test_fsh : x1 (.fsh q0 ⟨1, 2, 3, 4, 0⟩) [(2, 1), (3, 2 ^ 63), (4, 63)] = some 3 := by decide
theorem test_bits : x1 (.clz q0 ⟨1, 2, 0⟩) [] = some 64 ∧ x1 (.ctz q0 ⟨1, 2, 0⟩) [(2, 8)] = some 3 ∧ x1 (.popc q0 ⟨1, 2, 0⟩) [(2, neg 1)] = some 64 := by decide
theorem test_fields : x1 (.bfx q0 ⟨1, 2, 0, 4 + 64 * 8⟩) [(2, 0xABC)] = some 0xAB ∧ x1 (.bfi q0 ⟨1, 2, 0, 4 + 64 * 4⟩) [(1, 0xFFF), (2, 0x12)] = some 0xF2F := by decide
theorem test_compare_unsigned : x1 (.slt q0 ⟨1, 2, 3, 0, 0⟩) [(2, neg 1), (3, 1)] = some 1 ∧ x1 (.sltn q0 ⟨1, 2, 3, 0, 0⟩) [(2, neg 1), (3, 1)] = some 0 := by decide
theorem test_min_max : x1 (.min q0 ⟨1, 2, 3, 0, 0⟩) [(2, neg 1), (3, 1)] = some (neg 1) ∧ x1 (.maxn q0 ⟨1, 2, 3, 0, 0⟩) [(2, neg 1), (3, 1)] = some (neg 1) := by decide
theorem test_lea_scales : x1 (.lea q0 ⟨1, 2, 3, 0, 3, 0, 0, 0, 0, 0, 0xFFFFFF⟩) [(2, 0x100), (3, 2)] = some 0x10F := by decide
theorem test_sext : x1 (.sext q0 ⟨1, 2, 0⟩) [(2, 0x180)] = some (neg 128) := by decide
theorem test_false_guard : x1 (.add ⟨true, 0⟩ ⟨1, 2, 3, 0, 0⟩) [(1, 9), (2, 1), (3, 1)] = some 9 := by decide

theorem test_branch : pcAfter (exec (.bz q0 ⟨0, 2, 0, 5, 0, 1⟩) (world base lfree)) = some (64 + 2 + 10) ∧
    pcAfter (exec (.bnz q0 ⟨0, 2, 0, 5, 0, 1⟩) (world base lfree)) = some 4 := by decide +kernel
theorem test_jl_links : pcAfter (exec (.jl q0 ⟨1, 0, 0, 0, 0, 2⟩) (world base lfree)) = some 130 ∧ x1 (.jl q0 ⟨1, 0, 0, 0, 0, 2⟩) [] = some 4 := by decide
theorem test_jr_reads_before_it_writes : pcAfter (exec (.jr q0 ⟨1, 1, 0⟩) (world (withX base [(1, 0x42)]) lfree)) = some 0x42 := by decide
theorem test_illegal_target_without_handler_ends_the_group : gAfter (exec (.jr q0 ⟨0, 1, 0⟩) (world (withX base [(1, 0x41)]) lfree)) = none := by decide +kernel
theorem test_loop_of_count_zero_goes_to_its_end : pcAfter (exec (.loop q0 ⟨0, 2, 0, 5, 0, 0⟩) (world base lfree)) = some 12 := by decide
theorem test_loop_goes_back : (let a := { base.arch with lc := base.arch.lc.set 0 2, loops := base.arch.loops.set 0 ⟨true, 4, 12, true⟩ }
    ((loopEnd a 12).2, ((loopEnd a 12).1.lcr 0).toNat)) = (4, 1) := by decide
theorem test_qset : ((gAfter (exec (.qset q0 ⟨2, 3, 4, 0, 4⟩) (world (withX base [(3, neg 1), (4, 1)]) lfree))).map fun g => g.arch.qr 2) = some false := by decide
theorem test_dly : ((gAfter (exec (.dly q0 ⟨3, 1, 0⟩) (world base lfree))).map fun g => g.notBefore) = some 68 := by decide

theorem test_trap_saves_the_link : causeAfter (exec (.trap q0 ⟨0, 0, 0, 0x55⟩) (world (handler 0x82 false 0) lfree)) = some (20, 0x55) ∧
    pcAfter (exec (.trap q0 ⟨0, 0, 0, 0x55⟩) (world (handler 0x82 false 0) lfree)) = some 0x82 ∧
    ((gAfter (exec (.trap q0 ⟨0, 0, 0, 0x55⟩) (world (handler 0x82 false 0) lfree))).map fun g => (g.arch.k.pc, g.arch.k.inTrap, g.arch.k.cmpl)) = some (4, true, true) := by
  decide +kernel
theorem test_kret_returns : pcAfter (exec (.kret q0) (world (handler 0x82 true 0x10C) lfree)) = some 0x10C ∧
    causeAfter (exec (.kret q0) (world (handler 0x82 false 0) lfree)) = some (2, 0xE200) := by decide +kernel
theorem test_unaligned_load_traps : causeAfter (exec (.ldl q0 ⟨1, 2, 0, 3, 0, 0, 0, 0, 0, 0, 4⟩) (world (handler 0x82 false 0) lfree)) = some (cALIGN, 4) := by decide +kernel
theorem test_cget : x1 (.cget q0 ⟨1, 0, 0, 0x010⟩) [] = some 10 := by decide
theorem test_cset_ignores_a_budget_above_64 :
    ((gAfter (exec (.cset q0 ⟨0, 2, 0, 0x016⟩) (world (withX base [(2, 65)]) lfree))).map fun g => g.arch.m.gov) = some base.arch.m.gov ∧
    ((gAfter (exec (.cset q0 ⟨0, 2, 0, 0x016⟩) (world (withX base [(2, 5)]) lfree))).map fun g => g.arch.m.gov) = some 5 := by decide

theorem test_local_store_then_load : x1 (.ldl q0 ⟨1, 2, 0, 1, 0, 0, 0, 0, 0, 0, 0x12⟩) [] = some 0 ∧
    xAfter (exec (.ldl q0 ⟨1, 2, 0, 1, 0, 0, 0, 0, 0, 0, 0x12⟩) (world (withLs base 0x10 0x11223344 4) lfree)) 1 = some 0x1122 ∧
    ((gAfter (exec (.stl q0 ⟨3, 2, 0, 1, 0, 0, 0, 0, 0, 0, 0x12⟩) (world (withX base [(3, 0xABCDEF)]) lfree))).map fun g => g.arch.ls) =
      some [(0x12, 0xEF), (0x13, 0xCD)] := by decide
theorem test_global_load_waits : ((gAfter (exec (.ldg q0 ⟨1, 2, 0, 3, 0, 0, 0, 5, 0, 0, 8⟩) (mapped (world gm lfree)))).map fun g =>
    (g.arch.tokCount 5, g.arch.gops.map (fun o => (o.va, o.size)), g.arch.pending (.x 1))) = some (1, [(0x88, 8)], some 5) := by decide +kernel

def lanes (v : List Nat) (w : Nat) : Nat := ofLanes w v
theorem test_vadd_saturates : (v1 (.vadd q0 ⟨1, 2, 3, 0, 4, 0, 1, 0, 0, 0⟩) [(2, 0xF0), (3, 0x20)]).map (· % 256) = some 0xFF ∧
    (v1 (.vadd q0 ⟨1, 2, 3, 0, 4, 0, 0, 0, 0, 0⟩) [(2, 0xF0), (3, 0x20)]).map (· % 256) = some 0x10 := by decide
theorem test_vmul_binary64 : (v1 (.vmul q0 ⟨1, 2, 3, 0, 11, 0, 0, 0, 0, 0⟩) [(2, 0x3FF8000000000000), (3, 0x4000000000000000)]).map (· % 2 ^ 64) =
    some 0x4008000000000000 := by decide
theorem test_vperm_beyond_the_lanes : (v1 (.vperm q0 ⟨1, 2, 3, 0, 5, 0, 0, 0, 0, 0⟩) [(2, lanes [7, 8, 9] 16), (3, lanes [2, 64, 1] 16)]).map (· % 2 ^ 48) =
    some (lanes [9, 0, 8] 16) := by decide
theorem test_vcvt_narrow_to_binary32 : (v1 (.vcvt q0 ⟨1, 2, 0, 0, 10, 0, 0, 0, 9, 0⟩) [(2, 0x3F80)]).map (· % 2 ^ 32) = some 0x3F800000 := by decide
theorem test_wset : ((gAfter (exec (.wset q0 ⟨3, 0, 0, 126 + 2 ^ 8 * 5⟩) (world base lfree))).map fun g => (g.arch.wr 3).toNat) = some (3 * 2 ^ 126) := by decide

theorem test_f32_ties_to_even : roundF .f32 .rne false (.fin false (2 ^ 24 + 1) 0) = 0x4B800000 ∧ roundF .f32 .rne false (.fin false (2 ^ 24 + 3) 0) = 0x4B800002 := by decide
theorem test_overflow_saturates : roundF .f32 .rne false (.fin false 1 128) = 0x7F800000 ∧ roundF .f32 .rne true (.fin false 1 128) = 0x7F7FFFFF := by decide

/-! ## Fetch, decode and step from reset -/

theorem test_decodeTableWord : decodeTableWord 48 (0x0020 + 2 ^ 16 * 0x3081) = some (.add q0 ⟨1, 2, 3, 0, 0⟩) ∧ decodeTableWord 16 0x2680 = some (.nop q0) := by decide
theorem test_step_runs_nop : ((after (step (State.reset.withFetchWord 16 0x2680))).bind fun t => (t.dev.groups.find base.gid).map fun g => g.arch.pc) = some 66 := by decide +kernel
theorem test_step_runs_li : xAfter (step (State.reset.withFetchWord 112 (0x13D0 + 2 ^ 16 * (7 + 2 ^ 32 * 0x1234)))) 7 = some 0x1234 := by decide +kernel
theorem test_step_from_reset_keeps_the_device_idle : (placed 0x2680 0).agenda = [.issue 0] ∧ State.reset.dev.hstate = 0 := by decide

end Sys2Proof.Tests
end

section
/-!
PROOFS. Fetching and transfers of control (05_fetching R101 to R107, 06_issuing R142, R143): what a line gives at a pc, and
where branches and jumps go.
-/

namespace Sys2Proof.Machine

/-! Valid targets and the J-format target (R105, R107). -/

theorem validTarget_iff (p : Word) : validTarget p = true ↔
    p.toNat / 2 ^ 57 = 0 ∧ p.toNat % 2 = 0 ∧ p.toNat % 64 ≠ 0 ∧ p.toNat % 64 ≠ 62 :=
  decide_eq_true_iff

theorem validTarget_of_high_bits {p : Word} (h : p.toNat / 2 ^ 57 ≠ 0) : validTarget p = false :=
  Bool.eq_false_iff.2 fun hv => h ((validTarget_iff p).1 hv).1

/-- A valid target is a head of its line: slot 0 to 29, at the place R105 gives. -/
theorem slotOf_of_validTarget {p : Word} (h : validTarget p = true) :
    slotOf p ≤ 29 ∧ p.toNat = lineVa p + 2 + 2 * slotOf p := by
  obtain ⟨-, heven, hfirst, hlast⟩ := (validTarget_iff p).1 h
  unfold slotOf lineVa
  omega

/-- The sum of words that the model forms is the sum of integers of R107, modulo 2^64. -/
theorem jTarget_eq_ofInt (pc : Word) (disp : BitVec 32) (slot : BitVec 5) :
    jTarget pc disp slot =
      BitVec.ofInt 64 ((pc.toNat % 2 ^ 57 / 64 * 64 : Nat) + 64 * disp.toInt + 2 + 2 * slot.toNat) := by
  have hslot : (2 * (slot.toNat : Int)) = ((2 * slot.toNat : Nat) : Int) := by push_cast; rfl
  rw [hslot, BitVec.ofInt_add, BitVec.ofInt_add, BitVec.ofInt_add, BitVec.ofInt_natCast, BitVec.ofInt_natCast]
  rfl

theorem checkTarget_valid {p : Word} (h : validTarget p = true) (e : Env) (g : Group) :
    checkTarget p e g = .ok ((), g) := by
  simp [checkTarget, h]

theorem checkTarget_invalid {p : Word} (h : validTarget p = false) (e : Env) (g : Group) :
    checkTarget p e g = .error (.trap cILLEGAL_TARGET p none) := by
  simp [checkTarget, h]

/-! Transfers under a true guard (R106 stage 1, R142, R143). -/

/-- The group as a call to p leaves it: no loop is ended and none left (R143). -/
def Group.calls (g : Group) (now : Nat) (p : Word) : Group :=
  { g with arch := { g.arch with pc := p }, stall := .none, notBefore := now + 2 }

/-- The machine after group g has taken the trap of stage 1 at its own pc: nothing else is done (R106). -/
def State.trapsTarget (s : State) (g : Group) (p : Word) : State :=
  { s with dev := s.dev.takeTrap s.clk g cILLEGAL_TARGET p g.arch.pc false false }

section
variable {s : State} {g : Group} {gd : Guard} {tok : Option Nat} {body : GM Next}

theorem falls_run (hs : s.issuing g) (hg : s.guardOn g gd) (hb : body (s.dev.env s.clk g) g = .ok (.fall, g)) :
    s.onCur (guarded gd tok body) = .next (s.put (g.goesOn s.clk.aclk g.link 1)) :=
  onCur_ok hs (by rw [guarded_on hg hb, retire_fall, env_aclk])

theorem jumps_run {p : Word} (hs : s.issuing g) (hg : s.guardOn g gd)
    (hb : body (s.dev.env s.clk g) g = .ok (.jump p, g)) :
    s.onCur (guarded gd tok body) = .next (s.put ((g.leavesLoops p).goesOn s.clk.aclk p 2)) :=
  onCur_ok hs (by rw [guarded_on hg hb, retire_jump, env_aclk]; rfl)

theorem calls_run {h : Group} {p : Word} (hs : s.issuing g) (hg : s.guardOn g gd)
    (hb : body (s.dev.env s.clk g) g = .ok (.call p, h)) :
    s.onCur (guarded gd tok body) = .next (s.put (h.calls s.clk.aclk p)) :=
  onCur_ok hs (by rw [guarded_on hg hb, retire_call, env_aclk]; rfl)

/-- A body that finds its target not valid takes the trap at its own pc. -/
theorem illegalTarget_run {p : Word} (hs : s.issuing g) (hg : s.guardOn g gd)
    (hb : body (s.dev.env s.clk g) g = .error (.trap cILLEGAL_TARGET p none)) :
    s.onCur (guarded gd tok body) = .next (s.trapsTarget g p) :=
  onCur_stop hs (guarded_stops hg hb)

end

/-! Conditional branches (R142). -/

/-- What R142 says of a branch to p whose condition is c. -/
def State.branches (s : State) (g : Group) (p : Word) (c : Prop) (r : Host.Outcome State Fault Refusal) : Prop :=
  (c → validTarget p = true → r = .next (s.put ((g.leavesLoops p).goesOn s.clk.aclk p 2))) ∧
  (c → validTarget p = false → r = .next (s.trapsTarget g p)) ∧
  (¬ c → r = .next (s.put (g.goesOn s.clk.aclk g.link 1)))

/-- What a branch does once its condition is decided. -/
def branchOutcome (t : TailJ) (taken : Bool) : GM Next :=
  if taken then do
    let p := jTarget (← arch).pc t.disp t.slot
    checkTarget p
    return .jump p
  else return .fall

/-- A branch under a true guard reads its operands, changes nothing, and its outcome is that of its condition. -/
theorem branchBody_eq_outcome {e : Env} {g : Group} {t : TailJ} {cond : Word → Word → Bool} {two : Bool}
    (ha : g.readable e (.x t.a.toNat)) (hb : g.readable e (.x t.b.toNat)) :
    (do let a ← readX t.a
        let b ← if two then readX t.b else pure 0
        branchOutcome t (cond a b) : GM Next) e g =
      branchOutcome t (cond (g.arch.xr t.a.toNat) (if two then g.arch.xr t.b.toNat else 0)) e g := by
  rw [gm_bind_ok (readX_of_readable ha)]
  cases two
  case false => exact gm_bind_ok (gm_pure _ _ _)
  case true => exact gm_bind_ok (readX_of_readable hb)

/-- Every branch, by the condition it decides on the values of its operands; one that compares with 0 reads xA alone. -/
theorem branch_run {s : State} {g : Group} {gd : Guard} {t : TailJ} {cond : Word → Word → Bool} {two : Bool} {c : Prop}
    (hs : s.issuing g) (hg : s.guardOn g gd) (ha : s.readable g (.x t.a.toNat)) (hb : s.readable g (.x t.b.toNat))
    (hc : cond (g.arch.xr t.a.toNat) (if two then g.arch.xr t.b.toNat else 0) = true ↔ c) :
    s.branches g (jTarget g.arch.pc t.disp t.slot) c (s.onCur (branch gd t cond two)) := by
  have hbody := branchBody_eq_outcome (cond := cond) (two := two) ha hb
  refine ⟨fun h hv => jumps_run hs hg (hbody.trans ?taken), fun h hv => illegalTarget_run hs hg (hbody.trans ?invalid),
    fun h => falls_run hs hg (hbody.trans ?falls)⟩
  case taken =>
    rw [hc.2 h, branchOutcome, if_pos rfl, gm_bind_ok (gm_arch _ _), gm_bind_ok (checkTarget_valid hv _ _), gm_pure]
  case invalid => rw [hc.2 h, branchOutcome, if_pos rfl, gm_bind_ok (gm_arch _ _), gm_bind, checkTarget_invalid hv]
  case falls => rw [branchOutcome, if_neg fun h' => h (hc.1 h'), gm_pure]

theorem not_slt_iff_toInt_le {a b : Word} : (!a.slt b) = true ↔ b.toInt ≤ a.toInt := by
  simp [BitVec.slt]

theorem not_ult_iff_toNat_le {a b : Word} : (!a.ult b) = true ↔ b.toNat ≤ a.toNat := by
  simp [BitVec.ult]

/-! Jumps (R142, R143). -/

section
variable {s : State} {g : Group} {gd : Guard}

theorem execJ_valid {t : TailJ} (hs : s.issuing g) (hg : s.guardOn g gd)
    (hv : validTarget (jTarget g.arch.pc t.disp t.slot) = true) :
    exec (.j gd t) s = .next (s.put ((g.leavesLoops (jTarget g.arch.pc t.disp t.slot)).goesOn s.clk.aclk
      (jTarget g.arch.pc t.disp t.slot) 2)) :=
  jumps_run hs hg (by rw [gm_bind_ok (gm_arch _ _), gm_bind_ok (checkTarget_valid hv _ _), gm_pure])

theorem execJ_invalid {t : TailJ} (hs : s.issuing g) (hg : s.guardOn g gd)
    (hv : validTarget (jTarget g.arch.pc t.disp t.slot) = false) :
    exec (.j gd t) s = .next (s.trapsTarget g (jTarget g.arch.pc t.disp t.slot)) :=
  illegalTarget_run hs hg (by rw [gm_bind_ok (gm_arch _ _), gm_bind, checkTarget_invalid hv])

theorem execJl_valid {t : TailJ} (hs : s.issuing g) (hg : s.guardOn g gd)
    (hv : validTarget (jTarget g.arch.pc t.disp t.slot) = true) (hd : s.writable g (.x t.d.toNat)) :
    exec (.jl gd t) s = .next (s.put ((g.wrote s.clk.aclk (.x t.d.toNat) g.link.toNat 1).calls s.clk.aclk
      (jTarget g.arch.pc t.disp t.slot))) :=
  calls_run hs hg (by rw [gm_bind_ok (gm_arch _ _), gm_bind_ok (checkTarget_valid hv _ _), gm_bind_ok (gm_get _ _),
    gm_bind_ok (writeX_of_writable hd _ _), gm_pure, env_aclk])

theorem execJl_invalid {t : TailJ} (hs : s.issuing g) (hg : s.guardOn g gd)
    (hv : validTarget (jTarget g.arch.pc t.disp t.slot) = false) :
    exec (.jl gd t) s = .next (s.trapsTarget g (jTarget g.arch.pc t.disp t.slot)) :=
  illegalTarget_run hs hg (by rw [gm_bind_ok (gm_arch _ _), gm_bind, checkTarget_invalid hv])

theorem execJr_plain {t : TailH} (hs : s.issuing g) (hg : s.guardOn g gd) (ha : s.readable g (.x t.a.toNat))
    (hv : validTarget (g.arch.xr t.a.toNat) = true) (hd : t.d = 0) :
    exec (.jr gd t) s = .next (s.put ((g.leavesLoops (g.arch.xr t.a.toNat)).goesOn s.clk.aclk (g.arch.xr t.a.toNat) 2)) :=
  jumps_run hs hg (by rw [gm_bind_ok (readX_of_readable ha), gm_bind_ok (checkTarget_valid hv _ _), if_pos hd, gm_pure])

/-- The target is the value of xA before the link is written, also where D = A. -/
theorem execJr_linking {t : TailH} (hs : s.issuing g) (hg : s.guardOn g gd) (ha : s.readable g (.x t.a.toNat))
    (hv : validTarget (g.arch.xr t.a.toNat) = true) (hd : t.d ≠ 0) (hw : s.writable g (.x t.d.toNat)) :
    exec (.jr gd t) s = .next (s.put ((g.wrote s.clk.aclk (.x t.d.toNat) g.link.toNat 1).calls s.clk.aclk
      (g.arch.xr t.a.toNat))) :=
  calls_run hs hg (by rw [gm_bind_ok (readX_of_readable ha), gm_bind_ok (checkTarget_valid hv _ _), if_neg hd,
    gm_bind_ok (gm_get _ _), gm_bind_ok (writeX_of_writable hw _ _), gm_pure, env_aclk])

theorem execJr_invalid {t : TailH} (hs : s.issuing g) (hg : s.guardOn g gd) (ha : s.readable g (.x t.a.toNat))
    (hv : validTarget (g.arch.xr t.a.toNat) = false) :
    exec (.jr gd t) s = .next (s.trapsTarget g (g.arch.xr t.a.toNat)) :=
  illegalTarget_run hs hg (by rw [gm_bind_ok (readX_of_readable ha), gm_bind, checkTarget_invalid hv])

end

/-- Settles O4: each branch by `branch_run` with the condition it decides, each jump by its target. -/
theorem branchAndJumpResults : Obligations.BranchAndJumpResults := by
  unfold Obligations.BranchAndJumpResults
  refine ⟨fun s g gd t hs hg ha hb => ?_, fun s g gd t u hs hg => ?_⟩
  · simp only [← jTarget_eq_ofInt]
    refine ⟨validTarget_of_high_bits, ?beq, ?bne, ?blt, ?bge, ?bltn, ?bgen, ?bz, ?bnz⟩
    case beq => exact branch_run hs hg ha hb beq_iff_eq
    case bne => exact branch_run hs hg ha hb bne_iff_ne
    case blt => exact branch_run hs hg ha hb BitVec.slt_iff_toInt_lt
    case bge => exact branch_run hs hg ha hb not_slt_iff_toInt_le
    case bltn => exact branch_run hs hg ha hb BitVec.ult_iff_toNat_lt
    case bgen => exact branch_run hs hg ha hb not_ult_iff_toNat_le
    case bz => exact branch_run hs hg ha hb beq_iff_eq
    case bnz => exact branch_run hs hg ha hb bne_iff_ne
  · simp only [← jTarget_eq_ofInt]
    refine ⟨fun hv => ⟨execJ_valid hs hg hv, execJl_valid hs hg hv⟩,
      fun hv => ⟨execJ_invalid hs hg hv, execJl_invalid hs hg hv⟩, fun hu => ⟨?plain, ?linking, ?invalid⟩⟩
    case plain => exact execJr_plain hs hg hu
    case linking => exact execJr_linking hs hg hu
    case invalid => exact execJr_invalid hs hg hu

/-! Lines (R101, R103 to R105). -/

theorem tailSum_succ_last (line n i : Nat) :
    tailSum line (n + 1) i = tailSum line n i + tlBytes (nbits line (16 + 16 * (i + n) + 4) 3) := by
  induction n generalizing i with
  | zero => simp [tailSum]
  | succ n ih =>
    have hlast := ih (i + 1)
    rw [Nat.add_right_comm i 1 n, Nat.add_assoc i n 1] at hlast
    rw [tailSum, hlast, tailSum, ← Nat.add_assoc (tlBytes _)]

/-- The TL code of a head is the same read from the head or from the line. -/
theorem nbits_headAt (line i : Nat) : nbits (headAt line i) 4 3 = nbits line (16 + 16 * i + 4) 3 := by
  simp only [headAt, nbits]
  rw [show (2 : Nat) ^ 16 = 2 ^ 4 * 2 ^ 12 from rfl, Nat.mod_mul_right_div_self, Nat.mod_mod_of_dvd _ (by decide),
    Nat.div_div_eq_div_mul, ← Nat.pow_add]

/-- The model's sum of tail lengths is the S of R103. -/
theorem tailSum_eq_of_recurrence {line : Nat} {total : Nat → Nat} (h0 : total 0 = 0)
    (hs : ∀ i, total (i + 1) = total i + tlBytes (nbits (headAt line i) 4 3)) (n : Nat) : tailSum line n 0 = total n := by
  induction n with
  | zero => exact h0.symm
  | succ n ih => rw [tailSum_succ_last, ih, hs, nbits_headAt, Nat.zero_add]

/-- A header and heads that pass the checks of R101 and R104. -/
def LineSound (line : Nat) : Prop :=
  nbits line 5 11 = 0 ∧ nbits line 0 5 ≠ 0 ∧ nbits line 0 5 ≠ 31 ∧
    2 + 2 * nbits line 0 5 + tailSum line (nbits line 0 5) 0 ≤ 64

theorem lineHeads_of_sound {line : Nat} (h : LineSound line) : lineHeads line = some (nbits line 0 5) := by
  obtain ⟨hzero, hn, hn31, hfit⟩ := h
  simp only [lineHeads]
  rw [if_neg (by simp [hzero, hn, hn31]), if_neg (by omega)]

theorem lineHeads_of_not_sound {line : Nat} (h : ¬ LineSound line) : lineHeads line = none := by
  simp only [lineHeads]
  split
  · rfl
  · next hheader =>
    obtain ⟨hzero, hn, hn31⟩ : nbits line 5 11 = 0 ∧ nbits line 0 5 ≠ 0 ∧ nbits line 0 5 ≠ 31 := by simpa using hheader
    exact if_pos (Nat.lt_of_not_le fun hfit => h ⟨hzero, hn, hn31, hfit⟩)

section
variable {line : Nat} {pc : Word}

theorem instrAt_of_not_sound (h : ¬ LineSound line) : instrAt line pc = .error (cILLEGAL_LINE, BitVec.ofNat 64 (lineVa pc)) := by
  simp only [instrAt, lineHeads_of_not_sound h]

theorem instrAt_of_slot_beyond (h : LineSound line) (hslot : nbits line 0 5 ≤ slotOf pc) :
    instrAt line pc = .error (cILLEGAL_TARGET, pc) := by
  simp only [instrAt, lineHeads_of_sound h, if_pos hslot]

theorem instrAt_of_decode_error {f : DecodeFault} (h : LineSound line) (hslot : slotOf pc < nbits line 0 5)
    (hd : decode (headAt line (slotOf pc)) (tailAt line (slotOf pc)) = .error f) :
    instrAt line pc = .error (faultOf pc (headAt line (slotOf pc)) f) := by
  simp only [instrAt, lineHeads_of_sound h, if_neg (Nat.not_le.2 hslot), hd]

theorem instrAt_of_decode_ok {i : Instr} (h : LineSound line) (hslot : slotOf pc < nbits line 0 5)
    (hd : decode (headAt line (slotOf pc)) (tailAt line (slotOf pc)) = .ok i) :
    instrAt line pc =
      .ok (i, if slotOf pc + 1 = nbits line 0 5 then BitVec.ofNat 64 (lineVa pc + 66) else pc + 2) := by
  simp only [instrAt, lineHeads_of_sound h, if_neg (Nat.not_le.2 hslot), hd]

end

/-- Settles O35: the line's S is the model's sum of tail lengths, and each outcome is one of `instrAt`. -/
theorem lineChecks : Obligations.LineChecks := by
  intro line pc n head len total sound slot at_ tail
  have htotal : ∀ k, tailSum line k 0 = total k := tailSum_eq_of_recurrence rfl fun _ => rfl
  have hn : nbits line 0 5 = n := by simp [nbits, n]
  have hsound : LineSound line ↔ sound := by rw [LineSound, htotal, hn]; rfl
  have htail : tailAt line slot = tail := by rw [tailAt, htotal]; rfl
  refine ⟨validTarget_iff pc, slotOf_of_validTarget, fun h => instrAt_of_not_sound fun h' => h (hsound.1 h'), fun h hslot => ?beyond,
    fun h hslot => ?here⟩
  case beyond => exact instrAt_of_slot_beyond (hsound.2 h) (hn ▸ hslot)
  case here =>
    have hfault : ∀ f, decode (head slot) tail = .error f → instrAt line pc = .error (faultOf pc (head slot) f) := fun f hd =>
      instrAt_of_decode_error (hsound.2 h) (hn ▸ hslot) (htail ▸ hd)
    refine ⟨hfault .opcode, hfault .format, fun b => hfault (.field b), fun i hd => ?_⟩
    rw [← hn]
    exact instrAt_of_decode_ok (hsound.2 h) (hn ▸ hslot) (htail ▸ hd)

end Sys2Proof.Machine
end

section
/-!
PROOFS. Exceptions by instruction (17_interruption R346, R348): `trap` and `kret`.
-/

namespace Sys2Proof.Machine

/-! Meanings under a true guard that act on the device (R108). -/

theorem guardTrue_on {e : Env} {g : Group} {gd : Guard} (hg : g.guardOn e gd) : guardTrue gd e g = .ok (true, g) := by
  obtain ⟨hread, hval⟩ := hg
  rw [guardTrue, gm_bind_ok (readQ_of_readable hread), gm_pure, bne_iff_ne.2 hval]

section
variable {s : State} {g : Group} {gd : Guard} {f : Clock → Dev → Group → Except Stop Dev}

theorem underGuard_on (hg : s.guardOn g gd) : s.dev.underGuard s.clk g gd (f s.clk s.dev) = f s.clk s.dev g := by
  simp only [Dev.underGuard, guardTrue_on hg]

theorem underGuard_run {d : Dev} (hs : s.issuing g) (hg : s.guardOn g gd) (hf : f s.clk s.dev g = .ok d) :
    s.onGroup (fun clk d gr => d.underGuard clk gr gd (f clk d)) = .next { s with dev := d } :=
  onGroup_ok hs ((underGuard_on hg).trans hf)

theorem underGuard_stops {st : Stop} (hs : s.issuing g) (hg : s.guardOn g gd) (hf : f s.clk s.dev g = .error st) :
    s.onGroup (fun clk d gr => d.underGuard clk gr gd (f clk d)) = .next { s with dev := s.dev.onStop s.clk g st } :=
  onGroup_stop hs ((underGuard_on hg).trans hf)

end

/-! `trap` (R346). -/

theorem takeTrap_inTrap {g : Group} (h : g.arch.k.inTrap = true) (d : Dev) (clk : Clock) (cause : Nat) (val pc : Word)
    (cmpl deferBit : Bool) : d.takeTrap clk g cause val pc cmpl deferBit = d.endGroup clk.fclk g cause val pc := by
  rw [Dev.takeTrap, if_pos h]

/-- A completed `trap` has the link as its boundary. -/
theorem execTrap_takes {s : State} {g : Group} {gd : Guard} {t : TailI} (hs : s.issuing g) (hg : s.guardOn g gd) :
    exec (.trap gd t) s = .next { s with dev := s.dev.takeTrap s.clk g cTRAP (t.imm.setWidth 64) g.link true false } :=
  onCur_stop hs (st := .trap cTRAP (t.imm.setWidth 64) (some g.link)) (guarded_stops hg (by rw [gm_bind_ok (gm_get _ _), gm_stop]))

theorem trap_wf_iff (gd : Guard) (t : TailI) :
    (Instr.trap gd t).wf = true ↔ gd.check.ok = true ∧ t.d = 0 ∧ t.a = 0 ∧ t.z = 0 := by
  simp [Instr.wf, fieldChecks, chkI, fld, Use.ok, BitVec.toNat_eq]

theorem trap_not_wf {gd : Guard} {t : TailI} (h : t.d ≠ 0 ∨ t.a ≠ 0) : (Instr.trap gd t).wf = false := by
  refine Bool.eq_false_iff.2 fun hwf => ?_
  obtain ⟨-, hd, ha, -⟩ := (trap_wf_iff gd t).1 hwf
  exact h.elim (· hd) (· ha)

theorem encode_trap (t : TailI) : encode (.trap ⟨false, 0⟩ t) = some (0xE140, t.toNat) := rfl

/-- The example of R346, `trap 0x55`. -/
theorem decode_trap_example : decode 0xE140 0x0000005500000000 = .ok (.trap ⟨false, 0⟩ ⟨0, 0, 0, 0x55⟩) := rfl

/-! The state that `kret` restores (R348). -/

theorem nbit_toNat {w : Nat} (x : BitVec w) (i : Nat) : nbit x.toNat i = x.getLsbD i :=
  Nat.testBit_eq_decide_div_mod_eq.symm

theorem getD_setIfInBounds {α : Type} {n i : Nat} (v : Vector α n) (x d : α) (hi : i < n) (j : Nat) :
    (v.setIfInBounds i x).toList.getD j d = if i = j then x else v.toList.getD j d := by
  rw [Vector.toList_setIfInBounds]
  by_cases h : i = j
  · subst h; simp [List.getD_eq_getElem?_getD, hi]
  · simp [List.getD_eq_getElem?_getD, h]

/-- Elements 1 to n, set one after another, hold what each was set to. -/
theorem getD_foldl_setIfInBounds {α : Type} {m n : Nat} (f : Nat → α) (v : Vector α m) (d : α) (hn : n < m) {i : Nat} (hi : i < n) :
    ((List.range n).foldl (fun (v : Vector α m) i => v.setIfInBounds (i + 1) (f i)) v).toList.getD (i + 1) d = f i := by
  induction n with
  | zero => omega
  | succ n ih =>
    rw [List.range_succ, List.foldl_append, List.foldl_cons, List.foldl_nil, getD_setIfInBounds _ _ _ hn]
    split
    · next h => rw [Nat.succ.inj h]
    · next h => exact ih (by omega) (by omega)

theorem qr_succ (a : Arch) (i : Nat) : a.qr (i + 1) = a.q.toList.getD (i + 1) true := by
  simp [Arch.qr]

section
variable (g : Group)

/-- Registers and memories that no clause of R348 names are as they were. -/
theorem leaveHandler_arch_frame : (leaveHandler g).arch = { g.arch with
    q := (leaveHandler g).arch.q, loops := (leaveHandler g).arch.loops, k := { g.arch.k with inTrap := false }, pc := g.arch.k.pc,
    mu := { g.arch.mu with halted := g.arch.mu.halted && g.arch.deferred.any (·.matrix) }
    relOuter := none, arrivedIn := false, joinedIn := false } := by
  simp only [leaveHandler]

theorem leaveHandler_frame (now : Nat) : ({ leaveHandler g with stall := .none, notBefore := now } : Group) =
    { g with arch := (leaveHandler g).arch, released := g.arch.relOuter, stall := .none, notBefore := now } := by
  simp only [leaveHandler]

theorem leaveHandler_qr {i : Nat} (hi : i < 7) : (leaveHandler g).arch.qr (i + 1) = g.arch.k.qsave.getLsbD i := by
  rw [qr_succ, ← nbit_toNat]
  exact getD_foldl_setIfInBounds (nbit g.arch.k.qsave.toNat) g.arch.q true (n := 7) (by decide) hi

theorem leaveHandler_loopAt_zero : (leaveHandler g).arch.loopAt 0 = g.arch.keptLoop 0 := by
  simp only [leaveHandler, Arch.loopAt, getD_setIfInBounds _ _ _ Nat.one_lt_two, getD_setIfInBounds _ _ _ Nat.two_pos,
    if_neg Nat.one_ne_zero, if_true]

theorem leaveHandler_loopAt_one : (leaveHandler g).arch.loopAt 1 = g.arch.keptLoop 1 := by
  simp only [leaveHandler, Arch.loopAt, getD_setIfInBounds _ _ _ Nat.one_lt_two, if_true]

end

/-- ACTIVE and INNER are bits 3:2 and 1:0 of LSAVE (R331). -/
theorem keptLoop_eq (a : Arch) {k : Nat} (hk : k < 2) :
    a.keptLoop k = { a.keptLoops[k] with active := a.k.lsave.getLsbD (2 + k), inner := a.k.lsave.getLsbD k } := by
  simp [Arch.keptLoop, nbit_toNat, hk]

/-! The outcomes of `kret` (R348, R179). -/

theorem lineHere_env_iff (d : Dev) (clk : Clock) (g : Group) (l : Nat) :
    g.lineHere (d.env clk g) l ↔ missesLine (d.othersOn g.core) g l = false := by
  have hothers : (d.env clk g).others = d.othersOn g.core := by unfold Dev.env; split <;> rfl
  rw [Group.lineHere, hothers]

/-- What `kret` does under a true guard. -/
def kretUnguarded (clk : Clock) (d : Dev) (g : Group) : Except Stop Dev :=
  if missesLine (d.othersOn g.core) g 4 then .error (.stall (.refill 4))
  else if missesLine (d.othersOn g.core) g 2 then .error (.stall (.refill 2))
  else if g.arch.k.inTrap then
    if validTarget g.arch.k.pc then
      .ok ((d.dropCaches g.core).setGroup { leaveHandler g with stall := .none, notBefore := clk.aclk + 1 })
    else .ok (d.endGroup clk.fclk g cILLEGAL_TARGET g.arch.k.pc g.arch.pc)
  else .error (.trap cILLEGAL_OPCODE 0xE200 none)

theorem exec_kret_eq_underGuard (gd : Guard) (s : State) :
    exec (.kret gd) s = s.onGroup fun clk d g => d.underGuard clk g gd (kretUnguarded clk d) := rfl

section
variable {s : State} {g : Group} {gd : Guard}

theorem execKret_without_trapLine (hs : s.issuing g) (hg : s.guardOn g gd) (h4 : ¬ g.lineHere (s.dev.env s.clk g) 4) :
    exec (.kret gd) s = .next { s with dev := s.dev.onStop s.clk g (.stall (.refill 4)) } := by
  rw [lineHere_env_iff] at h4
  rw [exec_kret_eq_underGuard]
  exact underGuard_stops hs hg (by simp [kretUnguarded, h4])

theorem execKret_without_predicateLine (hs : s.issuing g) (hg : s.guardOn g gd) (h4 : g.lineHere (s.dev.env s.clk g) 4)
    (h2 : ¬ g.lineHere (s.dev.env s.clk g) 2) :
    exec (.kret gd) s = .next { s with dev := s.dev.onStop s.clk g (.stall (.refill 2)) } := by
  rw [lineHere_env_iff] at h4 h2
  rw [exec_kret_eq_underGuard]
  exact underGuard_stops hs hg (by simp [kretUnguarded, h4, h2])

section
variable (hs : s.issuing g) (hg : s.guardOn g gd) (h4 : g.lineHere (s.dev.env s.clk g) 4) (h2 : g.lineHere (s.dev.env s.clk g) 2)
include hs hg h4 h2

theorem execKret_outside (hin : g.arch.k.inTrap = false) :
    exec (.kret gd) s = .next { s with dev := s.dev.takeTrap s.clk g cILLEGAL_OPCODE 0xE200 g.arch.pc false false } := by
  rw [lineHere_env_iff] at h4 h2
  rw [exec_kret_eq_underGuard]
  exact underGuard_stops hs hg (st := .trap cILLEGAL_OPCODE 0xE200 none) (by simp [kretUnguarded, h4, h2, hin])

theorem execKret_invalid (hin : g.arch.k.inTrap = true) (hv : validTarget g.arch.k.pc = false) :
    exec (.kret gd) s = .next { s with dev := s.dev.endGroup s.clk.fclk g cILLEGAL_TARGET g.arch.k.pc g.arch.pc } := by
  rw [lineHere_env_iff] at h4 h2
  rw [exec_kret_eq_underGuard]
  exact underGuard_run hs hg (by simp [kretUnguarded, h4, h2, hin, hv])

theorem execKret_returns (hin : g.arch.k.inTrap = true) (hv : validTarget g.arch.k.pc = true) :
    exec (.kret gd) s = .next { s with
      dev := (s.dev.dropCaches g.core).setGroup { leaveHandler g with stall := .none, notBefore := s.clk.aclk + 1 } } := by
  rw [lineHere_env_iff] at h4 h2
  rw [exec_kret_eq_underGuard]
  exact underGuard_run hs hg (by simp [kretUnguarded, h4, h2, hin, hv])

end

end

/-- Settles O31: `trap` by its one outcome, `kret` by the five of R348; what a return leaves is `leaveHandler`. -/
theorem trapAndReturn : Obligations.TrapAndReturn := by
  intro s g gd t core hs hg _
  have htrap := execTrap_takes (t := t) hs hg
  refine ⟨htrap, fun hin => takeTrap_inTrap hin s.dev .. ▸ htrap, trap_not_wf, fun _ _ _ => ⟨_, encode_trap t⟩, decode_trap_example,
    execKret_without_trapLine hs hg, execKret_without_predicateLine hs hg,
    fun ⟨h4, h2⟩ => execKret_outside hs hg h4 h2, fun ⟨h4, h2⟩ => execKret_invalid hs hg h4 h2, fun ⟨h4, h2⟩ hin hv => ?returns⟩
  case returns =>
    refine ⟨_, execKret_returns hs hg h4 h2 hin hv, fun i hi => leaveHandler_qr g hi, ?_, ?_, rfl, rfl,
      leaveHandler_arch_frame g, leaveHandler_frame g _⟩
    · exact (leaveHandler_loopAt_zero g).trans (keptLoop_eq g.arch Nat.two_pos)
    · exact (leaveHandler_loopAt_one g).trans (keptLoop_eq g.arch Nat.one_lt_two)

end Sys2Proof.Machine
end
